-- ==== Sys2Proof/Word.lean ====
section
/-! DEFINITION. The words AMDTP-PE moves (00_scope.md R9): the byte and the quadlet. -/

namespace Sys2Proof

/-- A byte is 8 bits (R9). -/
abbrev Byte := BitVec 8

/-- A quadlet is 32 bits, bit 31 the most significant (R9). -/
abbrev Quadlet := BitVec 32

end Sys2Proof
end

