-- ==== Sys2Proof/Config.lean ====
section
/-! DEFINITION. The numbers the spec fixes (00_scope.md R6, R7), the parameters it leaves open (R7, OPEN), and the
free values of the model. -/

namespace Sys2Proof

/-- The entries of the packet buffer ring and the capacity of the hardware queue (R6, 10_state.md R43). -/
def Config.queueLength : Nat := 48

/-- Ticks in one bus cycle (R6). -/
def Config.ticksPerCycle : Nat := 3072

/-- Ticks in one second (R6): 3072 ticks in each of 8000 cycles. -/
def Config.ticksPerSecond : Nat := 24576000

/-- Half the counter range (R6, 44_receive.md R257). -/
def Config.reorderThreshold : Nat := 128

/-- The default of `transfer_delay_base`, in ticks (R7, D19). -/
def Config.transferDelayDefault : Nat := 11776

/-- The most PCM channels of a stream (R7, D21). -/
def Config.pcmChannelsMax : Nat := 64

/-- The most MIDI ports of a stream (R7, D21). -/
def Config.midiPortsMax : Nat := 8

/-- The SYT field's "no information" (R6, 30_encoding.md R94). -/
def Config.sytNoInfo : BitVec 16 := 0xFFFF

/-- Byte order of a host sample (R7, OPEN, D8). -/
inductive ByteOrder
  | little
  | big
deriving DecidableEq, Repr

/-- The open parameters a model takes as arguments (R7), `N_STREAMS` apart, which is the number of stream contexts.
No operation writes them. -/
structure Params where
  /-- `REORDER_HOLD`, 0 to `QUEUE_LENGTH` (R7, OPEN, D29). -/
  reorderHold : Fin (Config.queueLength + 1)
  /-- `HOST_BYTE_ORDER` (R7, OPEN, D8). -/
  hostByteOrder : ByteOrder
deriving DecidableEq, Repr

/-- What a byte nobody has written reads as: a FREE VALUE (93_implementation_defined.md U7 and U14, "any value").
`epoch` numbers the pool allocation or the sample-buffer binding, `address` is the byte's address in it. No body: no
proof can see the value. DESIGN CHOICE, log entry 7. -/
opaque Config.unwrittenByte (epoch address : Nat) : Byte

/-- What `packet_index` holds while it is invalid: a FREE VALUE (10_state.md R36, "unspecified";
93_implementation_defined.md U9, "any value"). `epoch` numbers the run of the stream that left it, by the run's pool
allocation. No body: no proof can see the value. DESIGN CHOICE, log entry 25. -/
opaque Config.staleIndex (epoch : Nat) : BitVec 6

end Sys2Proof
end

