-- ==== Sys2Proof/Machine/Bytes.lean ====
section
/-! DEFINITION. Byte order, decided once: quadlets are big-endian in the pool and on the wire (20_memory.md R67, D7);
host samples follow `HOST_BYTE_ORDER` (R64, R68, D8). -/

namespace Sys2Proof.Machine

/-- The four bytes of a quadlet, most significant first (R67). -/
def quadletBytes (q : Quadlet) : List Byte :=
  [q.extractLsb' 24 8, q.extractLsb' 16 8, q.extractLsb' 8 8, q.extractLsb' 0 8]

/-- The quadlet that four bytes make, the first the most significant (R67). -/
def quadletOf (a b c d : Byte) : Quadlet :=
  (a.setWidth 32 <<< 24) ||| (b.setWidth 32 <<< 16) ||| (c.setWidth 32 <<< 8) ||| d.setWidth 32

/-- The 16-bit field that two bytes make, the first the more significant (R67). -/
def sytOf (a b : Byte) : BitVec 16 := (a.setWidth 16 <<< 8) ||| b.setWidth 16

/-- Quadlet `k` of a byte string (30_encoding.md R90): the bytes `4k` to `4k+3`. A byte beyond the string's end does
not exist in the spec; the operations that read a string check its length first (Machine/Operands.lean). -/
def quadletAt (bytes : List Byte) (k : Nat) : Quadlet :=
  quadletOf (bytes.getD (4 * k) 0) (bytes.getD (4 * k + 1) 0) (bytes.getD (4 * k + 2) 0) (bytes.getD (4 * k + 3) 0)

/-- `n` bytes of a natural, least significant first. -/
def leBytes : Nat → Nat → List Byte
  | 0, _ => []
  | n + 1, v => BitVec.ofNat 8 v :: leBytes n (v / 256)

/-- The natural whose bytes, least significant first, are given. -/
def ofLeBytes : List Byte → Nat
  | [] => 0
  | b :: bs => b.toNat + 256 * ofLeBytes bs

/-- The `n` bytes of a host sample of value `v`, in the host's byte order (R64). -/
def sampleBytes (order : ByteOrder) (n v : Nat) : List Byte :=
  match order with
  | .little => leBytes n v
  | .big => (leBytes n v).reverse

/-- The unsigned value of a host sample's bytes (R64). -/
def sampleValue (order : ByteOrder) (bytes : List Byte) : Nat :=
  match order with
  | .little => ofLeBytes bytes
  | .big => ofLeBytes bytes.reverse

end Sys2Proof.Machine
end

