-- ==== Sys2Proof/Syntax.lean ====
section
/-! DEFINITION. The operations of AMDTP-PE and the words of its wire formats: one constructor per row of
spec/opcode_table.json (30_encoding.md R110; R91 to R104 for the wire formats), and what the environment presents. -/

namespace Sys2Proof

/-- Send or Receive (10_state.md R25). -/
inductive Direction
  | send
  | receive
deriving DecidableEq, Repr

/-- The codec's sample formats (10_state.md R29). -/
inductive SampleFormat
  | s16
  | s32
deriving DecidableEq, Repr

/-- A sample-buffer binding: its sizes in frames (10_state.md R45). -/
structure Binding where
  bufferSize : Nat
  periodSize : Nat
deriving DecidableEq, Repr

/-- One constructor per row of spec/opcode_table.json. Operands are named values (30_encoding.md R110); a natural
operand is a `Nat`, checked against R112 where the operation is presented. -/
inductive Instr
  -- configuration (40_tables_config.md)
  | init (s : Nat) (direction : Direction)
  | destroy (s : Nat)
  | setParams (s rate pcmChannels midiPorts : Nat) (blocking dualWire : Bool)
  | setPcmPosition (s c slot : Nat)
  | setMidiPosition (s slot : Nat)
  | setPcmFormat (s : Nat) (format : SampleFormat)
  | setTransferDelay (s ticks : Nat)
  | setSync (m : Nat) (t : Option Nat)
  -- lifecycle (45_lifecycle_sync.md)
  | start (s channel speed nodeId : Nat) (resOk : Bool) (qfail : Option Nat)
  | stop (s : Nat)
  | busReset
  | update (s nodeId : Nat)
  | updateFail (s : Nat)
  | startTimeout (s : Nat)
  | status (s : Nat)
  -- bindings (45_lifecycle_sync.md)
  | pcmPrepare (s : Nat)
  | pcmBind (s : Nat) (binding : Option Binding)
  | pcmPointer (s : Nat)
  | midiBind (s p : Nat) (bound : Bool)
  | midiPush (s p : Nat) (byte : Byte)
  -- events (43_transmit.md, 44_receive.md, 45_lifecycle_sync.md)
  | txComplete (s cycle count : Nat) (qfail : Option Nat)
  | rxComplete (s cycle : Nat) (batch : List (List Byte)) (qfail : Option Nat)
  | periodNotify (s : Nat)
  -- wire formats (30_encoding.md): a field for every bit the row leaves open
  | cipQ0 (sid : BitVec 6) (dbs dbc : Byte)
  | cipQ1 (sfc : BitVec 3) (syt : BitVec 16)
  | cipQ1RxMatch (form : BitVec 1) (fdf : Byte) (syt : BitVec 16)
  | cipQ1NoData (form : BitVec 1) (syt : BitVec 16)
  | sytNoInfo
  | sytTimestamp (cycle4 : BitVec 4) (offset : BitVec 12)
  | am824Pcm (sample24 : BitVec 24)
  | am824MidiNoData (low : BitVec 24)
  | am824Midi1 (byte1 : Byte) (low : BitVec 16)
  | am824Midi2 (byte1 byte2 low : Byte)
  | am824Midi3 (byte1 byte2 byte3 : Byte)
deriving DecidableEq, Repr

/-- What an agent presents to the block. `operation` is an operation's selector byte and operand bytes (DESIGN CHOICE,
log entry 2); `wire` is one word of a wire format, its bytes in wire order (DESIGN CHOICE, log entry 3); `hostStore`
is the host writing one byte of the bound sample buffer of stream `s` (20_memory.md R60; DESIGN CHOICE, log entry 8).
-/
inductive Input
  | operation (bytes : List Byte)
  | wire (bytes : List Byte)
  | hostStore (s address : Nat) (byte : Byte)
deriving DecidableEq, Repr

end Sys2Proof
end

