-- ==== Sys2Proof/Machine/State.lean ====
section
/-! DEFINITION. The architectural state of AMDTP-PE (10_state.md R20 to R47), its reset values (R50,
70_reset_and_hazards.md R380), and the reasons a step can stop. -/

namespace Sys2Proof.Machine

/-- The lifecycle state of a stream (10_state.md R21, R23), encoded 0 to 4 in this order. -/
inductive LifeState
  | absent
  | idle
  | configured
  | running
  | recovering
deriving DecidableEq, Repr

/-- Result codes 0 to 6 (60_exceptions.md R340). Code 7 is reserved and never returned. -/
inductive Code
  | ok
  | errState
  | errParam
  | errResource
  | errQueue
  | errTimeout
  | errDisconnect
deriving DecidableEq, Repr

/-- Sparse bytes by address in canonical form: addresses strictly rising. An address that is not listed holds no stored
byte; what it reads as is a free value (DESIGN CHOICE, log entry 7). -/
abbrev Memory := List Host.Cell

/-- The canonical form: strictly rising addresses, so that equal memories are equal lists. -/
abbrev Memory.wf (m : Memory) : Prop := m.Pairwise fun x y => x.1 < y.1

/-- A descriptor of the hardware queue (10_state.md R43). -/
inductive Descriptor
  | skip
  | tx (bytes : List Byte)
  | rx (slot : Nat)
deriving DecidableEq, Repr

/-- A reorder entry (10_state.md R44, 44_receive.md R255), with its payload bytes; its `len` is their number. -/
structure Entry where
  id : BitVec 32
  dbc : BitVec 8
  bytes : List Byte
deriving DecidableEq, Repr

/-- A MIDI port of a stream (10_state.md R46): the binding, the consumer's FIFO `midi_out` and the trace `midi_in`. -/
structure MidiPort where
  bound : Bool
  out : List Byte
  received : List Byte
deriving DecidableEq, Repr

/-- An item of the trace `notify` (45_lifecycle_sync.md R314). -/
inductive Notice
  | periodElapsed
deriving DecidableEq, Repr

/-- The context `S[s]` of one stream: the register file of R21 in its order, then the memories, queues, bindings and
traces of R40 to R47. `poolEpoch` and `pcmEpoch` are the model's own (DESIGN CHOICE, log entry 7). -/
structure Context where
  state : LifeState
  direction : Direction
  blocking : Bool
  dualWire : Bool
  sfc : BitVec 3
  sytInterval : BitVec 6
  pcmChannels : BitVec 7
  midiPorts : BitVec 4
  dataBlockQuadlets : BitVec 8
  pcmPositions : Vector (BitVec 8) 64
  midiPosition : BitVec 8
  pcmFormat : SampleFormat
  transferDelayBase : BitVec 16
  transferDelay : BitVec 17
  syncSlave : Option Nat
  channel : BitVec 6
  speed : BitVec 3
  sourceNodeId : BitVec 6
  dbc : BitVec 8
  lastSytOffset : BitVec 13
  dataBlockState : BitVec 7
  sytOffsetState : BitVec 12
  pcmBufferPointer : BitVec 32
  pcmPeriodPointer : BitVec 32
  packetIndex : BitVec 6
  packetIndexValid : Bool
  callbacked : Bool
  periodPending : Bool
  lastError : Code
  protoViolations : BitVec 32
  rxSeq : BitVec 32
  /-- `pool_allocated` (R41). -/
  poolAllocated : Bool
  /-- `POOL[s]`, slot `i` at addresses `i * BUFSZ` (R40, 20_memory.md R61). -/
  pool : Memory
  poolEpoch : Nat
  /-- `ctx`: the isochronous queue context is present (R42). -/
  isoContext : Bool
  hwq : List Descriptor
  flushed : Nat
  carry : List Entry
  pcm : Option Binding
  /-- `PCM[s]`, the host sample buffer (20_memory.md R64). -/
  pcmMemory : Memory
  pcmEpoch : Nat
  midi : Vector MidiPort 8
  wire : List Descriptor
  notices : List Notice
  aborts : List Code
deriving DecidableEq, Repr

/-- What the receive side reads from one word of a wire format (30_encoding.md R103 (i)). The model's own (DESIGN
CHOICE, log entry 3). -/
inductive WireReading
  | violation
  | headerQ0 (dbc : BitVec 8)
  | headerQ1 (fdf : BitVec 8) (syt : BitVec 16)
  | noData
  | noTimestamp
  | timestamp (cycle4 : BitVec 4) (offset : BitVec 12)
  | sample (x : BitVec 32)
  | midi (bytes : List Byte)
deriving DecidableEq, Repr

/-- What an operation returns: nothing (an event), a result code (60_exceptions.md R340), STATUS's four values
(45_lifecycle_sync.md R316), or `(OK, pointer)` (R312). `reading` is the model's own (DESIGN CHOICE, log entry 3). -/
inductive Response
  | none
  | code (c : Code)
  | status (state : LifeState) (packetIndexValid : Bool) (lastError : Code) (protoViolations : BitVec 32)
  | pointer (value : BitVec 32)
  | reading (r : WireReading)
deriving DecidableEq, Repr

/-- The whole state: the stream contexts (`N_STREAMS` is their number), the open parameters (DESIGN CHOICE, log entry
5), the model's allocation counter (DESIGN CHOICE, log entry 7), what the environment presents next (DESIGN CHOICE,
log entry 1) and the latest response (DESIGN CHOICE, log entry 4). -/
structure State where
  params : Params
  streams : List Context
  allocations : Nat
  inbox : List Input
  response : Response
deriving DecidableEq, Repr

/-- Why a step stops although the operation was presented properly. Safe: a run that reaches one proves nothing. -/
inductive Fault
  /-- Raised by TX_COMPLETE and RX_COMPLETE in a state in which the engine would reach outside the pool slot, the
  sample buffer or a queue (20_memory.md R61, R64, R69: no such address). Safe; no state reached from reset has it. -/
  | accessOutsideSpace
  /-- Raised by START when `sfc` is 7, for which the tables have no entry (30_encoding.md R100). Safe; never reached
  from reset. -/
  | reservedRate
deriving DecidableEq, Repr

/-- Why a step is refused: the spec says the environment may not present this (00_scope.md R13). All safe. -/
inductive Refusal
  /-- Raised by `exec` for an instruction without a meaning. Safe. -/
  | notModelled (mnemonic : String)
  /-- Raised by `step`: the selector is none of the 23 (30_encoding.md R111). Safe. -/
  | unknownSelector (op : Nat)
  /-- Raised by `step`: the bytes are no record of an operation, or a word of no wire format (DESIGN CHOICE, log entry
  2). Safe. -/
  | undecodable
  /-- Raised by every operation: an operand is outside its range (R112). Safe. -/
  | operandRange
  /-- Raised by the events: not admitted in this state (70_reset_and_hazards.md R392). Safe. -/
  | notAdmitted
  /-- Raised by `step`: a host store to an address that `PCM[s]` does not have (20_memory.md R64). Safe. -/
  | hostStoreOutside
deriving DecidableEq, Repr

/-- What one operation does. -/
abbrev Result := Host.Outcome State Fault Refusal

/-- A MIDI port after reset (10_state.md R50). -/
def MidiPort.reset : MidiPort := { bound := false, out := [], received := [] }

/-- A stream context after reset: the values of R50; every register R50 leaves unspecified is zero (DESIGN CHOICE, log
entry 6). -/
def Context.reset : Context where
  state := .absent
  direction := .send
  blocking := false
  dualWire := false
  sfc := 0
  sytInterval := 0
  pcmChannels := 0
  midiPorts := 0
  dataBlockQuadlets := 0
  pcmPositions := Vector.replicate 64 0
  midiPosition := 0
  pcmFormat := .s16
  transferDelayBase := 0
  transferDelay := 0
  syncSlave := none
  channel := 0
  speed := 0
  sourceNodeId := 0
  dbc := 0
  lastSytOffset := 0
  dataBlockState := 0
  sytOffsetState := 0
  pcmBufferPointer := 0
  pcmPeriodPointer := 0
  packetIndex := 0
  packetIndexValid := false
  callbacked := false
  periodPending := false
  lastError := .ok
  protoViolations := 0
  rxSeq := 0
  poolAllocated := false
  pool := []
  poolEpoch := 0
  isoContext := false
  hwq := []
  flushed := 0
  carry := []
  pcm := none
  pcmMemory := []
  pcmEpoch := 0
  midi := Vector.replicate 8 MidiPort.reset
  wire := []
  notices := []
  aborts := []

/-- The state after hardware reset of a block with `n` streams, at least one (00_scope.md R7), and parameters `p` (R50,
R380). -/
def State.resetWith (n : Nat) (_ : 1 ≤ n) (p : Params) : State where
  params := p
  streams := List.replicate n Context.reset
  allocations := 0
  inbox := []
  response := .none

/-- The state after hardware reset, with the parameters the spec's vectors use (95_test_vectors.md; DESIGN CHOICE, log
entry 5). -/
def State.reset : State := State.resetWith 2 (by decide) { reorderHold := 0, hostByteOrder := .little }

end Sys2Proof.Machine
end

