-- ==== Sys2Proof/Machine/Ops.lean ====
section
/-! DEFINITION. The named operations over the state: memory, the stream contexts, the hardware queue, responses, and
the fatal stop (60_exceptions.md R345), which is this block's one exception: every fatal condition runs it. There is no
return from it (R347); a host recovers a stream with SET_PARAMS and START. -/

namespace Sys2Proof.Machine

/-! ### Memory -/

/-- The stored byte at an address, if there is one. -/
def Memory.read? : Memory → Nat → Option Byte
  | [], _ => none
  | (k, v) :: m, a => if k = a then some v else Memory.read? m a

/-- Store one byte. -/
def Memory.write : Memory → Nat → Byte → Memory
  | [], a, b => [(a, b)]
  | (k, v) :: m, a, b =>
    if a < k then (a, b) :: (k, v) :: m
    else if a = k then (a, b) :: m
    else (k, v) :: Memory.write m a b

/-- Store bytes at rising addresses from `a`, in order. -/
def Memory.writeBytes : Memory → Nat → List Byte → Memory
  | m, _, [] => m
  | m, a, b :: bs => Memory.writeBytes (Memory.write m a b) (a + 1) bs

/-- The byte an address reads as: the stored byte, or the free value of a byte nobody has written (DESIGN CHOICE, log
entry 7). -/
def Memory.byte (m : Memory) (epoch a : Nat) : Byte := (m.read? a).getD (Config.unwrittenByte epoch a)

/-- `n` bytes from address `a`, in rising order (00_scope.md R12, `MemRead`). -/
def Memory.bytes (m : Memory) (epoch a n : Nat) : List Byte := (List.range n).map fun k => m.byte epoch (a + k)

/-! ### Stream contexts and responses -/

/-- The context `S[s]` (R11). An index outside the block reads as a context after reset. -/
def State.stream (σ : State) (s : Nat) : Context := σ.streams.getD s Context.reset

/-- Replace the context `S[s]`. -/
def State.setStream (σ : State) (s : Nat) (c : Context) : State := { σ with streams := σ.streams.set s c }

/-- What the operation returns. -/
def State.respond (σ : State) (r : Response) : State := { σ with response := r }

/-- A command's end: `return code` (R13). -/
def State.reply (σ : State) (c : Code) : Result := .next (σ.respond (.code c))

/-- An event's end: it has no result (43_transmit.md R220). -/
def State.noResult (σ : State) : Result := .next (σ.respond .none)

/-- Take the next number for a fresh memory (DESIGN CHOICE, log entry 7). -/
def State.allocate (σ : State) : State := { σ with allocations := σ.allocations + 1 }

/-- Run `k` on `S[s]`, or refuse an index outside `[0, N_STREAMS)` (30_encoding.md R112). -/
def onStream (s : Nat) (σ : State) (k : Context → Result) : Result :=
  if s < σ.streams.length then k (σ.stream s) else .refused .operandRange

/-- A stream is active when it is Running or Recovering, stopped otherwise (10_state.md R23). -/
def LifeState.active : LifeState → Bool
  | .running => true
  | .recovering => true
  | _ => false

def Context.active (c : Context) : Bool := c.state.active

/-- Idle or Configured: the states in which a stream may be parameterized (40_tables_config.md R136). -/
def Context.settable (c : Context) : Bool := c.state == .idle || c.state == .configured

/-- `is_slave(t)`: some stream names `t` as its slave (10_state.md R33). -/
def State.isSlave (σ : State) (t : Nat) : Bool := σ.streams.any fun c => c.syncSlave == some t

/-! ### Sizes and memories of a stream -/

/-- `BUFSZ(s) = 8 + syt_interval * data_block_quadlets * 4` (10_state.md R40). -/
def Context.bufSize (c : Context) : Nat := 8 + c.sytInterval.toNat * c.dataBlockQuadlets.toNat * 4

/-- Frames per data block `FPB(s)` (41_codec.md R164). -/
def Context.framesPerBlock (c : Context) : Nat := if c.dualWire then 2 else 1

/-- `pcm_slots` (10_state.md R27). -/
def Context.pcmSlotCount (c : Context) : Nat := c.pcmChannels.toNat * c.framesPerBlock

/-- `bps`, the bytes of a host sample (20_memory.md R60). -/
def Context.sampleSize (c : Context) : Nat :=
  match c.pcmFormat with
  | .s16 => 2
  | .s32 => 4

/-- The byte offset of channel `ch` of frame `f` (R64). -/
def Context.sampleAddress (c : Context) (f ch : Nat) : Nat := (f * c.pcmChannels.toNat + ch) * c.sampleSize

/-- The channel count that bounds the frames of a bound buffer: `pcm_channels` where SET_PARAMS has written it, which is
on a Configured or active stream. A buffer can be bound on an Idle stream too (45_lifecycle_sync.md R311), whose
`pcm_channels` is unspecified and must not be read (10_state.md R52; 45_lifecycle_sync.md R291;
93_implementation_defined.md U8): there every frame is taken to be as wide as the widest, `PCM_CHANNELS_MAX`, so that no
store is refused that some channel count allows. DESIGN CHOICE, log entry 26. -/
def Context.frameChannels (c : Context) : Nat :=
  if c.state = .configured ∨ c.active = true then c.pcmChannels.toNat else Config.pcmChannelsMax

/-- The size of `PCM[s]` in bytes; it exists only while a buffer is bound (R60, R64). On an Idle stream it is the largest
size the buffer can have (DESIGN CHOICE, log entry 26). -/
def Context.pcmSize (c : Context) : Nat :=
  match c.pcm with
  | none => 0
  | some b => b.bufferSize * c.frameChannels * c.sampleSize

/-- One byte of `PCM[s]`. -/
def Context.pcmByte (c : Context) (a : Nat) : Byte := c.pcmMemory.byte c.pcmEpoch a

/-- One byte of `POOL[s]` by its flat address (R61). -/
def Context.poolByte (c : Context) (a : Nat) : Byte := c.pool.byte c.poolEpoch a

/-- The first byte of pool slot `i` (R61). -/
def Context.slotBase (c : Context) (i : Nat) : Nat := i * c.bufSize

/-- Store quadlets in pool slot `i`: `PoolQ(s, i, k) <- q` for each `(k, q)`, in order (R12, R67). -/
def Context.writeSlot (c : Context) (i : Nat) (ws : List (Nat × Quadlet)) : Context :=
  { c with pool := ws.foldl (fun m w => m.writeBytes (c.slotBase i + 4 * w.1) (quadletBytes w.2)) c.pool }

/-- Bytes `0` to `n - 1` of pool slot `i`. -/
def Context.slotBytes (c : Context) (i n : Nat) : List Byte := c.pool.bytes c.poolEpoch (c.slotBase i) n

/-! ### MIDI ports -/

/-- Port `p` of a stream's eight. -/
def portOf (ports : Vector MidiPort 8) (p : Nat) : MidiPort := ports[p]?.getD MidiPort.reset

def setPort (ports : Vector MidiPort 8) (p : Nat) (x : MidiPort) : Vector MidiPort 8 := ports.setIfInBounds p x

/-- All ports unbound, the FIFOs and traces kept (40_tables_config.md R135). -/
def unbindPorts (ports : Vector MidiPort 8) : Vector MidiPort 8 :=
  (List.range 8).foldl (fun v p => setPort v p { portOf v p with bound := false }) ports

/-- All ports unbound and every `midi_out` emptied; the trace `midi_in` is kept (45_lifecycle_sync.md R295). -/
def detachPorts (ports : Vector MidiPort 8) : Vector MidiPort 8 :=
  (List.range 8).foldl (fun v p => setPort v p { portOf v p with bound := false, out := [] }) ports

/-! ### The hardware queue (10_state.md R43, 20_memory.md R79) -/

/-- `queue()` fails when the oracle names this call or the queue is full (R43; 30_encoding.md R112: `k` counts the
calls of the operation from 0, over all streams it queues on). -/
def Context.queueFails (c : Context) (qfail : Option Nat) (k : Nat) : Bool :=
  qfail == some k || decide (Config.queueLength ≤ c.hwq.length)

/-- A `queue()` that succeeds: the descriptor joins the tail and `packet_index` advances (R36, R43). -/
def Context.enqueue (c : Context) (d : Descriptor) : Context :=
  { c with
    hwq := c.hwq ++ [d]
    packetIndex := BitVec.ofNat 6 ((c.packetIndex.toNat + 1) % Config.queueLength) }

/-- `queue_flush(s)`: every queued descriptor becomes visible to the hardware (43_transmit.md R221). -/
def Context.queueFlush (c : Context) : Context := { c with flushed := c.hwq.length }

/-! ### The fatal stop -/

/-- TEARDOWN (45_lifecycle_sync.md R296): the context goes, the queued descriptors and carried entries are discarded,
the pool is released and its contents are lost. -/
def Context.teardown (c : Context) : Context :=
  { c with isoContext := false, hwq := [], flushed := 0, carry := [], poolAllocated := false, pool := [] }

/-- Detach the sample buffer and the MIDI ports (45_lifecycle_sync.md R295, 60_exceptions.md R345). -/
def Context.detach (c : Context) : Context := { c with pcm := none, midi := detachPorts c.midi }

/-- FATAL_STOP (60_exceptions.md R345), what `raise Fatal(s, code)` runs: nothing on a stopped stream; else the packet
index is invalid and so unspecified (10_state.md R36, DESIGN CHOICE, log entry 25), a bound buffer's abort is reported
with the code, the bindings are detached, the stream is torn down, `last_error` keeps the code and the stream is Idle.
-/
def Context.fatalStop (c : Context) (code : Code) : Context :=
  if c.active then
    { c.detach.teardown with
      packetIndexValid := false
      packetIndex := Config.staleIndex c.poolEpoch
      aborts := if c.pcm.isSome then c.aborts ++ [code] else c.aborts
      periodPending := false
      lastError := code
      state := .idle }
  else c

/-- Queue `n` descriptors one after another, the first being call `k` of the operation; a failure is fatal and ends the
queueing, a success ends with a flush. The code is what a command returns (45_lifecycle_sync.md R293; 44_receive.md
R270). -/
def Context.queueEach (mk : Context → Descriptor) (qfail : Option Nat) : Nat → Nat → Context → Context × Code
  | 0, _, c => (c.queueFlush, .ok)
  | n + 1, k, c =>
    if c.queueFails qfail k then (c.fatalStop .errQueue, .errQueue)
    else Context.queueEach mk qfail n (k + 1) (c.enqueue (mk c))

/-- The receive buffer at the packet index (44_receive.md R270). -/
def Context.rxDescriptor (c : Context) : Descriptor := .rx c.packetIndex.toNat

end Sys2Proof.Machine
end

