-- ==== Sys2Proof/Machine/Operands.lean ====
section
/-! DEFINITION. What the interface checks before an operation runs: operand ranges (30_encoding.md R112), admission of
events (70_reset_and_hazards.md R392), the position maps (40_tables_config.md R138), and that the engine's accesses
exist (20_memory.md R61, R64, R69; DEDUCED, log entry 10). -/

namespace Sys2Proof.Machine

/-- Refuse an operand outside its range (R112, R13). -/
def guardRange (ok : Bool) (r : Result) : Result := if ok then r else .refused .operandRange

/-- Refuse an event that is not admitted (R392, R13). -/
def guardAdmitted (ok : Bool) (r : Result) : Result := if ok then r else .refused .notAdmitted

/-- Stop where the engine would leave its spaces (DEDUCED, log entry 10). -/
def guardAccess (ok : Bool) (r : Result) : Result := if ok then r else .fault .accessOutsideSpace

/-! ### Position maps -/

/-- `pcm_positions[ch]` (10_state.md R28). -/
def Context.position (c : Context) (ch : Nat) : Nat := (c.pcmPositions[ch]?.getD 0).toNat

/-- The wire slots of host channel `ch` in a data block, each with the frame of the block it carries (10_state.md R28,
41_codec.md R165, R166). -/
def Context.channelSlots (c : Context) (ch : Nat) : List (Nat × Nat) :=
  if c.dualWire then [(2 * c.position ch, 0), (2 * c.position ch + 1, 1)] else [(c.position ch, 0)]

/-- The wire slots the maps name (R138). -/
def Context.namedSlots (c : Context) : List Nat :=
  ((List.range c.pcmChannels.toNat).flatMap fun ch => (c.channelSlots ch).map Prod.fst) ++
    (if 0 < c.midiPorts.toNat then [c.midiPosition.toNat] else [])

/-- `maps_ok(s)` (R138): the named slots are pairwise distinct and all below `data_block_quadlets`. -/
def Context.mapsOk (c : Context) : Bool :=
  decide c.namedSlots.Nodup && c.namedSlots.all fun k => decide (k < c.dataBlockQuadlets.toNat)

/-! ### Admission (R392) -/

/-- TX_COMPLETE is admitted on an active Send stream, for no more descriptors than were flushed. -/
def Context.admitsTx (c : Context) (count : Nat) : Bool :=
  c.active && c.direction == .send && decide (count ≤ c.flushed)

/-- RX_COMPLETE is admitted on an active Receive stream, for no more packets than were flushed, each of a length that
is a multiple of 4 and fits a pool slot (44_receive.md R251). -/
def Context.admitsRx (c : Context) (batch : List (List Byte)) : Bool :=
  c.active && c.direction == .receive && decide (batch.length ≤ c.flushed) &&
    batch.all fun p => decide (p.length % 4 = 0) && decide (p.length ≤ c.bufSize)

/-- START_TIMEOUT is admitted on an active stream that has had no callback. -/
def Context.admitsTimeout (c : Context) : Bool := c.active && !c.callbacked

/-- PERIOD_NOTIFY is admitted while a notification is pending. -/
def Context.admitsNotify (c : Context) : Bool := c.periodPending

/-! ### Accesses that exist (DEDUCED, log entry 10) -/

/-- The most data blocks DBGEN can return from here (42_scheduler.md R191, R192). -/
def Context.maxBlocks (c : Context) : Nat :=
  if c.sfc.toNat % 2 = 0 then c.dataBlockState.toNat
  else if c.sfc.toNat = 1 then 6
  else 11 * (c.sfc.toNat >>> 1) + 1

/-- What both engines need: a pool, slots inside it, maps inside a data block, buffer sizes that are no 0, and a flushed
part that is part of the queue (10_state.md R36, R43; 20_memory.md R61, R64). -/
def Context.engineFits (c : Context) : Bool :=
  c.poolAllocated && decide (c.packetIndex.toNat < Config.queueLength) &&
    decide (c.pcmChannels.toNat ≤ Config.pcmChannelsMax) && decide (1 ≤ c.dataBlockQuadlets.toNat) && c.mapsOk &&
    decide (c.flushed ≤ c.hwq.length) &&
    c.pcm.all fun b => decide (1 ≤ b.bufferSize) && decide (1 ≤ b.periodSize)

/-- A packet of this Send stream fits its pool slot (42_scheduler.md R196). -/
def Context.txFits (c : Context) : Bool := c.engineFits && decide (c.maxBlocks ≤ c.sytInterval.toNat)

/-- A receive descriptor that names a slot of the pool. -/
def Descriptor.isReceiveSlot : Descriptor → Bool
  | .rx slot => decide (slot < Config.queueLength)
  | _ => false

/-- The batch's descriptors are receive slots, carried entries have a header, and a bound buffer holds 32-bit samples
(44_receive.md R250; 41_codec.md R168). -/
def Context.rxFits (c : Context) (count : Nat) : Bool :=
  c.engineFits && (c.hwq.take count).all Descriptor.isReceiveSlot &&
    (c.carry.all fun e => decide (8 ≤ e.bytes.length)) && (c.pcm.isNone || c.pcmFormat == .s32)

/-- A master may drive this stream: active, its packet index valid, its first own callback seen (44_receive.md R265). -/
def Context.drivable (c : Context) : Bool := c.active && c.packetIndexValid && c.callbacked

/-- The receive engine of stream `s` and, where it drives a slave, the slave's transmit engine. -/
def State.rxFits (σ : State) (s count : Nat) : Bool :=
  (σ.stream s).rxFits count &&
    (σ.stream s).syncSlave.all fun t => t != s && (!(σ.stream t).drivable || (σ.stream t).txFits)

end Sys2Proof.Machine
end

