-- ==== Sys2Proof/WellFormed.lean ====
section
/-! DEFINITION. Well-formed operations: the operand ranges of 30_encoding.md R112 and, for the naturals R112 leaves
unbounded, the 32-bit operand fields of this model's records (DESIGN CHOICE, log entry 2). For the wire formats: each
word belongs to one row only (DESIGN CHOICE, log entry 3). -/

namespace Sys2Proof

/-- A natural operand fits a 32-bit field of an operation record (DESIGN CHOICE, log entry 2). -/
def fitsField (n : Nat) : Bool := decide (n < 2 ^ 32)

/-- The oracle `qfail` (R112): none, or a natural that fits its field. -/
def qfailOk (q : Option Nat) : Bool := q.all fitsField

/-- R112: `1 <= period_size <= buffer_size < 2^32`. -/
def Binding.inRange (b : Binding) : Bool :=
  decide (1 ≤ b.periodSize) && decide (b.periodSize ≤ b.bufferSize) && decide (b.bufferSize < 2 ^ 32)

/-- R112: a batch is at most `QUEUE_LENGTH` byte strings, each of a length that fits its field. -/
def batchOk (batch : List (List Byte)) : Bool :=
  decide (batch.length ≤ Config.queueLength) && batch.all fun p => fitsField p.length

/-- The static operand ranges of R112. `rate`, `pcm_channels`, `midi_ports`, `slot` and `c` are checked by the command
and answered with `ERR_PARAM`, so they have no range here beyond their field. -/
def Instr.wellFormed : Instr → Bool
  | .init s _ => fitsField s
  | .destroy s => fitsField s
  | .setParams s rate ch ports _ _ => fitsField s && fitsField rate && fitsField ch && fitsField ports
  | .setPcmPosition s c slot => fitsField s && fitsField c && fitsField slot
  | .setMidiPosition s slot => fitsField s && fitsField slot
  | .setPcmFormat s _ => fitsField s
  | .setTransferDelay s ticks => fitsField s && decide (ticks ≤ 65535)
  | .setSync m t => fitsField m && t.all fitsField
  | .start s ch sp node _ q =>
      fitsField s && decide (ch ≤ 63) && decide (sp ≤ 7) && decide (node ≤ 63) && qfailOk q
  | .stop s => fitsField s
  | .busReset => true
  | .update s node => fitsField s && decide (node ≤ 63)
  | .updateFail s => fitsField s
  | .startTimeout s => fitsField s
  | .status s => fitsField s
  | .pcmPrepare s => fitsField s
  | .pcmBind s b => fitsField s && b.all Binding.inRange
  | .pcmPointer s => fitsField s
  | .midiBind s p _ => fitsField s && decide (p < 8)
  | .midiPush s p _ => fitsField s && decide (p < 8)
  | .txComplete s cycle count q =>
      fitsField s && fitsField cycle && decide (count ≤ Config.queueLength) && qfailOk q
  | .rxComplete s cycle batch q => fitsField s && fitsField cycle && batchOk batch && qfailOk q
  | .periodNotify s => fitsField s
  | .cipQ0 _ _ _ => true
  | .cipQ1 _ _ => true
  | .cipQ1RxMatch form fdf _ => decide (fdf ≠ 0xFF#8) && !(decide (form = 0#1) && decide (fdf.toNat < 8))
  | .cipQ1NoData _ _ => true
  | .sytNoInfo => true
  | .sytTimestamp cycle4 offset => !(decide (cycle4 = 0xF#4) && decide (offset = 0xFFF#12))
  | .am824Pcm _ => true
  | .am824MidiNoData _ => true
  | .am824Midi1 _ _ => true
  | .am824Midi2 _ _ _ => true
  | .am824Midi3 _ _ _ => true

end Sys2Proof
end

