-- ==== Sys2Proof/Machine/Bindings.lean ====
section
/-! DEFINITION. The lock-free operations on bindings, cursors, notifications and MIDI (45_lifecycle_sync.md R310 to
R315). -/

namespace Sys2Proof.Machine

/-- PCM_PREPARE `s` (R310). -/
def execPcmPrepare (s : Nat) (σ : State) : Result :=
  onStream s σ fun c =>
    if c.state = .absent then σ.reply .errState
    else if c.pcm.isSome then σ.reply .errState
    else (σ.setStream s { c with pcmBufferPointer := 0, pcmPeriodPointer := 0, periodPending := false }).reply .ok

/-- The context PCM_BIND makes: the binding, and the buffer it names, whose bytes are the host's (20_memory.md R64;
DESIGN CHOICE, log entry 7). -/
def Context.bindPcm (c : Context) (b : Binding) (epoch : Nat) : Context :=
  { c with pcm := some b, pcmMemory := [], pcmEpoch := epoch }

/-- PCM_BIND `s, binding_or_none` (R311). -/
def execPcmBind (s : Nat) (binding : Option Binding) (σ : State) : Result :=
  guardRange (binding.all Binding.inRange) <|
    onStream s σ fun c =>
      if c.state = .absent then σ.reply .errState
      else
        match binding with
        | none => (σ.setStream s { c with pcm := none }).reply .ok
        | some b =>
          if b.bufferSize ≤ c.pcmBufferPointer.toNat ∨ b.periodSize ≤ c.pcmPeriodPointer.toNat then σ.reply .errParam
          else (σ.allocate.setStream s (c.bindPcm b σ.allocations)).reply .ok

/-- PCM_POINTER `s` (R312). -/
def execPcmPointer (s : Nat) (σ : State) : Result :=
  onStream s σ fun c =>
    if c.state = .absent then σ.reply .errState
    else .next (σ.respond (.pointer c.pcmBufferPointer))

/-- MIDI_BIND `s, p, bound_or_none` (R313). -/
def execMidiBind (s p : Nat) (bound : Bool) (σ : State) : Result :=
  guardRange (decide (p < 8)) <|
    onStream s σ fun c =>
      if c.state = .absent then σ.reply .errState
      else
        let port := portOf c.midi p
        let port' := if bound then { port with bound := true } else { port with bound := false, out := [] }
        (σ.setStream s { c with midi := setPort c.midi p port' }).reply .ok

/-- MIDI_PUSH `s, p, byte` (R315). -/
def execMidiPush (s p : Nat) (byte : Byte) (σ : State) : Result :=
  guardRange (decide (p < 8)) <|
    onStream s σ fun c =>
      if c.state = .absent ∨ (portOf c.midi p).bound = false then σ.reply .errState
      else
        let port := portOf c.midi p
        (σ.setStream s { c with midi := setPort c.midi p { port with out := port.out ++ [byte] } }).reply .ok

/-- PERIOD_NOTIFY `s` (R314). -/
def execPeriodNotify (s : Nat) (σ : State) : Result :=
  onStream s σ fun c =>
    guardAdmitted c.admitsNotify <|
      (σ.setStream s
        { c with
          periodPending := false
          notices := if c.pcm.isSome then c.notices ++ [.periodElapsed] else c.notices }).noResult

end Sys2Proof.Machine
end

