-- ==== Sys2Proof/Machine/Tables.lean ====
section
/-! DEFINITION. The format and timing tables (40_tables_config.md R130 to R133; 30_encoding.md R100). Constants: no
operation writes them. -/

namespace Sys2Proof.Machine

/-- `SYT_INTERVAL[sfc]` (R130); `none` for the reserved code 7 (R100). -/
def sytIntervalOf (sfc : Nat) : Option Nat :=
  [8, 8, 8, 16, 16, 32, 32][sfc]?

/-- `RATE[sfc]` in Hz (R131); `none` for the reserved code 7. -/
def rateOf (sfc : Nat) : Option Nat :=
  [32000, 44100, 48000, 88200, 96000, 176400, 192000][sfc]?

/-- `sfc_of_rate(r)` (R131): the code whose rate is `r`, or `none`. -/
def sfcOfRate (r : Nat) : Option Nat :=
  [32000, 44100, 48000, 88200, 96000, 176400, 192000].findIdx? fun x => x == r

/-- `INITIAL_STATE[sfc]` (R132): the pair of `data_block_state` and `syt_offset_state`. -/
def initialStateOf (sfc : Nat) : Option (Nat × Nat) :=
  [(4, 3072), (0, 67), (6, 1024), (0, 67), (12, 1024), (0, 67), (24, 1024)][sfc]?

/-- A rate of the 44100 family: an odd code (R100). -/
def is44100Family (sfc : Nat) : Bool := sfc % 2 == 1

/-- The super-period of the 44100-family block pattern, in packets (42_scheduler.md R192, R194). -/
def superPeriod (sfc : Nat) : Nat := if is44100Family sfc then 80 >>> (sfc >>> 1) else 1

end Sys2Proof.Machine
end

