-- ==== Sys2Proof/Machine/Configure.lean ====
section
/-! DEFINITION. The configuration commands (40_tables_config.md R134 to R143). Checks in the order of the pseudocode,
the first that fails decides (60_exceptions.md R343); a command that returns an error changes no state (R145). -/

namespace Sys2Proof.Machine

/-- The context INIT makes (R134). The traces are kept (70_reset_and_hazards.md R381). -/
def Context.initialised (c : Context) (d : Direction) : Context :=
  { c with
    direction := d
    pcmFormat := .s32
    transferDelayBase := BitVec.ofNat 16 Config.transferDelayDefault
    syncSlave := none
    periodPending := false
    callbacked := false
    packetIndexValid := false
    pcmBufferPointer := 0
    pcmPeriodPointer := 0
    lastError := .ok
    protoViolations := 0
    pcm := none
    midi := detachPorts c.midi
    state := .idle }

/-- INIT `s, direction` (R134). -/
def execInit (s : Nat) (d : Direction) (σ : State) : Result :=
  onStream s σ fun c =>
    if c.state ≠ .absent then σ.reply .errState
    else (σ.setStream s (c.initialised d)).reply .ok

/-- The context DESTROY leaves (R135): every field not named keeps its bits. The spec calls them unspecified to the next
INIT all the same (93_implementation_defined.md U8; log entry 17); STATUS shows three of them (DESIGN CHOICE, log
entry 27). -/
def Context.destroyed (c : Context) : Context :=
  { c with pcm := none, midi := unbindPorts c.midi, periodPending := false, state := .absent }

/-- DESTROY `s` (R135). -/
def execDestroy (s : Nat) (σ : State) : Result :=
  onStream s σ fun c =>
    if !c.settable then σ.reply .errState
    else if c.syncSlave.isSome || σ.isSlave s then σ.reply .errState
    else (σ.setStream s c.destroyed).reply .ok

/-- The default PCM map: entry `c` is `c` for `c < n`, the others are kept (R136, R137). -/
def defaultPositions (n : Nat) (v : Vector (BitVec 8) 64) : Vector (BitVec 8) 64 :=
  (List.range n).foldl (fun v c => v.setIfInBounds c (BitVec.ofNat 8 c)) v

/-- The context SET_PARAMS makes from checked operands: `code` the rate's code, `interval` its SYT interval (R136). -/
def Context.parameterized (c : Context) (code interval pcmChannels midiPorts : Nat) (blocking dualWire : Bool) : Context :=
  let slots := pcmChannels * (if dualWire then 2 else 1)
  { c with
    blocking := blocking
    dualWire := dualWire
    sfc := BitVec.ofNat 3 code
    sytInterval := BitVec.ofNat 6 interval
    pcmChannels := BitVec.ofNat 7 pcmChannels
    midiPorts := BitVec.ofNat 4 midiPorts
    dataBlockQuadlets := BitVec.ofNat 8 (slots + if 0 < midiPorts then 1 else 0)
    pcmPositions := defaultPositions pcmChannels c.pcmPositions
    midiPosition := BitVec.ofNat 8 slots
    state := .configured }

/-- The code and SYT interval of a host rate (R130, R131, R136): with dual wire the wire rate is half the host rate. -/
def wireCode (rate : Nat) (dualWire : Bool) : Option (Nat × Nat) :=
  if dualWire && rate % 2 != 0 then none
  else
    match sfcOfRate (if dualWire then rate / 2 else rate) with
    | none => none
    | some code =>
      match sytIntervalOf code with
      | none => none
      | some interval => some (code, interval)

/-- SET_PARAMS `s, rate, pcm_channels, midi_ports, blocking, dual_wire` (R136). -/
def execSetParams (s rate pcmChannels midiPorts : Nat) (blocking dualWire : Bool) (σ : State) : Result :=
  onStream s σ fun c =>
    if !c.settable then σ.reply .errState
    else if c.pcm.isSome then σ.reply .errState
    else
      match wireCode rate dualWire with
      | none => σ.reply .errParam
      | some (code, interval) =>
        if Config.pcmChannelsMax < pcmChannels ∨ Config.midiPortsMax < midiPorts then σ.reply .errParam
        else if pcmChannels = 0 ∧ midiPorts = 0 then σ.reply .errParam
        else (σ.setStream s (c.parameterized code interval pcmChannels midiPorts blocking dualWire)).reply .ok

/-- SET_PCM_POSITION `s, c, slot` (R139). -/
def execSetPcmPosition (s ch slot : Nat) (σ : State) : Result :=
  onStream s σ fun c =>
    if c.state ≠ .configured then σ.reply .errState
    else if c.pcmChannels.toNat ≤ ch then σ.reply .errParam
    else if c.dataBlockQuadlets.toNat ≤ (if c.dualWire then 2 * slot + 1 else slot) then σ.reply .errParam
    else (σ.setStream s { c with pcmPositions := c.pcmPositions.setIfInBounds ch (BitVec.ofNat 8 slot) }).reply .ok

/-- SET_MIDI_POSITION `s, slot` (R140). -/
def execSetMidiPosition (s slot : Nat) (σ : State) : Result :=
  onStream s σ fun c =>
    if c.state ≠ .configured then σ.reply .errState
    else if c.midiPorts = 0 ∨ c.dataBlockQuadlets.toNat ≤ slot then σ.reply .errParam
    else (σ.setStream s { c with midiPosition := BitVec.ofNat 8 slot }).reply .ok

/-- SET_PCM_FORMAT `s, format` (R141). -/
def execSetPcmFormat (s : Nat) (format : SampleFormat) (σ : State) : Result :=
  onStream s σ fun c =>
    if c.state = .absent then σ.reply .errState
    else if c.pcm.isSome then σ.reply .errState
    else if c.direction = .receive ∧ format = .s16 then σ.reply .errParam
    else (σ.setStream s { c with pcmFormat := format }).reply .ok

/-- SET_TRANSFER_DELAY `s, ticks` (R142). -/
def execSetTransferDelay (s ticks : Nat) (σ : State) : Result :=
  guardRange (decide (ticks ≤ 65535)) <|
    onStream s σ fun c =>
      if !c.settable then σ.reply .errState
      else (σ.setStream s { c with transferDelayBase := BitVec.ofNat 16 ticks }).reply .ok

/-- Some stream other than `m` has `t` as its slave (R143). -/
def State.hasOtherMaster (σ : State) (m t : Nat) : Bool :=
  (List.range σ.streams.length).any fun m2 => m2 != m && (σ.stream m2).syncSlave == some t

/-- SET_SYNC `m, t_or_none` (R143). -/
def execSetSync (m : Nat) (t : Option Nat) (σ : State) : Result :=
  guardRange (t.all fun t => decide (t < σ.streams.length)) <|
    onStream m σ fun c =>
      if c.state = .absent then σ.reply .errState
      else if c.active then σ.reply .errState
      else if c.syncSlave.any fun old => (σ.stream old).active then σ.reply .errState
      else
        match t with
        | none => (σ.setStream m { c with syncSlave := none }).reply .ok
        | some t =>
          if t = m then σ.reply .errParam
          else if (σ.stream t).state = .absent ∨ (σ.stream t).active = true then σ.reply .errState
          else if c.direction ≠ .receive ∨ (σ.stream t).direction ≠ .send then σ.reply .errParam
          else if σ.hasOtherMaster m t then σ.reply .errParam
          else (σ.setStream m { c with syncSlave := some t }).reply .ok

end Sys2Proof.Machine
end

