-- ==== Sys2Proof/Machine/Scheduler.lean ====
section
/-! DEFINITION. The scheduler (42_scheduler.md): the data-block-count generator, the SYT generator, SYT emission and
the effective transfer delay. -/

namespace Sys2Proof.Machine

/-- DBGEN `s` (R190 to R192): the number of data blocks of the next packet, and the context with the phase advanced. -/
def Context.dbgen (c : Context) : Nat × Context :=
  let sfc := c.sfc.toNat
  let phase := c.dataBlockState.toNat
  if sfc % 2 = 0 then (phase, c)
  else
    let n :=
      if sfc = 1 then
        let inv := if phase = 0 ∨ 40 ≤ phase then 1 else 0
        5 + (phase % 2 + inv) % 2
      else 11 * (sfc >>> 1) + (if phase = 0 then 1 else 0)
    let phase' := if 80 >>> (sfc >>> 1) ≤ phase + 1 then 0 else phase + 1
    (n, { c with dataBlockState := BitVec.ofNat 7 phase' })

/-- The 44100-family increment at a phase (R197, R199). -/
def sytIncrement (phase : Nat) : Nat :=
  let idx := phase % 13
  1386 + (if (idx ≠ 0 ∧ idx % 4 = 0) ∨ phase = 146 then 1 else 0)

/-- SYTGEN `s` (R197): the offset of this packet's timestamp, or none, and the context advanced by one packet. -/
def Context.sytgen (c : Context) : Option Nat × Context :=
  let last := c.lastSytOffset.toNat
  let phase := c.sytOffsetState.toNat
  let advanced : Nat × Nat :=
    if last < Config.ticksPerCycle then
      if c.sfc.toNat % 2 = 0 then (last + phase, phase)
      else (last + sytIncrement phase, (phase + 1) % 147)
    else (last - Config.ticksPerCycle, phase)
  (if advanced.1 < Config.ticksPerCycle then some advanced.1 else none,
    { c with lastSytOffset := BitVec.ofNat 13 advanced.1, sytOffsetState := BitVec.ofNat 12 advanced.2 })

/-- The SYT of an offset in a cycle after a delay (30_encoding.md R95; 42_scheduler.md R200; 44_receive.md R266): the
delay carries from the offset into the cycle digit. -/
def sytAfterDelay (cycle off delay : Nat) : BitVec 16 :=
  let t := off + delay
  (BitVec.ofNat 16 ((cycle + t / Config.ticksPerCycle) % 16) <<< 12) ||| BitVec.ofNat 16 (t % Config.ticksPerCycle)

/-- SYT_EMIT `s, cycle` (R200). -/
def Context.sytEmit (c : Context) (cycle : Nat) : BitVec 16 × Context :=
  let r := c.sytgen
  (match r.1 with
    | none => Config.sytNoInfo
    | some off => sytAfterDelay cycle off c.transferDelay.toNat, r.2)

/-- The effective transfer delay START computes (R203), for a stream of rate `rate`. -/
def Context.effectiveDelay (c : Context) (rate : Nat) : Nat :=
  c.transferDelayBase.toNat +
    (if c.blocking then (Config.ticksPerSecond * c.sytInterval.toNat) / rate else 0)

end Sys2Proof.Machine
end

