-- ==== Sys2Proof/Machine/Lifecycle.lean ====
section
/-! DEFINITION. The lifecycle operations (45_lifecycle_sync.md R293 to R300, R316). -/

namespace Sys2Proof.Machine

/-- What START writes before it primes the queue (R293): the pool (a fresh one, its contents unspecified, DESIGN
CHOICE, log entry 7), the context, the operands, the generators' seeds, the cursor and the flags. `dbs` and `sos` are
the two values of INITIAL_STATE, `rate` the wire rate. -/
def Context.seeded (c : Context) (channel speed nodeId dbs sos rate epoch : Nat) : Context :=
  { c with
    poolAllocated := true
    pool := []
    poolEpoch := epoch
    isoContext := true
    channel := BitVec.ofNat 6 channel
    speed := BitVec.ofNat 3 speed
    sourceNodeId := BitVec.ofNat 6 nodeId
    dataBlockState := BitVec.ofNat 7 dbs
    sytOffsetState := BitVec.ofNat 12 sos
    lastSytOffset := 3072
    dbc := 0
    transferDelay := BitVec.ofNat 17 (c.effectiveDelay rate)
    packetIndex := 0
    packetIndexValid := true
    callbacked := false
    rxSeq := 0
    lastError := .ok
    carry := []
    hwq := []
    flushed := 0
    state := .running }

/-- A priming descriptor (R293): `Skip` on a Send stream, a receive buffer on a Receive stream. -/
def Context.primingDescriptor (c : Context) : Descriptor :=
  match c.direction with
  | .send => .skip
  | .receive => c.rxDescriptor

/-- START on a Configured stream whose maps are valid and whose resources are there (R293). -/
def startStream (s channel speed nodeId : Nat) (qfail : Option Nat) (c : Context) (σ : State) : Result :=
  match initialStateOf c.sfc.toNat, rateOf c.sfc.toNat with
  | some (dbs, sos), some rate =>
    let primed := Context.queueEach Context.primingDescriptor qfail Config.queueLength 0
      (c.seeded channel speed nodeId dbs sos rate σ.allocations)
    (σ.allocate.setStream s primed.1).reply primed.2
  | _, _ => .fault .reservedRate

/-- START `s, channel, speed, node_id, res_ok, qfail` (R293). -/
def execStart (s channel speed nodeId : Nat) (resOk : Bool) (qfail : Option Nat) (σ : State) : Result :=
  guardRange (decide (channel ≤ 63) && decide (speed ≤ 7) && decide (nodeId ≤ 63)) <|
    onStream s σ fun c =>
      if c.active then σ.reply .ok
      else if c.state ≠ .configured then σ.reply .errState
      else if !c.mapsOk then σ.reply .errParam
      else if !resOk then σ.reply .errResource
      else startStream s channel speed nodeId qfail c σ

/-- The context STOP leaves of an active stream (R295): detached first, then torn down. The invalid packet index is
unspecified (10_state.md R36, DESIGN CHOICE, log entry 25). -/
def Context.stopped (c : Context) : Context :=
  { c.detach.teardown with
    periodPending := false
    packetIndexValid := false
    packetIndex := Config.staleIndex c.poolEpoch
    state := .idle }

/-- STOP `s` (R295). -/
def execStop (s : Nat) (σ : State) : Result :=
  onStream s σ fun c =>
    if c.state = .absent then σ.reply .errState
    else if c.settable then σ.reply .ok
    else (σ.setStream s c.stopped).reply .ok

/-- A stream's part of a bus reset (R298). -/
def Context.busReset (c : Context) : Context :=
  if c.state = .running then { c with state := .recovering } else c

/-- BUS_RESET (R298): every Running stream goes to Recovering; always admitted. -/
def execBusReset (σ : State) : Result :=
  State.noResult { σ with streams := σ.streams.map Context.busReset }

/-- UPDATE `s, node_id` (R299). -/
def execUpdate (s nodeId : Nat) (σ : State) : Result :=
  guardRange (decide (nodeId ≤ 63)) <|
    onStream s σ fun c =>
      if c.state = .absent then σ.reply .errState
      else if c.settable then σ.reply .ok
      else (σ.setStream s { c with sourceNodeId := BitVec.ofNat 6 nodeId, state := .running }).reply .ok

/-- UPDATE_FAIL `s` (R300). -/
def execUpdateFail (s : Nat) (σ : State) : Result :=
  onStream s σ fun c =>
    if c.state = .absent then σ.reply .errState
    else if c.settable then σ.reply .ok
    else (σ.setStream s (c.fatalStop .errDisconnect)).reply .errDisconnect

/-- START_TIMEOUT `s` (R297). -/
def execStartTimeout (s : Nat) (σ : State) : Result :=
  onStream s σ fun c =>
    guardAdmitted c.admitsTimeout <|
      (σ.setStream s (c.fatalStop .errTimeout)).noResult

/-- STATUS `s` (R316), which reads an Absent context too. Between DESTROY and INIT the last three values are unspecified
(40_tables_config.md R135; 93_implementation_defined.md U8): the answer is the bits DESTROY kept (DESIGN CHOICE, log
entry 27). -/
def execStatus (s : Nat) (σ : State) : Result :=
  onStream s σ fun c =>
    .next (σ.respond (.status c.state c.packetIndexValid c.lastError c.protoViolations))

end Sys2Proof.Machine
end

