-- ==== Sys2Proof/Machine/Codec.lean ====
section
/-! DEFINITION. The sample codec (41_codec.md R160 to R171): AM824 encode and decode, dual wire, silence, MPX-MIDI. A
packet's quadlet `2 + b * dbq + k` is wire slot `k` of data block `b` (30_encoding.md R90). -/

namespace Sys2Proof.Machine

/-! ### Sample conversion -/

/-- `enc16` (R161): the sample zero-extended, shifted left by 8, under the label 0x40. -/
def enc16 (x : BitVec 16) : Quadlet := (x.setWidth 32 <<< 8) ||| 0x40000000#32

/-- `enc32` (R162): the sample shifted right by 8 (logical), under the label 0x40. -/
def enc32 (x : BitVec 32) : Quadlet := (x >>> 8) ||| 0x40000000#32

/-- `dec32` (R163): the label is shifted out and not examined. -/
def dec32 (q : BitVec 32) : BitVec 32 := q <<< 8

/-- A silent PCM slot (R167): the label over zero bits. -/
def silence : Quadlet := 0x40000000#32

/-- The no-data MIDI quadlet (30_encoding.md R97). -/
def midiNoData : Quadlet := 0x80000000#32

/-- A MIDI quadlet of one byte (R169). -/
def midiOne (b : Byte) : Quadlet := 0x81000000#32 ||| (b.setWidth 32 <<< 16)

/-- The MIDI bytes of a quadlet (R171): the whole label byte is compared; only 0x81, 0x82 and 0x83 carry data. -/
def midiBytes (q : Quadlet) : List Byte :=
  let bytes := [q.extractLsb' 16 8, q.extractLsb' 8 8, q.extractLsb' 0 8]
  let label := q.extractLsb' 24 8
  if label = 0x81#8 then bytes.take 1
  else if label = 0x82#8 then bytes.take 2
  else if label = 0x83#8 then bytes.take 3
  else []

/-! ### PCM slots of a packet -/

/-- A PCM slot of a packet: its quadlet index in the packet, the frame of the packet it carries (counted from the
packet's first frame), the host channel. -/
structure PcmSlot where
  quadlet : Nat
  frame : Nat
  channel : Nat
deriving DecidableEq, Repr

/-- The PCM slots of a packet of `n` data blocks, in the order ENCODE, SILENCE and DECODE visit them (R165 to R168). -/
def Context.pcmSlots (c : Context) (n : Nat) : List PcmSlot :=
  (List.range n).flatMap fun b =>
    (List.range c.pcmChannels.toNat).flatMap fun ch =>
      (c.channelSlots ch).map fun ki =>
        { quadlet := 2 + b * c.dataBlockQuadlets.toNat + ki.1, frame := b * c.framesPerBlock + ki.2, channel := ch }

/-- The host frame of the packet's frame `j`: `(ptr + j) mod B` (R165, R166). -/
def Context.hostFrame (c : Context) (b : Binding) (j : Nat) : Nat :=
  (c.pcmBufferPointer.toNat + j) % b.bufferSize

/-- `Pcm(s, f, ch)`: the value of the sample's bytes in the host's byte order (20_memory.md R64). -/
def Context.sampleAt (c : Context) (order : ByteOrder) (f ch : Nat) : Nat :=
  sampleValue order (c.pcmMemory.bytes c.pcmEpoch (c.sampleAddress f ch) c.sampleSize)

/-- The AM824 quadlet of a host sample, by the bound format (R160). -/
def Context.encodedSample (c : Context) (order : ByteOrder) (f ch : Nat) : Quadlet :=
  match c.pcmFormat with
  | .s16 => enc16 (BitVec.ofNat 16 (c.sampleAt order f ch))
  | .s32 => enc32 (BitVec.ofNat 32 (c.sampleAt order f ch))

/-- ENCODE `s, n` (R165, R166): what it stores, quadlet by quadlet. -/
def Context.encodeWrites (c : Context) (order : ByteOrder) (b : Binding) (n : Nat) : List (Nat × Quadlet) :=
  (c.pcmSlots n).map fun p => (p.quadlet, c.encodedSample order (c.hostFrame b p.frame) p.channel)

/-- SILENCE `s, n` (R167): what it stores. -/
def Context.silenceWrites (c : Context) (n : Nat) : List (Nat × Quadlet) :=
  (c.pcmSlots n).map fun p => (p.quadlet, silence)

/-- Store one decoded sample, 32 bits, in the host's byte order (R168; 20_memory.md R64). -/
def Context.storeSample (order : ByteOrder) (c : Context) (f ch : Nat) (x : BitVec 32) : Context :=
  { c with pcmMemory := c.pcmMemory.writeBytes (c.sampleAddress f ch) (sampleBytes order c.sampleSize x.toNat) }

/-- DECODE `s, e, n` (R168), for a bound buffer. -/
def Context.decodePcm (order : ByteOrder) (c : Context) (b : Binding) (e : Entry) (n : Nat) : Context :=
  (c.pcmSlots n).foldl
    (fun c' p => Context.storeSample order c' (c.hostFrame b p.frame) p.channel (dec32 (quadletAt e.bytes p.quadlet))) c

/-! ### MPX-MIDI -/

/-- The port whose turn it is at a data block: its counter modulo 8 (R169, R171). -/
def midiTurn (dbc b : Nat) : Nat := (dbc + b) % 8

/-- The MIDI slot's quadlet index in the packet, for data block `b`. -/
def Context.midiQuadlet (c : Context) (b : Nat) : Nat := 2 + b * c.dataBlockQuadlets.toNat + c.midiPosition.toNat

/-- One port's turn on transmit (R169): the quadlet, and the ports after at most one byte was taken. -/
def fillTurn (midiPorts port : Nat) (ports : Vector MidiPort 8) : Quadlet × Vector MidiPort 8 :=
  let p := portOf ports port
  match p.out with
  | [] => (midiNoData, ports)
  | byte :: rest =>
    if port < midiPorts ∧ p.bound = true then (midiOne byte, setPort ports port { p with out := rest })
    else (midiNoData, ports)

/-- MIDI_FILL (R169) over `n` data blocks from block `b`: what it stores, and the ports afterwards. -/
def Context.fillFrom (c : Context) : Nat → Nat → Vector MidiPort 8 → List (Nat × Quadlet) × Vector MidiPort 8
  | 0, _, ports => ([], ports)
  | n + 1, b, ports =>
    let turn := fillTurn c.midiPorts.toNat (midiTurn c.dbc.toNat b) ports
    let rest := Context.fillFrom c n (b + 1) turn.2
    ((c.midiQuadlet b, turn.1) :: rest.1, rest.2)

/-- One port's turn on receive (R171): the bytes go to a configured, bound port's trace. -/
def extractTurn (midiPorts port : Nat) (q : Quadlet) (ports : Vector MidiPort 8) : Vector MidiPort 8 :=
  let p := portOf ports port
  if port < midiPorts ∧ p.bound = true then setPort ports port { p with received := p.received ++ midiBytes q }
  else ports

/-- MIDI_EXTRACT `s, e, n, dbc0` (R171). -/
def Context.extractMidi (c : Context) (e : Entry) (n : Nat) : Context :=
  { c with
    midi := (List.range n).foldl
      (fun ports b =>
        extractTurn c.midiPorts.toNat (midiTurn e.dbc.toNat b) (quadletAt e.bytes (c.midiQuadlet b)) ports) c.midi }

end Sys2Proof.Machine
end

