-- ==== Sys2Proof/Machine/Flags.lean ====
section
/-! DEFINITION. The flags and counters an operation computes: the sample cursors with `period_pending`
(43_transmit.md R230), `proto_violations` (44_receive.md R253) and `rx_seq` (R255). -/

namespace Sys2Proof.Machine

/-- PTR_UPDATE `s, F` (R230): both cursors advance modulo their size; crossing a period boundary sets
`period_pending`. -/
def Context.ptrUpdate (c : Context) (b : Binding) (frames : Nat) : Context :=
  { c with
    pcmBufferPointer := BitVec.ofNat 32 ((c.pcmBufferPointer.toNat + frames) % b.bufferSize)
    periodPending := c.periodPending || decide (b.periodSize ≤ c.pcmPeriodPointer.toNat + frames)
    pcmPeriodPointer := BitVec.ofNat 32 ((c.pcmPeriodPointer.toNat + frames) % b.periodSize) }

/-- PTR_UPDATE where a buffer is bound; nothing moves where none is (R231). -/
def Context.advanceCursors (c : Context) (frames : Nat) : Context :=
  match c.pcm with
  | none => c
  | some b => c.ptrUpdate b frames

/-- `dbc <- (dbc + n) mod 256` (10_state.md R31). -/
def Context.countBlocks (c : Context) (n : Nat) : Context := { c with dbc := c.dbc + BitVec.ofNat 8 n }

end Sys2Proof.Machine
end

