-- ==== Sys2Proof/Machine/Packet.lean ====
section
/-! DEFINITION. Building and queueing one packet (43_transmit.md R222 to R225): shared by TX_COMPLETE and by the master
that drives a slave (44_receive.md R266). -/

namespace Sys2Proof.Machine

/-- Quadlet 0 of the CIP header (R225, 30_encoding.md R91). -/
def Context.headerQ0 (c : Context) : Quadlet :=
  (c.sourceNodeId.setWidth 32 <<< 24) ||| (c.dataBlockQuadlets.setWidth 32 <<< 16) ||| c.dbc.setWidth 32

/-- Quadlet 1 of the CIP header (R225, 30_encoding.md R92). -/
def Context.headerQ1 (c : Context) (syt : BitVec 16) : Quadlet :=
  0x90000000#32 ||| (c.sfc.setWidth 32 <<< 16) ||| syt.setWidth 32

/-- What CIP_BUILD stores (R225). -/
def Context.headerWrites (c : Context) (syt : BitVec 16) : List (Nat × Quadlet) :=
  [(0, c.headerQ0), (1, c.headerQ1 syt)]

/-- What ENCODE or SILENCE stores: sample data if a buffer is bound, else silence (R222). -/
def Context.payloadWrites (c : Context) (order : ByteOrder) (n : Nat) : List (Nat × Quadlet) :=
  match c.pcm with
  | some b => c.encodeWrites order b n
  | none => c.silenceWrites n

/-- The bytes of a packet of `n` data blocks (30_encoding.md R90, R105). -/
def Context.packetLength (c : Context) (n : Nat) : Nat := 8 + 4 * n * c.dataBlockQuadlets.toNat

/-- What MIDI_FILL stores and the ports it leaves, where MIDI is configured (R222; 41_codec.md R169). -/
def Context.midiFill (c : Context) (n : Nat) : List (Nat × Quadlet) × Vector MidiPort 8 :=
  if 0 < c.midiPorts.toNat then c.fillFrom n 0 c.midi else ([], c.midi)

/-- Build the packet of `n >= 1` data blocks in the slot of the packet index (R222): header, then PCM slots, then MIDI
slots, with the counter before this packet's blocks; then the counter advances. -/
def Context.buildPacket (c : Context) (order : ByteOrder) (n : Nat) (syt : BitVec 16) : Context :=
  let midi := c.midiFill n
  let stored := c.writeSlot c.packetIndex.toNat (c.headerWrites syt ++ c.payloadWrites order n ++ midi.1)
  { stored with midi := midi.2 }.countBlocks n

/-- The descriptor of the packet built in the slot of the packet index. -/
def Context.builtDescriptor (c : Context) (n : Nat) : Descriptor :=
  .tx (c.slotBytes c.packetIndex.toNat (c.packetLength n))

/-- TX_PACKET `t, syt` (R222, R224), whose `queue()` is call `k` of the operation. A failing `queue()` is fatal: the
packet is built, the counter advanced and MIDI bytes taken, but the cursors have not moved (60_exceptions.md R346). -/
def Context.txPacket (order : ByteOrder) (qfail : Option Nat) (k : Nat) (syt : BitVec 16) (c : Context) : Context :=
  let g := c.dbgen
  let n := g.1
  let built := if n = 0 then g.2 else g.2.buildPacket order n syt
  let d := if n = 0 then .skip else built.builtDescriptor n
  if built.queueFails qfail k then built.fatalStop .errQueue
  else if n = 0 then built.enqueue d
  else (built.enqueue d).advanceCursors (n * built.framesPerBlock)

end Sys2Proof.Machine
end

