-- ==== Sys2Proof/Machine/Receive.lean ====
section
/-! DEFINITION. RX_COMPLETE (44_receive.md R250 to R271): validation, the reorder window, delivery, the slave drive, and
the re-queueing of the receive buffers. -/

namespace Sys2Proof.Machine

/-- VALIDATE's answers (R252). -/
inductive Verdict
  | accept
  | dropSilent
  | dropViolation
deriving DecidableEq, Repr

/-- The receive header check of quadlet 0: EOH_0 is clear (30_encoding.md R104). -/
def q0Accepted (q0 : Quadlet) : Bool := decide (q0 &&& 0x80000000#32 = 0#32)

/-- The receive header check of quadlet 1: EOH_1 set and FMT 0x10 (30_encoding.md R104). -/
def q1Accepted (q1 : Quadlet) : Bool := decide (q1 &&& 0xBF000000#32 = 0x90000000#32)

/-- The FDF field of quadlet 1 (30_encoding.md R92, R103). -/
def q1Fdf (q1 : Quadlet) : BitVec 8 := q1.extractLsb' 16 8

/-- The SYT field of quadlet 1 (30_encoding.md R92, R103). -/
def q1Syt (q1 : Quadlet) : BitVec 16 := q1.extractLsb' 0 16

/-- The DBC field of quadlet 0 (30_encoding.md R91, R103). -/
def q0Dbc (q0 : Quadlet) : BitVec 8 := q0.extractLsb' 0 8

/-- The complete data blocks of a packet of `len` bytes (R264). -/
def Context.blockCount (c : Context) (len : Nat) : Nat := (len / 4 - 2) / c.dataBlockQuadlets.toNat

/-- VALIDATE `s, pkt` (R252), the checks in its order. -/
def Context.validate (c : Context) (pkt : List Byte) : Verdict :=
  if pkt.length < 8 then .dropSilent
  else if !q0Accepted (quadletAt pkt 0) then .dropViolation
  else if !q1Accepted (quadletAt pkt 1) then .dropViolation
  else if q1Fdf (quadletAt pkt 1) = 0xFF#8 then .dropSilent
  else if c.blockCount pkt.length = 0 then .dropSilent
  else if q1Fdf (quadletAt pkt 1) ≠ c.sfc.setWidth 8 then .dropViolation
  else .accept

/-- The reorder entry of an accepted packet (R255). -/
def Context.tag (c : Context) (pkt : List Byte) : Entry :=
  { id := c.rxSeq, dbc := q0Dbc (quadletAt pkt 0), bytes := pkt }

/-- The pool slot of the descriptor at the head of the hardware queue (R250). Machine/Operands.lean has checked that it
is a receive descriptor. -/
def Context.headSlot (c : Context) : Nat :=
  match c.hwq with
  | .rx slot :: _ => slot
  | _ => 0

/-- One completed packet (R250): its descriptor leaves the queue, its bytes lie in its slot (20_memory.md R63), it is
validated, a violation is counted, and it consumes a sequence id. -/
def Context.takePacket (c : Context) (pkt : List Byte) : Context :=
  { c with
    hwq := c.hwq.drop 1
    flushed := c.flushed - 1
    pool := c.pool.writeBytes (c.slotBase c.headSlot) pkt
    protoViolations := if c.validate pkt = .dropViolation then c.protoViolations + 1 else c.protoViolations
    rxSeq := c.rxSeq + 1 }

/-- The packet's reorder entry, if it is accepted (R250, R255). -/
def Context.newEntry (c : Context) (pkt : List Byte) : List Entry :=
  if c.validate pkt = .accept then [c.tag pkt] else []

/-- The packets of a batch in completion order (R250): the context afterwards and the new entries. -/
def Context.intake : List (List Byte) → Context → Context × List Entry
  | [], c => (c, [])
  | pkt :: batch, c =>
    let rest := Context.intake batch (c.takePacket pkt)
    (rest.1, c.newEntry pkt ++ rest.2)

/-! ### The reorder window -/

/-- `later(a, x)` (R257): `a` is ahead of `x` by 1 to 127 counter steps. -/
def later (a x : BitVec 8) : Bool :=
  decide (1 ≤ (a - x).toNat) && decide ((a - x).toNat < Config.reorderThreshold)

/-- Insert one entry (R258): in front of the trailing entries that are later than it. -/
def insertEntry (table : List Entry) (x : Entry) : List Entry :=
  let back := table.reverse
  (back.dropWhile fun a => later a.dbc x.dbc).reverse ++ x :: (back.takeWhile fun a => later a.dbc x.dbc).reverse

/-- SORT `carry, new` (R258). -/
def sortEntries (carry new : List Entry) : List Entry := new.foldl insertEntry carry

/-- How many entries of the table are delivered (R260): all but the last `min(T, REORDER_HOLD)`. -/
def deliverCount (table : List Entry) (hold : Nat) : Nat := table.length - min table.length hold

/-! ### Delivery -/

/-- The SYT a slave packet gets from a received SYT (R266): "no information" passes, else the slave's delay is added. -/
def slaveSyt (syt : BitVec 16) (delay : Nat) : BitVec 16 :=
  if syt = Config.sytNoInfo then syt
  else sytAfterDelay (syt.extractLsb' 12 4).toNat (syt.extractLsb' 0 12).toNat delay

/-- SLAVE_DRIVE's part on the slave (R266): TX_PACKET with the master's timestamp, as call `k` of the operation. -/
def Context.driven (order : ByteOrder) (qfail : Option Nat) (k : Nat) (e : Entry) (t : Context) : Context :=
  t.txPacket order qfail k (slaveSyt (q1Syt (quadletAt e.bytes 1)) t.transferDelay.toNat)

/-- DECODE where a buffer is bound; the PCM slots are discarded where none is (R265). -/
def Context.decodeBound (order : ByteOrder) (c : Context) (e : Entry) (n : Nat) : Context :=
  match c.pcm with
  | none => c
  | some b => c.decodePcm order b e n

/-- The MIDI slots are extracted where MIDI is configured (R265). -/
def Context.extractConfigured (c : Context) (e : Entry) (n : Nat) : Context :=
  if 0 < c.midiPorts.toNat then c.extractMidi e n else c

/-- DELIVER's part on the receiving stream (R265, R267): the counter from the packet, PCM and MIDI, the counter past the
packet, the cursors. -/
def Context.delivered (order : ByteOrder) (c : Context) (e : Entry) : Context :=
  let n := c.blockCount e.bytes.length
  ((({ c with dbc := e.dbc }.decodeBound order e n).extractConfigured e n).countBlocks n).advanceCursors
    (n * c.framesPerBlock)

/-- The deliveries of a callback: the state, the `queue()` calls made so far, and whether a slave packet was queued
(R250). -/
structure Delivery where
  state : State
  calls : Nat
  driven : Bool
deriving DecidableEq, Repr

/-- The slave that `s` drives now, if there is one (R265). -/
def State.drivenSlave (σ : State) (s : Nat) : Option Nat :=
  (σ.stream s).syncSlave.filter fun t => (σ.stream t).drivable

/-- SLAVE_DRIVE (R266), where there is a slave to drive. -/
def Delivery.drive (qfail : Option Nat) (s : Nat) (d : Delivery) (e : Entry) : Delivery :=
  match d.state.drivenSlave s with
  | none => d
  | some t =>
    { state := d.state.setStream t ((d.state.stream t).driven d.state.params.hostByteOrder qfail d.calls e)
      calls := d.calls + 1
      driven := true }

/-- DELIVER `s, e` (R265): the slave first, then the stream itself. -/
def Delivery.deliver (qfail : Option Nat) (s : Nat) (d : Delivery) (e : Entry) : Delivery :=
  let d' := d.drive qfail s e
  { d' with state := d'.state.setStream s ((d'.state.stream s).delivered d'.state.params.hostByteOrder e) }

/-- The slave's queue is flushed before the master's own, if a packet was queued on it and it is still active (R250,
R271). -/
def State.flushSlave (σ : State) (s : Nat) (driven : Bool) : State :=
  match (σ.stream s).syncSlave with
  | none => σ
  | some t => if driven && (σ.stream t).active then σ.setStream t (σ.stream t).queueFlush else σ

/-- The state RX_COMPLETE leaves, for a stream whose packet index is valid (R250). -/
def rxCompleted (s : Nat) (batch : List (List Byte)) (qfail : Option Nat) (σ : State) : State :=
  let taken := Context.intake batch { σ.stream s with callbacked := true }
  let table := sortEntries taken.1.carry taken.2
  let n := deliverCount table σ.params.reorderHold
  let d := (table.take n).foldl (Delivery.deliver qfail s)
    { state := σ.setStream s taken.1, calls := 0, driven := false }
  let carried := d.state.setStream s { d.state.stream s with carry := table.drop n }
  let flushed := carried.flushSlave s d.driven
  flushed.setStream s
    (Context.queueEach Context.rxDescriptor qfail batch.length d.calls (flushed.stream s)).1

/-- RX_COMPLETE `s, cycle, batch, qfail` (R250). No rule uses `cycle`. -/
def execRxComplete (s _cycle : Nat) (batch : List (List Byte)) (qfail : Option Nat) (σ : State) : Result :=
  guardRange (decide (batch.length ≤ Config.queueLength)) <|
    onStream s σ fun c =>
      guardAdmitted (c.admitsRx batch) <|
        if !c.packetIndexValid then σ.noResult
        else guardAccess (σ.rxFits s batch.length) <| (rxCompleted s batch qfail σ).noResult

end Sys2Proof.Machine
end

