-- ==== Sys2Proof/Machine/Transmit.lean ====
section
/-! DEFINITION. TX_COMPLETE (43_transmit.md R220, R221, R223, R226). -/

namespace Sys2Proof.Machine

/-- The `count` consumed descriptors leave the head of the hardware queue for the wire (R220). -/
def Context.consume (c : Context) (count : Nat) : Context :=
  { c with
    hwq := c.hwq.drop count
    flushed := c.flushed - count
    wire := c.wire ++ c.hwq.take count }

/-- "Compute next cycle number" for the packet built for the `i`-th consumed slot, `i` from 1 (R223). -/
def packetCycle (cycle count i : Nat) : Nat := cycle + Config.queueLength - count + i

/-- One packet of a host-clock stream (R220): its SYT, then TX_PACKET; it is call `i - 1` of the operation. -/
def Context.txSlot (order : ByteOrder) (qfail : Option Nat) (cycle count i : Nat) (c : Context) : Context :=
  let e := c.sytEmit (packetCycle cycle count i)
  e.2.txPacket order qfail (i - 1) e.1

/-- The packets for the slots from the `i`-th on, `n` of them (R220): a fatal stop ends them, else one flush follows. -/
def Context.txLoop (order : ByteOrder) (qfail : Option Nat) (cycle count : Nat) : Nat → Nat → Context → Context
  | 0, _, c => c.queueFlush
  | n + 1, i, c =>
    let c' := c.txSlot order qfail cycle count i
    if c'.state = .idle then c' else Context.txLoop order qfail cycle count n (i + 1) c'

/-- The context TX_COMPLETE leaves of a stream whose packet index is valid (R220, R226): a slave builds nothing. -/
def Context.txCompleted (order : ByteOrder) (slave : Bool) (cycle count : Nat) (qfail : Option Nat) (c : Context) : Context :=
  let c' := { c with callbacked := true }.consume count
  if slave then c'.queueFlush else c'.txLoop order qfail cycle count count 1

/-- TX_COMPLETE `s, cycle, count, qfail` (R220). -/
def execTxComplete (s cycle count : Nat) (qfail : Option Nat) (σ : State) : Result :=
  guardRange (decide (count ≤ Config.queueLength)) <|
    onStream s σ fun c =>
      guardAdmitted (c.admitsTx count) <|
        if !c.packetIndexValid then σ.noResult
        else
          guardAccess c.txFits <|
            (σ.setStream s (c.txCompleted σ.params.hostByteOrder (σ.isSlave s) cycle count qfail)).noResult

end Sys2Proof.Machine
end

