-- ==== Sys2Proof/Decode.lean ====
section
/-! DEFINITION. The decoder and the encoder. An operation is a record: its 8-bit selector (30_encoding.md R110) and
its operands in R110's order, laid out by this model (the spec gives operands no bit layout; DESIGN CHOICE, log entry
2). A word of a wire format is read by the rows of spec/opcode_table.json (R91 to R104). Both are total and refuse by
name. -/

namespace Sys2Proof

open Machine

/-- Why bytes are no instruction. -/
inductive DecodeError
  /-- The selector is none of the 23 (30_encoding.md R111). -/
  | unknownSelector (op : Nat)
  /-- The record ends inside an operand. -/
  | truncated
  /-- An operand field holds no value of its operand. -/
  | badOperand
  /-- Bytes other than padding zeros follow the last operand. -/
  | trailing
  /-- The word belongs to no row of the wire formats (30_encoding.md R98: a reserved label). -/
  | unknownWord
  /-- A host store is no instruction. -/
  | notAnInstruction
deriving DecidableEq, Repr

/-! ### Operand fields (DESIGN CHOICE, log entry 2) -/

/-- A natural operand: four bytes, the most significant first. -/
def takeNat : List Byte → Except DecodeError (Nat × List Byte)
  | a :: b :: c :: d :: rest => .ok ((quadletOf a b c d).toNat, rest)
  | _ => .error .truncated

def putNat (n : Nat) : List Byte := quadletBytes (BitVec.ofNat 32 n)

/-- A byte operand. -/
def takeByte : List Byte → Except DecodeError (Byte × List Byte)
  | b :: rest => .ok (b, rest)
  | [] => .error .truncated

/-- A boolean operand: one byte, 0 or 1. -/
def takeBool : List Byte → Except DecodeError (Bool × List Byte)
  | [] => .error .truncated
  | b :: rest => if b = 0 then .ok (false, rest) else if b = 1 then .ok (true, rest) else .error .badOperand

def putBool (b : Bool) : List Byte := if b then [1] else [0]

/-- `direction`: Send 0, Receive 1 (10_state.md R21). -/
def takeDirection (bytes : List Byte) : Except DecodeError (Direction × List Byte) := do
  let (b, rest) ← takeBool bytes
  return (if b then .receive else .send, rest)

def putDirection : Direction → List Byte
  | .send => putBool false
  | .receive => putBool true

/-- `format`: S16 0, S32 1 (10_state.md R21). -/
def takeFormat (bytes : List Byte) : Except DecodeError (SampleFormat × List Byte) := do
  let (b, rest) ← takeBool bytes
  return (if b then .s32 else .s16, rest)

def putFormat : SampleFormat → List Byte
  | .s16 => putBool false
  | .s32 => putBool true

/-- A natural or `none`: a boolean, then the natural if it is 1. -/
def takeOption (bytes : List Byte) : Except DecodeError (Option Nat × List Byte) := do
  let (b, rest) ← takeBool bytes
  if b then
    let (n, rest) ← takeNat rest
    return (some n, rest)
  else return (none, rest)

def putOption : Option Nat → List Byte
  | none => putBool false
  | some n => putBool true ++ putNat n

/-- A binding or `none`: a boolean, then `buffer_size` and `period_size` if it is 1. -/
def takeBinding (bytes : List Byte) : Except DecodeError (Option Binding × List Byte) := do
  let (b, rest) ← takeBool bytes
  if b then
    let (bufferSize, rest) ← takeNat rest
    let (periodSize, rest) ← takeNat rest
    return (some { bufferSize, periodSize }, rest)
  else return (none, rest)

def putBinding : Option Binding → List Byte
  | none => putBool false
  | some b => putBool true ++ putNat b.bufferSize ++ putNat b.periodSize

/-- `n` packets of a batch: each its length as a natural, then its bytes. -/
def takePackets : Nat → List Byte → Except DecodeError (List (List Byte) × List Byte)
  | 0, bytes => .ok ([], bytes)
  | n + 1, bytes => do
    let (len, rest) ← takeNat bytes
    if rest.length < len then .error .truncated
    else
      let (packets, rest') ← takePackets n (rest.drop len)
      return (rest.take len :: packets, rest')

def putPackets : List (List Byte) → List Byte
  | [] => []
  | p :: ps => putNat p.length ++ p ++ putPackets ps

/-- A batch: the number of its packets, then the packets. -/
def takeBatch (bytes : List Byte) : Except DecodeError (List (List Byte) × List Byte) := do
  let (n, rest) ← takeNat bytes
  takePackets n rest

def putBatch (batch : List (List Byte)) : List Byte := putNat batch.length ++ putPackets batch

/-- The end of a record: padding zeros only. -/
def finish (i : Instr) (rest : List Byte) : Except DecodeError Instr :=
  if rest.all (fun b => b == 0) then .ok i else .error .trailing

/-! ### Operations (30_encoding.md R110) -/

/-- The operands that follow a selector (R110). -/
def decodeOperands (op : Nat) (r : List Byte) : Except DecodeError Instr :=
  match op with
  | 0x01 => do let (s, r) ← takeNat r; let (d, r) ← takeDirection r; finish (.init s d) r
  | 0x02 => do let (s, r) ← takeNat r; finish (.destroy s) r
  | 0x03 => do
      let (s, r) ← takeNat r
      let (rate, r) ← takeNat r
      let (ch, r) ← takeNat r
      let (ports, r) ← takeNat r
      let (blocking, r) ← takeBool r
      let (dual, r) ← takeBool r
      finish (.setParams s rate ch ports blocking dual) r
  | 0x04 => do
      let (s, r) ← takeNat r
      let (c, r) ← takeNat r
      let (slot, r) ← takeNat r
      finish (.setPcmPosition s c slot) r
  | 0x05 => do let (s, r) ← takeNat r; let (slot, r) ← takeNat r; finish (.setMidiPosition s slot) r
  | 0x06 => do let (s, r) ← takeNat r; let (f, r) ← takeFormat r; finish (.setPcmFormat s f) r
  | 0x07 => do let (s, r) ← takeNat r; let (t, r) ← takeNat r; finish (.setTransferDelay s t) r
  | 0x08 => do let (m, r) ← takeNat r; let (t, r) ← takeOption r; finish (.setSync m t) r
  | 0x10 => do
      let (s, r) ← takeNat r
      let (ch, r) ← takeNat r
      let (sp, r) ← takeNat r
      let (node, r) ← takeNat r
      let (res, r) ← takeBool r
      let (q, r) ← takeOption r
      finish (.start s ch sp node res q) r
  | 0x11 => do let (s, r) ← takeNat r; finish (.stop s) r
  | 0x12 => finish .busReset r
  | 0x13 => do let (s, r) ← takeNat r; let (node, r) ← takeNat r; finish (.update s node) r
  | 0x14 => do let (s, r) ← takeNat r; finish (.updateFail s) r
  | 0x15 => do let (s, r) ← takeNat r; finish (.startTimeout s) r
  | 0x16 => do let (s, r) ← takeNat r; finish (.status s) r
  | 0x20 => do let (s, r) ← takeNat r; finish (.pcmPrepare s) r
  | 0x21 => do let (s, r) ← takeNat r; let (b, r) ← takeBinding r; finish (.pcmBind s b) r
  | 0x22 => do let (s, r) ← takeNat r; finish (.pcmPointer s) r
  | 0x23 => do
      let (s, r) ← takeNat r
      let (p, r) ← takeNat r
      let (b, r) ← takeBool r
      finish (.midiBind s p b) r
  | 0x24 => do
      let (s, r) ← takeNat r
      let (p, r) ← takeNat r
      let (b, r) ← takeByte r
      finish (.midiPush s p b) r
  | 0x30 => do
      let (s, r) ← takeNat r
      let (cycle, r) ← takeNat r
      let (count, r) ← takeNat r
      let (q, r) ← takeOption r
      finish (.txComplete s cycle count q) r
  | 0x31 => do
      let (s, r) ← takeNat r
      let (cycle, r) ← takeNat r
      let (batch, r) ← takeBatch r
      let (q, r) ← takeOption r
      finish (.rxComplete s cycle batch q) r
  | 0x32 => do let (s, r) ← takeNat r; finish (.periodNotify s) r
  | n => .error (.unknownSelector n)

/-- An operation record: the selector, then its operands. -/
def decodeOperation : List Byte → Except DecodeError Instr
  | [] => .error .truncated
  | op :: r => decodeOperands op.toNat r

/-! ### Words of the wire formats (30_encoding.md R91 to R104) -/

/-- The rows of quadlet 1 overlap: the explicit no-data word first (R101), then the transmitted form (R92), then every
other word that passes the receive header check (R104). -/
def decodeQ1 (q : Quadlet) : Instr :=
  let form := q.extractLsb' 30 1
  let fdf := q.extractLsb' 16 8
  let syt := q.extractLsb' 0 16
  if fdf = 0xFF#8 then .cipQ1NoData form syt
  else if form = 0#1 ∧ fdf.toNat < 8 then .cipQ1 (q.extractLsb' 16 3) syt
  else .cipQ1RxMatch form fdf syt

/-- A quadlet's row, by the table's match and mask. -/
def decodeQuadlet (q : Quadlet) : Except DecodeError Instr :=
  if q &&& 0xC000FF00#32 = 0x00000000#32 then
    .ok (.cipQ0 (q.extractLsb' 24 6) (q.extractLsb' 16 8) (q.extractLsb' 0 8))
  else if q &&& 0xBF000000#32 = 0x90000000#32 then .ok (decodeQ1 q)
  else if q &&& 0xFF000000#32 = 0x40000000#32 then .ok (.am824Pcm (q.extractLsb' 0 24))
  else if q &&& 0xFF000000#32 = 0x80000000#32 then .ok (.am824MidiNoData (q.extractLsb' 0 24))
  else if q &&& 0xFF000000#32 = 0x81000000#32 then .ok (.am824Midi1 (q.extractLsb' 16 8) (q.extractLsb' 0 16))
  else if q &&& 0xFF000000#32 = 0x82000000#32 then
    .ok (.am824Midi2 (q.extractLsb' 16 8) (q.extractLsb' 8 8) (q.extractLsb' 0 8))
  else if q &&& 0xFF000000#32 = 0x83000000#32 then
    .ok (.am824Midi3 (q.extractLsb' 16 8) (q.extractLsb' 8 8) (q.extractLsb' 0 8))
  else .error .unknownWord

/-- A SYT field's row (R94). -/
def decodeSyt (v : BitVec 16) : Instr :=
  if v = Config.sytNoInfo then .sytNoInfo else .sytTimestamp (v.extractLsb' 12 4) (v.extractLsb' 0 12)

/-- A word of a wire format, its bytes in wire order (20_memory.md R67). -/
def decodeWire : List Byte → Except DecodeError Instr
  | [a, b] => .ok (decodeSyt (sytOf a b))
  | [a, b, c, d] => decodeQuadlet (quadletOf a b c d)
  | _ => .error .unknownWord

/-- What the environment presents, as an instruction. Total. -/
def decode : Input → Except DecodeError Instr
  | .operation bytes => decodeOperation bytes
  | .wire bytes => decodeWire bytes
  | .hostStore _ _ _ => .error .notAnInstruction

/-! ### The encoder -/

/-- The quadlet of a wire-format row (R91, R92, R96, R97, R103); 0 for an instruction that is no quadlet. -/
def encodeQuadlet : Instr → Quadlet
  | .cipQ0 sid dbs dbc => (sid.setWidth 32 <<< 24) ||| (dbs.setWidth 32 <<< 16) ||| dbc.setWidth 32
  | .cipQ1 sfc syt => 0x90000000#32 ||| (sfc.setWidth 32 <<< 16) ||| syt.setWidth 32
  | .cipQ1RxMatch form fdf syt =>
      0x90000000#32 ||| (form.setWidth 32 <<< 30) ||| (fdf.setWidth 32 <<< 16) ||| syt.setWidth 32
  | .cipQ1NoData form syt => 0x90FF0000#32 ||| (form.setWidth 32 <<< 30) ||| syt.setWidth 32
  | .am824Pcm x => 0x40000000#32 ||| x.setWidth 32
  | .am824MidiNoData low => 0x80000000#32 ||| low.setWidth 32
  | .am824Midi1 b1 low => 0x81000000#32 ||| (b1.setWidth 32 <<< 16) ||| low.setWidth 32
  | .am824Midi2 b1 b2 low =>
      0x82000000#32 ||| (b1.setWidth 32 <<< 16) ||| (b2.setWidth 32 <<< 8) ||| low.setWidth 32
  | .am824Midi3 b1 b2 b3 =>
      0x83000000#32 ||| (b1.setWidth 32 <<< 16) ||| (b2.setWidth 32 <<< 8) ||| b3.setWidth 32
  | _ => 0

/-- The SYT field of a SYT row (R94): `(cycle4 << 12) | offset`, or `0xFFFF`. -/
def encodeSyt : Instr → BitVec 16
  | .sytTimestamp cycle4 offset => (cycle4.setWidth 16 <<< 12) ||| offset.setWidth 16
  | _ => Config.sytNoInfo

/-- The bytes of a SYT field, most significant first (20_memory.md R67). -/
def sytBytes (v : BitVec 16) : List Byte := [v.extractLsb' 8 8, v.extractLsb' 0 8]

/-- What presents an instruction: for an operation its record, for a wire-format row its word. -/
def encode (i : Instr) : Input :=
  match i with
  | .init s d => .operation (0x01 :: (putNat s ++ putDirection d))
  | .destroy s => .operation (0x02 :: putNat s)
  | .setParams s rate ch ports blocking dual =>
      .operation (0x03 :: (putNat s ++ putNat rate ++ putNat ch ++ putNat ports ++ putBool blocking ++ putBool dual))
  | .setPcmPosition s c slot => .operation (0x04 :: (putNat s ++ putNat c ++ putNat slot))
  | .setMidiPosition s slot => .operation (0x05 :: (putNat s ++ putNat slot))
  | .setPcmFormat s f => .operation (0x06 :: (putNat s ++ putFormat f))
  | .setTransferDelay s t => .operation (0x07 :: (putNat s ++ putNat t))
  | .setSync m t => .operation (0x08 :: (putNat m ++ putOption t))
  | .start s ch sp node res q =>
      .operation (0x10 :: (putNat s ++ putNat ch ++ putNat sp ++ putNat node ++ putBool res ++ putOption q))
  | .stop s => .operation (0x11 :: putNat s)
  | .busReset => .operation [0x12]
  | .update s node => .operation (0x13 :: (putNat s ++ putNat node))
  | .updateFail s => .operation (0x14 :: putNat s)
  | .startTimeout s => .operation (0x15 :: putNat s)
  | .status s => .operation (0x16 :: putNat s)
  | .pcmPrepare s => .operation (0x20 :: putNat s)
  | .pcmBind s b => .operation (0x21 :: (putNat s ++ putBinding b))
  | .pcmPointer s => .operation (0x22 :: putNat s)
  | .midiBind s p b => .operation (0x23 :: (putNat s ++ putNat p ++ putBool b))
  | .midiPush s p b => .operation (0x24 :: (putNat s ++ putNat p ++ [b]))
  | .txComplete s cycle count q =>
      .operation (0x30 :: (putNat s ++ putNat cycle ++ putNat count ++ putOption q))
  | .rxComplete s cycle batch q =>
      .operation (0x31 :: (putNat s ++ putNat cycle ++ putBatch batch ++ putOption q))
  | .periodNotify s => .operation (0x32 :: putNat s)
  | .sytNoInfo => .wire (sytBytes (encodeSyt i))
  | .sytTimestamp _ _ => .wire (sytBytes (encodeSyt i))
  | .cipQ0 _ _ _ => .wire (quadletBytes (encodeQuadlet i))
  | .cipQ1 _ _ => .wire (quadletBytes (encodeQuadlet i))
  | .cipQ1RxMatch _ _ _ => .wire (quadletBytes (encodeQuadlet i))
  | .cipQ1NoData _ _ => .wire (quadletBytes (encodeQuadlet i))
  | .am824Pcm _ => .wire (quadletBytes (encodeQuadlet i))
  | .am824MidiNoData _ => .wire (quadletBytes (encodeQuadlet i))
  | .am824Midi1 _ _ => .wire (quadletBytes (encodeQuadlet i))
  | .am824Midi2 _ _ _ => .wire (quadletBytes (encodeQuadlet i))
  | .am824Midi3 _ _ _ => .wire (quadletBytes (encodeQuadlet i))

/-! ### The opcode table's words -/

/-- More zero operand bytes than any operation of zero operands takes. -/
def zeroOperands : List Byte := List.replicate 24 0

/-- The input whose word is `w` in the table's numbering: an operation's selector (8 bits) with operand bytes of zeros,
a SYT field (16 bits) or a quadlet (32 bits) with its bytes in wire order. -/
def tableInput (nbits w : Nat) : Option Input :=
  if nbits = 8 then some (.operation (BitVec.ofNat 8 w :: zeroOperands))
  else if nbits = 16 then some (.wire (sytBytes (BitVec.ofNat 16 w)))
  else if nbits = 32 then some (.wire (quadletBytes (BitVec.ofNat 32 w)))
  else none

/-- The instruction the decoder reads from a word of spec/opcode_table.json. -/
def decodeTableWord (nbits w : Nat) : Option Instr :=
  match tableInput nbits w with
  | none => none
  | some input =>
    match decode input with
    | .ok i => some i
    | .error _ => none

end Sys2Proof
end

