-- ==== Sys2Proof/Machine/Wire.lean ====
section
/-! DEFINITION. The wire-format rows of spec/opcode_table.json. They are data, not operations (00_scope.md R2): a word
of one is part of a packet, which TX_COMPLETE builds and RX_COMPLETE reads. Presented by itself, a word has the
receive side's reading of it as its response (30_encoding.md R103 (i)) and changes nothing else (DESIGN CHOICE, log
entry 3). -/

namespace Sys2Proof.Machine

/-- The response that reads a word. -/
def State.read (σ : State) (r : WireReading) : Result := .next (σ.respond (.reading r))

/-- The receive side's reading of quadlet 0 (R91, R102, R104). -/
def readQ0 (q : Quadlet) : WireReading := if q0Accepted q then .headerQ0 (q0Dbc q) else .violation

/-- The receive side's reading of quadlet 1 (R92, R101, R104). -/
def readQ1 (q : Quadlet) : WireReading :=
  if !q1Accepted q then .violation
  else if q1Fdf q = 0xFF#8 then .noData
  else .headerQ1 (q1Fdf q) (q1Syt q)

/-- The reading of a SYT field (R94). -/
def readSyt (v : BitVec 16) : WireReading :=
  if v = Config.sytNoInfo then .noTimestamp else .timestamp (v.extractLsb' 12 4) (v.extractLsb' 0 12)

/-- The reading of a PCM slot (41_codec.md R163). -/
def readPcm (q : Quadlet) : WireReading := .sample (dec32 q)

/-- The reading of a MIDI slot (41_codec.md R171). -/
def readMidi (q : Quadlet) : WireReading := .midi (midiBytes q)

/-- CIP_Q0 (R91). -/
def execCipQ0 (sid : BitVec 6) (dbs dbc : Byte) (σ : State) : Result :=
  σ.read (readQ0 (encodeQuadlet (.cipQ0 sid dbs dbc)))

/-- CIP_Q1 (R92). -/
def execCipQ1 (sfc : BitVec 3) (syt : BitVec 16) (σ : State) : Result :=
  σ.read (readQ1 (encodeQuadlet (.cipQ1 sfc syt)))

/-- CIP_Q1_RXMATCH (R104). -/
def execCipQ1RxMatch (form : BitVec 1) (fdf : Byte) (syt : BitVec 16) (σ : State) : Result :=
  σ.read (readQ1 (encodeQuadlet (.cipQ1RxMatch form fdf syt)))

/-- CIP_Q1_NODATA (R101). -/
def execCipQ1NoData (form : BitVec 1) (syt : BitVec 16) (σ : State) : Result :=
  σ.read (readQ1 (encodeQuadlet (.cipQ1NoData form syt)))

/-- SYT_NOINFO (R94). -/
def execSytNoInfo (σ : State) : Result := σ.read (readSyt (encodeSyt .sytNoInfo))

/-- SYT_TIMESTAMP (R94). -/
def execSytTimestamp (cycle4 : BitVec 4) (offset : BitVec 12) (σ : State) : Result :=
  σ.read (readSyt (encodeSyt (.sytTimestamp cycle4 offset)))

/-- AM824_PCM (R96). -/
def execAm824Pcm (sample24 : BitVec 24) (σ : State) : Result :=
  σ.read (readPcm (encodeQuadlet (.am824Pcm sample24)))

/-- AM824_MIDI_NODATA (R97). -/
def execAm824MidiNoData (low : BitVec 24) (σ : State) : Result :=
  σ.read (readMidi (encodeQuadlet (.am824MidiNoData low)))

/-- AM824_MIDI_1 (R97). -/
def execAm824Midi1 (byte1 : Byte) (low : BitVec 16) (σ : State) : Result :=
  σ.read (readMidi (encodeQuadlet (.am824Midi1 byte1 low)))

/-- AM824_MIDI_2 (R97). -/
def execAm824Midi2 (byte1 byte2 low : Byte) (σ : State) : Result :=
  σ.read (readMidi (encodeQuadlet (.am824Midi2 byte1 byte2 low)))

/-- AM824_MIDI_3 (R97). -/
def execAm824Midi3 (byte1 byte2 byte3 : Byte) (σ : State) : Result :=
  σ.read (readMidi (encodeQuadlet (.am824Midi3 byte1 byte2 byte3)))

end Sys2Proof.Machine
end

