-- ==== Sys2Proof/Machine/Dispatch.lean ====
section
/-! DEFINITION. One arm per row of spec/opcode_table.json. -/

namespace Sys2Proof.Machine

def exec (i : Instr) (st : State) : Host.Outcome State Fault Refusal :=
  match i with
  -- configuration (40_tables_config.md)
  | .init s d => Sys2Proof.Machine.execInit s d st
  | .destroy s => Sys2Proof.Machine.execDestroy s st
  | .setParams s rate ch ports b w => Sys2Proof.Machine.execSetParams s rate ch ports b w st
  | .setPcmPosition s c slot => Sys2Proof.Machine.execSetPcmPosition s c slot st
  | .setMidiPosition s slot => Sys2Proof.Machine.execSetMidiPosition s slot st
  | .setPcmFormat s f => Sys2Proof.Machine.execSetPcmFormat s f st
  | .setTransferDelay s ticks => Sys2Proof.Machine.execSetTransferDelay s ticks st
  | .setSync m t => Sys2Proof.Machine.execSetSync m t st
  -- lifecycle (45_lifecycle_sync.md)
  | .start s ch sp node res q => Sys2Proof.Machine.execStart s ch sp node res q st
  | .stop s => Sys2Proof.Machine.execStop s st
  | .busReset => Sys2Proof.Machine.execBusReset st
  | .update s node => Sys2Proof.Machine.execUpdate s node st
  | .updateFail s => Sys2Proof.Machine.execUpdateFail s st
  | .startTimeout s => Sys2Proof.Machine.execStartTimeout s st
  | .status s => Sys2Proof.Machine.execStatus s st
  -- bindings (45_lifecycle_sync.md)
  | .pcmPrepare s => Sys2Proof.Machine.execPcmPrepare s st
  | .pcmBind s b => Sys2Proof.Machine.execPcmBind s b st
  | .pcmPointer s => Sys2Proof.Machine.execPcmPointer s st
  | .midiBind s p b => Sys2Proof.Machine.execMidiBind s p b st
  | .midiPush s p b => Sys2Proof.Machine.execMidiPush s p b st
  -- events (43_transmit.md, 44_receive.md, 45_lifecycle_sync.md)
  | .txComplete s cycle count q => Sys2Proof.Machine.execTxComplete s cycle count q st
  | .rxComplete s cycle batch q => Sys2Proof.Machine.execRxComplete s cycle batch q st
  | .periodNotify s => Sys2Proof.Machine.execPeriodNotify s st
  -- wire formats (30_encoding.md)
  | .cipQ0 sid dbs dbc => Sys2Proof.Machine.execCipQ0 sid dbs dbc st
  | .cipQ1 sfc syt => Sys2Proof.Machine.execCipQ1 sfc syt st
  | .cipQ1RxMatch form fdf syt => Sys2Proof.Machine.execCipQ1RxMatch form fdf syt st
  | .cipQ1NoData form syt => Sys2Proof.Machine.execCipQ1NoData form syt st
  | .sytNoInfo => Sys2Proof.Machine.execSytNoInfo st
  | .sytTimestamp c o => Sys2Proof.Machine.execSytTimestamp c o st
  | .am824Pcm x => Sys2Proof.Machine.execAm824Pcm x st
  | .am824MidiNoData low => Sys2Proof.Machine.execAm824MidiNoData low st
  | .am824Midi1 b1 low => Sys2Proof.Machine.execAm824Midi1 b1 low st
  | .am824Midi2 b1 b2 low => Sys2Proof.Machine.execAm824Midi2 b1 b2 low st
  | .am824Midi3 b1 b2 b3 => Sys2Proof.Machine.execAm824Midi3 b1 b2 b3 st

end Sys2Proof.Machine
end

