-- ==== Sys2Proof/Machine/Step.lean ====
section
/-! DEFINITION. One step: the block takes what the environment presents next and does it (00_scope.md R2). There is no
program counter and no fetch: the "next instruction" is the head of the inbox (DESIGN CHOICE, log entry 1). -/

namespace Sys2Proof.Machine

/-- Take the head of the inbox away. -/
def State.withInbox (σ : State) (rest : List Input) : State := { σ with inbox := rest }

/-- The refusal that a record without an instruction ends in. -/
def refusalOf : DecodeError → Refusal
  | .unknownSelector op => .unknownSelector op
  | _ => .undecodable

/-- The host writes one byte of the bound sample buffer of stream `s` (20_memory.md R60, R64; DESIGN CHOICE, log
entry 8). Which addresses a buffer bound on an Idle stream has is the model's choice too (DESIGN CHOICE, log entry 26):
the store reads no register that is unspecified there. -/
def hostStore (s address : Nat) (byte : Byte) (σ : State) : Result :=
  if s < σ.streams.length ∧ address < (σ.stream s).pcmSize then
    .next (σ.setStream s { σ.stream s with pcmMemory := (σ.stream s).pcmMemory.write address byte })
  else .refused .hostStoreOutside

/-- One step. With an empty inbox the block does nothing (70_reset_and_hazards.md R381). -/
def step (σ : State) : Host.Outcome State Fault Refusal :=
  match σ.inbox with
  | [] => .next σ
  | .hostStore s address byte :: rest => hostStore s address byte (σ.withInbox rest)
  | .operation bytes :: rest =>
    match decode (.operation bytes) with
    | .ok i => exec i (σ.withInbox rest)
    | .error e => .refused (refusalOf e)
  | .wire bytes :: rest =>
    match decode (.wire bytes) with
    | .ok i => exec i (σ.withInbox rest)
    | .error e => .refused (refusalOf e)

/-- The state in which a word of spec/opcode_table.json is what the environment presents next (DESIGN CHOICE, log
entry 1). -/
def State.withFetchWord (σ : State) (nbits w : Nat) : State :=
  match tableInput nbits w with
  | none => σ
  | some input => σ.withInbox (input :: σ.inbox)

end Sys2Proof.Machine
end

