-- ==== Sys2Proof/Safety.lean ====
section
/-! DEFINITION. What a sound state is: the facts the rules of spec/ promise of every state between operations, and what
a safe step is. -/

namespace Sys2Proof.Machine

/-- The parameters of a Configured or active stream, as SET_PARAMS leaves them (10_state.md R21, R27;
40_tables_config.md R130, R136). -/
structure Context.ParamsSound (c : Context) : Prop where
  interval : sytIntervalOf c.sfc.toNat = some c.sytInterval.toNat
  channels : c.pcmChannels.toNat ≤ Config.pcmChannelsMax
  ports : c.midiPorts.toNat ≤ Config.midiPortsMax
  blockSize : c.dataBlockQuadlets.toNat = c.pcmSlotCount + (if 0 < c.midiPorts.toNat then 1 else 0)
  blockNotEmpty : 1 ≤ c.dataBlockQuadlets.toNat

/-- The generators of an active stream are at a value they can reach (42_scheduler.md R191, R192, R197, R198). -/
structure Context.GeneratorsSound (c : Context) : Prop where
  offset : c.lastSytOffset.toNat ≤ 6143
  clean : is44100Family c.sfc.toNat = false →
    initialStateOf c.sfc.toNat = some (c.dataBlockState.toNat, c.sytOffsetState.toNat)
  family : is44100Family c.sfc.toNat = true →
    c.dataBlockState.toNat < superPeriod c.sfc.toNat ∧ c.sytOffsetState.toNat < 147

/-- What lives exactly while a stream is active (10_state.md R36, R40 to R44; 45_lifecycle_sync.md R296). -/
structure Context.ResourcesSound (c : Context) : Prop where
  pool : c.poolAllocated = c.active
  context : c.isoContext = c.active
  index : c.packetIndexValid = c.active
  stopped : c.active = false → c.hwq = [] ∧ c.carry = [] ∧ c.pool = [] ∧ c.periodPending = false

/-- The hardware queue of a stream between operations (10_state.md R36, R43; 20_memory.md R79; 44_receive.md R270). -/
structure Context.QueueSound (c : Context) : Prop where
  flushedAll : c.flushed = c.hwq.length
  capacity : c.hwq.length ≤ Config.queueLength
  index : c.packetIndexValid = true → c.packetIndex.toNat < Config.queueLength
  sendQueue : c.direction = .send → ∀ slot, Descriptor.rx slot ∉ c.hwq
  receiveQueue : c.active = true → c.direction = .receive →
    c.hwq = (List.range Config.queueLength).map fun k => .rx ((c.packetIndex.toNat + k) % Config.queueLength)

/-- A bound sample buffer and the cursors inside it (10_state.md R35; 30_encoding.md R112; 45_lifecycle_sync.md R311).
-/
structure Context.BindingSound (c : Context) : Prop where
  range : ∀ b, c.pcm = some b → b.inRange = true
  bufferCursor : ∀ b, c.pcm = some b → c.pcmBufferPointer.toNat < b.bufferSize
  periodCursor : ∀ b, c.pcm = some b → c.pcmPeriodPointer.toNat < b.periodSize
  absent : c.state = .absent → c.pcm = none
  receiveFormat : c.state ≠ .absent → c.direction = .receive → c.pcmFormat = .s32

/-- The reorder carry (10_state.md R44; 44_receive.md R262): at most `REORDER_HOLD` entries, each of a packet with at
least a header. -/
structure Context.CarrySound (c : Context) (hold : Nat) : Prop where
  bound : c.carry.length ≤ hold
  headers : ∀ e ∈ c.carry, 8 ≤ e.bytes.length

/-- The memories are in canonical form (DESIGN CHOICE, log entry 7). -/
structure Context.MemorySound (c : Context) : Prop where
  pool : c.pool.wf
  pcm : c.pcmMemory.wf

/-- A sound stream context. -/
structure Context.Sound (c : Context) (hold : Nat) : Prop where
  params : c.state = .configured ∨ c.active = true → c.ParamsSound
  maps : c.active = true → c.mapsOk = true
  generators : c.active = true → c.GeneratorsSound
  resources : c.ResourcesSound
  queue : c.QueueSound
  binding : c.BindingSound
  carry : c.CarrySound hold
  memory : c.MemorySound

/-- The pairing (10_state.md R33; 40_tables_config.md R143): the master receives, the slave sends, both exist, and a
slave has one master. -/
structure State.PairingSound (σ : State) : Prop where
  slaveExists : ∀ m t, (σ.stream m).syncSlave = some t → t < σ.streams.length ∧ t ≠ m
  directions : ∀ m t, (σ.stream m).syncSlave = some t →
    (σ.stream m).direction = .receive ∧ (σ.stream t).direction = .send
  present : ∀ m t, (σ.stream m).syncSlave = some t → (σ.stream m).state ≠ .absent ∧ (σ.stream t).state ≠ .absent
  oneMaster : ∀ m m' t, (σ.stream m).syncSlave = some t → (σ.stream m').syncSlave = some t → m = m'

/-- A sound state: what every state between operations is, in a block of at least one stream (00_scope.md R7). -/
structure State.Sound (σ : State) : Prop where
  nonempty : 1 ≤ σ.streams.length
  streams : ∀ s, s < σ.streams.length → (σ.stream s).Sound σ.params.reorderHold
  pairing : σ.PairingSound

/-- A safe step: it does not end in a fault of the model. -/
def State.stepSafe (σ : State) : Prop := ∀ f, step σ ≠ .fault f

/-! ### The terms of the claims -/

/-- `τ` differs from `σ` in stream `s`, in the response and in the allocation counter at most. -/
structure State.OnlyStream (s : Nat) (σ τ : State) : Prop where
  params : τ.params = σ.params
  inbox : τ.inbox = σ.inbox
  length : τ.streams.length = σ.streams.length
  others : ∀ s', s' ≠ s → τ.stream s' = σ.stream s'

/-- Every port of `w` is `v`'s, unbound and with an empty `midi_out`; the trace `midi_in` is kept. -/
def PortsDetached (v w : Vector MidiPort 8) : Prop :=
  ∀ p < 8, portOf w p = { portOf v p with bound := false, out := [] }

/-- `c'` is what a fatal stop with `code` leaves of the active stream `c`: everything 60_exceptions.md R345 names, an
invalid packet index of whatever value (10_state.md R36), and nothing else changed. -/
def FatalStopped (code : Code) (c c' : Context) : Prop :=
  ∃ ports index, PortsDetached c.midi ports ∧
    c' = { c with
      packetIndexValid := false
      packetIndex := index
      aborts := if c.pcm.isSome then c.aborts ++ [code] else c.aborts
      pcm := none
      midi := ports
      isoContext := false
      hwq := []
      flushed := 0
      carry := []
      poolAllocated := false
      pool := []
      periodPending := false
      lastError := code
      state := .idle }

/-- The fields that are immutable while a stream is active (10_state.md R24). -/
structure Context.SameConfiguration (c c' : Context) : Prop where
  direction : c'.direction = c.direction
  blocking : c'.blocking = c.blocking
  dualWire : c'.dualWire = c.dualWire
  sfc : c'.sfc = c.sfc
  sytInterval : c'.sytInterval = c.sytInterval
  pcmChannels : c'.pcmChannels = c.pcmChannels
  midiPorts : c'.midiPorts = c.midiPorts
  dataBlockQuadlets : c'.dataBlockQuadlets = c.dataBlockQuadlets
  pcmPositions : c'.pcmPositions = c.pcmPositions
  midiPosition : c'.midiPosition = c.midiPosition
  transferDelayBase : c'.transferDelayBase = c.transferDelayBase
  syncSlave : c'.syncSlave = c.syncSlave

/-- The transitions of the lifecycle state (45_lifecycle_sync.md R290), by the operation that makes them. -/
def Transition (i : Instr) (σ : State) (s : Nat) (old new : LifeState) : Prop :=
  match i with
  | .init s' _ => s' = s ∧ old = .absent ∧ new = .idle
  | .destroy s' => s' = s ∧ (old = .idle ∨ old = .configured) ∧ new = .absent
  | .setParams s' _ _ _ _ _ => s' = s ∧ (old = .idle ∨ old = .configured) ∧ new = .configured
  | .start s' _ _ _ _ _ => s' = s ∧ old = .configured ∧ (new = .running ∨ new = .idle)
  | .busReset => old = .running ∧ new = .recovering
  | .update s' _ => s' = s ∧ old = .recovering ∧ new = .running
  | .stop s' => s' = s ∧ (old = .running ∨ old = .recovering) ∧ new = .idle
  | .updateFail s' => s' = s ∧ (old = .running ∨ old = .recovering) ∧ new = .idle
  | .startTimeout s' => s' = s ∧ (old = .running ∨ old = .recovering) ∧ new = .idle
  | .txComplete s' _ _ _ => s' = s ∧ (old = .running ∨ old = .recovering) ∧ new = .idle
  | .rxComplete s' _ _ _ =>
      (s' = s ∨ (σ.stream s').syncSlave = some s) ∧ (old = .running ∨ old = .recovering) ∧ new = .idle
  | _ => False

/-- The traces of `c` are beginnings of those of `c'` (10_state.md R47). -/
structure Context.TracesGrow (c c' : Context) : Prop where
  wire : c.wire <+: c'.wire
  notices : c.notices <+: c'.notices
  aborts : c.aborts <+: c'.aborts
  received : ∀ p < 8, (portOf c.midi p).received <+: (portOf c'.midi p).received

/-- The stream an instruction names; BUS_RESET and the wire formats name none. -/
def targetOf : Instr → Option Nat
  | .init s _ => some s
  | .destroy s => some s
  | .setParams s _ _ _ _ _ => some s
  | .setPcmPosition s _ _ => some s
  | .setMidiPosition s _ => some s
  | .setPcmFormat s _ => some s
  | .setTransferDelay s _ => some s
  | .setSync m _ => some m
  | .start s _ _ _ _ _ => some s
  | .stop s => some s
  | .update s _ => some s
  | .updateFail s => some s
  | .startTimeout s => some s
  | .status s => some s
  | .pcmPrepare s => some s
  | .pcmBind s _ => some s
  | .pcmPointer s => some s
  | .midiBind s _ _ => some s
  | .midiPush s _ _ => some s
  | .txComplete s _ _ _ => some s
  | .rxComplete s _ _ _ => some s
  | .periodNotify s => some s
  | .busReset => none
  | .cipQ0 _ _ _ => none
  | .cipQ1 _ _ => none
  | .cipQ1RxMatch _ _ _ => none
  | .cipQ1NoData _ _ => none
  | .sytNoInfo => none
  | .sytTimestamp _ _ => none
  | .am824Pcm _ => none
  | .am824MidiNoData _ => none
  | .am824Midi1 _ _ => none
  | .am824Midi2 _ _ _ => none
  | .am824Midi3 _ _ _ => none

/-- The time in ticks of the `n`-th SYT-interval sample at a rate: the closed-form target
`n * SYT_INTERVAL * 24576000 / rate`, rounded to nearest (42_scheduler.md R198, R199). -/
def sampleTime (sfc n : Nat) : Nat :=
  match sytIntervalOf sfc, rateOf sfc with
  | some interval, some rate => (2 * n * interval * Config.ticksPerSecond + rate) / (2 * rate)
  | _, _ => 0

/-- The SYT field, as a number, of an offset in a cycle after a delay (30_encoding.md R95; 42_scheduler.md R200;
44_receive.md R266). -/
def delayedSyt (cycle off delay : Nat) : Nat :=
  (cycle + (off + delay) / Config.ticksPerCycle) % 16 * 4096 + (off + delay) % Config.ticksPerCycle

/-- The offsets SYTGEN returns for the next `k` packets (42_scheduler.md R197). -/
def Context.sytRun : Nat → Context → List (Option Nat)
  | 0, _ => []
  | k + 1, c => c.sytgen.1 :: Context.sytRun k c.sytgen.2

/-- The block counts DBGEN returns for the next `k` packets (42_scheduler.md R190). -/
def Context.blockRun : Nat → Context → List Nat
  | 0, _ => []
  | k + 1, c => c.dbgen.1 :: Context.blockRun k c.dbgen.2

/-- The SYT field, as a number, of the packet TX_COMPLETE builds for the consumed slot `i`, counted from 0, of `count`
(42_scheduler.md R200; 43_transmit.md R223). -/
def Context.emittedSyt (c : Context) (cycle count i : Nat) : Nat :=
  match (c.sytRun count)[i]? with
  | some (some off) => delayedSyt (cycle + 48 - count + (i + 1)) off c.transferDelay.toNat
  | _ => 0xFFFF

/-- The SYT field, as a number, of the packet a delivered entry drives on a slave of the given delay (44_receive.md
R266). -/
def Entry.drivenSyt (e : Entry) (delay : Nat) : Nat :=
  let syt := (quadletAt e.bytes 1).toNat % 2 ^ 16
  if syt = 0xFFFF then 0xFFFF else delayedSyt (syt / 4096) (syt % 4096) delay

/-- The stream after DBGEN and the building of the packet that TX_PACKET queues next (43_transmit.md R222). -/
def Context.withPacket (order : ByteOrder) (syt : BitVec 16) (t : Context) : Context :=
  t.dbgen.2.buildPacket order t.dbgen.1 syt

/-- `t'` is `t` after a TX_PACKET whose `queue()` succeeded (43_transmit.md R222, R230): one packet of `t`'s next block
count, built, queued, and counted by the cursors, and nothing else. -/
structure Context.PacketQueued (order : ByteOrder) (syt : BitVec 16) (t t' : Context) : Prop where
  notEmpty : 1 ≤ t.dbgen.1
  result : t' = ((t.withPacket order syt).enqueue ((t.withPacket order syt).builtDescriptor t.dbgen.1)).advanceCursors
    (t.dbgen.1 * t.framesPerBlock)

/-- The entries that RX_COMPLETE delivers for a batch (44_receive.md R250, R258, R260): the sorted table but for the last
`min(T, REORDER_HOLD)`. -/
def State.deliveries (σ : State) (s : Nat) (batch : List (List Byte)) : List Entry :=
  let table := sortEntries (σ.stream s).carry (Context.intake batch { σ.stream s with callbacked := true }).2
  table.take (table.length - min table.length σ.params.reorderHold)

/-- How many `queue()` calls the deliveries of RX_COMPLETE make (44_receive.md R265, R266, R271): one for each entry while
the slave can be driven, up to and with the one that finds its queue full. -/
def State.slaveCalls (σ : State) (s : Nat) (batch : List (List Byte)) : Nat :=
  match σ.drivenSlave s with
  | none => 0
  | some t => min (σ.deliveries s batch).length (49 - (σ.stream t).hwq.length)

end Sys2Proof.Machine
end

