-- ==== Sys2Proof/Certificates/Slice0/Obligations.lean ====
section
/-! DEFINITION. The statements for the provers: what the rules of spec/ say of the operations and of the machine. A
statement of an operation's result is also the statement that it completes: its conclusion is that `exec` answers that
next state. Where a result is written as `{ c with ... }`, every register, flag, queue, trace and byte of memory not
named in it is unchanged. -/

open Sys2Proof Sys2Proof.Machine

/-! ### Encoding -/

/-- Decode and encode agree, for every instruction and every operand value an encoding admits (30_encoding.md R110; the
record layout is the model's, log entry 2). -/
def Obligations.DecodeInvertsEncode : Prop :=
  ∀ i : Instr, i.wellFormed = true → decode (encode i) = .ok i

/-- No bit of a wire-format quadlet is dropped: a quadlet that decodes is the encoding of the well-formed instruction it
decodes to (30_encoding.md R91 to R104). -/
def Obligations.QuadletDecodesToItsOwnWord : Prop :=
  ∀ (q : Quadlet) (i : Instr), decodeQuadlet q = .ok i →
    encode i = .wire (quadletBytes q) ∧ i.wellFormed = true

/-- A few words written out from 30_encoding.md R91 to R97 decode to what they stand for. The first clause, that the
selector 0x16 with operand bytes of zeros is STATUS of stream 0, rests on the record layout, which is the model's (log
entry 2); that a word presented by itself is decoded at all, and that 90 01 3A 00 is read as CIP_Q1 and not as
CIP_Q1_RXMATCH, is the model's choice too (log entry 3). -/
def Obligations.SpecWordsDecode : Prop :=
  decodeTableWord 8 0x16 = some (.status 0) ∧
  decode (.wire [0x01, 0x02, 0x00, 0x00]) = .ok (.cipQ0 1 2 0) ∧
  decode (.wire [0x90, 0x01, 0x3A, 0x00]) = .ok (.cipQ1 1 0x3A00) ∧
  decode (.wire [0x82, 0xC0, 0x3C, 0x00]) = .ok (.am824Midi2 0xC0 0x3C 0)

/-- R111, R112, R13, 70_reset_and_hazards.md R392, 44_receive.md R251: what the interface refuses. A selector outside R110
selects nothing; a stream index outside the block, or another operand outside its range, is refused by every operation;
a completion event is refused unless the stream is active, of the event's direction and has that many descriptors
flushed, each packet's length a multiple of 4 that fits a pool slot. A refusal is no next state and no result. (The
admission of START_TIMEOUT and PERIOD_NOTIFY stands in their own statements.) -/
def Obligations.InterfaceRefusesInadmissibleInputs : Prop :=
  (∀ (σ : State) (op : Byte) (operands : List Byte) (rest : List Input),
    σ.inbox = .operation (op :: operands) :: rest →
    op ∉ ([0x01, 0x02, 0x03, 0x04, 0x05, 0x06, 0x07, 0x08, 0x10, 0x11, 0x12, 0x13, 0x14, 0x15, 0x16, 0x20, 0x21, 0x22,
      0x23, 0x24, 0x30, 0x31, 0x32] : List Byte) →
    step σ = .refused (.unknownSelector op.toNat)) ∧
  (∀ (σ : State) (i : Instr) (s : Nat), targetOf i = some s → σ.streams.length ≤ s → exec i σ = .refused .operandRange) ∧
  (∀ (σ : State) (s : Nat),
    (∀ ticks, 65535 < ticks → exec (.setTransferDelay s ticks) σ = .refused .operandRange) ∧
    (∀ t, σ.streams.length ≤ t → exec (.setSync s (some t)) σ = .refused .operandRange) ∧
    (∀ ch sp node res q, 63 < ch ∨ 7 < sp ∨ 63 < node →
      exec (.start s ch sp node res q) σ = .refused .operandRange) ∧
    (∀ node, 63 < node → exec (.update s node) σ = .refused .operandRange) ∧
    (∀ b : Binding, b.periodSize < 1 ∨ b.bufferSize < b.periodSize ∨ 2 ^ 32 ≤ b.bufferSize →
      exec (.pcmBind s (some b)) σ = .refused .operandRange) ∧
    (∀ p, 8 ≤ p → (∀ bound, exec (.midiBind s p bound) σ = .refused .operandRange) ∧
      ∀ byte, exec (.midiPush s p byte) σ = .refused .operandRange) ∧
    (∀ cycle count q, 48 < count → exec (.txComplete s cycle count q) σ = .refused .operandRange) ∧
    (∀ cycle (batch : List (List Byte)) q, 48 < batch.length →
      exec (.rxComplete s cycle batch q) σ = .refused .operandRange)) ∧
  (∀ (σ : State) (s : Nat), s < σ.streams.length →
    let c := σ.stream s
    (∀ cycle count q, count ≤ 48 →
      (c.state ≠ .running ∧ c.state ≠ .recovering) ∨ c.direction = .receive ∨ c.flushed < count →
      exec (.txComplete s cycle count q) σ = .refused .notAdmitted) ∧
    (∀ cycle (batch : List (List Byte)) q, batch.length ≤ 48 →
      (c.state ≠ .running ∧ c.state ≠ .recovering) ∨ c.direction = .send ∨ c.flushed < batch.length ∨
        (∃ p ∈ batch, p.length % 4 ≠ 0 ∨ c.bufSize < p.length) →
      exec (.rxComplete s cycle batch q) σ = .refused .notAdmitted))

/-! ### The step -/

/-- A step takes the head of the inbox and runs the instruction it decodes to on the state without it (log entry 1). With
nothing presented the block does nothing (70_reset_and_hazards.md R381; that the empty inbox is a step is the model's,
log entry 1). -/
def Obligations.StepRunsTheDecodedInstruction : Prop :=
  (∀ (σ : State) (input : Input) (rest : List Input) (i : Instr),
    σ.inbox = input :: rest → decode input = .ok i → step σ = exec i { σ with inbox := rest }) ∧
  ∀ σ : State, σ.inbox = [] → step σ = .next σ

/-- 20_memory.md R60, R64: the host writes one byte of the bound sample buffer: that byte reads as written, every other
byte of the buffer and everything else as before; an address the buffer does not have, which is every address while none
is bound, is refused. That the host's writes are items of the inbox is the model's (log entry 8); so is the size of a
buffer bound on an Idle stream, where `pcm_channels` is unspecified: it is that of 64 channels there (log entry 26). -/
def Obligations.HostStoreWritesOneByte : Prop :=
  ∀ (σ : State) (s a : Nat) (byte : Byte) (rest : List Input), σ.inbox = .hostStore s a byte :: rest →
    let c := σ.stream s
    let channels := if c.state = .configured ∨ c.state = .running ∨ c.state = .recovering then c.pcmChannels.toNat else 64
    let bps := if c.pcmFormat = .s16 then 2 else 4
    (∀ b, s < σ.streams.length → c.pcm = some b → a < b.bufferSize * channels * bps → ∃ mem : Memory,
      step σ = .next { σ with inbox := rest, streams := σ.streams.set s { c with pcmMemory := mem } } ∧
      ∀ x, { c with pcmMemory := mem }.pcmByte x = if x = a then byte else c.pcmByte x) ∧
    (σ.streams.length ≤ s ∨ c.pcm = none ∨ (∃ b, c.pcm = some b ∧ b.bufferSize * channels * bps ≤ a) →
      step σ = .refused .hostStoreOutside)

/-! ### Reset -/

/-- R50: the values hardware reset gives every stream, whatever the number of streams and the parameters. -/
def Obligations.ResetValues : Prop :=
  ∀ (n : Nat) (hn : 1 ≤ n) (p : Params) (s : Nat), s < n →
    (State.resetWith n hn p).streams.length = n ∧
    (let c := (State.resetWith n hn p).stream s
     c.state = .absent ∧ c.syncSlave = none ∧ c.packetIndexValid = false ∧ c.callbacked = false ∧
     c.periodPending = false ∧ c.lastError = .ok ∧ c.protoViolations = 0 ∧ c.poolAllocated = false ∧
     c.isoContext = false ∧ c.hwq = [] ∧ c.flushed = 0 ∧ c.carry = [] ∧ c.pcm = none ∧
     (∀ port < 8, portOf c.midi port = { bound := false, out := [], received := [] }) ∧
     c.wire = [] ∧ c.notices = [] ∧ c.aborts = [])

/-- 60_exceptions.md R342, 70_reset_and_hazards.md R381: on an Absent context every command but INIT and STATUS answers
ERR_STATE and changes nothing; the completion events and the timer are not admitted. -/
def Obligations.AbsentContextAnswersErrState : Prop :=
  ∀ (σ : State) (s : Nat), s < σ.streams.length → (σ.stream s).state = .absent →
    (∀ i ∈ ([.destroy s, .stop s, .updateFail s, .pcmPrepare s, .pcmPointer s] : List Instr),
      exec i σ = .next { σ with response := .code .errState }) ∧
    (∀ rate ch ports b w, exec (.setParams s rate ch ports b w) σ = .next { σ with response := .code .errState }) ∧
    (∀ ch slot, exec (.setPcmPosition s ch slot) σ = .next { σ with response := .code .errState }) ∧
    (∀ slot, exec (.setMidiPosition s slot) σ = .next { σ with response := .code .errState }) ∧
    (∀ f, exec (.setPcmFormat s f) σ = .next { σ with response := .code .errState }) ∧
    (∀ ticks ≤ 65535, exec (.setTransferDelay s ticks) σ = .next { σ with response := .code .errState }) ∧
    (exec (.setSync s none) σ = .next { σ with response := .code .errState }) ∧
    (∀ t < σ.streams.length, exec (.setSync s (some t)) σ = .next { σ with response := .code .errState }) ∧
    (∀ ch ≤ 63, ∀ sp ≤ 7, ∀ node ≤ 63, ∀ res q,
      exec (.start s ch sp node res q) σ = .next { σ with response := .code .errState }) ∧
    (∀ node ≤ 63, exec (.update s node) σ = .next { σ with response := .code .errState }) ∧
    (exec (.pcmBind s none) σ = .next { σ with response := .code .errState }) ∧
    (∀ b, b.inRange = true → exec (.pcmBind s (some b)) σ = .next { σ with response := .code .errState }) ∧
    (∀ p < 8, ∀ bound, exec (.midiBind s p bound) σ = .next { σ with response := .code .errState }) ∧
    (∀ p < 8, ∀ byte, exec (.midiPush s p byte) σ = .next { σ with response := .code .errState }) ∧
    (exec (.startTimeout s) σ = .refused .notAdmitted) ∧
    (∀ cycle count q, count ≤ 48 → exec (.txComplete s cycle count q) σ = .refused .notAdmitted) ∧
    (∀ cycle batch q, batch.length ≤ 48 → exec (.rxComplete s cycle batch q) σ = .refused .notAdmitted)

/-! ### Configuration (40_tables_config.md) -/

/-- R134: INIT of an Absent context creates it; of any other it is ERR_STATE and changes nothing. -/
def Obligations.InitCreatesTheContext : Prop :=
  ∀ (σ : State) (s : Nat) (d : Direction), s < σ.streams.length →
    let c := σ.stream s
    (c.state = .absent → ∃ ports, PortsDetached c.midi ports ∧
      exec (.init s d) σ = .next { σ with
        response := .code .ok
        streams := σ.streams.set s { c with
          direction := d, pcmFormat := .s32, transferDelayBase := 11776, syncSlave := none, periodPending := false,
          callbacked := false, packetIndexValid := false, pcmBufferPointer := 0, pcmPeriodPointer := 0,
          lastError := .ok, protoViolations := 0, pcm := none, midi := ports, state := .idle } }) ∧
    (c.state ≠ .absent → exec (.init s d) σ = .next { σ with response := .code .errState })

/-- R135: DESTROY of an Idle or Configured, unpaired context; else ERR_STATE and nothing changed. The kept fields are
unspecified to the next INIT (U8): that STATUS then shows the kept bits is the model's choice (log entry 27). -/
def Obligations.DestroyRemovesTheContext : Prop :=
  ∀ (σ : State) (s : Nat), s < σ.streams.length →
    let c := σ.stream s
    let allowed := (c.state = .idle ∨ c.state = .configured) ∧ c.syncSlave = none ∧
      ∀ m < σ.streams.length, (σ.stream m).syncSlave ≠ some s
    (allowed → ∃ ports : Vector MidiPort 8, (∀ p < 8, portOf ports p = { portOf c.midi p with bound := false }) ∧
      exec (.destroy s) σ = .next { σ with
        response := .code .ok
        streams := σ.streams.set s { c with pcm := none, midi := ports, periodPending := false, state := .absent } }) ∧
    (¬ allowed → exec (.destroy s) σ = .next { σ with response := .code .errState })

/-- R136, R137: SET_PARAMS with a supported rate, at most 64 channels and 8 ports and a data block that is not empty, on
an Idle or Configured unbound stream. `code` is the wire rate's code. -/
def Obligations.SetParamsConfigures : Prop :=
  ∀ (σ : State) (s rate ch ports code interval wireRate : Nat) (blocking dual : Bool), s < σ.streams.length →
    let c := σ.stream s
    let slots := if dual then 2 * ch else ch
    (c.state = .idle ∨ c.state = .configured) → c.pcm = none →
    rateOf code = some wireRate → sytIntervalOf code = some interval →
    rate = (if dual then 2 * wireRate else wireRate) → ch ≤ 64 → ports ≤ 8 → 0 < ch + ports →
    ∃ positions : Vector (BitVec 8) 64,
      (∀ k (h : k < 64), positions[k] = if k < ch then BitVec.ofNat 8 k else c.pcmPositions[k]) ∧
      exec (.setParams s rate ch ports blocking dual) σ = .next { σ with
        response := .code .ok
        streams := σ.streams.set s { c with
          blocking := blocking, dualWire := dual, sfc := BitVec.ofNat 3 code, sytInterval := BitVec.ofNat 6 interval,
          pcmChannels := BitVec.ofNat 7 ch, midiPorts := BitVec.ofNat 4 ports,
          dataBlockQuadlets := BitVec.ofNat 8 (slots + if 0 < ports then 1 else 0),
          pcmPositions := positions, midiPosition := BitVec.ofNat 8 slots, state := .configured } }

/-- R136: when SET_PARAMS fails, and that a failure changes nothing. The seven wire rates are those of
00_scope.md R8. -/
def Obligations.SetParamsRefuses : Prop :=
  ∀ (σ : State) (s rate ch ports : Nat) (blocking dual : Bool), s < σ.streams.length →
    let c := σ.stream s
    let free := (c.state = .idle ∨ c.state = .configured) ∧ c.pcm = none
    let rates : List Nat := [32000, 44100, 48000, 88200, 96000, 176400, 192000]
    let good := (if dual then ∃ r ∈ rates, rate = 2 * r else rate ∈ rates) ∧ ch ≤ 64 ∧ ports ≤ 8 ∧ 0 < ch + ports
    (¬ free → exec (.setParams s rate ch ports blocking dual) σ = .next { σ with response := .code .errState }) ∧
    (free → ¬ good → exec (.setParams s rate ch ports blocking dual) σ = .next { σ with response := .code .errParam })

/-- R139, R140: the position commands: ERR_STATE in every state but Configured, ERR_PARAM for a channel or a slot out of
range, else one entry of the map. -/
def Obligations.PositionCommandsSetTheMaps : Prop :=
  ∀ (σ : State) (s slot : Nat), s < σ.streams.length →
    let c := σ.stream s
    (c.state ≠ .configured →
      (∀ ch, exec (.setPcmPosition s ch slot) σ = .next { σ with response := .code .errState }) ∧
      exec (.setMidiPosition s slot) σ = .next { σ with response := .code .errState }) ∧
    (c.state = .configured →
      (∀ ch, ch < 64 → ch < c.pcmChannels.toNat →
        (if c.dualWire then 2 * slot + 1 else slot) < c.dataBlockQuadlets.toNat →
        ∃ positions : Vector (BitVec 8) 64,
          (∀ k (h : k < 64), positions[k] = if k = ch then BitVec.ofNat 8 slot else c.pcmPositions[k]) ∧
          exec (.setPcmPosition s ch slot) σ = .next { σ with
            response := .code .ok, streams := σ.streams.set s { c with pcmPositions := positions } }) ∧
      (∀ ch, c.pcmChannels.toNat ≤ ch ∨ c.dataBlockQuadlets.toNat ≤ (if c.dualWire then 2 * slot + 1 else slot) →
        exec (.setPcmPosition s ch slot) σ = .next { σ with response := .code .errParam }) ∧
      (c.midiPorts ≠ 0 → slot < c.dataBlockQuadlets.toNat →
        exec (.setMidiPosition s slot) σ = .next { σ with
          response := .code .ok, streams := σ.streams.set s { c with midiPosition := BitVec.ofNat 8 slot } }) ∧
      (c.midiPorts = 0 ∨ c.dataBlockQuadlets.toNat ≤ slot →
        exec (.setMidiPosition s slot) σ = .next { σ with response := .code .errParam }))

/-- R141, R142: SET_PCM_FORMAT on an existing, unbound stream (S16 refused on Receive), SET_TRANSFER_DELAY on a stopped
one; ERR_STATE otherwise. -/
def Obligations.FormatAndDelayAreSet : Prop :=
  ∀ (σ : State) (s : Nat), s < σ.streams.length →
    let c := σ.stream s
    (∀ f, c.state ≠ .absent → c.pcm = none → (c.direction = .send ∨ f = .s32) →
      exec (.setPcmFormat s f) σ = .next { σ with
        response := .code .ok, streams := σ.streams.set s { c with pcmFormat := f } }) ∧
    (c.state ≠ .absent → c.pcm = none → c.direction = .receive →
      exec (.setPcmFormat s .s16) σ = .next { σ with response := .code .errParam }) ∧
    (∀ f, c.state ≠ .absent → c.pcm ≠ none →
      exec (.setPcmFormat s f) σ = .next { σ with response := .code .errState }) ∧
    (∀ f, c.state = .absent → exec (.setPcmFormat s f) σ = .next { σ with response := .code .errState }) ∧
    (∀ ticks ≤ 65535, (c.state = .idle ∨ c.state = .configured) →
      exec (.setTransferDelay s ticks) σ = .next { σ with
        response := .code .ok, streams := σ.streams.set s { c with transferDelayBase := BitVec.ofNat 16 ticks } }) ∧
    (∀ ticks ≤ 65535, (c.state = .absent ∨ c.state = .running ∨ c.state = .recovering) →
      exec (.setTransferDelay s ticks) σ = .next { σ with response := .code .errState })

/-- R143: SET_SYNC. With `m` and its old slave stopped, `none` unpairs; a stopped Send stream `t`, not `m` and no other
master's, becomes the slave of a Receive stream; what fails changes nothing. -/
def Obligations.SetSyncPairs : Prop :=
  ∀ (σ : State) (m : Nat), m < σ.streams.length →
    let c := σ.stream m
    let free := (c.state = .idle ∨ c.state = .configured) ∧ ∀ old, c.syncSlave = some old → (σ.stream old).active = false
    (¬ free → exec (.setSync m none) σ = .next { σ with response := .code .errState }) ∧
    (free → exec (.setSync m none) σ = .next { σ with
      response := .code .ok, streams := σ.streams.set m { c with syncSlave := none } }) ∧
    (∀ t < σ.streams.length,
      let tc := σ.stream t
      let stopped := tc.state = .idle ∨ tc.state = .configured
      let fits := c.direction = .receive ∧ tc.direction = .send ∧
        ∀ m2 < σ.streams.length, m2 ≠ m → (σ.stream m2).syncSlave ≠ some t
      (¬ free → exec (.setSync m (some t)) σ = .next { σ with response := .code .errState }) ∧
      (free → t = m → exec (.setSync m (some t)) σ = .next { σ with response := .code .errParam }) ∧
      (free → t ≠ m → ¬ stopped → exec (.setSync m (some t)) σ = .next { σ with response := .code .errState }) ∧
      (free → t ≠ m → stopped → ¬ fits → exec (.setSync m (some t)) σ = .next { σ with response := .code .errParam }) ∧
      (free → t ≠ m → stopped → fits → exec (.setSync m (some t)) σ = .next { σ with
        response := .code .ok, streams := σ.streams.set m { c with syncSlave := some t } }))

/-- 60_exceptions.md R343, 40_tables_config.md R145: an operation that answers ERR_STATE, ERR_PARAM or ERR_RESOURCE has
changed nothing, whatever the operation. -/
def Obligations.RefusedCommandsChangeNothing : Prop :=
  ∀ (i : Instr) (σ τ : State) (code : Code), exec i σ = .next τ → τ.response = .code code →
    (code = .errState ∨ code = .errParam ∨ code = .errResource) → τ = { σ with response := .code code }

/-! ### Lifecycle (45_lifecycle_sync.md) -/

/-- R293, R203: START of a Configured stream with valid maps, resources and no failing `queue()` call seeds the stream
and primes 48 descriptors. The pool is a fresh one (its contents are unspecified; the epoch is the model's, log
entry 7). -/
def Obligations.StartSeedsAndPrimes : Prop :=
  ∀ (σ : State) (s ch sp node dbs sos rate : Nat) (q : Option Nat), s < σ.streams.length → ch ≤ 63 → sp ≤ 7 →
    node ≤ 63 → (∀ k, q = some k → 48 ≤ k) →
    let c := σ.stream s
    c.state = .configured → c.mapsOk = true →
    initialStateOf c.sfc.toNat = some (dbs, sos) → rateOf c.sfc.toNat = some rate →
    exec (.start s ch sp node true q) σ = .next { σ with
      response := .code .ok
      allocations := σ.allocations + 1
      streams := σ.streams.set s { c with
        poolAllocated := true, pool := [], poolEpoch := σ.allocations, isoContext := true,
        channel := BitVec.ofNat 6 ch, speed := BitVec.ofNat 3 sp, sourceNodeId := BitVec.ofNat 6 node,
        dataBlockState := BitVec.ofNat 7 dbs, sytOffsetState := BitVec.ofNat 12 sos, lastSytOffset := 3072, dbc := 0,
        transferDelay := BitVec.ofNat 17 (c.transferDelayBase.toNat +
          if c.blocking then 24576000 * c.sytInterval.toNat / rate else 0),
        packetIndex := 0, packetIndexValid := true, callbacked := false, rxSeq := 0, lastError := .ok, carry := [],
        hwq := if c.direction = .send then List.replicate 48 .skip else (List.range 48).map .rx,
        flushed := 48, state := .running } }

/-- R293: where START does not start: an active stream is left as it is with OK; Absent and Idle are ERR_STATE, invalid
maps ERR_PARAM, missing resources ERR_RESOURCE, in that order; nothing changes. -/
def Obligations.StartRefuses : Prop :=
  ∀ (σ : State) (s ch sp node : Nat) (res : Bool) (q : Option Nat), s < σ.streams.length → ch ≤ 63 → sp ≤ 7 →
    node ≤ 63 →
    let c := σ.stream s
    ((c.state = .running ∨ c.state = .recovering) →
      exec (.start s ch sp node res q) σ = .next { σ with response := .code .ok }) ∧
    ((c.state = .absent ∨ c.state = .idle) →
      exec (.start s ch sp node res q) σ = .next { σ with response := .code .errState }) ∧
    (c.state = .configured → c.mapsOk = false →
      exec (.start s ch sp node res q) σ = .next { σ with response := .code .errParam }) ∧
    (c.state = .configured → c.mapsOk = true →
      exec (.start s ch sp node false q) σ = .next { σ with response := .code .errResource })

/-- R293, 60_exceptions.md R345, R346: a priming `queue()` that fails stops the stream: ERR_QUEUE, Idle, no pool, no
context, nothing queued; the counters START seeded keep their new values. -/
def Obligations.PrimingFailureStopsTheStream : Prop :=
  ∀ (σ : State) (s ch sp node dbs sos rate k : Nat), s < σ.streams.length → ch ≤ 63 → sp ≤ 7 → node ≤ 63 → k < 48 →
    let c := σ.stream s
    c.state = .configured → c.mapsOk = true →
    initialStateOf c.sfc.toNat = some (dbs, sos) → rateOf c.sfc.toNat = some rate →
    ∃ τ, exec (.start s ch sp node true (some k)) σ = .next τ ∧ τ.response = .code .errQueue ∧ σ.OnlyStream s τ ∧
      (let c' := τ.stream s
       c'.state = .idle ∧ c'.lastError = .errQueue ∧ c'.packetIndexValid = false ∧ c'.isoContext = false ∧
       c'.poolAllocated = false ∧ c'.hwq = [] ∧ c'.flushed = 0 ∧ c'.carry = [] ∧ c'.pcm = none ∧
       PortsDetached c.midi c'.midi ∧ c'.periodPending = false ∧
       c'.aborts = (if c.pcm.isSome then c.aborts ++ [.errQueue] else c.aborts) ∧
       c'.dbc = 0 ∧ c'.lastSytOffset = 3072 ∧ c'.wire = c.wire ∧ c'.notices = c.notices ∧
       c'.pcmBufferPointer = c.pcmBufferPointer ∧ c'.pcmPeriodPointer = c.pcmPeriodPointer ∧
       (∀ a, c'.pcmByte a = c.pcmByte a) ∧ c.SameConfiguration c')

/-- R295: STOP detaches, tears down and goes to Idle (the invalid packet index is unspecified, R36); on
a stopped stream it is OK and changes nothing. -/
def Obligations.StopTearsDown : Prop :=
  ∀ (σ : State) (s : Nat), s < σ.streams.length →
    let c := σ.stream s
    ((c.state = .running ∨ c.state = .recovering) → ∃ ports index, PortsDetached c.midi ports ∧
      exec (.stop s) σ = .next { σ with
        response := .code .ok
        streams := σ.streams.set s { c with
          pcm := none, midi := ports, isoContext := false, hwq := [], flushed := 0, carry := [],
          poolAllocated := false, pool := [], periodPending := false, packetIndexValid := false,
          packetIndex := index, state := .idle } }) ∧
    ((c.state = .idle ∨ c.state = .configured) → exec (.stop s) σ = .next { σ with response := .code .ok }) ∧
    (c.state = .absent → exec (.stop s) σ = .next { σ with response := .code .errState })

/-- R298: BUS_RESET is always admitted; every Running stream goes to Recovering and nothing else changes. -/
def Obligations.BusResetRecovers : Prop :=
  ∀ σ : State, ∃ τ, exec .busReset σ = .next τ ∧ τ.response = .none ∧ τ.params = σ.params ∧ τ.inbox = σ.inbox ∧
    τ.allocations = σ.allocations ∧ τ.streams.length = σ.streams.length ∧
    ∀ s < σ.streams.length,
      ((σ.stream s).state = .running → τ.stream s = { σ.stream s with state := .recovering }) ∧
      ((σ.stream s).state ≠ .running → τ.stream s = σ.stream s)

/-- R299: UPDATE refreshes the cached node id of an active stream, which is Running afterwards; on a stopped stream it is
OK and changes nothing. -/
def Obligations.UpdateRefreshesTheNodeId : Prop :=
  ∀ (σ : State) (s node : Nat), s < σ.streams.length → node ≤ 63 →
    let c := σ.stream s
    ((c.state = .running ∨ c.state = .recovering) →
      exec (.update s node) σ = .next { σ with
        response := .code .ok
        streams := σ.streams.set s { c with sourceNodeId := BitVec.ofNat 6 node, state := .running } }) ∧
    ((c.state = .idle ∨ c.state = .configured) → exec (.update s node) σ = .next { σ with response := .code .ok }) ∧
    (c.state = .absent → exec (.update s node) σ = .next { σ with response := .code .errState })

/-- R300, R297, 60_exceptions.md R345: UPDATE_FAIL and START_TIMEOUT are a fatal stop of an active stream, with
ERR_DISCONNECT (returned) and ERR_TIMEOUT (no result); the timer is admitted only before the first callback. -/
def Obligations.DisconnectAndTimeoutAreFatalStops : Prop :=
  ∀ (σ : State) (s : Nat), s < σ.streams.length →
    let c := σ.stream s
    ((c.state = .running ∨ c.state = .recovering) → ∃ c', FatalStopped .errDisconnect c c' ∧
      exec (.updateFail s) σ = .next { σ with
        response := .code .errDisconnect, streams := σ.streams.set s c' }) ∧
    ((c.state = .idle ∨ c.state = .configured) →
      exec (.updateFail s) σ = .next { σ with response := .code .ok }) ∧
    (c.state = .absent → exec (.updateFail s) σ = .next { σ with response := .code .errState }) ∧
    ((c.state = .running ∨ c.state = .recovering) → c.callbacked = false → ∃ c', FatalStopped .errTimeout c c' ∧
      exec (.startTimeout s) σ = .next { σ with response := .none, streams := σ.streams.set s c' }) ∧
    (c.active = false ∨ c.callbacked = true → exec (.startTimeout s) σ = .refused .notAdmitted)

/-- R316, R312: STATUS answers in every state, PCM_POINTER in every state but Absent; neither changes anything. Of a
context that DESTROY made Absent the spec leaves the values unspecified (U8): there the answer is the bits DESTROY kept,
by the model's choice (log entry 27). -/
def Obligations.StatusAndPointerRead : Prop :=
  ∀ (σ : State) (s : Nat), s < σ.streams.length →
    let c := σ.stream s
    exec (.status s) σ = .next { σ with
      response := .status c.state c.packetIndexValid c.lastError c.protoViolations } ∧
    (c.state ≠ .absent → exec (.pcmPointer s) σ = .next { σ with response := .pointer c.pcmBufferPointer }) ∧
    (c.state = .absent → exec (.pcmPointer s) σ = .next { σ with response := .code .errState })

/-! ### Bindings and notifications (45_lifecycle_sync.md) -/

/-- R310, R311: PCM_PREPARE resets the cursors of an unbound stream; PCM_BIND attaches a buffer that holds the cursors,
or detaches. A newly bound buffer's bytes are the host's own (log entry 7). -/
def Obligations.PcmPrepareAndBind : Prop :=
  ∀ (σ : State) (s : Nat), s < σ.streams.length →
    let c := σ.stream s
    c.state ≠ .absent →
    (c.pcm = none → exec (.pcmPrepare s) σ = .next { σ with
      response := .code .ok
      streams := σ.streams.set s { c with pcmBufferPointer := 0, pcmPeriodPointer := 0, periodPending := false } }) ∧
    (c.pcm ≠ none → exec (.pcmPrepare s) σ = .next { σ with response := .code .errState }) ∧
    exec (.pcmBind s none) σ = .next { σ with
      response := .code .ok, streams := σ.streams.set s { c with pcm := none } } ∧
    (∀ b : Binding, 1 ≤ b.periodSize → b.periodSize ≤ b.bufferSize → b.bufferSize < 2 ^ 32 →
      (c.pcmBufferPointer.toNat < b.bufferSize → c.pcmPeriodPointer.toNat < b.periodSize →
        exec (.pcmBind s (some b)) σ = .next { σ with
          response := .code .ok
          allocations := σ.allocations + 1
          streams := σ.streams.set s { c with pcm := some b, pcmMemory := [], pcmEpoch := σ.allocations } }) ∧
      (b.bufferSize ≤ c.pcmBufferPointer.toNat ∨ b.periodSize ≤ c.pcmPeriodPointer.toNat →
        exec (.pcmBind s (some b)) σ = .next { σ with response := .code .errParam }))

/-- R313, R315: MIDI_BIND and MIDI_PUSH change one port; unbinding empties its FIFO; pushing to an unbound port is
ERR_STATE. -/
def Obligations.MidiPortsBindAndPush : Prop :=
  ∀ (σ : State) (s p : Nat), s < σ.streams.length → p < 8 →
    let c := σ.stream s
    let old := portOf c.midi p
    let becomes := fun (i : Instr) (x : MidiPort) => ∃ ports : Vector MidiPort 8,
      portOf ports p = x ∧ (∀ p' < 8, p' ≠ p → portOf ports p' = portOf c.midi p') ∧
      exec i σ = .next { σ with response := .code .ok, streams := σ.streams.set s { c with midi := ports } }
    (c.state ≠ .absent →
      becomes (.midiBind s p true) { old with bound := true } ∧
      becomes (.midiBind s p false) { old with bound := false, out := [] } ∧
      ∀ byte : Byte,
        (old.bound = true → becomes (.midiPush s p byte) { old with out := old.out ++ [byte] }) ∧
        (old.bound = false → exec (.midiPush s p byte) σ = .next { σ with response := .code .errState })) ∧
    (c.state = .absent →
      (∀ b, exec (.midiBind s p b) σ = .next { σ with response := .code .errState }) ∧
      ∀ byte, exec (.midiPush s p byte) σ = .next { σ with response := .code .errState })

/-- R314, R399: PERIOD_NOTIFY clears the flag and delivers one notification if a buffer is still bound; it is admitted
only while the flag is set. -/
def Obligations.PeriodNotifyDelivers : Prop :=
  ∀ (σ : State) (s : Nat), s < σ.streams.length →
    let c := σ.stream s
    (c.periodPending = true → exec (.periodNotify s) σ = .next { σ with
      response := .none
      streams := σ.streams.set s { c with
        periodPending := false
        notices := if c.pcm = none then c.notices else c.notices ++ [.periodElapsed] } }) ∧
    (c.periodPending = false → exec (.periodNotify s) σ = .refused .notAdmitted)

/-! ### Scheduler (42_scheduler.md) -/

/-- R195, R196: what DBGEN returns for each rate, from any state a running stream's generator can have: never 0, and at
most the SYT interval, so the packet fits its pool slot. -/
def Obligations.BlockCountsAreInRange : Prop :=
  ∀ c : Context, c.ParamsSound → c.GeneratorsSound →
    let n := c.dbgen.1
    (n ∈ (match c.sfc.toNat with
      | 0 => [4] | 1 => [5, 6] | 2 => [6] | 3 => [11, 12] | 4 => [12] | 5 => [22, 23] | 6 => [24] | _ => [] : List Nat)) ∧
    n ≤ c.sytInterval.toNat ∧ 8 + 4 * n * c.dataBlockQuadlets.toNat ≤ c.bufSize

/-- R194: the exactness law. The block counts of any `P` consecutive packets, from any phase, sum to exactly
`RATE * P / 8000`, which are the rule's numbers. -/
def Obligations.BlockCountsAreExact : Prop :=
  ∀ (c : Context) (rate : Nat), c.GeneratorsSound → rateOf c.sfc.toNat = some rate →
    let period := superPeriod c.sfc.toNat
    8000 ∣ rate * period ∧ (c.blockRun period).sum = rate * period / 8000 ∧
    (c.sfc.toNat, period, rate * period / 8000) ∈
      ([(0, 1, 4), (1, 80, 441), (2, 1, 6), (3, 40, 441), (4, 1, 12), (5, 20, 441), (6, 1, 24)] : List (Nat × Nat × Nat))

/-- R199: the increments from phase 67 are those of the closed form: the `k`-th is `T(k+1) - T(k) - 3072` with
`T(n) = round(n * 655360 / 147)`, for every `k`. -/
def Obligations.SytIncrementsFollowTheClosedForm : Prop :=
  ∀ k : Nat, sytIncrement ((67 + k) % 147) + 3072 + (2 * 655360 * k + 147) / 294 =
    (2 * 655360 * (k + 1) + 147) / 294

/-- R197, R200: at most one packet in a row carries no timestamp, and the running offset stays within 0 to 6143. -/
def Obligations.NoTwoPacketsWithoutTimestamp : Prop :=
  ∀ c : Context, c.GeneratorsSound →
    c.sytgen.2.lastSytOffset.toNat ≤ 6143 ∧ (∀ off, c.sytgen.1 = some off → off < 3072) ∧
    (c.sytgen.1 = none → c.sytgen.2.sytgen.1 ≠ none)

/-- R197, R198, R199: the timestamps are D0's closed-form target. From START, if packet `i` carries a timestamp and `n`
packets before it did, then `i * 3072 + offset` is the time of the `n`-th SYT-interval sample, for every rate, every `i`. -/
def Obligations.TimestampsMeetTheClosedForm : Prop :=
  ∀ (c : Context) (dbs sos i off : Nat),
    initialStateOf c.sfc.toNat = some (dbs, sos) → c.dataBlockState.toNat = dbs → c.sytOffsetState.toNat = sos →
    c.lastSytOffset.toNat = 3072 →
    (c.sytRun (i + 1))[i]? = some (some off) →
    i * 3072 + off = sampleTime c.sfc.toNat ((c.sytRun i).countP Option.isSome)

/-- R200, 30_encoding.md R94, R95: an emitted SYT is "no information" exactly when SYTGEN returned none; else its fields
are the delayed offset and the cycle digit it carries into. -/
def Obligations.EmittedSytFields : Prop :=
  ∀ (c : Context) (cycle : Nat),
    (c.sytgen.1 = none → (c.sytEmit cycle).1 = 0xFFFF) ∧
    (∀ off, c.sytgen.1 = some off →
      let t := off + c.transferDelay.toNat
      (c.sytEmit cycle).1 ≠ 0xFFFF ∧
      (c.sytEmit cycle).1.toNat = (cycle + t / 3072) % 16 * 4096 + t % 3072) ∧
    (c.sytEmit cycle).2 = c.sytgen.2

/-! ### Codec (41_codec.md) -/

/-- R161, R162, R163, R172: the round trip of samples, and the label that is exactly 0x40. -/
def Obligations.SamplesRoundTrip : Prop :=
  (∀ x : BitVec 32, (dec32 (enc32 x)).toNat = x.toNat - x.toNat % 256 ∧ (enc32 x).toNat / 2 ^ 24 = 0x40) ∧
  (∀ y : BitVec 16, (dec32 (enc16 y)).toNat = y.toNat * 2 ^ 16 ∧ (enc16 y).toNat / 2 ^ 24 = 0x40)

/-- R90, R91, R92: the header of a packet built for `n` data blocks, as numbers, and its length. The counter in it is the
one before this packet's blocks. -/
def Obligations.BuiltPacketHeader : Prop :=
  ∀ (c : Context) (order : ByteOrder) (n : Nat) (syt : BitVec 16),
    ∃ bytes, (c.buildPacket order n syt).builtDescriptor n = .tx bytes ∧
      bytes.length = 8 + 4 * n * c.dataBlockQuadlets.toNat ∧
      (quadletAt bytes 0).toNat =
        c.sourceNodeId.toNat * 2 ^ 24 + c.dataBlockQuadlets.toNat * 2 ^ 16 + c.dbc.toNat ∧
      (quadletAt bytes 1).toNat = 0x90000000 + c.sfc.toNat * 2 ^ 16 + syt.toNat ∧
      (c.buildPacket order n syt).dbc.toNat = (c.dbc.toNat + n) % 256

/-- R165, R166, R167: the PCM slots of a packet whose maps are valid: silence when no buffer is bound, else the samples
of the frames from the buffer cursor, two frames a data block with dual wire. -/
def Obligations.BuiltPacketPcmSlots : Prop :=
  ∀ (c : Context) (order : ByteOrder) (n : Nat) (syt : BitVec 16) (bytes : List Byte), c.mapsOk = true →
    (c.buildPacket order n syt).builtDescriptor n = .tx bytes →
    ∀ b < n, ∀ ch < c.pcmChannels.toNat,
      let at_ := fun k => quadletAt bytes (2 + b * c.dataBlockQuadlets.toNat + k)
      let sample := fun buf j => match c.pcmFormat with
        | .s16 => enc16 (BitVec.ofNat 16 (c.sampleAt order ((c.pcmBufferPointer.toNat + j) % buf.bufferSize) ch))
        | .s32 => enc32 (BitVec.ofNat 32 (c.sampleAt order ((c.pcmBufferPointer.toNat + j) % buf.bufferSize) ch))
      match c.pcm, c.dualWire with
      | none, false => at_ (c.position ch) = 0x40000000
      | none, true => at_ (2 * c.position ch) = 0x40000000 ∧ at_ (2 * c.position ch + 1) = 0x40000000
      | some buf, false => at_ (c.position ch) = sample buf b
      | some buf, true => at_ (2 * c.position ch) = sample buf (2 * b) ∧
          at_ (2 * c.position ch + 1) = sample buf (2 * b + 1)

/-- R173: a transmitted packet never contains stale pool bytes: it does not depend on what the pool held. -/
def Obligations.TransmittedPacketHidesThePool : Prop :=
  ∀ (c : Context) (order : ByteOrder) (n : Nat) (syt : BitVec 16) (pool : Memory) (epoch : Nat),
    c.mapsOk = true → c.ParamsSound →
    (c.buildPacket order n syt).builtDescriptor n =
      ({ c with pool := pool, poolEpoch := epoch }.buildPacket order n syt).builtDescriptor n

/-- R169, R170: MIDI_FILL. A port's turns are the data blocks `b` with `(dbc + b) mod 8` equal to it. In its turn a
configured, bound port with a byte left sends exactly that byte, its FIFO's head, as 0x81000000 | byte << 16, and the
byte leaves the FIFO; every other turn sends 0x80000000. So no byte is lost: each port's FIFO is the bytes sent in its
turns, in order, followed by what is left, and nothing else of a port changes. For a dual-wire stream the turns and the
slot are the spec's decision (U4; D23, D24; log entry 22). -/
def Obligations.MidiFillConservesBytes : Prop :=
  ∀ (c : Context) (n p : Nat), p < 8 → 0 < c.midiPorts.toNat →
    let filled := c.midiFill n
    let quadlet := fun b => (filled.1[b]?.getD (0, 0)).2
    let turns := fun b => (List.range b).countP fun b' => (c.dbc.toNat + b') % 8 == p
    let sends := p < c.midiPorts.toNat ∧ (portOf c.midi p).bound = true
    let sent := (List.range n).flatMap fun b => if (c.dbc.toNat + b) % 8 = p then midiBytes (quadlet b) else []
    filled.1.map Prod.fst = (List.range n).map (fun b => 2 + b * c.dataBlockQuadlets.toNat + c.midiPosition.toNat) ∧
    (∀ b < n, (c.dbc.toNat + b) % 8 = p →
      (∀ byte, sends → (portOf c.midi p).out[turns b]? = some byte →
        (quadlet b).toNat = 0x81000000 + byte.toNat * 2 ^ 16) ∧
      (¬ sends ∨ (portOf c.midi p).out.length ≤ turns b → quadlet b = 0x80000000)) ∧
    (sends → (portOf filled.2 p).out = (portOf c.midi p).out.drop (turns n)) ∧
    (portOf c.midi p).out = sent ++ (portOf filled.2 p).out ∧
    (¬ sends → sent = []) ∧
    (portOf filled.2 p).bound = (portOf c.midi p).bound ∧ (portOf filled.2 p).received = (portOf c.midi p).received

/-- R171, 44_receive.md R265: MIDI_EXTRACT gives each configured, bound port the bytes of its turns, in order; a label
other than 0x81, 0x82, 0x83 carries none. A delivered packet's ports are those of MIDI_EXTRACT over its complete data
blocks, where MIDI is configured. For a dual-wire stream the turns and the slot are the spec's decision (U4; D23, D24;
log entry 22). -/
def Obligations.MidiExtractFollowsTheTurns : Prop :=
  (∀ (c : Context) (e : Entry) (n p : Nat), p < 8 →
    let slot := fun b => quadletAt e.bytes (2 + b * c.dataBlockQuadlets.toNat + c.midiPosition.toNat)
    let bytesOf := fun q : Quadlet =>
      if 0x81 ≤ q.toNat / 2 ^ 24 ∧ q.toNat / 2 ^ 24 ≤ 0x83 then
        [BitVec.ofNat 8 (q.toNat / 2 ^ 16), BitVec.ofNat 8 (q.toNat / 2 ^ 8), BitVec.ofNat 8 q.toNat].take
          (q.toNat / 2 ^ 24 - 0x80)
      else []
    portOf (c.extractMidi e n).midi p =
      { portOf c.midi p with
        received := (portOf c.midi p).received ++
          if p < c.midiPorts.toNat ∧ (portOf c.midi p).bound = true then
            (List.range n).flatMap fun b => if (e.dbc.toNat + b) % 8 = p then bytesOf (slot b) else []
          else [] }) ∧
  ∀ (c : Context) (order : ByteOrder) (e : Entry),
    (c.delivered order e).midi =
      if c.midiPorts.toNat = 0 then c.midi
      else (c.extractMidi e ((e.bytes.length / 4 - 2) / c.dataBlockQuadlets.toNat)).midi

/-! ### Transmit (43_transmit.md) -/

/-- R220, R222, R223, R225, R230, R232, 42_scheduler.md R190, R197, R200: TX_COMPLETE of a host-clock stream whose `queue()`
calls succeed consumes `count` descriptors to the wire and builds one packet for each. Packet `i` has DBGEN's `i`-th block
count, headers that count on from `dbc`, and the SYT of SYTGEN's `i`-th offset in cycle `cycle + 48 - count + i + 1` after
the delay (the cycle is the spec's general knowledge: D20, log entry 21). `run` is the stream from packet to packet: each
is the one that TX_PACKET builds and queues (its PCM and MIDI slots: BuiltPacketPcmSlots, MidiFillConservesBytes); then
it flushes. Everything not written out keeps its value: the equation with `c'`'s own values says so. Pool bytes outside
the packets' slots keep what they held, and no byte of the sample buffer changes. For a dual-wire stream with MIDI it
rests on the spec's decisions (U4; log entry 22). -/
def Obligations.TxCompleteBuildsThePackets : Prop :=
  ∀ (σ : State) (s cycle count : Nat), s < σ.streams.length → count ≤ 48 →
    let c := σ.stream s
    c.Sound σ.params.reorderHold → c.active = true → c.direction = .send → count ≤ c.hwq.length →
    σ.isSlave s = false →
    ∃ τ, exec (.txComplete s cycle count none) σ = .next τ ∧ τ.response = .none ∧ σ.OnlyStream s τ ∧
      τ.allocations = σ.allocations ∧
      ∃ (packets : List (List Byte)) (run : Nat → Context), packets.length = count ∧
        (let c' := τ.stream s
         let blocks := c.blockRun count
         blocks.length = count ∧
         c'.wire = c.wire ++ c.hwq.take count ∧
         c'.hwq = c.hwq.drop count ++ packets.map .tx ∧
         c'.flushed = c'.hwq.length ∧ c'.callbacked = true ∧
         c'.packetIndex.toNat = (c.packetIndex.toNat + count) % 48 ∧
         c'.dbc.toNat = (c.dbc.toNat + blocks.sum) % 256 ∧
         (∀ i < count, ∃ packet n, packets[i]? = some packet ∧ blocks[i]? = some n ∧
           1 ≤ n ∧ n ≤ c.sytInterval.toNat ∧ packet.length = 8 + 4 * n * c.dataBlockQuadlets.toNat ∧
           (quadletAt packet 0).toNat = c.sourceNodeId.toNat * 2 ^ 24 + c.dataBlockQuadlets.toNat * 2 ^ 16 +
             (c.dbc.toNat + (blocks.take i).sum) % 256 ∧
           (quadletAt packet 1).toNat = 0x90000000 + c.sfc.toNat * 2 ^ 16 + c.emittedSyt cycle count i) ∧
         run 0 = { c with
           callbacked := true, wire := c.wire ++ c.hwq.take count, hwq := c.hwq.drop count,
           flushed := c.flushed - count } ∧
         (∀ i < count, (run i).sytgen.2.PacketQueued σ.params.hostByteOrder
           (BitVec.ofNat 16 (c.emittedSyt cycle count i)) (run (i + 1))) ∧
         c' = (run count).queueFlush ∧
         c'.dataBlockState = (Nat.iterate (fun d : Context => d.dbgen.2) count c).dataBlockState ∧
         c'.lastSytOffset = (Nat.iterate (fun d : Context => d.sytgen.2) count c).lastSytOffset ∧
         c'.sytOffsetState = (Nat.iterate (fun d : Context => d.sytgen.2) count c).sytOffsetState ∧
         (∀ b, c.pcm = some b →
           let moved := blocks.sum * c.framesPerBlock
           c'.pcmBufferPointer.toNat = (c.pcmBufferPointer.toNat + moved) % b.bufferSize ∧
           c'.pcmPeriodPointer.toNat = (c.pcmPeriodPointer.toNat + moved) % b.periodSize ∧
           (c'.periodPending = true ↔ c.periodPending = true ∨ b.periodSize ≤ c.pcmPeriodPointer.toNat + moved)) ∧
         (c.pcm = none → c'.pcmBufferPointer = c.pcmBufferPointer ∧ c'.pcmPeriodPointer = c.pcmPeriodPointer ∧
           c'.periodPending = c.periodPending) ∧
         (∀ a, (∀ i < count, ∀ n, blocks[i]? = some n →
             let base := (c.packetIndex.toNat + i) % 48 * c.bufSize
             a < base ∨ base + 8 + 4 * n * c.dataBlockQuadlets.toNat ≤ a) → c'.poolByte a = c.poolByte a) ∧
         (∀ p < 8, (portOf c'.midi p).bound = (portOf c.midi p).bound ∧
           (portOf c'.midi p).received = (portOf c.midi p).received ∧
           (portOf c'.midi p).out <:+ (portOf c.midi p).out) ∧
         c' = { c with
           callbacked := true, wire := c'.wire, hwq := c'.hwq, flushed := c'.flushed, dbc := c'.dbc,
           packetIndex := c'.packetIndex, dataBlockState := c'.dataBlockState, lastSytOffset := c'.lastSytOffset,
           sytOffsetState := c'.sytOffsetState, pcmBufferPointer := c'.pcmBufferPointer,
           pcmPeriodPointer := c'.pcmPeriodPointer, periodPending := c'.periodPending, pool := c'.pool,
           midi := c'.midi })

/-- R226: TX_COMPLETE of a slave removes the consumed descriptors, sets `callbacked` and builds nothing. -/
def Obligations.SlaveTxCompleteBuildsNothing : Prop :=
  ∀ (σ : State) (s cycle count : Nat) (q : Option Nat), s < σ.streams.length → count ≤ 48 →
    let c := σ.stream s
    c.Sound σ.params.reorderHold → c.active = true → c.direction = .send → count ≤ c.hwq.length →
    σ.isSlave s = true →
    exec (.txComplete s cycle count q) σ = .next { σ with
      response := .none
      streams := σ.streams.set s { c with
        callbacked := true, wire := c.wire ++ c.hwq.take count, hwq := c.hwq.drop count,
        flushed := (c.hwq.drop count).length } }

/-- R228, 60_exceptions.md R345, R346: a `queue()` that fails while building stops the stream in the same operation: the
consumed descriptors are on the wire, the failed packet and all queued ones never are, the cursors stand after the `k`
packets before the failed one, `dbc` and the generators after the failed one, and the stream is as a fatal stop with
ERR_QUEUE leaves it. No byte of the sample buffer changes, and what is not written out keeps its value. -/
def Obligations.TxQueueFailureStopsTheStream : Prop :=
  ∀ (σ : State) (s cycle count k : Nat), s < σ.streams.length → count ≤ 48 → k < count →
    let c := σ.stream s
    c.Sound σ.params.reorderHold → c.active = true → c.direction = .send → count ≤ c.hwq.length →
    σ.isSlave s = false →
    ∃ τ, exec (.txComplete s cycle count (some k)) σ = .next τ ∧ τ.response = .none ∧ σ.OnlyStream s τ ∧
      (let c' := τ.stream s
       let moved := (c.blockRun k).sum * c.framesPerBlock
       c'.state = .idle ∧ c'.lastError = .errQueue ∧ c'.packetIndexValid = false ∧ c'.isoContext = false ∧
       c'.poolAllocated = false ∧ c'.pool = [] ∧ c'.hwq = [] ∧ c'.flushed = 0 ∧ c'.carry = [] ∧ c'.pcm = none ∧
       PortsDetached c.midi c'.midi ∧ c'.periodPending = false ∧
       c'.aborts = (if c.pcm.isSome then c.aborts ++ [.errQueue] else c.aborts) ∧
       c'.wire = c.wire ++ c.hwq.take count ∧ c'.notices = c.notices ∧ c.SameConfiguration c' ∧
       c'.pcmMemory = c.pcmMemory ∧ (∀ a, c'.pcmByte a = c.pcmByte a) ∧
       (c.pcm = none → c'.pcmBufferPointer = c.pcmBufferPointer ∧ c'.pcmPeriodPointer = c.pcmPeriodPointer) ∧
       (∀ b, c.pcm = some b →
         c'.pcmBufferPointer.toNat = (c.pcmBufferPointer.toNat + moved) % b.bufferSize ∧
         c'.pcmPeriodPointer.toNat = (c.pcmPeriodPointer.toNat + moved) % b.periodSize) ∧
       c'.dbc.toNat = (c.dbc.toNat + (c.blockRun (k + 1)).sum) % 256 ∧
       c'.dataBlockState = (Nat.iterate (fun d : Context => d.dbgen.2) (k + 1) c).dataBlockState ∧
       c'.lastSytOffset = (Nat.iterate (fun d : Context => d.sytgen.2) (k + 1) c).lastSytOffset ∧
       c'.sytOffsetState = (Nat.iterate (fun d : Context => d.sytgen.2) (k + 1) c).sytOffsetState ∧
       c'.protoViolations = c.protoViolations ∧
       c' = { c with
         callbacked := true, state := .idle, lastError := .errQueue, packetIndexValid := false,
         packetIndex := c'.packetIndex, isoContext := false, poolAllocated := false, pool := [], hwq := [], flushed := 0,
         carry := [], pcm := none, midi := c'.midi, periodPending := false, aborts := c'.aborts, wire := c'.wire,
         dbc := c'.dbc, dataBlockState := c'.dataBlockState, lastSytOffset := c'.lastSytOffset,
         sytOffsetState := c'.sytOffsetState, pcmBufferPointer := c'.pcmBufferPointer,
         pcmPeriodPointer := c'.pcmPeriodPointer })

/-- R231: binding a buffer never changes the wire cadence: two streams that differ only in the binding, the buffer and
the cursors build packets of the same header and length, and their counters, generators and queues agree. -/
def Obligations.BindingKeepsTheCadence : Prop :=
  ∀ (c : Context) (order : ByteOrder) (q : Option Nat) (k : Nat) (syt : BitVec 16) (pcm : Option Binding)
    (mem : Memory) (epoch : Nat) (bp pp : BitVec 32) (pending : Bool),
    let d := { c with pcm := pcm, pcmMemory := mem, pcmEpoch := epoch, pcmBufferPointer := bp, pcmPeriodPointer := pp,
                      periodPending := pending }
    let c' := c.txPacket order q k syt
    let d' := d.txPacket order q k syt
    c'.state = d'.state ∧ c'.dbc = d'.dbc ∧ c'.dataBlockState = d'.dataBlockState ∧
    c'.packetIndex = d'.packetIndex ∧ c'.lastSytOffset = d'.lastSytOffset ∧ c'.sytOffsetState = d'.sytOffsetState ∧
    c'.midi = d'.midi ∧ c'.hwq.length = d'.hwq.length ∧
    ∀ (i : Nat) (x y : List Byte), c'.hwq[i]? = some (.tx x) → d'.hwq[i]? = some (.tx y) →
      x.length = y.length ∧ quadletAt x 0 = quadletAt y 0 ∧ quadletAt x 1 = quadletAt y 1

/-! ### Receive (44_receive.md) -/

/-- R252, R253, R254, 30_encoding.md R101, R104: VALIDATE's three verdicts, with the fields as numbers. A packet without a
whole header is dropped silently; a header bit or FMT that does not match is a violation; then FDF 0xFF (no data) or no
complete data block is dropped silently; then an FDF that is not the stream's rate code is a violation; what is left is
accepted. The check of bit 31 of quadlet 0, the code 0xFF and the order are the spec's own decision (D26; log
entry 21). -/
def Obligations.ValidateAccepts : Prop :=
  ∀ (c : Context) (pkt : List Byte), 1 ≤ c.dataBlockQuadlets.toNat →
    let header := (quadletAt pkt 0).toNat < 2 ^ 31 ∧ (quadletAt pkt 1).toNat / 2 ^ 31 = 1 ∧
      (quadletAt pkt 1).toNat / 2 ^ 24 % 64 = 0x10
    let fdf := (quadletAt pkt 1).toNat / 2 ^ 16 % 256
    let block := 8 + 4 * c.dataBlockQuadlets.toNat ≤ pkt.length
    (c.validate pkt = .accept ↔ block ∧ header ∧ fdf = c.sfc.toNat) ∧
    (c.validate pkt = .dropViolation ↔
      8 ≤ pkt.length ∧ (¬ header ∨ (fdf ≠ 0xFF ∧ block ∧ fdf ≠ c.sfc.toNat))) ∧
    (c.validate pkt = .dropSilent ↔ pkt.length < 8 ∨ (header ∧ (fdf = 0xFF ∨ ¬ block)))

/-- R258: SORT discards nothing and invents nothing: the table is a rearrangement of the carry and the new entries. -/
def Obligations.SortRearranges : Prop :=
  ∀ carry new : List Entry, (sortEntries carry new).Perm (carry ++ new)

/-- R261: if the counters of the carry and the arrivals lie within one window of 128 consecutive values, are pairwise
distinct, and the carry is in counter order, SORT returns the table in strictly increasing counter order. -/
def Obligations.SortOrdersTheWindow : Prop :=
  ∀ (carry new : List Entry) (base : BitVec 8),
    (∀ e ∈ carry ++ new, (e.dbc - base).toNat ≤ 127) →
    ((carry ++ new).map Entry.dbc).Nodup →
    carry.Pairwise (fun a b => (a.dbc - base).toNat < (b.dbc - base).toNat) →
    (sortEntries carry new).Pairwise fun a b => (a.dbc - base).toNat < (b.dbc - base).toNat

/-- R250, R253, R255, R260, R262, R265, R270: what RX_COMPLETE leaves of its own stream, no oracle failing a `queue()`
call, whether or not the stream drives a slave: the sequence ids, the violations counted, the batch in its pool slots,
the receive buffers queued again, the entries after `delivered` carried, the running counter after the last delivered
packet, the cursors past the delivered frames. The sample buffer and the ports are what the delivered entries, one after
another, make of them (`after`; what one delivery stores: DecodedSamplesAreReadBack, MidiExtractFollowsTheTurns). Bytes
outside the batch's pool slots and outside the delivered frames of the sample buffer keep what they held; what is not
written out keeps its value; a stream that is not a slave being driven does not change. -/
def Obligations.RxCompleteKeepsTheBooks : Prop :=
  ∀ (σ : State) (s cycle : Nat) (batch : List (List Byte)), s < σ.streams.length → batch.length ≤ 48 →
    let c := σ.stream s
    σ.Sound → c.active = true → c.direction = .receive →
    (∀ p ∈ batch, p.length % 4 = 0 ∧ p.length ≤ c.bufSize) →
    ∃ τ, exec (.rxComplete s cycle batch none) σ = .next τ ∧ τ.response = .none ∧ τ.params = σ.params ∧
      τ.inbox = σ.inbox ∧ τ.allocations = σ.allocations ∧ τ.streams.length = σ.streams.length ∧
      (∀ s', s' ≠ s → (c.syncSlave = some s' → (σ.stream s').drivable = false) → τ.stream s' = σ.stream s') ∧
      (let c' := τ.stream s
       let new := (Context.intake batch { c with callbacked := true }).2
       let table := sortEntries c.carry new
       let delivered := table.take (table.length - min table.length σ.params.reorderHold)
       let moved := (delivered.map fun e => c.blockCount e.bytes.length * c.framesPerBlock).sum
       let after := delivered.foldl (fun d e => d.delivered σ.params.hostByteOrder e)
         (Context.intake batch { c with callbacked := true }).1
       delivered = σ.deliveries s batch ∧ c'.pcmMemory = after.pcmMemory ∧ c'.midi = after.midi ∧
       c'.rxSeq = c.rxSeq + BitVec.ofNat 32 batch.length ∧
       c'.protoViolations = c.protoViolations + BitVec.ofNat 32 (batch.countP fun p => c.validate p == .dropViolation) ∧
       new.map Entry.bytes = batch.filter (fun p => c.validate p == .accept) ∧
       (∀ e ∈ new, e.dbc.toNat = (quadletAt e.bytes 0).toNat % 256) ∧
       c'.carry = table.drop (table.length - min table.length σ.params.reorderHold) ∧
       c'.packetIndex.toNat = (c.packetIndex.toNat + batch.length) % 48 ∧
       c'.hwq = (List.range 48).map (fun k => .rx ((c'.packetIndex.toNat + k) % 48)) ∧ c'.flushed = 48 ∧
       (delivered = [] → c'.dbc = c.dbc) ∧
       (∀ e, delivered.getLast? = some e →
         c'.dbc.toNat = (e.dbc.toNat + c.blockCount e.bytes.length) % 256) ∧
       (∀ p < 8, (portOf c'.midi p).bound = (portOf c.midi p).bound ∧ (portOf c'.midi p).out = (portOf c.midi p).out ∧
         (portOf c.midi p).received <+: (portOf c'.midi p).received) ∧
       (c.pcm = none → c'.pcmMemory = c.pcmMemory ∧ c'.pcmBufferPointer = c.pcmBufferPointer ∧
         c'.pcmPeriodPointer = c.pcmPeriodPointer ∧ c'.periodPending = c.periodPending) ∧
       (∀ b, c.pcm = some b →
         c'.pcmBufferPointer.toNat = (c.pcmBufferPointer.toNat + moved) % b.bufferSize ∧
         c'.pcmPeriodPointer.toNat = (c.pcmPeriodPointer.toNat + moved) % b.periodSize ∧
         (c'.periodPending = true ↔ c.periodPending = true ∨ b.periodSize ≤ c.pcmPeriodPointer.toNat + moved) ∧
         ∀ a, (∀ j < moved, ∀ ch < c.pcmChannels.toNat,
             let base := c.sampleAddress ((c.pcmBufferPointer.toNat + j) % b.bufferSize) ch
             a < base ∨ base + c.sampleSize ≤ a) → c'.pcmByte a = c.pcmByte a) ∧
       (∀ j (hj : j < batch.length), ∀ o (ho : o < batch[j].length),
         c'.poolByte ((c.packetIndex.toNat + j) % 48 * c.bufSize + o) = batch[j][o]) ∧
       (∀ a, (∀ j (hj : j < batch.length),
           let base := (c.packetIndex.toNat + j) % 48 * c.bufSize
           a < base ∨ base + batch[j].length ≤ a) → c'.poolByte a = c.poolByte a) ∧
       c' = { c with
         callbacked := true, rxSeq := c'.rxSeq, protoViolations := c'.protoViolations, carry := c'.carry,
         packetIndex := c'.packetIndex, hwq := c'.hwq, pool := c'.pool, dbc := c'.dbc, midi := c'.midi,
         pcmMemory := c'.pcmMemory, pcmBufferPointer := c'.pcmBufferPointer,
         pcmPeriodPointer := c'.pcmPeriodPointer, periodPending := c'.periodPending })

/-- R266, R270, R271, 45_lifecycle_sync.md R302 (f), 60_exceptions.md R345, R346, R348, 70_reset_and_hazards.md R395: a
`queue()` that fails in RX_COMPLETE stops the stream it would have queued on, and no other.

While the master drives: call `j` fails because the oracle names it or because the slave's queue holds 48 then, and no
other call is made to fail. The slave, `j` packets of this operation built and queued and one built, is as a fatal stop
with ERR_QUEUE leaves it; the master finishes as in the run `ok` without an oracle; no third stream changes.

While the buffers are queued again: the stream is as a fatal stop with ERR_QUEUE leaves it, every delivery of the callback
has taken place, as in the run `ok` whose calls succeed, and every other stream is as in that run: slave packets already
queued and flushed stay queued. The calls the deliveries make, `slaveCalls`, are counted first. -/
def Obligations.RxQueueFailureStopsTheStream : Prop :=
  (∀ (σ : State) (m t cycle j : Nat) (batch : List (List Byte)) (q : Option Nat), m < σ.streams.length →
    batch.length ≤ 48 →
    let c := σ.stream m
    let tc := σ.stream t
    let entries := σ.deliveries m batch
    σ.Sound → c.active = true → c.direction = .receive → c.syncSlave = some t → tc.drivable = true →
    (∀ p ∈ batch, p.length % 4 = 0 ∧ p.length ≤ c.bufSize) →
    j < entries.length → tc.hwq.length + j ≤ 48 → (q = some j ∨ tc.hwq.length + j = 48) →
    (∀ k, q = some k → k = j ∨ j + batch.length < k) →
    ∃ (τ ok : State) (run : Nat → Context) (syt : Nat → BitVec 16),
      exec (.rxComplete m cycle batch q) σ = .next τ ∧ exec (.rxComplete m cycle batch none) σ = .next ok ∧
      τ.response = .none ∧ τ.params = σ.params ∧ τ.inbox = σ.inbox ∧ τ.allocations = σ.allocations ∧
      τ.streams.length = σ.streams.length ∧
      τ.stream m = ok.stream m ∧ (∀ s', s' ≠ m → s' ≠ t → τ.stream s' = σ.stream s') ∧
      run 0 = tc ∧
      (∀ i (h : i < entries.length), (syt i).toNat = entries[i].drivenSyt tc.transferDelay.toNat) ∧
      (∀ i < j, (run i).PacketQueued σ.params.hostByteOrder (syt i) (run (i + 1))) ∧
      FatalStopped .errQueue ((run j).withPacket σ.params.hostByteOrder (syt j)) (τ.stream t)) ∧
  (∀ (σ : State) (s cycle k : Nat) (batch : List (List Byte)), s < σ.streams.length → batch.length ≤ 48 →
    σ.slaveCalls s batch ≤ k → k < σ.slaveCalls s batch + batch.length →
    let c := σ.stream s
    σ.Sound → c.active = true → c.direction = .receive →
    (∀ p ∈ batch, p.length % 4 = 0 ∧ p.length ≤ c.bufSize) →
    ∃ τ ok, exec (.rxComplete s cycle batch (some k)) σ = .next τ ∧ τ.response = .none ∧
      exec (.rxComplete s cycle batch none) σ = .next ok ∧
      τ.params = σ.params ∧ τ.inbox = σ.inbox ∧ τ.allocations = σ.allocations ∧
      τ.streams.length = σ.streams.length ∧ (∀ s', s' ≠ s → τ.stream s' = ok.stream s') ∧
      (σ.drivenSlave s = none → σ.OnlyStream s τ) ∧
      (let c' := τ.stream s
       let d := ok.stream s
       c'.state = .idle ∧ c'.lastError = .errQueue ∧ c'.packetIndexValid = false ∧ c'.isoContext = false ∧
       c'.poolAllocated = false ∧ c'.pool = [] ∧ c'.hwq = [] ∧ c'.flushed = 0 ∧ c'.carry = [] ∧ c'.pcm = none ∧
       PortsDetached d.midi c'.midi ∧ c'.periodPending = false ∧
       c'.aborts = (if c.pcm.isSome then c.aborts ++ [.errQueue] else c.aborts) ∧
       c'.wire = c.wire ∧ c'.notices = c.notices ∧ c.SameConfiguration c' ∧
       c'.pcmMemory = d.pcmMemory ∧ c'.pcmBufferPointer = d.pcmBufferPointer ∧
       c'.pcmPeriodPointer = d.pcmPeriodPointer ∧ c'.dbc = d.dbc ∧ c'.rxSeq = d.rxSeq ∧
       c'.protoViolations = d.protoViolations))

/-- R252, R253, R254: a batch of dropped packets only, with nothing carried, delivers nothing: the running counter, the
ports, the sample buffer and the cursors keep their values, and only the violations are counted. -/
def Obligations.DroppedPacketsLeaveNoTrace : Prop :=
  ∀ (σ : State) (s cycle : Nat) (batch : List (List Byte)), s < σ.streams.length → batch.length ≤ 48 →
    let c := σ.stream s
    σ.Sound → c.active = true → c.direction = .receive → c.carry = [] →
    (∀ p ∈ batch, p.length % 4 = 0 ∧ p.length ≤ c.bufSize ∧ c.validate p ≠ .accept) →
    ∃ τ, exec (.rxComplete s cycle batch none) σ = .next τ ∧
      (∀ s', s' ≠ s → τ.stream s' = σ.stream s') ∧
      (let c' := τ.stream s
       c'.dbc = c.dbc ∧ c'.midi = c.midi ∧ c'.pcmMemory = c.pcmMemory ∧ c'.carry = [] ∧
       c'.pcmBufferPointer = c.pcmBufferPointer ∧ c'.pcmPeriodPointer = c.pcmPeriodPointer ∧
       c'.periodPending = c.periodPending ∧
       c'.protoViolations = c.protoViolations + BitVec.ofNat 32 (batch.countP fun p => c.validate p == .dropViolation))

/-- R265, R266, R271, 20_memory.md R80: each entry a master delivers drives one packet of its slave, whose queue has room
for them all. `run` is the slave from packet to packet: the `i`-th entry's packet is the one that TX_PACKET builds and
queues, its header carries the slave's own counter and the received SYT with the slave's delay added; then the slave's
queue is flushed. What is not written out keeps its value: the slave's SYT generator does not move, no byte of its sample
buffer changes, nor any of its pool outside a packet's slot. The master's own part is RxCompleteKeepsTheBooks, a slave
whose `queue()` fails RxQueueFailureStopsTheStream. -/
def Obligations.MasterDrivesItsSlave : Prop :=
  ∀ (σ : State) (m t cycle : Nat) (batch : List (List Byte)), m < σ.streams.length → batch.length ≤ 48 →
    let c := σ.stream m
    let tc := σ.stream t
    let entries := σ.deliveries m batch
    σ.Sound → c.active = true → c.direction = .receive → c.syncSlave = some t → tc.drivable = true →
    (∀ p ∈ batch, p.length % 4 = 0 ∧ p.length ≤ c.bufSize) → tc.hwq.length + entries.length ≤ 48 →
    ∃ (τ : State) (run : Nat → Context), exec (.rxComplete m cycle batch none) σ = .next τ ∧ run 0 = tc ∧
      τ.stream t = { run entries.length with flushed := (run entries.length).hwq.length } ∧
      (∀ s', s' ≠ m → s' ≠ t → τ.stream s' = σ.stream s') ∧
      ∀ i (hi : i < entries.length), ∃ bytes n,
        let a := run i
        let b := run (i + 1)
        let syt := entries[i].drivenSyt tc.transferDelay.toNat
        let base := a.packetIndex.toNat * a.bufSize
        a.PacketQueued σ.params.hostByteOrder (BitVec.ofNat 16 syt) b ∧
        b.hwq = a.hwq ++ [.tx bytes] ∧ n = a.dbgen.1 ∧ 1 ≤ n ∧
        bytes.length = 8 + 4 * n * a.dataBlockQuadlets.toNat ∧
        (quadletAt bytes 0).toNat =
          a.sourceNodeId.toNat * 2 ^ 24 + a.dataBlockQuadlets.toNat * 2 ^ 16 + a.dbc.toNat ∧
        (quadletAt bytes 1).toNat = 0x90000000 + a.sfc.toNat * 2 ^ 16 + syt ∧
        b.dbc.toNat = (a.dbc.toNat + n) % 256 ∧ b.packetIndex.toNat = (a.packetIndex.toNat + 1) % 48 ∧
        (∀ x, x < base ∨ base + bytes.length ≤ x → b.poolByte x = a.poolByte x) ∧
        (∀ p < 8, (portOf b.midi p).bound = (portOf a.midi p).bound ∧
          (portOf b.midi p).received = (portOf a.midi p).received ∧
          (portOf b.midi p).out <:+ (portOf a.midi p).out) ∧
        (a.pcm = none → b.pcmBufferPointer = a.pcmBufferPointer ∧ b.pcmPeriodPointer = a.pcmPeriodPointer ∧
          b.periodPending = a.periodPending) ∧
        (∀ buf, a.pcm = some buf →
          let moved := n * a.framesPerBlock
          b.pcmBufferPointer.toNat = (a.pcmBufferPointer.toNat + moved) % buf.bufferSize ∧
          b.pcmPeriodPointer.toNat = (a.pcmPeriodPointer.toNat + moved) % buf.periodSize ∧
          (b.periodPending = true ↔ a.periodPending = true ∨ buf.periodSize ≤ a.pcmPeriodPointer.toNat + moved)) ∧
        b = { a with
          hwq := b.hwq, dbc := b.dbc, packetIndex := b.packetIndex, dataBlockState := b.dataBlockState,
          pcmBufferPointer := b.pcmBufferPointer, pcmPeriodPointer := b.pcmPeriodPointer,
          periodPending := b.periodPending, pool := b.pool, midi := b.midi }

/-- R163, R168, 44_receive.md R265: a packet's samples stand in the sample buffer at the frames from the cursor, for a
packet of no more frames than the buffer has: after DECODE, and after the delivery of the packet to a stream with that
buffer bound. -/
def Obligations.DecodedSamplesAreReadBack : Prop :=
  ∀ (c : Context) (order : ByteOrder) (buf : Binding) (e : Entry) (n : Nat), c.pcmFormat = .s32 →
    n * c.framesPerBlock ≤ buf.bufferSize →
    ∀ b < n, ∀ ch < c.pcmChannels.toNat,
      let frame := fun j => (c.pcmBufferPointer.toNat + j) % buf.bufferSize
      let sample := fun k =>
        (quadletAt e.bytes (2 + b * c.dataBlockQuadlets.toNat + k)).toNat % 2 ^ 24 * 256
      let holds := fun c' : Context =>
        if c.dualWire then
          c'.sampleAt order (frame (2 * b)) ch = sample (2 * c.position ch) ∧
          c'.sampleAt order (frame (2 * b + 1)) ch = sample (2 * c.position ch + 1)
        else c'.sampleAt order (frame b) ch = sample (c.position ch)
      holds (c.decodePcm order buf e n) ∧
      (c.pcm = some buf → (e.bytes.length / 4 - 2) / c.dataBlockQuadlets.toNat = n → holds (c.delivered order e))

/-! ### Wire formats (30_encoding.md) -/

/-- R91, R92, R94, R101, R103 (i), 41_codec.md R163, R171: the reading of each wire-format word. That a word presented by
itself is answered with its reading is the model's choice (log entry 3); nothing but the response changes. -/
def Obligations.WireWordsAreRead : Prop :=
  ∀ σ : State,
    let reads := fun (i : Instr) (r : WireReading) => exec i σ = .next { σ with response := .reading r }
    (∀ sid dbs dbc, reads (.cipQ0 sid dbs dbc) (.headerQ0 dbc)) ∧
    (∀ (sfc : BitVec 3) syt, reads (.cipQ1 sfc syt) (.headerQ1 (BitVec.ofNat 8 sfc.toNat) syt)) ∧
    (∀ form fdf syt, fdf ≠ 0xFF#8 → reads (.cipQ1RxMatch form fdf syt) (.headerQ1 fdf syt)) ∧
    (∀ form syt, reads (.cipQ1NoData form syt) .noData) ∧
    reads .sytNoInfo .noTimestamp ∧
    (∀ cycle4 offset, (cycle4 ≠ 0xF#4 ∨ offset ≠ 0xFFF#12) →
      reads (.sytTimestamp cycle4 offset) (.timestamp cycle4 offset)) ∧
    (∀ x : BitVec 24, reads (.am824Pcm x) (.sample (BitVec.ofNat 32 (x.toNat * 256)))) ∧
    (∀ low, reads (.am824MidiNoData low) (.midi [])) ∧
    (∀ b1 low, reads (.am824Midi1 b1 low) (.midi [b1])) ∧
    (∀ b1 b2 low, reads (.am824Midi2 b1 b2 low) (.midi [b1, b2])) ∧
    (∀ b1 b2 b3, reads (.am824Midi3 b1 b2 b3) (.midi [b1, b2, b3]))

/-! ### The whole machine -/

/-- 10_state.md R24: while a stream is active, no operation at all changes its transfer mode, rate, channel counts,
position maps, direction, transfer-delay base or pairing. -/
def Obligations.ConfigurationIsImmutableWhileActive : Prop :=
  ∀ (i : Instr) (σ τ : State) (s : Nat), exec i σ = .next τ → (σ.stream s).active = true →
    (σ.stream s).SameConfiguration (τ.stream s)

/-- 45_lifecycle_sync.md R290: a stream's lifecycle state changes only by the transitions of the table, each by its own
operation. -/
def Obligations.OnlyTheTableChangesTheState : Prop :=
  ∀ (i : Instr) (σ τ : State) (s : Nat), exec i σ = .next τ → (τ.stream s).state ≠ (σ.stream s).state →
    Transition i σ s (σ.stream s).state (τ.stream s).state

/-- 10_state.md R47: every output trace is append-only, whatever the operation. -/
def Obligations.TracesOnlyGrow : Prop :=
  ∀ (i : Instr) (σ τ : State) (s : Nat), exec i σ = .next τ → (σ.stream s).TracesGrow (τ.stream s)

/-- 60_exceptions.md R365: an operation that names a stream changes no other stream, but for a master's RX_COMPLETE,
which may change its slave; and no operation changes the parameters, the number of streams or what is presented next. -/
def Obligations.OtherStreamsAreUntouched : Prop :=
  ∀ (i : Instr) (σ τ : State), exec i σ = .next τ →
    τ.params = σ.params ∧ τ.inbox = σ.inbox ∧ τ.streams.length = σ.streams.length ∧
    ∀ s s', targetOf i = some s → s' ≠ s →
      (∀ cycle batch q, i = .rxComplete s cycle batch q → (σ.stream s).syncSlave ≠ some s') →
      τ.stream s' = σ.stream s'

/-- Every step keeps the memories in canonical form, from every state that has it (log entry 7: the form is the
model's). -/
def Obligations.StepKeepsMemoryCanonical : Prop :=
  ∀ σ τ : State, (∀ s, (σ.stream s).MemorySound) → step σ = .next τ → ∀ s, (τ.stream s).MemorySound

/-- The invariant of the machine: every step from a sound state leaves a sound state (10_state.md R21, R24, R33, R36, R40
to R44; 20_memory.md R79; 42_scheduler.md R197; 44_receive.md R262, R270; 40_tables_config.md R143). -/
def Obligations.StepKeepsStatesSound : Prop :=
  ∀ σ τ : State, σ.Sound → step σ = .next τ → τ.Sound

/-- The state after reset is sound, for every number of streams and every parameter. -/
def Obligations.ResetIsSound : Prop :=
  ∀ (n : Nat) (hn : 1 ≤ n) (p : Params), (State.resetWith n hn p).Sound

/-- From a sound state no step ends in a fault of the model: the engine never leaves its spaces (20_memory.md R61, R64,
R69) and no reserved rate is used (30_encoding.md R100). -/
def Obligations.SoundStatesNeverFault : Prop :=
  ∀ σ : State, σ.Sound → σ.stepSafe
end

