-- ==== Sys2Proof/Laws/Memory.lean ====
section
/-! SUPPORT. Memory: a read after a write, and the canonical form every memory operation keeps. -/

namespace Sys2Proof.Machine

/-- A read after a write gives the value written at its address and what was there elsewhere. -/
theorem Memory.read?_write (m : Memory) (a x : Nat) (b : Byte) :
    (m.write a b).read? x = if x = a then some b else m.read? x := by
  induction m with
  | nil => simp [Memory.write, Memory.read?, eq_comm]
  | cons kv m ih =>
    obtain ⟨k, v⟩ := kv
    simp only [Memory.write]
    split
    · simp only [Memory.read?, eq_comm (a := a)]
    · split
      · subst a
        rcases eq_or_ne x k with rfl | hx
        · simp [Memory.read?]
        · simp only [Memory.read?, if_neg hx, if_neg (Ne.symm hx)]
      · simp only [Memory.read?, ih]
        rcases eq_or_ne k x with rfl | hx
        · rw [if_pos rfl, if_neg (by omega)]
          simp
        · simp only [if_neg hx]

/-- A read after storing bytes gives the stored byte inside their range and what was there outside it. -/
theorem Memory.read?_writeBytes (m : Memory) (a x : Nat) (bs : List Byte) :
    (m.writeBytes a bs).read? x = if a ≤ x ∧ x < a + bs.length then bs[x - a]? else m.read? x := by
  induction bs generalizing m a with
  | nil => simp only [Memory.writeBytes, List.length_nil]; split <;> first | rfl | omega
  | cons b bs ih =>
    simp only [Memory.writeBytes, ih, Memory.read?_write, List.length_cons]
    by_cases hx : x = a
    · subst hx; simp
    · by_cases h : a + 1 ≤ x ∧ x < a + 1 + bs.length
      · have h' : a ≤ x ∧ x < a + (bs.length + 1) := by omega
        rw [if_pos h, if_pos h', show x - a = (x - (a + 1)) + 1 by omega, List.getElem?_cons_succ]
      · rw [if_neg h, if_neg hx, if_neg (by omega)]

/-- A byte outside the stored range reads as before. -/
theorem Memory.byte_writeBytes_outside (m : Memory) (epoch a x : Nat) (bs : List Byte)
    (h : x < a ∨ a + bs.length ≤ x) : (m.writeBytes a bs).byte epoch x = m.byte epoch x := by
  simp only [Memory.byte, Memory.read?_writeBytes]
  rw [if_neg (by omega)]

/-- A byte inside the stored range reads as the byte stored there. -/
theorem Memory.byte_writeBytes_inside (m : Memory) (epoch a k : Nat) (bs : List Byte) (h : k < bs.length) :
    (m.writeBytes a bs).byte epoch (a + k) = bs[k] := by
  simp only [Memory.byte, Memory.read?_writeBytes]
  rw [if_pos (by omega), Nat.add_sub_cancel_left, List.getElem?_eq_getElem h, Option.getD_some]

/-- Every address after a write is the written one or was listed before. -/
theorem Memory.mem_write {m : Memory} {a : Nat} {b : Byte} {y : Host.Cell} (h : y ∈ m.write a b) :
    y.1 = a ∨ y ∈ m := by
  induction m with
  | nil => simp only [Memory.write, List.mem_singleton] at h; subst h; exact .inl rfl
  | cons kv m ih =>
    obtain ⟨k, v⟩ := kv
    simp only [Memory.write] at h
    split at h
    · rcases List.mem_cons.mp h with rfl | h
      · exact .inl rfl
      · exact .inr h
    · split at h
      · rcases List.mem_cons.mp h with rfl | h
        · exact .inl rfl
        · exact .inr (List.mem_cons_of_mem _ h)
      · rcases List.mem_cons.mp h with rfl | h
        · exact .inr (List.mem_cons_self ..)
        · exact (ih h).imp id (List.mem_cons_of_mem _)

/-- A write keeps the canonical form. -/
theorem Memory.write_wf {m : Memory} (h : m.wf) (a : Nat) (b : Byte) : (m.write a b).wf := by
  induction m with
  | nil => simp [Memory.write, Memory.wf]
  | cons kv m ih =>
    obtain ⟨k, v⟩ := kv
    obtain ⟨hk, hm⟩ := List.pairwise_cons.mp h
    simp only [Memory.write]
    split
    · refine List.pairwise_cons.mpr ⟨fun y hy => ?_, h⟩
      rcases List.mem_cons.mp hy with rfl | hy
      · assumption
      · exact Nat.lt_trans ‹_› (hk y hy)
    · split
      · subst a; exact List.pairwise_cons.mpr ⟨hk, hm⟩
      · refine List.pairwise_cons.mpr ⟨fun y hy => ?_, ih hm⟩
        rcases Memory.mem_write hy with hy | hy
        · simp only [hy]; omega
        · exact hk y hy

/-- Storing bytes keeps the canonical form. -/
theorem Memory.writeBytes_wf {m : Memory} (h : m.wf) (a : Nat) (bs : List Byte) : (m.writeBytes a bs).wf := by
  induction bs generalizing m a with
  | nil => exact h
  | cons b bs ih => exact ih (Memory.write_wf h a b) (a + 1)

/-- Storing quadlets in a pool slot keeps the canonical form. -/
theorem Context.writeSlot_wf {c : Context} (h : c.pool.wf) (i : Nat) (ws : List (Nat × Quadlet)) :
    (c.writeSlot i ws).pool.wf := by
  suffices ∀ m : Memory, m.wf →
      (ws.foldl (fun m w => m.writeBytes (c.slotBase i + 4 * w.1) (quadletBytes w.2)) m).wf from this c.pool h
  induction ws with
  | nil => exact fun _ h => h
  | cons w ws ih => exact fun m h => ih _ (Memory.writeBytes_wf h ..)

/-- The number of bytes read is the number asked for. -/
@[simp] theorem Memory.length_bytes (m : Memory) (epoch a n : Nat) : (m.bytes epoch a n).length = n := by
  simp [Memory.bytes]

/-- Bytes outside a stored range read as before. -/
theorem Memory.bytes_writeBytes_outside (m : Memory) (epoch a x n : Nat) (bs : List Byte)
    (h : x + n ≤ a ∨ a + bs.length ≤ x) : (m.writeBytes a bs).bytes epoch x n = m.bytes epoch x n := by
  refine List.map_congr_left fun k hk => Memory.byte_writeBytes_outside m epoch a (x + k) bs ?_
  have := List.mem_range.mp hk
  omega

end Sys2Proof.Machine
end

