-- ==== Sys2Proof/Laws/State.lean ====
section
/-! SUPPORT. One lemma per field per update of the state, true by unfolding the update once, so that no later proof
unfolds a record update. For an update that sets a field, its lemma gives the new value. -/

namespace Sys2Proof.Machine

/-! ### State -/

@[simp] theorem State.respond_params (σ : State) (r : Response) : (σ.respond r).params = σ.params := rfl
@[simp] theorem State.respond_streams (σ : State) (r : Response) : (σ.respond r).streams = σ.streams := rfl
@[simp] theorem State.respond_allocations (σ : State) (r : Response) : (σ.respond r).allocations = σ.allocations := rfl
@[simp] theorem State.respond_inbox (σ : State) (r : Response) : (σ.respond r).inbox = σ.inbox := rfl
@[simp] theorem State.respond_response (σ : State) (r : Response) : (σ.respond r).response = r := rfl

@[simp] theorem State.setStream_params (σ : State) (s : Nat) (c : Context) : (σ.setStream s c).params = σ.params := rfl
@[simp] theorem State.setStream_streams (σ : State) (s : Nat) (c : Context) : (σ.setStream s c).streams = σ.streams.set s c := rfl
@[simp] theorem State.setStream_allocations (σ : State) (s : Nat) (c : Context) : (σ.setStream s c).allocations = σ.allocations := rfl
@[simp] theorem State.setStream_inbox (σ : State) (s : Nat) (c : Context) : (σ.setStream s c).inbox = σ.inbox := rfl
@[simp] theorem State.setStream_response (σ : State) (s : Nat) (c : Context) : (σ.setStream s c).response = σ.response := rfl

@[simp] theorem State.allocate_params (σ : State) : (σ.allocate).params = σ.params := rfl
@[simp] theorem State.allocate_streams (σ : State) : (σ.allocate).streams = σ.streams := rfl
@[simp] theorem State.allocate_allocations (σ : State) : (σ.allocate).allocations = σ.allocations + 1 := rfl
@[simp] theorem State.allocate_inbox (σ : State) : (σ.allocate).inbox = σ.inbox := rfl
@[simp] theorem State.allocate_response (σ : State) : (σ.allocate).response = σ.response := rfl

@[simp] theorem State.withInbox_params (σ : State) (rest : List Input) : (σ.withInbox rest).params = σ.params := rfl
@[simp] theorem State.withInbox_streams (σ : State) (rest : List Input) : (σ.withInbox rest).streams = σ.streams := rfl
@[simp] theorem State.withInbox_allocations (σ : State) (rest : List Input) : (σ.withInbox rest).allocations = σ.allocations := rfl
@[simp] theorem State.withInbox_inbox (σ : State) (rest : List Input) : (σ.withInbox rest).inbox = rest := rfl
@[simp] theorem State.withInbox_response (σ : State) (rest : List Input) : (σ.withInbox rest).response = σ.response := rfl

/-! ### Context -/

@[simp] theorem Context.queueFlush_state (c : Context) : (c.queueFlush).state = c.state := rfl
@[simp] theorem Context.queueFlush_direction (c : Context) : (c.queueFlush).direction = c.direction := rfl
@[simp] theorem Context.queueFlush_blocking (c : Context) : (c.queueFlush).blocking = c.blocking := rfl
@[simp] theorem Context.queueFlush_dualWire (c : Context) : (c.queueFlush).dualWire = c.dualWire := rfl
@[simp] theorem Context.queueFlush_sfc (c : Context) : (c.queueFlush).sfc = c.sfc := rfl
@[simp] theorem Context.queueFlush_sytInterval (c : Context) : (c.queueFlush).sytInterval = c.sytInterval := rfl
@[simp] theorem Context.queueFlush_pcmChannels (c : Context) : (c.queueFlush).pcmChannels = c.pcmChannels := rfl
@[simp] theorem Context.queueFlush_midiPorts (c : Context) : (c.queueFlush).midiPorts = c.midiPorts := rfl
@[simp] theorem Context.queueFlush_dataBlockQuadlets (c : Context) : (c.queueFlush).dataBlockQuadlets = c.dataBlockQuadlets := rfl
@[simp] theorem Context.queueFlush_pcmPositions (c : Context) : (c.queueFlush).pcmPositions = c.pcmPositions := rfl
@[simp] theorem Context.queueFlush_midiPosition (c : Context) : (c.queueFlush).midiPosition = c.midiPosition := rfl
@[simp] theorem Context.queueFlush_pcmFormat (c : Context) : (c.queueFlush).pcmFormat = c.pcmFormat := rfl
@[simp] theorem Context.queueFlush_transferDelayBase (c : Context) : (c.queueFlush).transferDelayBase = c.transferDelayBase := rfl
@[simp] theorem Context.queueFlush_transferDelay (c : Context) : (c.queueFlush).transferDelay = c.transferDelay := rfl
@[simp] theorem Context.queueFlush_syncSlave (c : Context) : (c.queueFlush).syncSlave = c.syncSlave := rfl
@[simp] theorem Context.queueFlush_channel (c : Context) : (c.queueFlush).channel = c.channel := rfl
@[simp] theorem Context.queueFlush_speed (c : Context) : (c.queueFlush).speed = c.speed := rfl
@[simp] theorem Context.queueFlush_sourceNodeId (c : Context) : (c.queueFlush).sourceNodeId = c.sourceNodeId := rfl
@[simp] theorem Context.queueFlush_dbc (c : Context) : (c.queueFlush).dbc = c.dbc := rfl
@[simp] theorem Context.queueFlush_lastSytOffset (c : Context) : (c.queueFlush).lastSytOffset = c.lastSytOffset := rfl
@[simp] theorem Context.queueFlush_dataBlockState (c : Context) : (c.queueFlush).dataBlockState = c.dataBlockState := rfl
@[simp] theorem Context.queueFlush_sytOffsetState (c : Context) : (c.queueFlush).sytOffsetState = c.sytOffsetState := rfl
@[simp] theorem Context.queueFlush_pcmBufferPointer (c : Context) : (c.queueFlush).pcmBufferPointer = c.pcmBufferPointer := rfl
@[simp] theorem Context.queueFlush_pcmPeriodPointer (c : Context) : (c.queueFlush).pcmPeriodPointer = c.pcmPeriodPointer := rfl
@[simp] theorem Context.queueFlush_packetIndex (c : Context) : (c.queueFlush).packetIndex = c.packetIndex := rfl
@[simp] theorem Context.queueFlush_packetIndexValid (c : Context) : (c.queueFlush).packetIndexValid = c.packetIndexValid := rfl
@[simp] theorem Context.queueFlush_callbacked (c : Context) : (c.queueFlush).callbacked = c.callbacked := rfl
@[simp] theorem Context.queueFlush_periodPending (c : Context) : (c.queueFlush).periodPending = c.periodPending := rfl
@[simp] theorem Context.queueFlush_lastError (c : Context) : (c.queueFlush).lastError = c.lastError := rfl
@[simp] theorem Context.queueFlush_protoViolations (c : Context) : (c.queueFlush).protoViolations = c.protoViolations := rfl
@[simp] theorem Context.queueFlush_rxSeq (c : Context) : (c.queueFlush).rxSeq = c.rxSeq := rfl
@[simp] theorem Context.queueFlush_poolAllocated (c : Context) : (c.queueFlush).poolAllocated = c.poolAllocated := rfl
@[simp] theorem Context.queueFlush_pool (c : Context) : (c.queueFlush).pool = c.pool := rfl
@[simp] theorem Context.queueFlush_poolEpoch (c : Context) : (c.queueFlush).poolEpoch = c.poolEpoch := rfl
@[simp] theorem Context.queueFlush_isoContext (c : Context) : (c.queueFlush).isoContext = c.isoContext := rfl
@[simp] theorem Context.queueFlush_hwq (c : Context) : (c.queueFlush).hwq = c.hwq := rfl
@[simp] theorem Context.queueFlush_flushed (c : Context) : (c.queueFlush).flushed = c.hwq.length := rfl
@[simp] theorem Context.queueFlush_carry (c : Context) : (c.queueFlush).carry = c.carry := rfl
@[simp] theorem Context.queueFlush_pcm (c : Context) : (c.queueFlush).pcm = c.pcm := rfl
@[simp] theorem Context.queueFlush_pcmMemory (c : Context) : (c.queueFlush).pcmMemory = c.pcmMemory := rfl
@[simp] theorem Context.queueFlush_pcmEpoch (c : Context) : (c.queueFlush).pcmEpoch = c.pcmEpoch := rfl
@[simp] theorem Context.queueFlush_midi (c : Context) : (c.queueFlush).midi = c.midi := rfl
@[simp] theorem Context.queueFlush_wire (c : Context) : (c.queueFlush).wire = c.wire := rfl
@[simp] theorem Context.queueFlush_notices (c : Context) : (c.queueFlush).notices = c.notices := rfl
@[simp] theorem Context.queueFlush_aborts (c : Context) : (c.queueFlush).aborts = c.aborts := rfl

@[simp] theorem Context.enqueue_state (c : Context) (d : Descriptor) : (c.enqueue d).state = c.state := rfl
@[simp] theorem Context.enqueue_direction (c : Context) (d : Descriptor) : (c.enqueue d).direction = c.direction := rfl
@[simp] theorem Context.enqueue_blocking (c : Context) (d : Descriptor) : (c.enqueue d).blocking = c.blocking := rfl
@[simp] theorem Context.enqueue_dualWire (c : Context) (d : Descriptor) : (c.enqueue d).dualWire = c.dualWire := rfl
@[simp] theorem Context.enqueue_sfc (c : Context) (d : Descriptor) : (c.enqueue d).sfc = c.sfc := rfl
@[simp] theorem Context.enqueue_sytInterval (c : Context) (d : Descriptor) : (c.enqueue d).sytInterval = c.sytInterval := rfl
@[simp] theorem Context.enqueue_pcmChannels (c : Context) (d : Descriptor) : (c.enqueue d).pcmChannels = c.pcmChannels := rfl
@[simp] theorem Context.enqueue_midiPorts (c : Context) (d : Descriptor) : (c.enqueue d).midiPorts = c.midiPorts := rfl
@[simp] theorem Context.enqueue_dataBlockQuadlets (c : Context) (d : Descriptor) : (c.enqueue d).dataBlockQuadlets = c.dataBlockQuadlets := rfl
@[simp] theorem Context.enqueue_pcmPositions (c : Context) (d : Descriptor) : (c.enqueue d).pcmPositions = c.pcmPositions := rfl
@[simp] theorem Context.enqueue_midiPosition (c : Context) (d : Descriptor) : (c.enqueue d).midiPosition = c.midiPosition := rfl
@[simp] theorem Context.enqueue_pcmFormat (c : Context) (d : Descriptor) : (c.enqueue d).pcmFormat = c.pcmFormat := rfl
@[simp] theorem Context.enqueue_transferDelayBase (c : Context) (d : Descriptor) : (c.enqueue d).transferDelayBase = c.transferDelayBase := rfl
@[simp] theorem Context.enqueue_transferDelay (c : Context) (d : Descriptor) : (c.enqueue d).transferDelay = c.transferDelay := rfl
@[simp] theorem Context.enqueue_syncSlave (c : Context) (d : Descriptor) : (c.enqueue d).syncSlave = c.syncSlave := rfl
@[simp] theorem Context.enqueue_channel (c : Context) (d : Descriptor) : (c.enqueue d).channel = c.channel := rfl
@[simp] theorem Context.enqueue_speed (c : Context) (d : Descriptor) : (c.enqueue d).speed = c.speed := rfl
@[simp] theorem Context.enqueue_sourceNodeId (c : Context) (d : Descriptor) : (c.enqueue d).sourceNodeId = c.sourceNodeId := rfl
@[simp] theorem Context.enqueue_dbc (c : Context) (d : Descriptor) : (c.enqueue d).dbc = c.dbc := rfl
@[simp] theorem Context.enqueue_lastSytOffset (c : Context) (d : Descriptor) : (c.enqueue d).lastSytOffset = c.lastSytOffset := rfl
@[simp] theorem Context.enqueue_dataBlockState (c : Context) (d : Descriptor) : (c.enqueue d).dataBlockState = c.dataBlockState := rfl
@[simp] theorem Context.enqueue_sytOffsetState (c : Context) (d : Descriptor) : (c.enqueue d).sytOffsetState = c.sytOffsetState := rfl
@[simp] theorem Context.enqueue_pcmBufferPointer (c : Context) (d : Descriptor) : (c.enqueue d).pcmBufferPointer = c.pcmBufferPointer := rfl
@[simp] theorem Context.enqueue_pcmPeriodPointer (c : Context) (d : Descriptor) : (c.enqueue d).pcmPeriodPointer = c.pcmPeriodPointer := rfl
@[simp] theorem Context.enqueue_packetIndex (c : Context) (d : Descriptor) : (c.enqueue d).packetIndex = BitVec.ofNat 6 ((c.packetIndex.toNat + 1) % Config.queueLength) := rfl
@[simp] theorem Context.enqueue_packetIndexValid (c : Context) (d : Descriptor) : (c.enqueue d).packetIndexValid = c.packetIndexValid := rfl
@[simp] theorem Context.enqueue_callbacked (c : Context) (d : Descriptor) : (c.enqueue d).callbacked = c.callbacked := rfl
@[simp] theorem Context.enqueue_periodPending (c : Context) (d : Descriptor) : (c.enqueue d).periodPending = c.periodPending := rfl
@[simp] theorem Context.enqueue_lastError (c : Context) (d : Descriptor) : (c.enqueue d).lastError = c.lastError := rfl
@[simp] theorem Context.enqueue_protoViolations (c : Context) (d : Descriptor) : (c.enqueue d).protoViolations = c.protoViolations := rfl
@[simp] theorem Context.enqueue_rxSeq (c : Context) (d : Descriptor) : (c.enqueue d).rxSeq = c.rxSeq := rfl
@[simp] theorem Context.enqueue_poolAllocated (c : Context) (d : Descriptor) : (c.enqueue d).poolAllocated = c.poolAllocated := rfl
@[simp] theorem Context.enqueue_pool (c : Context) (d : Descriptor) : (c.enqueue d).pool = c.pool := rfl
@[simp] theorem Context.enqueue_poolEpoch (c : Context) (d : Descriptor) : (c.enqueue d).poolEpoch = c.poolEpoch := rfl
@[simp] theorem Context.enqueue_isoContext (c : Context) (d : Descriptor) : (c.enqueue d).isoContext = c.isoContext := rfl
@[simp] theorem Context.enqueue_hwq (c : Context) (d : Descriptor) : (c.enqueue d).hwq = c.hwq ++ [d] := rfl
@[simp] theorem Context.enqueue_flushed (c : Context) (d : Descriptor) : (c.enqueue d).flushed = c.flushed := rfl
@[simp] theorem Context.enqueue_carry (c : Context) (d : Descriptor) : (c.enqueue d).carry = c.carry := rfl
@[simp] theorem Context.enqueue_pcm (c : Context) (d : Descriptor) : (c.enqueue d).pcm = c.pcm := rfl
@[simp] theorem Context.enqueue_pcmMemory (c : Context) (d : Descriptor) : (c.enqueue d).pcmMemory = c.pcmMemory := rfl
@[simp] theorem Context.enqueue_pcmEpoch (c : Context) (d : Descriptor) : (c.enqueue d).pcmEpoch = c.pcmEpoch := rfl
@[simp] theorem Context.enqueue_midi (c : Context) (d : Descriptor) : (c.enqueue d).midi = c.midi := rfl
@[simp] theorem Context.enqueue_wire (c : Context) (d : Descriptor) : (c.enqueue d).wire = c.wire := rfl
@[simp] theorem Context.enqueue_notices (c : Context) (d : Descriptor) : (c.enqueue d).notices = c.notices := rfl
@[simp] theorem Context.enqueue_aborts (c : Context) (d : Descriptor) : (c.enqueue d).aborts = c.aborts := rfl

@[simp] theorem Context.teardown_state (c : Context) : (c.teardown).state = c.state := rfl
@[simp] theorem Context.teardown_direction (c : Context) : (c.teardown).direction = c.direction := rfl
@[simp] theorem Context.teardown_blocking (c : Context) : (c.teardown).blocking = c.blocking := rfl
@[simp] theorem Context.teardown_dualWire (c : Context) : (c.teardown).dualWire = c.dualWire := rfl
@[simp] theorem Context.teardown_sfc (c : Context) : (c.teardown).sfc = c.sfc := rfl
@[simp] theorem Context.teardown_sytInterval (c : Context) : (c.teardown).sytInterval = c.sytInterval := rfl
@[simp] theorem Context.teardown_pcmChannels (c : Context) : (c.teardown).pcmChannels = c.pcmChannels := rfl
@[simp] theorem Context.teardown_midiPorts (c : Context) : (c.teardown).midiPorts = c.midiPorts := rfl
@[simp] theorem Context.teardown_dataBlockQuadlets (c : Context) : (c.teardown).dataBlockQuadlets = c.dataBlockQuadlets := rfl
@[simp] theorem Context.teardown_pcmPositions (c : Context) : (c.teardown).pcmPositions = c.pcmPositions := rfl
@[simp] theorem Context.teardown_midiPosition (c : Context) : (c.teardown).midiPosition = c.midiPosition := rfl
@[simp] theorem Context.teardown_pcmFormat (c : Context) : (c.teardown).pcmFormat = c.pcmFormat := rfl
@[simp] theorem Context.teardown_transferDelayBase (c : Context) : (c.teardown).transferDelayBase = c.transferDelayBase := rfl
@[simp] theorem Context.teardown_transferDelay (c : Context) : (c.teardown).transferDelay = c.transferDelay := rfl
@[simp] theorem Context.teardown_syncSlave (c : Context) : (c.teardown).syncSlave = c.syncSlave := rfl
@[simp] theorem Context.teardown_channel (c : Context) : (c.teardown).channel = c.channel := rfl
@[simp] theorem Context.teardown_speed (c : Context) : (c.teardown).speed = c.speed := rfl
@[simp] theorem Context.teardown_sourceNodeId (c : Context) : (c.teardown).sourceNodeId = c.sourceNodeId := rfl
@[simp] theorem Context.teardown_dbc (c : Context) : (c.teardown).dbc = c.dbc := rfl
@[simp] theorem Context.teardown_lastSytOffset (c : Context) : (c.teardown).lastSytOffset = c.lastSytOffset := rfl
@[simp] theorem Context.teardown_dataBlockState (c : Context) : (c.teardown).dataBlockState = c.dataBlockState := rfl
@[simp] theorem Context.teardown_sytOffsetState (c : Context) : (c.teardown).sytOffsetState = c.sytOffsetState := rfl
@[simp] theorem Context.teardown_pcmBufferPointer (c : Context) : (c.teardown).pcmBufferPointer = c.pcmBufferPointer := rfl
@[simp] theorem Context.teardown_pcmPeriodPointer (c : Context) : (c.teardown).pcmPeriodPointer = c.pcmPeriodPointer := rfl
@[simp] theorem Context.teardown_packetIndex (c : Context) : (c.teardown).packetIndex = c.packetIndex := rfl
@[simp] theorem Context.teardown_packetIndexValid (c : Context) : (c.teardown).packetIndexValid = c.packetIndexValid := rfl
@[simp] theorem Context.teardown_callbacked (c : Context) : (c.teardown).callbacked = c.callbacked := rfl
@[simp] theorem Context.teardown_periodPending (c : Context) : (c.teardown).periodPending = c.periodPending := rfl
@[simp] theorem Context.teardown_lastError (c : Context) : (c.teardown).lastError = c.lastError := rfl
@[simp] theorem Context.teardown_protoViolations (c : Context) : (c.teardown).protoViolations = c.protoViolations := rfl
@[simp] theorem Context.teardown_rxSeq (c : Context) : (c.teardown).rxSeq = c.rxSeq := rfl
@[simp] theorem Context.teardown_poolAllocated (c : Context) : (c.teardown).poolAllocated = false := rfl
@[simp] theorem Context.teardown_pool (c : Context) : (c.teardown).pool = [] := rfl
@[simp] theorem Context.teardown_poolEpoch (c : Context) : (c.teardown).poolEpoch = c.poolEpoch := rfl
@[simp] theorem Context.teardown_isoContext (c : Context) : (c.teardown).isoContext = false := rfl
@[simp] theorem Context.teardown_hwq (c : Context) : (c.teardown).hwq = [] := rfl
@[simp] theorem Context.teardown_flushed (c : Context) : (c.teardown).flushed = 0 := rfl
@[simp] theorem Context.teardown_carry (c : Context) : (c.teardown).carry = [] := rfl
@[simp] theorem Context.teardown_pcm (c : Context) : (c.teardown).pcm = c.pcm := rfl
@[simp] theorem Context.teardown_pcmMemory (c : Context) : (c.teardown).pcmMemory = c.pcmMemory := rfl
@[simp] theorem Context.teardown_pcmEpoch (c : Context) : (c.teardown).pcmEpoch = c.pcmEpoch := rfl
@[simp] theorem Context.teardown_midi (c : Context) : (c.teardown).midi = c.midi := rfl
@[simp] theorem Context.teardown_wire (c : Context) : (c.teardown).wire = c.wire := rfl
@[simp] theorem Context.teardown_notices (c : Context) : (c.teardown).notices = c.notices := rfl
@[simp] theorem Context.teardown_aborts (c : Context) : (c.teardown).aborts = c.aborts := rfl

@[simp] theorem Context.detach_state (c : Context) : (c.detach).state = c.state := rfl
@[simp] theorem Context.detach_direction (c : Context) : (c.detach).direction = c.direction := rfl
@[simp] theorem Context.detach_blocking (c : Context) : (c.detach).blocking = c.blocking := rfl
@[simp] theorem Context.detach_dualWire (c : Context) : (c.detach).dualWire = c.dualWire := rfl
@[simp] theorem Context.detach_sfc (c : Context) : (c.detach).sfc = c.sfc := rfl
@[simp] theorem Context.detach_sytInterval (c : Context) : (c.detach).sytInterval = c.sytInterval := rfl
@[simp] theorem Context.detach_pcmChannels (c : Context) : (c.detach).pcmChannels = c.pcmChannels := rfl
@[simp] theorem Context.detach_midiPorts (c : Context) : (c.detach).midiPorts = c.midiPorts := rfl
@[simp] theorem Context.detach_dataBlockQuadlets (c : Context) : (c.detach).dataBlockQuadlets = c.dataBlockQuadlets := rfl
@[simp] theorem Context.detach_pcmPositions (c : Context) : (c.detach).pcmPositions = c.pcmPositions := rfl
@[simp] theorem Context.detach_midiPosition (c : Context) : (c.detach).midiPosition = c.midiPosition := rfl
@[simp] theorem Context.detach_pcmFormat (c : Context) : (c.detach).pcmFormat = c.pcmFormat := rfl
@[simp] theorem Context.detach_transferDelayBase (c : Context) : (c.detach).transferDelayBase = c.transferDelayBase := rfl
@[simp] theorem Context.detach_transferDelay (c : Context) : (c.detach).transferDelay = c.transferDelay := rfl
@[simp] theorem Context.detach_syncSlave (c : Context) : (c.detach).syncSlave = c.syncSlave := rfl
@[simp] theorem Context.detach_channel (c : Context) : (c.detach).channel = c.channel := rfl
@[simp] theorem Context.detach_speed (c : Context) : (c.detach).speed = c.speed := rfl
@[simp] theorem Context.detach_sourceNodeId (c : Context) : (c.detach).sourceNodeId = c.sourceNodeId := rfl
@[simp] theorem Context.detach_dbc (c : Context) : (c.detach).dbc = c.dbc := rfl
@[simp] theorem Context.detach_lastSytOffset (c : Context) : (c.detach).lastSytOffset = c.lastSytOffset := rfl
@[simp] theorem Context.detach_dataBlockState (c : Context) : (c.detach).dataBlockState = c.dataBlockState := rfl
@[simp] theorem Context.detach_sytOffsetState (c : Context) : (c.detach).sytOffsetState = c.sytOffsetState := rfl
@[simp] theorem Context.detach_pcmBufferPointer (c : Context) : (c.detach).pcmBufferPointer = c.pcmBufferPointer := rfl
@[simp] theorem Context.detach_pcmPeriodPointer (c : Context) : (c.detach).pcmPeriodPointer = c.pcmPeriodPointer := rfl
@[simp] theorem Context.detach_packetIndex (c : Context) : (c.detach).packetIndex = c.packetIndex := rfl
@[simp] theorem Context.detach_packetIndexValid (c : Context) : (c.detach).packetIndexValid = c.packetIndexValid := rfl
@[simp] theorem Context.detach_callbacked (c : Context) : (c.detach).callbacked = c.callbacked := rfl
@[simp] theorem Context.detach_periodPending (c : Context) : (c.detach).periodPending = c.periodPending := rfl
@[simp] theorem Context.detach_lastError (c : Context) : (c.detach).lastError = c.lastError := rfl
@[simp] theorem Context.detach_protoViolations (c : Context) : (c.detach).protoViolations = c.protoViolations := rfl
@[simp] theorem Context.detach_rxSeq (c : Context) : (c.detach).rxSeq = c.rxSeq := rfl
@[simp] theorem Context.detach_poolAllocated (c : Context) : (c.detach).poolAllocated = c.poolAllocated := rfl
@[simp] theorem Context.detach_pool (c : Context) : (c.detach).pool = c.pool := rfl
@[simp] theorem Context.detach_poolEpoch (c : Context) : (c.detach).poolEpoch = c.poolEpoch := rfl
@[simp] theorem Context.detach_isoContext (c : Context) : (c.detach).isoContext = c.isoContext := rfl
@[simp] theorem Context.detach_hwq (c : Context) : (c.detach).hwq = c.hwq := rfl
@[simp] theorem Context.detach_flushed (c : Context) : (c.detach).flushed = c.flushed := rfl
@[simp] theorem Context.detach_carry (c : Context) : (c.detach).carry = c.carry := rfl
@[simp] theorem Context.detach_pcm (c : Context) : (c.detach).pcm = none := rfl
@[simp] theorem Context.detach_pcmMemory (c : Context) : (c.detach).pcmMemory = c.pcmMemory := rfl
@[simp] theorem Context.detach_pcmEpoch (c : Context) : (c.detach).pcmEpoch = c.pcmEpoch := rfl
@[simp] theorem Context.detach_midi (c : Context) : (c.detach).midi = detachPorts c.midi := rfl
@[simp] theorem Context.detach_wire (c : Context) : (c.detach).wire = c.wire := rfl
@[simp] theorem Context.detach_notices (c : Context) : (c.detach).notices = c.notices := rfl
@[simp] theorem Context.detach_aborts (c : Context) : (c.detach).aborts = c.aborts := rfl

@[simp] theorem Context.ptrUpdate_state (c : Context) (b : Binding) (n : Nat) : (c.ptrUpdate b n).state = c.state := rfl
@[simp] theorem Context.ptrUpdate_direction (c : Context) (b : Binding) (n : Nat) : (c.ptrUpdate b n).direction = c.direction := rfl
@[simp] theorem Context.ptrUpdate_blocking (c : Context) (b : Binding) (n : Nat) : (c.ptrUpdate b n).blocking = c.blocking := rfl
@[simp] theorem Context.ptrUpdate_dualWire (c : Context) (b : Binding) (n : Nat) : (c.ptrUpdate b n).dualWire = c.dualWire := rfl
@[simp] theorem Context.ptrUpdate_sfc (c : Context) (b : Binding) (n : Nat) : (c.ptrUpdate b n).sfc = c.sfc := rfl
@[simp] theorem Context.ptrUpdate_sytInterval (c : Context) (b : Binding) (n : Nat) : (c.ptrUpdate b n).sytInterval = c.sytInterval := rfl
@[simp] theorem Context.ptrUpdate_pcmChannels (c : Context) (b : Binding) (n : Nat) : (c.ptrUpdate b n).pcmChannels = c.pcmChannels := rfl
@[simp] theorem Context.ptrUpdate_midiPorts (c : Context) (b : Binding) (n : Nat) : (c.ptrUpdate b n).midiPorts = c.midiPorts := rfl
@[simp] theorem Context.ptrUpdate_dataBlockQuadlets (c : Context) (b : Binding) (n : Nat) : (c.ptrUpdate b n).dataBlockQuadlets = c.dataBlockQuadlets := rfl
@[simp] theorem Context.ptrUpdate_pcmPositions (c : Context) (b : Binding) (n : Nat) : (c.ptrUpdate b n).pcmPositions = c.pcmPositions := rfl
@[simp] theorem Context.ptrUpdate_midiPosition (c : Context) (b : Binding) (n : Nat) : (c.ptrUpdate b n).midiPosition = c.midiPosition := rfl
@[simp] theorem Context.ptrUpdate_pcmFormat (c : Context) (b : Binding) (n : Nat) : (c.ptrUpdate b n).pcmFormat = c.pcmFormat := rfl
@[simp] theorem Context.ptrUpdate_transferDelayBase (c : Context) (b : Binding) (n : Nat) : (c.ptrUpdate b n).transferDelayBase = c.transferDelayBase := rfl
@[simp] theorem Context.ptrUpdate_transferDelay (c : Context) (b : Binding) (n : Nat) : (c.ptrUpdate b n).transferDelay = c.transferDelay := rfl
@[simp] theorem Context.ptrUpdate_syncSlave (c : Context) (b : Binding) (n : Nat) : (c.ptrUpdate b n).syncSlave = c.syncSlave := rfl
@[simp] theorem Context.ptrUpdate_channel (c : Context) (b : Binding) (n : Nat) : (c.ptrUpdate b n).channel = c.channel := rfl
@[simp] theorem Context.ptrUpdate_speed (c : Context) (b : Binding) (n : Nat) : (c.ptrUpdate b n).speed = c.speed := rfl
@[simp] theorem Context.ptrUpdate_sourceNodeId (c : Context) (b : Binding) (n : Nat) : (c.ptrUpdate b n).sourceNodeId = c.sourceNodeId := rfl
@[simp] theorem Context.ptrUpdate_dbc (c : Context) (b : Binding) (n : Nat) : (c.ptrUpdate b n).dbc = c.dbc := rfl
@[simp] theorem Context.ptrUpdate_lastSytOffset (c : Context) (b : Binding) (n : Nat) : (c.ptrUpdate b n).lastSytOffset = c.lastSytOffset := rfl
@[simp] theorem Context.ptrUpdate_dataBlockState (c : Context) (b : Binding) (n : Nat) : (c.ptrUpdate b n).dataBlockState = c.dataBlockState := rfl
@[simp] theorem Context.ptrUpdate_sytOffsetState (c : Context) (b : Binding) (n : Nat) : (c.ptrUpdate b n).sytOffsetState = c.sytOffsetState := rfl
@[simp] theorem Context.ptrUpdate_pcmBufferPointer (c : Context) (b : Binding) (n : Nat) : (c.ptrUpdate b n).pcmBufferPointer = BitVec.ofNat 32 ((c.pcmBufferPointer.toNat + n) % b.bufferSize) := rfl
@[simp] theorem Context.ptrUpdate_pcmPeriodPointer (c : Context) (b : Binding) (n : Nat) : (c.ptrUpdate b n).pcmPeriodPointer = BitVec.ofNat 32 ((c.pcmPeriodPointer.toNat + n) % b.periodSize) := rfl
@[simp] theorem Context.ptrUpdate_packetIndex (c : Context) (b : Binding) (n : Nat) : (c.ptrUpdate b n).packetIndex = c.packetIndex := rfl
@[simp] theorem Context.ptrUpdate_packetIndexValid (c : Context) (b : Binding) (n : Nat) : (c.ptrUpdate b n).packetIndexValid = c.packetIndexValid := rfl
@[simp] theorem Context.ptrUpdate_callbacked (c : Context) (b : Binding) (n : Nat) : (c.ptrUpdate b n).callbacked = c.callbacked := rfl
@[simp] theorem Context.ptrUpdate_periodPending (c : Context) (b : Binding) (n : Nat) : (c.ptrUpdate b n).periodPending = (c.periodPending || decide (b.periodSize ≤ c.pcmPeriodPointer.toNat + n)) := rfl
@[simp] theorem Context.ptrUpdate_lastError (c : Context) (b : Binding) (n : Nat) : (c.ptrUpdate b n).lastError = c.lastError := rfl
@[simp] theorem Context.ptrUpdate_protoViolations (c : Context) (b : Binding) (n : Nat) : (c.ptrUpdate b n).protoViolations = c.protoViolations := rfl
@[simp] theorem Context.ptrUpdate_rxSeq (c : Context) (b : Binding) (n : Nat) : (c.ptrUpdate b n).rxSeq = c.rxSeq := rfl
@[simp] theorem Context.ptrUpdate_poolAllocated (c : Context) (b : Binding) (n : Nat) : (c.ptrUpdate b n).poolAllocated = c.poolAllocated := rfl
@[simp] theorem Context.ptrUpdate_pool (c : Context) (b : Binding) (n : Nat) : (c.ptrUpdate b n).pool = c.pool := rfl
@[simp] theorem Context.ptrUpdate_poolEpoch (c : Context) (b : Binding) (n : Nat) : (c.ptrUpdate b n).poolEpoch = c.poolEpoch := rfl
@[simp] theorem Context.ptrUpdate_isoContext (c : Context) (b : Binding) (n : Nat) : (c.ptrUpdate b n).isoContext = c.isoContext := rfl
@[simp] theorem Context.ptrUpdate_hwq (c : Context) (b : Binding) (n : Nat) : (c.ptrUpdate b n).hwq = c.hwq := rfl
@[simp] theorem Context.ptrUpdate_flushed (c : Context) (b : Binding) (n : Nat) : (c.ptrUpdate b n).flushed = c.flushed := rfl
@[simp] theorem Context.ptrUpdate_carry (c : Context) (b : Binding) (n : Nat) : (c.ptrUpdate b n).carry = c.carry := rfl
@[simp] theorem Context.ptrUpdate_pcm (c : Context) (b : Binding) (n : Nat) : (c.ptrUpdate b n).pcm = c.pcm := rfl
@[simp] theorem Context.ptrUpdate_pcmMemory (c : Context) (b : Binding) (n : Nat) : (c.ptrUpdate b n).pcmMemory = c.pcmMemory := rfl
@[simp] theorem Context.ptrUpdate_pcmEpoch (c : Context) (b : Binding) (n : Nat) : (c.ptrUpdate b n).pcmEpoch = c.pcmEpoch := rfl
@[simp] theorem Context.ptrUpdate_midi (c : Context) (b : Binding) (n : Nat) : (c.ptrUpdate b n).midi = c.midi := rfl
@[simp] theorem Context.ptrUpdate_wire (c : Context) (b : Binding) (n : Nat) : (c.ptrUpdate b n).wire = c.wire := rfl
@[simp] theorem Context.ptrUpdate_notices (c : Context) (b : Binding) (n : Nat) : (c.ptrUpdate b n).notices = c.notices := rfl
@[simp] theorem Context.ptrUpdate_aborts (c : Context) (b : Binding) (n : Nat) : (c.ptrUpdate b n).aborts = c.aborts := rfl

@[simp] theorem Context.countBlocks_state (c : Context) (n : Nat) : (c.countBlocks n).state = c.state := rfl
@[simp] theorem Context.countBlocks_direction (c : Context) (n : Nat) : (c.countBlocks n).direction = c.direction := rfl
@[simp] theorem Context.countBlocks_blocking (c : Context) (n : Nat) : (c.countBlocks n).blocking = c.blocking := rfl
@[simp] theorem Context.countBlocks_dualWire (c : Context) (n : Nat) : (c.countBlocks n).dualWire = c.dualWire := rfl
@[simp] theorem Context.countBlocks_sfc (c : Context) (n : Nat) : (c.countBlocks n).sfc = c.sfc := rfl
@[simp] theorem Context.countBlocks_sytInterval (c : Context) (n : Nat) : (c.countBlocks n).sytInterval = c.sytInterval := rfl
@[simp] theorem Context.countBlocks_pcmChannels (c : Context) (n : Nat) : (c.countBlocks n).pcmChannels = c.pcmChannels := rfl
@[simp] theorem Context.countBlocks_midiPorts (c : Context) (n : Nat) : (c.countBlocks n).midiPorts = c.midiPorts := rfl
@[simp] theorem Context.countBlocks_dataBlockQuadlets (c : Context) (n : Nat) : (c.countBlocks n).dataBlockQuadlets = c.dataBlockQuadlets := rfl
@[simp] theorem Context.countBlocks_pcmPositions (c : Context) (n : Nat) : (c.countBlocks n).pcmPositions = c.pcmPositions := rfl
@[simp] theorem Context.countBlocks_midiPosition (c : Context) (n : Nat) : (c.countBlocks n).midiPosition = c.midiPosition := rfl
@[simp] theorem Context.countBlocks_pcmFormat (c : Context) (n : Nat) : (c.countBlocks n).pcmFormat = c.pcmFormat := rfl
@[simp] theorem Context.countBlocks_transferDelayBase (c : Context) (n : Nat) : (c.countBlocks n).transferDelayBase = c.transferDelayBase := rfl
@[simp] theorem Context.countBlocks_transferDelay (c : Context) (n : Nat) : (c.countBlocks n).transferDelay = c.transferDelay := rfl
@[simp] theorem Context.countBlocks_syncSlave (c : Context) (n : Nat) : (c.countBlocks n).syncSlave = c.syncSlave := rfl
@[simp] theorem Context.countBlocks_channel (c : Context) (n : Nat) : (c.countBlocks n).channel = c.channel := rfl
@[simp] theorem Context.countBlocks_speed (c : Context) (n : Nat) : (c.countBlocks n).speed = c.speed := rfl
@[simp] theorem Context.countBlocks_sourceNodeId (c : Context) (n : Nat) : (c.countBlocks n).sourceNodeId = c.sourceNodeId := rfl
@[simp] theorem Context.countBlocks_dbc (c : Context) (n : Nat) : (c.countBlocks n).dbc = c.dbc + BitVec.ofNat 8 n := rfl
@[simp] theorem Context.countBlocks_lastSytOffset (c : Context) (n : Nat) : (c.countBlocks n).lastSytOffset = c.lastSytOffset := rfl
@[simp] theorem Context.countBlocks_dataBlockState (c : Context) (n : Nat) : (c.countBlocks n).dataBlockState = c.dataBlockState := rfl
@[simp] theorem Context.countBlocks_sytOffsetState (c : Context) (n : Nat) : (c.countBlocks n).sytOffsetState = c.sytOffsetState := rfl
@[simp] theorem Context.countBlocks_pcmBufferPointer (c : Context) (n : Nat) : (c.countBlocks n).pcmBufferPointer = c.pcmBufferPointer := rfl
@[simp] theorem Context.countBlocks_pcmPeriodPointer (c : Context) (n : Nat) : (c.countBlocks n).pcmPeriodPointer = c.pcmPeriodPointer := rfl
@[simp] theorem Context.countBlocks_packetIndex (c : Context) (n : Nat) : (c.countBlocks n).packetIndex = c.packetIndex := rfl
@[simp] theorem Context.countBlocks_packetIndexValid (c : Context) (n : Nat) : (c.countBlocks n).packetIndexValid = c.packetIndexValid := rfl
@[simp] theorem Context.countBlocks_callbacked (c : Context) (n : Nat) : (c.countBlocks n).callbacked = c.callbacked := rfl
@[simp] theorem Context.countBlocks_periodPending (c : Context) (n : Nat) : (c.countBlocks n).periodPending = c.periodPending := rfl
@[simp] theorem Context.countBlocks_lastError (c : Context) (n : Nat) : (c.countBlocks n).lastError = c.lastError := rfl
@[simp] theorem Context.countBlocks_protoViolations (c : Context) (n : Nat) : (c.countBlocks n).protoViolations = c.protoViolations := rfl
@[simp] theorem Context.countBlocks_rxSeq (c : Context) (n : Nat) : (c.countBlocks n).rxSeq = c.rxSeq := rfl
@[simp] theorem Context.countBlocks_poolAllocated (c : Context) (n : Nat) : (c.countBlocks n).poolAllocated = c.poolAllocated := rfl
@[simp] theorem Context.countBlocks_pool (c : Context) (n : Nat) : (c.countBlocks n).pool = c.pool := rfl
@[simp] theorem Context.countBlocks_poolEpoch (c : Context) (n : Nat) : (c.countBlocks n).poolEpoch = c.poolEpoch := rfl
@[simp] theorem Context.countBlocks_isoContext (c : Context) (n : Nat) : (c.countBlocks n).isoContext = c.isoContext := rfl
@[simp] theorem Context.countBlocks_hwq (c : Context) (n : Nat) : (c.countBlocks n).hwq = c.hwq := rfl
@[simp] theorem Context.countBlocks_flushed (c : Context) (n : Nat) : (c.countBlocks n).flushed = c.flushed := rfl
@[simp] theorem Context.countBlocks_carry (c : Context) (n : Nat) : (c.countBlocks n).carry = c.carry := rfl
@[simp] theorem Context.countBlocks_pcm (c : Context) (n : Nat) : (c.countBlocks n).pcm = c.pcm := rfl
@[simp] theorem Context.countBlocks_pcmMemory (c : Context) (n : Nat) : (c.countBlocks n).pcmMemory = c.pcmMemory := rfl
@[simp] theorem Context.countBlocks_pcmEpoch (c : Context) (n : Nat) : (c.countBlocks n).pcmEpoch = c.pcmEpoch := rfl
@[simp] theorem Context.countBlocks_midi (c : Context) (n : Nat) : (c.countBlocks n).midi = c.midi := rfl
@[simp] theorem Context.countBlocks_wire (c : Context) (n : Nat) : (c.countBlocks n).wire = c.wire := rfl
@[simp] theorem Context.countBlocks_notices (c : Context) (n : Nat) : (c.countBlocks n).notices = c.notices := rfl
@[simp] theorem Context.countBlocks_aborts (c : Context) (n : Nat) : (c.countBlocks n).aborts = c.aborts := rfl

@[simp] theorem Context.writeSlot_state (c : Context) (i : Nat) (ws : List (Nat × Quadlet)) : (c.writeSlot i ws).state = c.state := rfl
@[simp] theorem Context.writeSlot_direction (c : Context) (i : Nat) (ws : List (Nat × Quadlet)) : (c.writeSlot i ws).direction = c.direction := rfl
@[simp] theorem Context.writeSlot_blocking (c : Context) (i : Nat) (ws : List (Nat × Quadlet)) : (c.writeSlot i ws).blocking = c.blocking := rfl
@[simp] theorem Context.writeSlot_dualWire (c : Context) (i : Nat) (ws : List (Nat × Quadlet)) : (c.writeSlot i ws).dualWire = c.dualWire := rfl
@[simp] theorem Context.writeSlot_sfc (c : Context) (i : Nat) (ws : List (Nat × Quadlet)) : (c.writeSlot i ws).sfc = c.sfc := rfl
@[simp] theorem Context.writeSlot_sytInterval (c : Context) (i : Nat) (ws : List (Nat × Quadlet)) : (c.writeSlot i ws).sytInterval = c.sytInterval := rfl
@[simp] theorem Context.writeSlot_pcmChannels (c : Context) (i : Nat) (ws : List (Nat × Quadlet)) : (c.writeSlot i ws).pcmChannels = c.pcmChannels := rfl
@[simp] theorem Context.writeSlot_midiPorts (c : Context) (i : Nat) (ws : List (Nat × Quadlet)) : (c.writeSlot i ws).midiPorts = c.midiPorts := rfl
@[simp] theorem Context.writeSlot_dataBlockQuadlets (c : Context) (i : Nat) (ws : List (Nat × Quadlet)) : (c.writeSlot i ws).dataBlockQuadlets = c.dataBlockQuadlets := rfl
@[simp] theorem Context.writeSlot_pcmPositions (c : Context) (i : Nat) (ws : List (Nat × Quadlet)) : (c.writeSlot i ws).pcmPositions = c.pcmPositions := rfl
@[simp] theorem Context.writeSlot_midiPosition (c : Context) (i : Nat) (ws : List (Nat × Quadlet)) : (c.writeSlot i ws).midiPosition = c.midiPosition := rfl
@[simp] theorem Context.writeSlot_pcmFormat (c : Context) (i : Nat) (ws : List (Nat × Quadlet)) : (c.writeSlot i ws).pcmFormat = c.pcmFormat := rfl
@[simp] theorem Context.writeSlot_transferDelayBase (c : Context) (i : Nat) (ws : List (Nat × Quadlet)) : (c.writeSlot i ws).transferDelayBase = c.transferDelayBase := rfl
@[simp] theorem Context.writeSlot_transferDelay (c : Context) (i : Nat) (ws : List (Nat × Quadlet)) : (c.writeSlot i ws).transferDelay = c.transferDelay := rfl
@[simp] theorem Context.writeSlot_syncSlave (c : Context) (i : Nat) (ws : List (Nat × Quadlet)) : (c.writeSlot i ws).syncSlave = c.syncSlave := rfl
@[simp] theorem Context.writeSlot_channel (c : Context) (i : Nat) (ws : List (Nat × Quadlet)) : (c.writeSlot i ws).channel = c.channel := rfl
@[simp] theorem Context.writeSlot_speed (c : Context) (i : Nat) (ws : List (Nat × Quadlet)) : (c.writeSlot i ws).speed = c.speed := rfl
@[simp] theorem Context.writeSlot_sourceNodeId (c : Context) (i : Nat) (ws : List (Nat × Quadlet)) : (c.writeSlot i ws).sourceNodeId = c.sourceNodeId := rfl
@[simp] theorem Context.writeSlot_dbc (c : Context) (i : Nat) (ws : List (Nat × Quadlet)) : (c.writeSlot i ws).dbc = c.dbc := rfl
@[simp] theorem Context.writeSlot_lastSytOffset (c : Context) (i : Nat) (ws : List (Nat × Quadlet)) : (c.writeSlot i ws).lastSytOffset = c.lastSytOffset := rfl
@[simp] theorem Context.writeSlot_dataBlockState (c : Context) (i : Nat) (ws : List (Nat × Quadlet)) : (c.writeSlot i ws).dataBlockState = c.dataBlockState := rfl
@[simp] theorem Context.writeSlot_sytOffsetState (c : Context) (i : Nat) (ws : List (Nat × Quadlet)) : (c.writeSlot i ws).sytOffsetState = c.sytOffsetState := rfl
@[simp] theorem Context.writeSlot_pcmBufferPointer (c : Context) (i : Nat) (ws : List (Nat × Quadlet)) : (c.writeSlot i ws).pcmBufferPointer = c.pcmBufferPointer := rfl
@[simp] theorem Context.writeSlot_pcmPeriodPointer (c : Context) (i : Nat) (ws : List (Nat × Quadlet)) : (c.writeSlot i ws).pcmPeriodPointer = c.pcmPeriodPointer := rfl
@[simp] theorem Context.writeSlot_packetIndex (c : Context) (i : Nat) (ws : List (Nat × Quadlet)) : (c.writeSlot i ws).packetIndex = c.packetIndex := rfl
@[simp] theorem Context.writeSlot_packetIndexValid (c : Context) (i : Nat) (ws : List (Nat × Quadlet)) : (c.writeSlot i ws).packetIndexValid = c.packetIndexValid := rfl
@[simp] theorem Context.writeSlot_callbacked (c : Context) (i : Nat) (ws : List (Nat × Quadlet)) : (c.writeSlot i ws).callbacked = c.callbacked := rfl
@[simp] theorem Context.writeSlot_periodPending (c : Context) (i : Nat) (ws : List (Nat × Quadlet)) : (c.writeSlot i ws).periodPending = c.periodPending := rfl
@[simp] theorem Context.writeSlot_lastError (c : Context) (i : Nat) (ws : List (Nat × Quadlet)) : (c.writeSlot i ws).lastError = c.lastError := rfl
@[simp] theorem Context.writeSlot_protoViolations (c : Context) (i : Nat) (ws : List (Nat × Quadlet)) : (c.writeSlot i ws).protoViolations = c.protoViolations := rfl
@[simp] theorem Context.writeSlot_rxSeq (c : Context) (i : Nat) (ws : List (Nat × Quadlet)) : (c.writeSlot i ws).rxSeq = c.rxSeq := rfl
@[simp] theorem Context.writeSlot_poolAllocated (c : Context) (i : Nat) (ws : List (Nat × Quadlet)) : (c.writeSlot i ws).poolAllocated = c.poolAllocated := rfl
@[simp] theorem Context.writeSlot_pool (c : Context) (i : Nat) (ws : List (Nat × Quadlet)) : (c.writeSlot i ws).pool = ws.foldl (fun m w => m.writeBytes (c.slotBase i + 4 * w.1) (quadletBytes w.2)) c.pool := rfl
@[simp] theorem Context.writeSlot_poolEpoch (c : Context) (i : Nat) (ws : List (Nat × Quadlet)) : (c.writeSlot i ws).poolEpoch = c.poolEpoch := rfl
@[simp] theorem Context.writeSlot_isoContext (c : Context) (i : Nat) (ws : List (Nat × Quadlet)) : (c.writeSlot i ws).isoContext = c.isoContext := rfl
@[simp] theorem Context.writeSlot_hwq (c : Context) (i : Nat) (ws : List (Nat × Quadlet)) : (c.writeSlot i ws).hwq = c.hwq := rfl
@[simp] theorem Context.writeSlot_flushed (c : Context) (i : Nat) (ws : List (Nat × Quadlet)) : (c.writeSlot i ws).flushed = c.flushed := rfl
@[simp] theorem Context.writeSlot_carry (c : Context) (i : Nat) (ws : List (Nat × Quadlet)) : (c.writeSlot i ws).carry = c.carry := rfl
@[simp] theorem Context.writeSlot_pcm (c : Context) (i : Nat) (ws : List (Nat × Quadlet)) : (c.writeSlot i ws).pcm = c.pcm := rfl
@[simp] theorem Context.writeSlot_pcmMemory (c : Context) (i : Nat) (ws : List (Nat × Quadlet)) : (c.writeSlot i ws).pcmMemory = c.pcmMemory := rfl
@[simp] theorem Context.writeSlot_pcmEpoch (c : Context) (i : Nat) (ws : List (Nat × Quadlet)) : (c.writeSlot i ws).pcmEpoch = c.pcmEpoch := rfl
@[simp] theorem Context.writeSlot_midi (c : Context) (i : Nat) (ws : List (Nat × Quadlet)) : (c.writeSlot i ws).midi = c.midi := rfl
@[simp] theorem Context.writeSlot_wire (c : Context) (i : Nat) (ws : List (Nat × Quadlet)) : (c.writeSlot i ws).wire = c.wire := rfl
@[simp] theorem Context.writeSlot_notices (c : Context) (i : Nat) (ws : List (Nat × Quadlet)) : (c.writeSlot i ws).notices = c.notices := rfl
@[simp] theorem Context.writeSlot_aborts (c : Context) (i : Nat) (ws : List (Nat × Quadlet)) : (c.writeSlot i ws).aborts = c.aborts := rfl

@[simp] theorem Context.storeSample_state (o : ByteOrder) (c : Context) (f ch : Nat) (x : BitVec 32) : (Context.storeSample o c f ch x).state = c.state := rfl
@[simp] theorem Context.storeSample_direction (o : ByteOrder) (c : Context) (f ch : Nat) (x : BitVec 32) : (Context.storeSample o c f ch x).direction = c.direction := rfl
@[simp] theorem Context.storeSample_blocking (o : ByteOrder) (c : Context) (f ch : Nat) (x : BitVec 32) : (Context.storeSample o c f ch x).blocking = c.blocking := rfl
@[simp] theorem Context.storeSample_dualWire (o : ByteOrder) (c : Context) (f ch : Nat) (x : BitVec 32) : (Context.storeSample o c f ch x).dualWire = c.dualWire := rfl
@[simp] theorem Context.storeSample_sfc (o : ByteOrder) (c : Context) (f ch : Nat) (x : BitVec 32) : (Context.storeSample o c f ch x).sfc = c.sfc := rfl
@[simp] theorem Context.storeSample_sytInterval (o : ByteOrder) (c : Context) (f ch : Nat) (x : BitVec 32) : (Context.storeSample o c f ch x).sytInterval = c.sytInterval := rfl
@[simp] theorem Context.storeSample_pcmChannels (o : ByteOrder) (c : Context) (f ch : Nat) (x : BitVec 32) : (Context.storeSample o c f ch x).pcmChannels = c.pcmChannels := rfl
@[simp] theorem Context.storeSample_midiPorts (o : ByteOrder) (c : Context) (f ch : Nat) (x : BitVec 32) : (Context.storeSample o c f ch x).midiPorts = c.midiPorts := rfl
@[simp] theorem Context.storeSample_dataBlockQuadlets (o : ByteOrder) (c : Context) (f ch : Nat) (x : BitVec 32) : (Context.storeSample o c f ch x).dataBlockQuadlets = c.dataBlockQuadlets := rfl
@[simp] theorem Context.storeSample_pcmPositions (o : ByteOrder) (c : Context) (f ch : Nat) (x : BitVec 32) : (Context.storeSample o c f ch x).pcmPositions = c.pcmPositions := rfl
@[simp] theorem Context.storeSample_midiPosition (o : ByteOrder) (c : Context) (f ch : Nat) (x : BitVec 32) : (Context.storeSample o c f ch x).midiPosition = c.midiPosition := rfl
@[simp] theorem Context.storeSample_pcmFormat (o : ByteOrder) (c : Context) (f ch : Nat) (x : BitVec 32) : (Context.storeSample o c f ch x).pcmFormat = c.pcmFormat := rfl
@[simp] theorem Context.storeSample_transferDelayBase (o : ByteOrder) (c : Context) (f ch : Nat) (x : BitVec 32) : (Context.storeSample o c f ch x).transferDelayBase = c.transferDelayBase := rfl
@[simp] theorem Context.storeSample_transferDelay (o : ByteOrder) (c : Context) (f ch : Nat) (x : BitVec 32) : (Context.storeSample o c f ch x).transferDelay = c.transferDelay := rfl
@[simp] theorem Context.storeSample_syncSlave (o : ByteOrder) (c : Context) (f ch : Nat) (x : BitVec 32) : (Context.storeSample o c f ch x).syncSlave = c.syncSlave := rfl
@[simp] theorem Context.storeSample_channel (o : ByteOrder) (c : Context) (f ch : Nat) (x : BitVec 32) : (Context.storeSample o c f ch x).channel = c.channel := rfl
@[simp] theorem Context.storeSample_speed (o : ByteOrder) (c : Context) (f ch : Nat) (x : BitVec 32) : (Context.storeSample o c f ch x).speed = c.speed := rfl
@[simp] theorem Context.storeSample_sourceNodeId (o : ByteOrder) (c : Context) (f ch : Nat) (x : BitVec 32) : (Context.storeSample o c f ch x).sourceNodeId = c.sourceNodeId := rfl
@[simp] theorem Context.storeSample_dbc (o : ByteOrder) (c : Context) (f ch : Nat) (x : BitVec 32) : (Context.storeSample o c f ch x).dbc = c.dbc := rfl
@[simp] theorem Context.storeSample_lastSytOffset (o : ByteOrder) (c : Context) (f ch : Nat) (x : BitVec 32) : (Context.storeSample o c f ch x).lastSytOffset = c.lastSytOffset := rfl
@[simp] theorem Context.storeSample_dataBlockState (o : ByteOrder) (c : Context) (f ch : Nat) (x : BitVec 32) : (Context.storeSample o c f ch x).dataBlockState = c.dataBlockState := rfl
@[simp] theorem Context.storeSample_sytOffsetState (o : ByteOrder) (c : Context) (f ch : Nat) (x : BitVec 32) : (Context.storeSample o c f ch x).sytOffsetState = c.sytOffsetState := rfl
@[simp] theorem Context.storeSample_pcmBufferPointer (o : ByteOrder) (c : Context) (f ch : Nat) (x : BitVec 32) : (Context.storeSample o c f ch x).pcmBufferPointer = c.pcmBufferPointer := rfl
@[simp] theorem Context.storeSample_pcmPeriodPointer (o : ByteOrder) (c : Context) (f ch : Nat) (x : BitVec 32) : (Context.storeSample o c f ch x).pcmPeriodPointer = c.pcmPeriodPointer := rfl
@[simp] theorem Context.storeSample_packetIndex (o : ByteOrder) (c : Context) (f ch : Nat) (x : BitVec 32) : (Context.storeSample o c f ch x).packetIndex = c.packetIndex := rfl
@[simp] theorem Context.storeSample_packetIndexValid (o : ByteOrder) (c : Context) (f ch : Nat) (x : BitVec 32) : (Context.storeSample o c f ch x).packetIndexValid = c.packetIndexValid := rfl
@[simp] theorem Context.storeSample_callbacked (o : ByteOrder) (c : Context) (f ch : Nat) (x : BitVec 32) : (Context.storeSample o c f ch x).callbacked = c.callbacked := rfl
@[simp] theorem Context.storeSample_periodPending (o : ByteOrder) (c : Context) (f ch : Nat) (x : BitVec 32) : (Context.storeSample o c f ch x).periodPending = c.periodPending := rfl
@[simp] theorem Context.storeSample_lastError (o : ByteOrder) (c : Context) (f ch : Nat) (x : BitVec 32) : (Context.storeSample o c f ch x).lastError = c.lastError := rfl
@[simp] theorem Context.storeSample_protoViolations (o : ByteOrder) (c : Context) (f ch : Nat) (x : BitVec 32) : (Context.storeSample o c f ch x).protoViolations = c.protoViolations := rfl
@[simp] theorem Context.storeSample_rxSeq (o : ByteOrder) (c : Context) (f ch : Nat) (x : BitVec 32) : (Context.storeSample o c f ch x).rxSeq = c.rxSeq := rfl
@[simp] theorem Context.storeSample_poolAllocated (o : ByteOrder) (c : Context) (f ch : Nat) (x : BitVec 32) : (Context.storeSample o c f ch x).poolAllocated = c.poolAllocated := rfl
@[simp] theorem Context.storeSample_pool (o : ByteOrder) (c : Context) (f ch : Nat) (x : BitVec 32) : (Context.storeSample o c f ch x).pool = c.pool := rfl
@[simp] theorem Context.storeSample_poolEpoch (o : ByteOrder) (c : Context) (f ch : Nat) (x : BitVec 32) : (Context.storeSample o c f ch x).poolEpoch = c.poolEpoch := rfl
@[simp] theorem Context.storeSample_isoContext (o : ByteOrder) (c : Context) (f ch : Nat) (x : BitVec 32) : (Context.storeSample o c f ch x).isoContext = c.isoContext := rfl
@[simp] theorem Context.storeSample_hwq (o : ByteOrder) (c : Context) (f ch : Nat) (x : BitVec 32) : (Context.storeSample o c f ch x).hwq = c.hwq := rfl
@[simp] theorem Context.storeSample_flushed (o : ByteOrder) (c : Context) (f ch : Nat) (x : BitVec 32) : (Context.storeSample o c f ch x).flushed = c.flushed := rfl
@[simp] theorem Context.storeSample_carry (o : ByteOrder) (c : Context) (f ch : Nat) (x : BitVec 32) : (Context.storeSample o c f ch x).carry = c.carry := rfl
@[simp] theorem Context.storeSample_pcm (o : ByteOrder) (c : Context) (f ch : Nat) (x : BitVec 32) : (Context.storeSample o c f ch x).pcm = c.pcm := rfl
@[simp] theorem Context.storeSample_pcmMemory (o : ByteOrder) (c : Context) (f ch : Nat) (x : BitVec 32) : (Context.storeSample o c f ch x).pcmMemory = c.pcmMemory.writeBytes (c.sampleAddress f ch) (sampleBytes o c.sampleSize x.toNat) := rfl
@[simp] theorem Context.storeSample_pcmEpoch (o : ByteOrder) (c : Context) (f ch : Nat) (x : BitVec 32) : (Context.storeSample o c f ch x).pcmEpoch = c.pcmEpoch := rfl
@[simp] theorem Context.storeSample_midi (o : ByteOrder) (c : Context) (f ch : Nat) (x : BitVec 32) : (Context.storeSample o c f ch x).midi = c.midi := rfl
@[simp] theorem Context.storeSample_wire (o : ByteOrder) (c : Context) (f ch : Nat) (x : BitVec 32) : (Context.storeSample o c f ch x).wire = c.wire := rfl
@[simp] theorem Context.storeSample_notices (o : ByteOrder) (c : Context) (f ch : Nat) (x : BitVec 32) : (Context.storeSample o c f ch x).notices = c.notices := rfl
@[simp] theorem Context.storeSample_aborts (o : ByteOrder) (c : Context) (f ch : Nat) (x : BitVec 32) : (Context.storeSample o c f ch x).aborts = c.aborts := rfl

@[simp] theorem Context.initialised_state (c : Context) (d : Direction) : (c.initialised d).state = .idle := rfl
@[simp] theorem Context.initialised_direction (c : Context) (d : Direction) : (c.initialised d).direction = d := rfl
@[simp] theorem Context.initialised_blocking (c : Context) (d : Direction) : (c.initialised d).blocking = c.blocking := rfl
@[simp] theorem Context.initialised_dualWire (c : Context) (d : Direction) : (c.initialised d).dualWire = c.dualWire := rfl
@[simp] theorem Context.initialised_sfc (c : Context) (d : Direction) : (c.initialised d).sfc = c.sfc := rfl
@[simp] theorem Context.initialised_sytInterval (c : Context) (d : Direction) : (c.initialised d).sytInterval = c.sytInterval := rfl
@[simp] theorem Context.initialised_pcmChannels (c : Context) (d : Direction) : (c.initialised d).pcmChannels = c.pcmChannels := rfl
@[simp] theorem Context.initialised_midiPorts (c : Context) (d : Direction) : (c.initialised d).midiPorts = c.midiPorts := rfl
@[simp] theorem Context.initialised_dataBlockQuadlets (c : Context) (d : Direction) : (c.initialised d).dataBlockQuadlets = c.dataBlockQuadlets := rfl
@[simp] theorem Context.initialised_pcmPositions (c : Context) (d : Direction) : (c.initialised d).pcmPositions = c.pcmPositions := rfl
@[simp] theorem Context.initialised_midiPosition (c : Context) (d : Direction) : (c.initialised d).midiPosition = c.midiPosition := rfl
@[simp] theorem Context.initialised_pcmFormat (c : Context) (d : Direction) : (c.initialised d).pcmFormat = .s32 := rfl
@[simp] theorem Context.initialised_transferDelayBase (c : Context) (d : Direction) : (c.initialised d).transferDelayBase = BitVec.ofNat 16 Config.transferDelayDefault := rfl
@[simp] theorem Context.initialised_transferDelay (c : Context) (d : Direction) : (c.initialised d).transferDelay = c.transferDelay := rfl
@[simp] theorem Context.initialised_syncSlave (c : Context) (d : Direction) : (c.initialised d).syncSlave = none := rfl
@[simp] theorem Context.initialised_channel (c : Context) (d : Direction) : (c.initialised d).channel = c.channel := rfl
@[simp] theorem Context.initialised_speed (c : Context) (d : Direction) : (c.initialised d).speed = c.speed := rfl
@[simp] theorem Context.initialised_sourceNodeId (c : Context) (d : Direction) : (c.initialised d).sourceNodeId = c.sourceNodeId := rfl
@[simp] theorem Context.initialised_dbc (c : Context) (d : Direction) : (c.initialised d).dbc = c.dbc := rfl
@[simp] theorem Context.initialised_lastSytOffset (c : Context) (d : Direction) : (c.initialised d).lastSytOffset = c.lastSytOffset := rfl
@[simp] theorem Context.initialised_dataBlockState (c : Context) (d : Direction) : (c.initialised d).dataBlockState = c.dataBlockState := rfl
@[simp] theorem Context.initialised_sytOffsetState (c : Context) (d : Direction) : (c.initialised d).sytOffsetState = c.sytOffsetState := rfl
@[simp] theorem Context.initialised_pcmBufferPointer (c : Context) (d : Direction) : (c.initialised d).pcmBufferPointer = 0 := rfl
@[simp] theorem Context.initialised_pcmPeriodPointer (c : Context) (d : Direction) : (c.initialised d).pcmPeriodPointer = 0 := rfl
@[simp] theorem Context.initialised_packetIndex (c : Context) (d : Direction) : (c.initialised d).packetIndex = c.packetIndex := rfl
@[simp] theorem Context.initialised_packetIndexValid (c : Context) (d : Direction) : (c.initialised d).packetIndexValid = false := rfl
@[simp] theorem Context.initialised_callbacked (c : Context) (d : Direction) : (c.initialised d).callbacked = false := rfl
@[simp] theorem Context.initialised_periodPending (c : Context) (d : Direction) : (c.initialised d).periodPending = false := rfl
@[simp] theorem Context.initialised_lastError (c : Context) (d : Direction) : (c.initialised d).lastError = .ok := rfl
@[simp] theorem Context.initialised_protoViolations (c : Context) (d : Direction) : (c.initialised d).protoViolations = 0 := rfl
@[simp] theorem Context.initialised_rxSeq (c : Context) (d : Direction) : (c.initialised d).rxSeq = c.rxSeq := rfl
@[simp] theorem Context.initialised_poolAllocated (c : Context) (d : Direction) : (c.initialised d).poolAllocated = c.poolAllocated := rfl
@[simp] theorem Context.initialised_pool (c : Context) (d : Direction) : (c.initialised d).pool = c.pool := rfl
@[simp] theorem Context.initialised_poolEpoch (c : Context) (d : Direction) : (c.initialised d).poolEpoch = c.poolEpoch := rfl
@[simp] theorem Context.initialised_isoContext (c : Context) (d : Direction) : (c.initialised d).isoContext = c.isoContext := rfl
@[simp] theorem Context.initialised_hwq (c : Context) (d : Direction) : (c.initialised d).hwq = c.hwq := rfl
@[simp] theorem Context.initialised_flushed (c : Context) (d : Direction) : (c.initialised d).flushed = c.flushed := rfl
@[simp] theorem Context.initialised_carry (c : Context) (d : Direction) : (c.initialised d).carry = c.carry := rfl
@[simp] theorem Context.initialised_pcm (c : Context) (d : Direction) : (c.initialised d).pcm = none := rfl
@[simp] theorem Context.initialised_pcmMemory (c : Context) (d : Direction) : (c.initialised d).pcmMemory = c.pcmMemory := rfl
@[simp] theorem Context.initialised_pcmEpoch (c : Context) (d : Direction) : (c.initialised d).pcmEpoch = c.pcmEpoch := rfl
@[simp] theorem Context.initialised_midi (c : Context) (d : Direction) : (c.initialised d).midi = detachPorts c.midi := rfl
@[simp] theorem Context.initialised_wire (c : Context) (d : Direction) : (c.initialised d).wire = c.wire := rfl
@[simp] theorem Context.initialised_notices (c : Context) (d : Direction) : (c.initialised d).notices = c.notices := rfl
@[simp] theorem Context.initialised_aborts (c : Context) (d : Direction) : (c.initialised d).aborts = c.aborts := rfl

@[simp] theorem Context.destroyed_state (c : Context) : (c.destroyed).state = .absent := rfl
@[simp] theorem Context.destroyed_direction (c : Context) : (c.destroyed).direction = c.direction := rfl
@[simp] theorem Context.destroyed_blocking (c : Context) : (c.destroyed).blocking = c.blocking := rfl
@[simp] theorem Context.destroyed_dualWire (c : Context) : (c.destroyed).dualWire = c.dualWire := rfl
@[simp] theorem Context.destroyed_sfc (c : Context) : (c.destroyed).sfc = c.sfc := rfl
@[simp] theorem Context.destroyed_sytInterval (c : Context) : (c.destroyed).sytInterval = c.sytInterval := rfl
@[simp] theorem Context.destroyed_pcmChannels (c : Context) : (c.destroyed).pcmChannels = c.pcmChannels := rfl
@[simp] theorem Context.destroyed_midiPorts (c : Context) : (c.destroyed).midiPorts = c.midiPorts := rfl
@[simp] theorem Context.destroyed_dataBlockQuadlets (c : Context) : (c.destroyed).dataBlockQuadlets = c.dataBlockQuadlets := rfl
@[simp] theorem Context.destroyed_pcmPositions (c : Context) : (c.destroyed).pcmPositions = c.pcmPositions := rfl
@[simp] theorem Context.destroyed_midiPosition (c : Context) : (c.destroyed).midiPosition = c.midiPosition := rfl
@[simp] theorem Context.destroyed_pcmFormat (c : Context) : (c.destroyed).pcmFormat = c.pcmFormat := rfl
@[simp] theorem Context.destroyed_transferDelayBase (c : Context) : (c.destroyed).transferDelayBase = c.transferDelayBase := rfl
@[simp] theorem Context.destroyed_transferDelay (c : Context) : (c.destroyed).transferDelay = c.transferDelay := rfl
@[simp] theorem Context.destroyed_syncSlave (c : Context) : (c.destroyed).syncSlave = c.syncSlave := rfl
@[simp] theorem Context.destroyed_channel (c : Context) : (c.destroyed).channel = c.channel := rfl
@[simp] theorem Context.destroyed_speed (c : Context) : (c.destroyed).speed = c.speed := rfl
@[simp] theorem Context.destroyed_sourceNodeId (c : Context) : (c.destroyed).sourceNodeId = c.sourceNodeId := rfl
@[simp] theorem Context.destroyed_dbc (c : Context) : (c.destroyed).dbc = c.dbc := rfl
@[simp] theorem Context.destroyed_lastSytOffset (c : Context) : (c.destroyed).lastSytOffset = c.lastSytOffset := rfl
@[simp] theorem Context.destroyed_dataBlockState (c : Context) : (c.destroyed).dataBlockState = c.dataBlockState := rfl
@[simp] theorem Context.destroyed_sytOffsetState (c : Context) : (c.destroyed).sytOffsetState = c.sytOffsetState := rfl
@[simp] theorem Context.destroyed_pcmBufferPointer (c : Context) : (c.destroyed).pcmBufferPointer = c.pcmBufferPointer := rfl
@[simp] theorem Context.destroyed_pcmPeriodPointer (c : Context) : (c.destroyed).pcmPeriodPointer = c.pcmPeriodPointer := rfl
@[simp] theorem Context.destroyed_packetIndex (c : Context) : (c.destroyed).packetIndex = c.packetIndex := rfl
@[simp] theorem Context.destroyed_packetIndexValid (c : Context) : (c.destroyed).packetIndexValid = c.packetIndexValid := rfl
@[simp] theorem Context.destroyed_callbacked (c : Context) : (c.destroyed).callbacked = c.callbacked := rfl
@[simp] theorem Context.destroyed_periodPending (c : Context) : (c.destroyed).periodPending = false := rfl
@[simp] theorem Context.destroyed_lastError (c : Context) : (c.destroyed).lastError = c.lastError := rfl
@[simp] theorem Context.destroyed_protoViolations (c : Context) : (c.destroyed).protoViolations = c.protoViolations := rfl
@[simp] theorem Context.destroyed_rxSeq (c : Context) : (c.destroyed).rxSeq = c.rxSeq := rfl
@[simp] theorem Context.destroyed_poolAllocated (c : Context) : (c.destroyed).poolAllocated = c.poolAllocated := rfl
@[simp] theorem Context.destroyed_pool (c : Context) : (c.destroyed).pool = c.pool := rfl
@[simp] theorem Context.destroyed_poolEpoch (c : Context) : (c.destroyed).poolEpoch = c.poolEpoch := rfl
@[simp] theorem Context.destroyed_isoContext (c : Context) : (c.destroyed).isoContext = c.isoContext := rfl
@[simp] theorem Context.destroyed_hwq (c : Context) : (c.destroyed).hwq = c.hwq := rfl
@[simp] theorem Context.destroyed_flushed (c : Context) : (c.destroyed).flushed = c.flushed := rfl
@[simp] theorem Context.destroyed_carry (c : Context) : (c.destroyed).carry = c.carry := rfl
@[simp] theorem Context.destroyed_pcm (c : Context) : (c.destroyed).pcm = none := rfl
@[simp] theorem Context.destroyed_pcmMemory (c : Context) : (c.destroyed).pcmMemory = c.pcmMemory := rfl
@[simp] theorem Context.destroyed_pcmEpoch (c : Context) : (c.destroyed).pcmEpoch = c.pcmEpoch := rfl
@[simp] theorem Context.destroyed_midi (c : Context) : (c.destroyed).midi = unbindPorts c.midi := rfl
@[simp] theorem Context.destroyed_wire (c : Context) : (c.destroyed).wire = c.wire := rfl
@[simp] theorem Context.destroyed_notices (c : Context) : (c.destroyed).notices = c.notices := rfl
@[simp] theorem Context.destroyed_aborts (c : Context) : (c.destroyed).aborts = c.aborts := rfl

@[simp] theorem Context.parameterized_state (c : Context) (code interval ch ports : Nat) (b w : Bool) : (c.parameterized code interval ch ports b w).state = .configured := rfl
@[simp] theorem Context.parameterized_direction (c : Context) (code interval ch ports : Nat) (b w : Bool) : (c.parameterized code interval ch ports b w).direction = c.direction := rfl
@[simp] theorem Context.parameterized_blocking (c : Context) (code interval ch ports : Nat) (b w : Bool) : (c.parameterized code interval ch ports b w).blocking = b := rfl
@[simp] theorem Context.parameterized_dualWire (c : Context) (code interval ch ports : Nat) (b w : Bool) : (c.parameterized code interval ch ports b w).dualWire = w := rfl
@[simp] theorem Context.parameterized_sfc (c : Context) (code interval ch ports : Nat) (b w : Bool) : (c.parameterized code interval ch ports b w).sfc = BitVec.ofNat 3 code := rfl
@[simp] theorem Context.parameterized_sytInterval (c : Context) (code interval ch ports : Nat) (b w : Bool) : (c.parameterized code interval ch ports b w).sytInterval = BitVec.ofNat 6 interval := rfl
@[simp] theorem Context.parameterized_pcmChannels (c : Context) (code interval ch ports : Nat) (b w : Bool) : (c.parameterized code interval ch ports b w).pcmChannels = BitVec.ofNat 7 ch := rfl
@[simp] theorem Context.parameterized_midiPorts (c : Context) (code interval ch ports : Nat) (b w : Bool) : (c.parameterized code interval ch ports b w).midiPorts = BitVec.ofNat 4 ports := rfl
@[simp] theorem Context.parameterized_dataBlockQuadlets (c : Context) (code interval ch ports : Nat) (b w : Bool) : (c.parameterized code interval ch ports b w).dataBlockQuadlets = BitVec.ofNat 8 (ch * (if w then 2 else 1) + if 0 < ports then 1 else 0) := rfl
@[simp] theorem Context.parameterized_pcmPositions (c : Context) (code interval ch ports : Nat) (b w : Bool) : (c.parameterized code interval ch ports b w).pcmPositions = defaultPositions ch c.pcmPositions := rfl
@[simp] theorem Context.parameterized_midiPosition (c : Context) (code interval ch ports : Nat) (b w : Bool) : (c.parameterized code interval ch ports b w).midiPosition = BitVec.ofNat 8 (ch * (if w then 2 else 1)) := rfl
@[simp] theorem Context.parameterized_pcmFormat (c : Context) (code interval ch ports : Nat) (b w : Bool) : (c.parameterized code interval ch ports b w).pcmFormat = c.pcmFormat := rfl
@[simp] theorem Context.parameterized_transferDelayBase (c : Context) (code interval ch ports : Nat) (b w : Bool) : (c.parameterized code interval ch ports b w).transferDelayBase = c.transferDelayBase := rfl
@[simp] theorem Context.parameterized_transferDelay (c : Context) (code interval ch ports : Nat) (b w : Bool) : (c.parameterized code interval ch ports b w).transferDelay = c.transferDelay := rfl
@[simp] theorem Context.parameterized_syncSlave (c : Context) (code interval ch ports : Nat) (b w : Bool) : (c.parameterized code interval ch ports b w).syncSlave = c.syncSlave := rfl
@[simp] theorem Context.parameterized_channel (c : Context) (code interval ch ports : Nat) (b w : Bool) : (c.parameterized code interval ch ports b w).channel = c.channel := rfl
@[simp] theorem Context.parameterized_speed (c : Context) (code interval ch ports : Nat) (b w : Bool) : (c.parameterized code interval ch ports b w).speed = c.speed := rfl
@[simp] theorem Context.parameterized_sourceNodeId (c : Context) (code interval ch ports : Nat) (b w : Bool) : (c.parameterized code interval ch ports b w).sourceNodeId = c.sourceNodeId := rfl
@[simp] theorem Context.parameterized_dbc (c : Context) (code interval ch ports : Nat) (b w : Bool) : (c.parameterized code interval ch ports b w).dbc = c.dbc := rfl
@[simp] theorem Context.parameterized_lastSytOffset (c : Context) (code interval ch ports : Nat) (b w : Bool) : (c.parameterized code interval ch ports b w).lastSytOffset = c.lastSytOffset := rfl
@[simp] theorem Context.parameterized_dataBlockState (c : Context) (code interval ch ports : Nat) (b w : Bool) : (c.parameterized code interval ch ports b w).dataBlockState = c.dataBlockState := rfl
@[simp] theorem Context.parameterized_sytOffsetState (c : Context) (code interval ch ports : Nat) (b w : Bool) : (c.parameterized code interval ch ports b w).sytOffsetState = c.sytOffsetState := rfl
@[simp] theorem Context.parameterized_pcmBufferPointer (c : Context) (code interval ch ports : Nat) (b w : Bool) : (c.parameterized code interval ch ports b w).pcmBufferPointer = c.pcmBufferPointer := rfl
@[simp] theorem Context.parameterized_pcmPeriodPointer (c : Context) (code interval ch ports : Nat) (b w : Bool) : (c.parameterized code interval ch ports b w).pcmPeriodPointer = c.pcmPeriodPointer := rfl
@[simp] theorem Context.parameterized_packetIndex (c : Context) (code interval ch ports : Nat) (b w : Bool) : (c.parameterized code interval ch ports b w).packetIndex = c.packetIndex := rfl
@[simp] theorem Context.parameterized_packetIndexValid (c : Context) (code interval ch ports : Nat) (b w : Bool) : (c.parameterized code interval ch ports b w).packetIndexValid = c.packetIndexValid := rfl
@[simp] theorem Context.parameterized_callbacked (c : Context) (code interval ch ports : Nat) (b w : Bool) : (c.parameterized code interval ch ports b w).callbacked = c.callbacked := rfl
@[simp] theorem Context.parameterized_periodPending (c : Context) (code interval ch ports : Nat) (b w : Bool) : (c.parameterized code interval ch ports b w).periodPending = c.periodPending := rfl
@[simp] theorem Context.parameterized_lastError (c : Context) (code interval ch ports : Nat) (b w : Bool) : (c.parameterized code interval ch ports b w).lastError = c.lastError := rfl
@[simp] theorem Context.parameterized_protoViolations (c : Context) (code interval ch ports : Nat) (b w : Bool) : (c.parameterized code interval ch ports b w).protoViolations = c.protoViolations := rfl
@[simp] theorem Context.parameterized_rxSeq (c : Context) (code interval ch ports : Nat) (b w : Bool) : (c.parameterized code interval ch ports b w).rxSeq = c.rxSeq := rfl
@[simp] theorem Context.parameterized_poolAllocated (c : Context) (code interval ch ports : Nat) (b w : Bool) : (c.parameterized code interval ch ports b w).poolAllocated = c.poolAllocated := rfl
@[simp] theorem Context.parameterized_pool (c : Context) (code interval ch ports : Nat) (b w : Bool) : (c.parameterized code interval ch ports b w).pool = c.pool := rfl
@[simp] theorem Context.parameterized_poolEpoch (c : Context) (code interval ch ports : Nat) (b w : Bool) : (c.parameterized code interval ch ports b w).poolEpoch = c.poolEpoch := rfl
@[simp] theorem Context.parameterized_isoContext (c : Context) (code interval ch ports : Nat) (b w : Bool) : (c.parameterized code interval ch ports b w).isoContext = c.isoContext := rfl
@[simp] theorem Context.parameterized_hwq (c : Context) (code interval ch ports : Nat) (b w : Bool) : (c.parameterized code interval ch ports b w).hwq = c.hwq := rfl
@[simp] theorem Context.parameterized_flushed (c : Context) (code interval ch ports : Nat) (b w : Bool) : (c.parameterized code interval ch ports b w).flushed = c.flushed := rfl
@[simp] theorem Context.parameterized_carry (c : Context) (code interval ch ports : Nat) (b w : Bool) : (c.parameterized code interval ch ports b w).carry = c.carry := rfl
@[simp] theorem Context.parameterized_pcm (c : Context) (code interval ch ports : Nat) (b w : Bool) : (c.parameterized code interval ch ports b w).pcm = c.pcm := rfl
@[simp] theorem Context.parameterized_pcmMemory (c : Context) (code interval ch ports : Nat) (b w : Bool) : (c.parameterized code interval ch ports b w).pcmMemory = c.pcmMemory := rfl
@[simp] theorem Context.parameterized_pcmEpoch (c : Context) (code interval ch ports : Nat) (b w : Bool) : (c.parameterized code interval ch ports b w).pcmEpoch = c.pcmEpoch := rfl
@[simp] theorem Context.parameterized_midi (c : Context) (code interval ch ports : Nat) (b w : Bool) : (c.parameterized code interval ch ports b w).midi = c.midi := rfl
@[simp] theorem Context.parameterized_wire (c : Context) (code interval ch ports : Nat) (b w : Bool) : (c.parameterized code interval ch ports b w).wire = c.wire := rfl
@[simp] theorem Context.parameterized_notices (c : Context) (code interval ch ports : Nat) (b w : Bool) : (c.parameterized code interval ch ports b w).notices = c.notices := rfl
@[simp] theorem Context.parameterized_aborts (c : Context) (code interval ch ports : Nat) (b w : Bool) : (c.parameterized code interval ch ports b w).aborts = c.aborts := rfl

@[simp] theorem Context.seeded_state (c : Context) (ch sp node dbs sos rate epoch : Nat) : (c.seeded ch sp node dbs sos rate epoch).state = .running := rfl
@[simp] theorem Context.seeded_direction (c : Context) (ch sp node dbs sos rate epoch : Nat) : (c.seeded ch sp node dbs sos rate epoch).direction = c.direction := rfl
@[simp] theorem Context.seeded_blocking (c : Context) (ch sp node dbs sos rate epoch : Nat) : (c.seeded ch sp node dbs sos rate epoch).blocking = c.blocking := rfl
@[simp] theorem Context.seeded_dualWire (c : Context) (ch sp node dbs sos rate epoch : Nat) : (c.seeded ch sp node dbs sos rate epoch).dualWire = c.dualWire := rfl
@[simp] theorem Context.seeded_sfc (c : Context) (ch sp node dbs sos rate epoch : Nat) : (c.seeded ch sp node dbs sos rate epoch).sfc = c.sfc := rfl
@[simp] theorem Context.seeded_sytInterval (c : Context) (ch sp node dbs sos rate epoch : Nat) : (c.seeded ch sp node dbs sos rate epoch).sytInterval = c.sytInterval := rfl
@[simp] theorem Context.seeded_pcmChannels (c : Context) (ch sp node dbs sos rate epoch : Nat) : (c.seeded ch sp node dbs sos rate epoch).pcmChannels = c.pcmChannels := rfl
@[simp] theorem Context.seeded_midiPorts (c : Context) (ch sp node dbs sos rate epoch : Nat) : (c.seeded ch sp node dbs sos rate epoch).midiPorts = c.midiPorts := rfl
@[simp] theorem Context.seeded_dataBlockQuadlets (c : Context) (ch sp node dbs sos rate epoch : Nat) : (c.seeded ch sp node dbs sos rate epoch).dataBlockQuadlets = c.dataBlockQuadlets := rfl
@[simp] theorem Context.seeded_pcmPositions (c : Context) (ch sp node dbs sos rate epoch : Nat) : (c.seeded ch sp node dbs sos rate epoch).pcmPositions = c.pcmPositions := rfl
@[simp] theorem Context.seeded_midiPosition (c : Context) (ch sp node dbs sos rate epoch : Nat) : (c.seeded ch sp node dbs sos rate epoch).midiPosition = c.midiPosition := rfl
@[simp] theorem Context.seeded_pcmFormat (c : Context) (ch sp node dbs sos rate epoch : Nat) : (c.seeded ch sp node dbs sos rate epoch).pcmFormat = c.pcmFormat := rfl
@[simp] theorem Context.seeded_transferDelayBase (c : Context) (ch sp node dbs sos rate epoch : Nat) : (c.seeded ch sp node dbs sos rate epoch).transferDelayBase = c.transferDelayBase := rfl
@[simp] theorem Context.seeded_transferDelay (c : Context) (ch sp node dbs sos rate epoch : Nat) : (c.seeded ch sp node dbs sos rate epoch).transferDelay = BitVec.ofNat 17 (c.effectiveDelay rate) := rfl
@[simp] theorem Context.seeded_syncSlave (c : Context) (ch sp node dbs sos rate epoch : Nat) : (c.seeded ch sp node dbs sos rate epoch).syncSlave = c.syncSlave := rfl
@[simp] theorem Context.seeded_channel (c : Context) (ch sp node dbs sos rate epoch : Nat) : (c.seeded ch sp node dbs sos rate epoch).channel = BitVec.ofNat 6 ch := rfl
@[simp] theorem Context.seeded_speed (c : Context) (ch sp node dbs sos rate epoch : Nat) : (c.seeded ch sp node dbs sos rate epoch).speed = BitVec.ofNat 3 sp := rfl
@[simp] theorem Context.seeded_sourceNodeId (c : Context) (ch sp node dbs sos rate epoch : Nat) : (c.seeded ch sp node dbs sos rate epoch).sourceNodeId = BitVec.ofNat 6 node := rfl
@[simp] theorem Context.seeded_dbc (c : Context) (ch sp node dbs sos rate epoch : Nat) : (c.seeded ch sp node dbs sos rate epoch).dbc = 0 := rfl
@[simp] theorem Context.seeded_lastSytOffset (c : Context) (ch sp node dbs sos rate epoch : Nat) : (c.seeded ch sp node dbs sos rate epoch).lastSytOffset = 3072 := rfl
@[simp] theorem Context.seeded_dataBlockState (c : Context) (ch sp node dbs sos rate epoch : Nat) : (c.seeded ch sp node dbs sos rate epoch).dataBlockState = BitVec.ofNat 7 dbs := rfl
@[simp] theorem Context.seeded_sytOffsetState (c : Context) (ch sp node dbs sos rate epoch : Nat) : (c.seeded ch sp node dbs sos rate epoch).sytOffsetState = BitVec.ofNat 12 sos := rfl
@[simp] theorem Context.seeded_pcmBufferPointer (c : Context) (ch sp node dbs sos rate epoch : Nat) : (c.seeded ch sp node dbs sos rate epoch).pcmBufferPointer = c.pcmBufferPointer := rfl
@[simp] theorem Context.seeded_pcmPeriodPointer (c : Context) (ch sp node dbs sos rate epoch : Nat) : (c.seeded ch sp node dbs sos rate epoch).pcmPeriodPointer = c.pcmPeriodPointer := rfl
@[simp] theorem Context.seeded_packetIndex (c : Context) (ch sp node dbs sos rate epoch : Nat) : (c.seeded ch sp node dbs sos rate epoch).packetIndex = 0 := rfl
@[simp] theorem Context.seeded_packetIndexValid (c : Context) (ch sp node dbs sos rate epoch : Nat) : (c.seeded ch sp node dbs sos rate epoch).packetIndexValid = true := rfl
@[simp] theorem Context.seeded_callbacked (c : Context) (ch sp node dbs sos rate epoch : Nat) : (c.seeded ch sp node dbs sos rate epoch).callbacked = false := rfl
@[simp] theorem Context.seeded_periodPending (c : Context) (ch sp node dbs sos rate epoch : Nat) : (c.seeded ch sp node dbs sos rate epoch).periodPending = c.periodPending := rfl
@[simp] theorem Context.seeded_lastError (c : Context) (ch sp node dbs sos rate epoch : Nat) : (c.seeded ch sp node dbs sos rate epoch).lastError = .ok := rfl
@[simp] theorem Context.seeded_protoViolations (c : Context) (ch sp node dbs sos rate epoch : Nat) : (c.seeded ch sp node dbs sos rate epoch).protoViolations = c.protoViolations := rfl
@[simp] theorem Context.seeded_rxSeq (c : Context) (ch sp node dbs sos rate epoch : Nat) : (c.seeded ch sp node dbs sos rate epoch).rxSeq = 0 := rfl
@[simp] theorem Context.seeded_poolAllocated (c : Context) (ch sp node dbs sos rate epoch : Nat) : (c.seeded ch sp node dbs sos rate epoch).poolAllocated = true := rfl
@[simp] theorem Context.seeded_pool (c : Context) (ch sp node dbs sos rate epoch : Nat) : (c.seeded ch sp node dbs sos rate epoch).pool = [] := rfl
@[simp] theorem Context.seeded_poolEpoch (c : Context) (ch sp node dbs sos rate epoch : Nat) : (c.seeded ch sp node dbs sos rate epoch).poolEpoch = epoch := rfl
@[simp] theorem Context.seeded_isoContext (c : Context) (ch sp node dbs sos rate epoch : Nat) : (c.seeded ch sp node dbs sos rate epoch).isoContext = true := rfl
@[simp] theorem Context.seeded_hwq (c : Context) (ch sp node dbs sos rate epoch : Nat) : (c.seeded ch sp node dbs sos rate epoch).hwq = [] := rfl
@[simp] theorem Context.seeded_flushed (c : Context) (ch sp node dbs sos rate epoch : Nat) : (c.seeded ch sp node dbs sos rate epoch).flushed = 0 := rfl
@[simp] theorem Context.seeded_carry (c : Context) (ch sp node dbs sos rate epoch : Nat) : (c.seeded ch sp node dbs sos rate epoch).carry = [] := rfl
@[simp] theorem Context.seeded_pcm (c : Context) (ch sp node dbs sos rate epoch : Nat) : (c.seeded ch sp node dbs sos rate epoch).pcm = c.pcm := rfl
@[simp] theorem Context.seeded_pcmMemory (c : Context) (ch sp node dbs sos rate epoch : Nat) : (c.seeded ch sp node dbs sos rate epoch).pcmMemory = c.pcmMemory := rfl
@[simp] theorem Context.seeded_pcmEpoch (c : Context) (ch sp node dbs sos rate epoch : Nat) : (c.seeded ch sp node dbs sos rate epoch).pcmEpoch = c.pcmEpoch := rfl
@[simp] theorem Context.seeded_midi (c : Context) (ch sp node dbs sos rate epoch : Nat) : (c.seeded ch sp node dbs sos rate epoch).midi = c.midi := rfl
@[simp] theorem Context.seeded_wire (c : Context) (ch sp node dbs sos rate epoch : Nat) : (c.seeded ch sp node dbs sos rate epoch).wire = c.wire := rfl
@[simp] theorem Context.seeded_notices (c : Context) (ch sp node dbs sos rate epoch : Nat) : (c.seeded ch sp node dbs sos rate epoch).notices = c.notices := rfl
@[simp] theorem Context.seeded_aborts (c : Context) (ch sp node dbs sos rate epoch : Nat) : (c.seeded ch sp node dbs sos rate epoch).aborts = c.aborts := rfl

@[simp] theorem Context.stopped_state (c : Context) : (c.stopped).state = .idle := rfl
@[simp] theorem Context.stopped_direction (c : Context) : (c.stopped).direction = c.direction := rfl
@[simp] theorem Context.stopped_blocking (c : Context) : (c.stopped).blocking = c.blocking := rfl
@[simp] theorem Context.stopped_dualWire (c : Context) : (c.stopped).dualWire = c.dualWire := rfl
@[simp] theorem Context.stopped_sfc (c : Context) : (c.stopped).sfc = c.sfc := rfl
@[simp] theorem Context.stopped_sytInterval (c : Context) : (c.stopped).sytInterval = c.sytInterval := rfl
@[simp] theorem Context.stopped_pcmChannels (c : Context) : (c.stopped).pcmChannels = c.pcmChannels := rfl
@[simp] theorem Context.stopped_midiPorts (c : Context) : (c.stopped).midiPorts = c.midiPorts := rfl
@[simp] theorem Context.stopped_dataBlockQuadlets (c : Context) : (c.stopped).dataBlockQuadlets = c.dataBlockQuadlets := rfl
@[simp] theorem Context.stopped_pcmPositions (c : Context) : (c.stopped).pcmPositions = c.pcmPositions := rfl
@[simp] theorem Context.stopped_midiPosition (c : Context) : (c.stopped).midiPosition = c.midiPosition := rfl
@[simp] theorem Context.stopped_pcmFormat (c : Context) : (c.stopped).pcmFormat = c.pcmFormat := rfl
@[simp] theorem Context.stopped_transferDelayBase (c : Context) : (c.stopped).transferDelayBase = c.transferDelayBase := rfl
@[simp] theorem Context.stopped_transferDelay (c : Context) : (c.stopped).transferDelay = c.transferDelay := rfl
@[simp] theorem Context.stopped_syncSlave (c : Context) : (c.stopped).syncSlave = c.syncSlave := rfl
@[simp] theorem Context.stopped_channel (c : Context) : (c.stopped).channel = c.channel := rfl
@[simp] theorem Context.stopped_speed (c : Context) : (c.stopped).speed = c.speed := rfl
@[simp] theorem Context.stopped_sourceNodeId (c : Context) : (c.stopped).sourceNodeId = c.sourceNodeId := rfl
@[simp] theorem Context.stopped_dbc (c : Context) : (c.stopped).dbc = c.dbc := rfl
@[simp] theorem Context.stopped_lastSytOffset (c : Context) : (c.stopped).lastSytOffset = c.lastSytOffset := rfl
@[simp] theorem Context.stopped_dataBlockState (c : Context) : (c.stopped).dataBlockState = c.dataBlockState := rfl
@[simp] theorem Context.stopped_sytOffsetState (c : Context) : (c.stopped).sytOffsetState = c.sytOffsetState := rfl
@[simp] theorem Context.stopped_pcmBufferPointer (c : Context) : (c.stopped).pcmBufferPointer = c.pcmBufferPointer := rfl
@[simp] theorem Context.stopped_pcmPeriodPointer (c : Context) : (c.stopped).pcmPeriodPointer = c.pcmPeriodPointer := rfl
@[simp] theorem Context.stopped_packetIndex (c : Context) : (c.stopped).packetIndex = Config.staleIndex c.poolEpoch := rfl
@[simp] theorem Context.stopped_packetIndexValid (c : Context) : (c.stopped).packetIndexValid = false := rfl
@[simp] theorem Context.stopped_callbacked (c : Context) : (c.stopped).callbacked = c.callbacked := rfl
@[simp] theorem Context.stopped_periodPending (c : Context) : (c.stopped).periodPending = false := rfl
@[simp] theorem Context.stopped_lastError (c : Context) : (c.stopped).lastError = c.lastError := rfl
@[simp] theorem Context.stopped_protoViolations (c : Context) : (c.stopped).protoViolations = c.protoViolations := rfl
@[simp] theorem Context.stopped_rxSeq (c : Context) : (c.stopped).rxSeq = c.rxSeq := rfl
@[simp] theorem Context.stopped_poolAllocated (c : Context) : (c.stopped).poolAllocated = false := rfl
@[simp] theorem Context.stopped_pool (c : Context) : (c.stopped).pool = [] := rfl
@[simp] theorem Context.stopped_poolEpoch (c : Context) : (c.stopped).poolEpoch = c.poolEpoch := rfl
@[simp] theorem Context.stopped_isoContext (c : Context) : (c.stopped).isoContext = false := rfl
@[simp] theorem Context.stopped_hwq (c : Context) : (c.stopped).hwq = [] := rfl
@[simp] theorem Context.stopped_flushed (c : Context) : (c.stopped).flushed = 0 := rfl
@[simp] theorem Context.stopped_carry (c : Context) : (c.stopped).carry = [] := rfl
@[simp] theorem Context.stopped_pcm (c : Context) : (c.stopped).pcm = none := rfl
@[simp] theorem Context.stopped_pcmMemory (c : Context) : (c.stopped).pcmMemory = c.pcmMemory := rfl
@[simp] theorem Context.stopped_pcmEpoch (c : Context) : (c.stopped).pcmEpoch = c.pcmEpoch := rfl
@[simp] theorem Context.stopped_midi (c : Context) : (c.stopped).midi = detachPorts c.midi := rfl
@[simp] theorem Context.stopped_wire (c : Context) : (c.stopped).wire = c.wire := rfl
@[simp] theorem Context.stopped_notices (c : Context) : (c.stopped).notices = c.notices := rfl
@[simp] theorem Context.stopped_aborts (c : Context) : (c.stopped).aborts = c.aborts := rfl

@[simp] theorem Context.bindPcm_state (c : Context) (b : Binding) (epoch : Nat) : (c.bindPcm b epoch).state = c.state := rfl
@[simp] theorem Context.bindPcm_direction (c : Context) (b : Binding) (epoch : Nat) : (c.bindPcm b epoch).direction = c.direction := rfl
@[simp] theorem Context.bindPcm_blocking (c : Context) (b : Binding) (epoch : Nat) : (c.bindPcm b epoch).blocking = c.blocking := rfl
@[simp] theorem Context.bindPcm_dualWire (c : Context) (b : Binding) (epoch : Nat) : (c.bindPcm b epoch).dualWire = c.dualWire := rfl
@[simp] theorem Context.bindPcm_sfc (c : Context) (b : Binding) (epoch : Nat) : (c.bindPcm b epoch).sfc = c.sfc := rfl
@[simp] theorem Context.bindPcm_sytInterval (c : Context) (b : Binding) (epoch : Nat) : (c.bindPcm b epoch).sytInterval = c.sytInterval := rfl
@[simp] theorem Context.bindPcm_pcmChannels (c : Context) (b : Binding) (epoch : Nat) : (c.bindPcm b epoch).pcmChannels = c.pcmChannels := rfl
@[simp] theorem Context.bindPcm_midiPorts (c : Context) (b : Binding) (epoch : Nat) : (c.bindPcm b epoch).midiPorts = c.midiPorts := rfl
@[simp] theorem Context.bindPcm_dataBlockQuadlets (c : Context) (b : Binding) (epoch : Nat) : (c.bindPcm b epoch).dataBlockQuadlets = c.dataBlockQuadlets := rfl
@[simp] theorem Context.bindPcm_pcmPositions (c : Context) (b : Binding) (epoch : Nat) : (c.bindPcm b epoch).pcmPositions = c.pcmPositions := rfl
@[simp] theorem Context.bindPcm_midiPosition (c : Context) (b : Binding) (epoch : Nat) : (c.bindPcm b epoch).midiPosition = c.midiPosition := rfl
@[simp] theorem Context.bindPcm_pcmFormat (c : Context) (b : Binding) (epoch : Nat) : (c.bindPcm b epoch).pcmFormat = c.pcmFormat := rfl
@[simp] theorem Context.bindPcm_transferDelayBase (c : Context) (b : Binding) (epoch : Nat) : (c.bindPcm b epoch).transferDelayBase = c.transferDelayBase := rfl
@[simp] theorem Context.bindPcm_transferDelay (c : Context) (b : Binding) (epoch : Nat) : (c.bindPcm b epoch).transferDelay = c.transferDelay := rfl
@[simp] theorem Context.bindPcm_syncSlave (c : Context) (b : Binding) (epoch : Nat) : (c.bindPcm b epoch).syncSlave = c.syncSlave := rfl
@[simp] theorem Context.bindPcm_channel (c : Context) (b : Binding) (epoch : Nat) : (c.bindPcm b epoch).channel = c.channel := rfl
@[simp] theorem Context.bindPcm_speed (c : Context) (b : Binding) (epoch : Nat) : (c.bindPcm b epoch).speed = c.speed := rfl
@[simp] theorem Context.bindPcm_sourceNodeId (c : Context) (b : Binding) (epoch : Nat) : (c.bindPcm b epoch).sourceNodeId = c.sourceNodeId := rfl
@[simp] theorem Context.bindPcm_dbc (c : Context) (b : Binding) (epoch : Nat) : (c.bindPcm b epoch).dbc = c.dbc := rfl
@[simp] theorem Context.bindPcm_lastSytOffset (c : Context) (b : Binding) (epoch : Nat) : (c.bindPcm b epoch).lastSytOffset = c.lastSytOffset := rfl
@[simp] theorem Context.bindPcm_dataBlockState (c : Context) (b : Binding) (epoch : Nat) : (c.bindPcm b epoch).dataBlockState = c.dataBlockState := rfl
@[simp] theorem Context.bindPcm_sytOffsetState (c : Context) (b : Binding) (epoch : Nat) : (c.bindPcm b epoch).sytOffsetState = c.sytOffsetState := rfl
@[simp] theorem Context.bindPcm_pcmBufferPointer (c : Context) (b : Binding) (epoch : Nat) : (c.bindPcm b epoch).pcmBufferPointer = c.pcmBufferPointer := rfl
@[simp] theorem Context.bindPcm_pcmPeriodPointer (c : Context) (b : Binding) (epoch : Nat) : (c.bindPcm b epoch).pcmPeriodPointer = c.pcmPeriodPointer := rfl
@[simp] theorem Context.bindPcm_packetIndex (c : Context) (b : Binding) (epoch : Nat) : (c.bindPcm b epoch).packetIndex = c.packetIndex := rfl
@[simp] theorem Context.bindPcm_packetIndexValid (c : Context) (b : Binding) (epoch : Nat) : (c.bindPcm b epoch).packetIndexValid = c.packetIndexValid := rfl
@[simp] theorem Context.bindPcm_callbacked (c : Context) (b : Binding) (epoch : Nat) : (c.bindPcm b epoch).callbacked = c.callbacked := rfl
@[simp] theorem Context.bindPcm_periodPending (c : Context) (b : Binding) (epoch : Nat) : (c.bindPcm b epoch).periodPending = c.periodPending := rfl
@[simp] theorem Context.bindPcm_lastError (c : Context) (b : Binding) (epoch : Nat) : (c.bindPcm b epoch).lastError = c.lastError := rfl
@[simp] theorem Context.bindPcm_protoViolations (c : Context) (b : Binding) (epoch : Nat) : (c.bindPcm b epoch).protoViolations = c.protoViolations := rfl
@[simp] theorem Context.bindPcm_rxSeq (c : Context) (b : Binding) (epoch : Nat) : (c.bindPcm b epoch).rxSeq = c.rxSeq := rfl
@[simp] theorem Context.bindPcm_poolAllocated (c : Context) (b : Binding) (epoch : Nat) : (c.bindPcm b epoch).poolAllocated = c.poolAllocated := rfl
@[simp] theorem Context.bindPcm_pool (c : Context) (b : Binding) (epoch : Nat) : (c.bindPcm b epoch).pool = c.pool := rfl
@[simp] theorem Context.bindPcm_poolEpoch (c : Context) (b : Binding) (epoch : Nat) : (c.bindPcm b epoch).poolEpoch = c.poolEpoch := rfl
@[simp] theorem Context.bindPcm_isoContext (c : Context) (b : Binding) (epoch : Nat) : (c.bindPcm b epoch).isoContext = c.isoContext := rfl
@[simp] theorem Context.bindPcm_hwq (c : Context) (b : Binding) (epoch : Nat) : (c.bindPcm b epoch).hwq = c.hwq := rfl
@[simp] theorem Context.bindPcm_flushed (c : Context) (b : Binding) (epoch : Nat) : (c.bindPcm b epoch).flushed = c.flushed := rfl
@[simp] theorem Context.bindPcm_carry (c : Context) (b : Binding) (epoch : Nat) : (c.bindPcm b epoch).carry = c.carry := rfl
@[simp] theorem Context.bindPcm_pcm (c : Context) (b : Binding) (epoch : Nat) : (c.bindPcm b epoch).pcm = some b := rfl
@[simp] theorem Context.bindPcm_pcmMemory (c : Context) (b : Binding) (epoch : Nat) : (c.bindPcm b epoch).pcmMemory = [] := rfl
@[simp] theorem Context.bindPcm_pcmEpoch (c : Context) (b : Binding) (epoch : Nat) : (c.bindPcm b epoch).pcmEpoch = epoch := rfl
@[simp] theorem Context.bindPcm_midi (c : Context) (b : Binding) (epoch : Nat) : (c.bindPcm b epoch).midi = c.midi := rfl
@[simp] theorem Context.bindPcm_wire (c : Context) (b : Binding) (epoch : Nat) : (c.bindPcm b epoch).wire = c.wire := rfl
@[simp] theorem Context.bindPcm_notices (c : Context) (b : Binding) (epoch : Nat) : (c.bindPcm b epoch).notices = c.notices := rfl
@[simp] theorem Context.bindPcm_aborts (c : Context) (b : Binding) (epoch : Nat) : (c.bindPcm b epoch).aborts = c.aborts := rfl

@[simp] theorem Context.consume_state (c : Context) (n : Nat) : (c.consume n).state = c.state := rfl
@[simp] theorem Context.consume_direction (c : Context) (n : Nat) : (c.consume n).direction = c.direction := rfl
@[simp] theorem Context.consume_blocking (c : Context) (n : Nat) : (c.consume n).blocking = c.blocking := rfl
@[simp] theorem Context.consume_dualWire (c : Context) (n : Nat) : (c.consume n).dualWire = c.dualWire := rfl
@[simp] theorem Context.consume_sfc (c : Context) (n : Nat) : (c.consume n).sfc = c.sfc := rfl
@[simp] theorem Context.consume_sytInterval (c : Context) (n : Nat) : (c.consume n).sytInterval = c.sytInterval := rfl
@[simp] theorem Context.consume_pcmChannels (c : Context) (n : Nat) : (c.consume n).pcmChannels = c.pcmChannels := rfl
@[simp] theorem Context.consume_midiPorts (c : Context) (n : Nat) : (c.consume n).midiPorts = c.midiPorts := rfl
@[simp] theorem Context.consume_dataBlockQuadlets (c : Context) (n : Nat) : (c.consume n).dataBlockQuadlets = c.dataBlockQuadlets := rfl
@[simp] theorem Context.consume_pcmPositions (c : Context) (n : Nat) : (c.consume n).pcmPositions = c.pcmPositions := rfl
@[simp] theorem Context.consume_midiPosition (c : Context) (n : Nat) : (c.consume n).midiPosition = c.midiPosition := rfl
@[simp] theorem Context.consume_pcmFormat (c : Context) (n : Nat) : (c.consume n).pcmFormat = c.pcmFormat := rfl
@[simp] theorem Context.consume_transferDelayBase (c : Context) (n : Nat) : (c.consume n).transferDelayBase = c.transferDelayBase := rfl
@[simp] theorem Context.consume_transferDelay (c : Context) (n : Nat) : (c.consume n).transferDelay = c.transferDelay := rfl
@[simp] theorem Context.consume_syncSlave (c : Context) (n : Nat) : (c.consume n).syncSlave = c.syncSlave := rfl
@[simp] theorem Context.consume_channel (c : Context) (n : Nat) : (c.consume n).channel = c.channel := rfl
@[simp] theorem Context.consume_speed (c : Context) (n : Nat) : (c.consume n).speed = c.speed := rfl
@[simp] theorem Context.consume_sourceNodeId (c : Context) (n : Nat) : (c.consume n).sourceNodeId = c.sourceNodeId := rfl
@[simp] theorem Context.consume_dbc (c : Context) (n : Nat) : (c.consume n).dbc = c.dbc := rfl
@[simp] theorem Context.consume_lastSytOffset (c : Context) (n : Nat) : (c.consume n).lastSytOffset = c.lastSytOffset := rfl
@[simp] theorem Context.consume_dataBlockState (c : Context) (n : Nat) : (c.consume n).dataBlockState = c.dataBlockState := rfl
@[simp] theorem Context.consume_sytOffsetState (c : Context) (n : Nat) : (c.consume n).sytOffsetState = c.sytOffsetState := rfl
@[simp] theorem Context.consume_pcmBufferPointer (c : Context) (n : Nat) : (c.consume n).pcmBufferPointer = c.pcmBufferPointer := rfl
@[simp] theorem Context.consume_pcmPeriodPointer (c : Context) (n : Nat) : (c.consume n).pcmPeriodPointer = c.pcmPeriodPointer := rfl
@[simp] theorem Context.consume_packetIndex (c : Context) (n : Nat) : (c.consume n).packetIndex = c.packetIndex := rfl
@[simp] theorem Context.consume_packetIndexValid (c : Context) (n : Nat) : (c.consume n).packetIndexValid = c.packetIndexValid := rfl
@[simp] theorem Context.consume_callbacked (c : Context) (n : Nat) : (c.consume n).callbacked = c.callbacked := rfl
@[simp] theorem Context.consume_periodPending (c : Context) (n : Nat) : (c.consume n).periodPending = c.periodPending := rfl
@[simp] theorem Context.consume_lastError (c : Context) (n : Nat) : (c.consume n).lastError = c.lastError := rfl
@[simp] theorem Context.consume_protoViolations (c : Context) (n : Nat) : (c.consume n).protoViolations = c.protoViolations := rfl
@[simp] theorem Context.consume_rxSeq (c : Context) (n : Nat) : (c.consume n).rxSeq = c.rxSeq := rfl
@[simp] theorem Context.consume_poolAllocated (c : Context) (n : Nat) : (c.consume n).poolAllocated = c.poolAllocated := rfl
@[simp] theorem Context.consume_pool (c : Context) (n : Nat) : (c.consume n).pool = c.pool := rfl
@[simp] theorem Context.consume_poolEpoch (c : Context) (n : Nat) : (c.consume n).poolEpoch = c.poolEpoch := rfl
@[simp] theorem Context.consume_isoContext (c : Context) (n : Nat) : (c.consume n).isoContext = c.isoContext := rfl
@[simp] theorem Context.consume_hwq (c : Context) (n : Nat) : (c.consume n).hwq = c.hwq.drop n := rfl
@[simp] theorem Context.consume_flushed (c : Context) (n : Nat) : (c.consume n).flushed = c.flushed - n := rfl
@[simp] theorem Context.consume_carry (c : Context) (n : Nat) : (c.consume n).carry = c.carry := rfl
@[simp] theorem Context.consume_pcm (c : Context) (n : Nat) : (c.consume n).pcm = c.pcm := rfl
@[simp] theorem Context.consume_pcmMemory (c : Context) (n : Nat) : (c.consume n).pcmMemory = c.pcmMemory := rfl
@[simp] theorem Context.consume_pcmEpoch (c : Context) (n : Nat) : (c.consume n).pcmEpoch = c.pcmEpoch := rfl
@[simp] theorem Context.consume_midi (c : Context) (n : Nat) : (c.consume n).midi = c.midi := rfl
@[simp] theorem Context.consume_wire (c : Context) (n : Nat) : (c.consume n).wire = c.wire ++ c.hwq.take n := rfl
@[simp] theorem Context.consume_notices (c : Context) (n : Nat) : (c.consume n).notices = c.notices := rfl
@[simp] theorem Context.consume_aborts (c : Context) (n : Nat) : (c.consume n).aborts = c.aborts := rfl

@[simp] theorem Context.extractMidi_state (c : Context) (e : Entry) (n : Nat) : (c.extractMidi e n).state = c.state := rfl
@[simp] theorem Context.extractMidi_direction (c : Context) (e : Entry) (n : Nat) : (c.extractMidi e n).direction = c.direction := rfl
@[simp] theorem Context.extractMidi_blocking (c : Context) (e : Entry) (n : Nat) : (c.extractMidi e n).blocking = c.blocking := rfl
@[simp] theorem Context.extractMidi_dualWire (c : Context) (e : Entry) (n : Nat) : (c.extractMidi e n).dualWire = c.dualWire := rfl
@[simp] theorem Context.extractMidi_sfc (c : Context) (e : Entry) (n : Nat) : (c.extractMidi e n).sfc = c.sfc := rfl
@[simp] theorem Context.extractMidi_sytInterval (c : Context) (e : Entry) (n : Nat) : (c.extractMidi e n).sytInterval = c.sytInterval := rfl
@[simp] theorem Context.extractMidi_pcmChannels (c : Context) (e : Entry) (n : Nat) : (c.extractMidi e n).pcmChannels = c.pcmChannels := rfl
@[simp] theorem Context.extractMidi_midiPorts (c : Context) (e : Entry) (n : Nat) : (c.extractMidi e n).midiPorts = c.midiPorts := rfl
@[simp] theorem Context.extractMidi_dataBlockQuadlets (c : Context) (e : Entry) (n : Nat) : (c.extractMidi e n).dataBlockQuadlets = c.dataBlockQuadlets := rfl
@[simp] theorem Context.extractMidi_pcmPositions (c : Context) (e : Entry) (n : Nat) : (c.extractMidi e n).pcmPositions = c.pcmPositions := rfl
@[simp] theorem Context.extractMidi_midiPosition (c : Context) (e : Entry) (n : Nat) : (c.extractMidi e n).midiPosition = c.midiPosition := rfl
@[simp] theorem Context.extractMidi_pcmFormat (c : Context) (e : Entry) (n : Nat) : (c.extractMidi e n).pcmFormat = c.pcmFormat := rfl
@[simp] theorem Context.extractMidi_transferDelayBase (c : Context) (e : Entry) (n : Nat) : (c.extractMidi e n).transferDelayBase = c.transferDelayBase := rfl
@[simp] theorem Context.extractMidi_transferDelay (c : Context) (e : Entry) (n : Nat) : (c.extractMidi e n).transferDelay = c.transferDelay := rfl
@[simp] theorem Context.extractMidi_syncSlave (c : Context) (e : Entry) (n : Nat) : (c.extractMidi e n).syncSlave = c.syncSlave := rfl
@[simp] theorem Context.extractMidi_channel (c : Context) (e : Entry) (n : Nat) : (c.extractMidi e n).channel = c.channel := rfl
@[simp] theorem Context.extractMidi_speed (c : Context) (e : Entry) (n : Nat) : (c.extractMidi e n).speed = c.speed := rfl
@[simp] theorem Context.extractMidi_sourceNodeId (c : Context) (e : Entry) (n : Nat) : (c.extractMidi e n).sourceNodeId = c.sourceNodeId := rfl
@[simp] theorem Context.extractMidi_dbc (c : Context) (e : Entry) (n : Nat) : (c.extractMidi e n).dbc = c.dbc := rfl
@[simp] theorem Context.extractMidi_lastSytOffset (c : Context) (e : Entry) (n : Nat) : (c.extractMidi e n).lastSytOffset = c.lastSytOffset := rfl
@[simp] theorem Context.extractMidi_dataBlockState (c : Context) (e : Entry) (n : Nat) : (c.extractMidi e n).dataBlockState = c.dataBlockState := rfl
@[simp] theorem Context.extractMidi_sytOffsetState (c : Context) (e : Entry) (n : Nat) : (c.extractMidi e n).sytOffsetState = c.sytOffsetState := rfl
@[simp] theorem Context.extractMidi_pcmBufferPointer (c : Context) (e : Entry) (n : Nat) : (c.extractMidi e n).pcmBufferPointer = c.pcmBufferPointer := rfl
@[simp] theorem Context.extractMidi_pcmPeriodPointer (c : Context) (e : Entry) (n : Nat) : (c.extractMidi e n).pcmPeriodPointer = c.pcmPeriodPointer := rfl
@[simp] theorem Context.extractMidi_packetIndex (c : Context) (e : Entry) (n : Nat) : (c.extractMidi e n).packetIndex = c.packetIndex := rfl
@[simp] theorem Context.extractMidi_packetIndexValid (c : Context) (e : Entry) (n : Nat) : (c.extractMidi e n).packetIndexValid = c.packetIndexValid := rfl
@[simp] theorem Context.extractMidi_callbacked (c : Context) (e : Entry) (n : Nat) : (c.extractMidi e n).callbacked = c.callbacked := rfl
@[simp] theorem Context.extractMidi_periodPending (c : Context) (e : Entry) (n : Nat) : (c.extractMidi e n).periodPending = c.periodPending := rfl
@[simp] theorem Context.extractMidi_lastError (c : Context) (e : Entry) (n : Nat) : (c.extractMidi e n).lastError = c.lastError := rfl
@[simp] theorem Context.extractMidi_protoViolations (c : Context) (e : Entry) (n : Nat) : (c.extractMidi e n).protoViolations = c.protoViolations := rfl
@[simp] theorem Context.extractMidi_rxSeq (c : Context) (e : Entry) (n : Nat) : (c.extractMidi e n).rxSeq = c.rxSeq := rfl
@[simp] theorem Context.extractMidi_poolAllocated (c : Context) (e : Entry) (n : Nat) : (c.extractMidi e n).poolAllocated = c.poolAllocated := rfl
@[simp] theorem Context.extractMidi_pool (c : Context) (e : Entry) (n : Nat) : (c.extractMidi e n).pool = c.pool := rfl
@[simp] theorem Context.extractMidi_poolEpoch (c : Context) (e : Entry) (n : Nat) : (c.extractMidi e n).poolEpoch = c.poolEpoch := rfl
@[simp] theorem Context.extractMidi_isoContext (c : Context) (e : Entry) (n : Nat) : (c.extractMidi e n).isoContext = c.isoContext := rfl
@[simp] theorem Context.extractMidi_hwq (c : Context) (e : Entry) (n : Nat) : (c.extractMidi e n).hwq = c.hwq := rfl
@[simp] theorem Context.extractMidi_flushed (c : Context) (e : Entry) (n : Nat) : (c.extractMidi e n).flushed = c.flushed := rfl
@[simp] theorem Context.extractMidi_carry (c : Context) (e : Entry) (n : Nat) : (c.extractMidi e n).carry = c.carry := rfl
@[simp] theorem Context.extractMidi_pcm (c : Context) (e : Entry) (n : Nat) : (c.extractMidi e n).pcm = c.pcm := rfl
@[simp] theorem Context.extractMidi_pcmMemory (c : Context) (e : Entry) (n : Nat) : (c.extractMidi e n).pcmMemory = c.pcmMemory := rfl
@[simp] theorem Context.extractMidi_pcmEpoch (c : Context) (e : Entry) (n : Nat) : (c.extractMidi e n).pcmEpoch = c.pcmEpoch := rfl
@[simp] theorem Context.extractMidi_midi (c : Context) (e : Entry) (n : Nat) : (c.extractMidi e n).midi = (List.range n).foldl (fun ports b => extractTurn c.midiPorts.toNat (midiTurn e.dbc.toNat b) (quadletAt e.bytes (c.midiQuadlet b)) ports) c.midi := rfl
@[simp] theorem Context.extractMidi_wire (c : Context) (e : Entry) (n : Nat) : (c.extractMidi e n).wire = c.wire := rfl
@[simp] theorem Context.extractMidi_notices (c : Context) (e : Entry) (n : Nat) : (c.extractMidi e n).notices = c.notices := rfl
@[simp] theorem Context.extractMidi_aborts (c : Context) (e : Entry) (n : Nat) : (c.extractMidi e n).aborts = c.aborts := rfl

@[simp] theorem Context.takePacket_state (c : Context) (p : List Byte) : (c.takePacket p).state = c.state := rfl
@[simp] theorem Context.takePacket_direction (c : Context) (p : List Byte) : (c.takePacket p).direction = c.direction := rfl
@[simp] theorem Context.takePacket_blocking (c : Context) (p : List Byte) : (c.takePacket p).blocking = c.blocking := rfl
@[simp] theorem Context.takePacket_dualWire (c : Context) (p : List Byte) : (c.takePacket p).dualWire = c.dualWire := rfl
@[simp] theorem Context.takePacket_sfc (c : Context) (p : List Byte) : (c.takePacket p).sfc = c.sfc := rfl
@[simp] theorem Context.takePacket_sytInterval (c : Context) (p : List Byte) : (c.takePacket p).sytInterval = c.sytInterval := rfl
@[simp] theorem Context.takePacket_pcmChannels (c : Context) (p : List Byte) : (c.takePacket p).pcmChannels = c.pcmChannels := rfl
@[simp] theorem Context.takePacket_midiPorts (c : Context) (p : List Byte) : (c.takePacket p).midiPorts = c.midiPorts := rfl
@[simp] theorem Context.takePacket_dataBlockQuadlets (c : Context) (p : List Byte) : (c.takePacket p).dataBlockQuadlets = c.dataBlockQuadlets := rfl
@[simp] theorem Context.takePacket_pcmPositions (c : Context) (p : List Byte) : (c.takePacket p).pcmPositions = c.pcmPositions := rfl
@[simp] theorem Context.takePacket_midiPosition (c : Context) (p : List Byte) : (c.takePacket p).midiPosition = c.midiPosition := rfl
@[simp] theorem Context.takePacket_pcmFormat (c : Context) (p : List Byte) : (c.takePacket p).pcmFormat = c.pcmFormat := rfl
@[simp] theorem Context.takePacket_transferDelayBase (c : Context) (p : List Byte) : (c.takePacket p).transferDelayBase = c.transferDelayBase := rfl
@[simp] theorem Context.takePacket_transferDelay (c : Context) (p : List Byte) : (c.takePacket p).transferDelay = c.transferDelay := rfl
@[simp] theorem Context.takePacket_syncSlave (c : Context) (p : List Byte) : (c.takePacket p).syncSlave = c.syncSlave := rfl
@[simp] theorem Context.takePacket_channel (c : Context) (p : List Byte) : (c.takePacket p).channel = c.channel := rfl
@[simp] theorem Context.takePacket_speed (c : Context) (p : List Byte) : (c.takePacket p).speed = c.speed := rfl
@[simp] theorem Context.takePacket_sourceNodeId (c : Context) (p : List Byte) : (c.takePacket p).sourceNodeId = c.sourceNodeId := rfl
@[simp] theorem Context.takePacket_dbc (c : Context) (p : List Byte) : (c.takePacket p).dbc = c.dbc := rfl
@[simp] theorem Context.takePacket_lastSytOffset (c : Context) (p : List Byte) : (c.takePacket p).lastSytOffset = c.lastSytOffset := rfl
@[simp] theorem Context.takePacket_dataBlockState (c : Context) (p : List Byte) : (c.takePacket p).dataBlockState = c.dataBlockState := rfl
@[simp] theorem Context.takePacket_sytOffsetState (c : Context) (p : List Byte) : (c.takePacket p).sytOffsetState = c.sytOffsetState := rfl
@[simp] theorem Context.takePacket_pcmBufferPointer (c : Context) (p : List Byte) : (c.takePacket p).pcmBufferPointer = c.pcmBufferPointer := rfl
@[simp] theorem Context.takePacket_pcmPeriodPointer (c : Context) (p : List Byte) : (c.takePacket p).pcmPeriodPointer = c.pcmPeriodPointer := rfl
@[simp] theorem Context.takePacket_packetIndex (c : Context) (p : List Byte) : (c.takePacket p).packetIndex = c.packetIndex := rfl
@[simp] theorem Context.takePacket_packetIndexValid (c : Context) (p : List Byte) : (c.takePacket p).packetIndexValid = c.packetIndexValid := rfl
@[simp] theorem Context.takePacket_callbacked (c : Context) (p : List Byte) : (c.takePacket p).callbacked = c.callbacked := rfl
@[simp] theorem Context.takePacket_periodPending (c : Context) (p : List Byte) : (c.takePacket p).periodPending = c.periodPending := rfl
@[simp] theorem Context.takePacket_lastError (c : Context) (p : List Byte) : (c.takePacket p).lastError = c.lastError := rfl
@[simp] theorem Context.takePacket_protoViolations (c : Context) (p : List Byte) : (c.takePacket p).protoViolations = (if c.validate p = .dropViolation then c.protoViolations + 1 else c.protoViolations) := rfl
@[simp] theorem Context.takePacket_rxSeq (c : Context) (p : List Byte) : (c.takePacket p).rxSeq = c.rxSeq + 1 := rfl
@[simp] theorem Context.takePacket_poolAllocated (c : Context) (p : List Byte) : (c.takePacket p).poolAllocated = c.poolAllocated := rfl
@[simp] theorem Context.takePacket_pool (c : Context) (p : List Byte) : (c.takePacket p).pool = c.pool.writeBytes (c.slotBase c.headSlot) p := rfl
@[simp] theorem Context.takePacket_poolEpoch (c : Context) (p : List Byte) : (c.takePacket p).poolEpoch = c.poolEpoch := rfl
@[simp] theorem Context.takePacket_isoContext (c : Context) (p : List Byte) : (c.takePacket p).isoContext = c.isoContext := rfl
@[simp] theorem Context.takePacket_hwq (c : Context) (p : List Byte) : (c.takePacket p).hwq = c.hwq.drop 1 := rfl
@[simp] theorem Context.takePacket_flushed (c : Context) (p : List Byte) : (c.takePacket p).flushed = c.flushed - 1 := rfl
@[simp] theorem Context.takePacket_carry (c : Context) (p : List Byte) : (c.takePacket p).carry = c.carry := rfl
@[simp] theorem Context.takePacket_pcm (c : Context) (p : List Byte) : (c.takePacket p).pcm = c.pcm := rfl
@[simp] theorem Context.takePacket_pcmMemory (c : Context) (p : List Byte) : (c.takePacket p).pcmMemory = c.pcmMemory := rfl
@[simp] theorem Context.takePacket_pcmEpoch (c : Context) (p : List Byte) : (c.takePacket p).pcmEpoch = c.pcmEpoch := rfl
@[simp] theorem Context.takePacket_midi (c : Context) (p : List Byte) : (c.takePacket p).midi = c.midi := rfl
@[simp] theorem Context.takePacket_wire (c : Context) (p : List Byte) : (c.takePacket p).wire = c.wire := rfl
@[simp] theorem Context.takePacket_notices (c : Context) (p : List Byte) : (c.takePacket p).notices = c.notices := rfl
@[simp] theorem Context.takePacket_aborts (c : Context) (p : List Byte) : (c.takePacket p).aborts = c.aborts := rfl

end Sys2Proof.Machine
end

