-- ==== Sys2Proof/Laws/Ops.lean ====
section
/-! SUPPORT. What the shared operations over the state can do, said once: stream contexts, guards, MIDI ports, the
hardware queue and the fatal stop. -/

namespace Sys2Proof.Machine

/-! ### Stream contexts -/

/-- A context read after one is replaced. -/
theorem State.stream_setStream (σ : State) (s s' : Nat) (c : Context) :
    (σ.setStream s c).stream s' = if s' = s ∧ s < σ.streams.length then c else σ.stream s' := by
  simp only [State.stream, State.setStream, List.getD_eq_getElem?_getD, List.getElem?_set]
  by_cases h : s = s'
  · subst h
    by_cases hs : s < σ.streams.length
    · simp [hs]
    · simp [hs]
  · simp [h, Ne.symm h]

@[simp] theorem State.stream_setStream_same (σ : State) (s : Nat) (c : Context) (h : s < σ.streams.length) :
    (σ.setStream s c).stream s = c := by simp [State.stream_setStream, h]

theorem State.stream_setStream_ne (σ : State) {s s' : Nat} (c : Context) (h : s' ≠ s) :
    (σ.setStream s c).stream s' = σ.stream s' := by simp [State.stream_setStream, h]

/-- Outside the block a context reads as after reset. -/
theorem State.stream_outside (σ : State) {s : Nat} (h : σ.streams.length ≤ s) : σ.stream s = Context.reset := by
  simp [State.stream, List.getElem?_eq_none h]

@[simp] theorem State.stream_respond (σ : State) (r : Response) (s : Nat) : (σ.respond r).stream s = σ.stream s := rfl

@[simp] theorem State.stream_withInbox (σ : State) (rest : List Input) (s : Nat) :
    (σ.withInbox rest).stream s = σ.stream s := rfl

@[simp] theorem State.stream_allocate (σ : State) (s : Nat) : σ.allocate.stream s = σ.stream s := rfl

@[simp] theorem State.length_setStream (σ : State) (s : Nat) (c : Context) :
    (σ.setStream s c).streams.length = σ.streams.length := by simp

/-- Replacing a context by itself changes nothing. -/
theorem State.setStream_stream (σ : State) (s : Nat) : σ.setStream s (σ.stream s) = σ := by
  suffices σ.streams.set s (σ.stream s) = σ.streams by simp [State.setStream, this]
  refine List.ext_getElem? fun k => ?_
  rw [List.getElem?_set]
  by_cases h : s = k
  · subst h
    by_cases hs : s < σ.streams.length
    · simp [State.stream, hs]
    · simp [hs]
  · simp [h]

/-- `is_slave(t)` by stream numbers (10_state.md R33). -/
theorem State.isSlave_iff (σ : State) (t : Nat) :
    σ.isSlave t = true ↔ ∃ m < σ.streams.length, (σ.stream m).syncSlave = some t := by
  simp only [State.isSlave, List.any_eq_true, beq_iff_eq, State.stream, List.getD_eq_getElem?_getD]
  constructor
  · rintro ⟨c, hc, h⟩
    obtain ⟨m, hm, rfl⟩ := List.mem_iff_getElem.mp hc
    exact ⟨m, hm, by simpa [hm] using h⟩
  · rintro ⟨m, hm, h⟩
    exact ⟨σ.streams[m], List.getElem_mem hm, by simpa [hm] using h⟩

/-! ### Guards -/

/-- An operation on a stream answers only for a stream of the block. -/
theorem onStream_eq_next {s : Nat} {σ τ : State} {k : Context → Result} (h : onStream s σ k = .next τ) :
    s < σ.streams.length ∧ k (σ.stream s) = .next τ := by
  unfold onStream at h
  split at h
  · exact ⟨‹_›, h⟩
  · cases h

theorem onStream_of_lt {s : Nat} {σ : State} (k : Context → Result) (h : s < σ.streams.length) :
    onStream s σ k = k (σ.stream s) := if_pos h

theorem guardRange_eq_next {ok : Bool} {r : Result} {τ : State} (h : guardRange ok r = .next τ) :
    ok = true ∧ r = .next τ := by
  unfold guardRange at h
  split at h
  · exact ⟨‹_›, h⟩
  · cases h

theorem guardAdmitted_eq_next {ok : Bool} {r : Result} {τ : State} (h : guardAdmitted ok r = .next τ) :
    ok = true ∧ r = .next τ := by
  unfold guardAdmitted at h
  split at h
  · exact ⟨‹_›, h⟩
  · cases h

theorem guardAccess_eq_next {ok : Bool} {r : Result} {τ : State} (h : guardAccess ok r = .next τ) :
    ok = true ∧ r = .next τ := by
  unfold guardAccess at h
  split at h
  · exact ⟨‹_›, h⟩
  · cases h

@[simp] theorem guardRange_true (r : Result) : guardRange true r = r := rfl
@[simp] theorem guardAdmitted_true (r : Result) : guardAdmitted true r = r := rfl
@[simp] theorem guardAccess_true (r : Result) : guardAccess true r = r := rfl
@[simp] theorem guardAdmitted_false (r : Result) : guardAdmitted false r = .refused .notAdmitted := rfl

/-! ### Lifecycle states -/

theorem Context.active_iff (c : Context) : c.active = true ↔ c.state = .running ∨ c.state = .recovering := by
  unfold Context.active
  cases c.state <;> simp [LifeState.active]

theorem Context.active_eq_false_iff (c : Context) :
    c.active = false ↔ c.state = .absent ∨ c.state = .idle ∨ c.state = .configured := by
  unfold Context.active
  cases c.state <;> simp [LifeState.active]

theorem Context.settable_iff (c : Context) : c.settable = true ↔ c.state = .idle ∨ c.state = .configured := by
  simp [Context.settable]

/-! ### MIDI ports -/

/-- A port read after one is replaced. -/
theorem portOf_setPort (v : Vector MidiPort 8) (p q : Nat) (x : MidiPort) :
    portOf (setPort v p x) q = if q = p ∧ p < 8 then x else portOf v q := by
  simp only [portOf, setPort, Vector.getElem?_setIfInBounds]
  by_cases h : p = q
  · subst h
    by_cases hp : p < 8
    · simp [hp]
    · simp [hp]
  · simp [h, Ne.symm h]

/-- Ports are equal when every one of the eight is. -/
theorem ports_ext {v w : Vector MidiPort 8} (h : ∀ p < 8, portOf v p = portOf w p) : v = w := by
  apply Vector.ext
  intro i hi
  simpa [portOf, hi] using h i hi

/-- A change of every port below `n`, read at one port. -/
theorem portOf_foldl_setPort (f : MidiPort → MidiPort) (n : Nat) (v : Vector MidiPort 8) (p : Nat) (hn : n ≤ 8) :
    portOf ((List.range n).foldl (fun v p => setPort v p (f (portOf v p))) v) p =
      if p < n then f (portOf v p) else portOf v p := by
  induction n generalizing p with
  | zero => simp
  | succ n ih =>
    rw [List.range_succ, List.foldl_append, List.foldl_cons, List.foldl_nil, portOf_setPort, ih p (by omega), ih n (by omega)]
    by_cases h : p = n
    · subst h; simp; omega
    · by_cases h' : p < n
      · simp [h, h', Nat.lt_succ_of_lt h']
      · simp [h, h', show ¬ p < n + 1 by omega]

/-- Detached ports are unbound and hold nothing to send; their traces are kept. -/
theorem detachPorts_detached (v : Vector MidiPort 8) : PortsDetached v (detachPorts v) := fun p hp => by
  rw [detachPorts, portOf_foldl_setPort (fun x => { x with bound := false, out := [] }) 8 v p (Nat.le_refl 8), if_pos hp]

/-- Unbound ports keep their FIFOs and traces. -/
theorem portOf_unbindPorts (v : Vector MidiPort 8) {p : Nat} (hp : p < 8) :
    portOf (unbindPorts v) p = { portOf v p with bound := false } := by
  rw [unbindPorts, portOf_foldl_setPort (fun x => { x with bound := false }) 8 v p (Nat.le_refl 8), if_pos hp]

/-! ### The fatal stop -/

theorem Context.fatalStop_of_not_active {c : Context} (h : c.active = false) (code : Code) : c.fatalStop code = c := by
  simp [Context.fatalStop, h]

/-- The fatal stop of an active stream (60_exceptions.md R345). -/
theorem Context.fatalStop_of_active {c : Context} (h : c.active = true) (code : Code) :
    FatalStopped code c (c.fatalStop code) := by
  refine ⟨detachPorts c.midi, Config.staleIndex c.poolEpoch, detachPorts_detached _, ?_⟩
  simp only [Context.fatalStop, h, if_pos, Context.detach, Context.teardown]

/-! ### The hardware queue -/

/-- `c'` is `c` after the descriptors `ds` joined its queue: the packet index has moved past them, nothing else has
changed. -/
structure Queued (c c' : Context) (ds : List Descriptor) : Prop where
  rest : c' = { c with hwq := c.hwq ++ ds, packetIndex := c'.packetIndex }
  index : c.packetIndex.toNat < Config.queueLength →
    c'.packetIndex.toNat = (c.packetIndex.toNat + ds.length) % Config.queueLength

theorem Queued.refl (c : Context) : Queued c c [] where
  rest := by simp
  index h := by simp [Nat.mod_eq_of_lt h]

theorem Queued.hwq {c c' : Context} {ds : List Descriptor} (h : Queued c c' ds) : c'.hwq = c.hwq ++ ds := by
  rw [h.rest]

theorem Queued.enqueue (c : Context) (d : Descriptor) : Queued c (c.enqueue d) [d] where
  rest := rfl
  index h := by
    simp only [Context.enqueue, Config.queueLength, BitVec.toNat_ofNat, List.length_cons, List.length_nil] at h ⊢
    omega

theorem Queued.trans {c c' c'' : Context} {ds es : List Descriptor} (h : Queued c c' ds) (h' : Queued c' c'' es) :
    Queued c c'' (ds ++ es) where
  rest := by
    rw [h'.rest]
    conv_lhs => rw [h.rest]
    simp only [List.append_assoc]
  index hc := by
    have h1 := h.index hc
    have h2 : c'.packetIndex.toNat < Config.queueLength := h1 ▸ Nat.mod_lt _ (by decide)
    rw [h'.index h2, h1, List.length_append, Nat.mod_add_mod, Nat.add_assoc]

/-- When a `queue()` call fails (10_state.md R43). -/
theorem Context.queueFails_iff (c : Context) (q : Option Nat) (k : Nat) :
    c.queueFails q k = true ↔ q = some k ∨ 48 ≤ c.hwq.length := by
  simp only [Context.queueFails, Bool.or_eq_true, beq_iff_eq, decide_eq_true_eq]
  rfl

/-- What queueing `n` descriptors does, said once: `ds` are the descriptors queued, `mk` gives each; a call that the
oracle names or that finds the queue full is fatal and ends it; else there is one flush. -/
theorem Context.queueEach_spec (mk : Context → Descriptor) (q : Option Nat) (n k : Nat) (c : Context) :
    ∃ (ds : List Descriptor) (c' : Context), Queued c c' ds ∧
      (∀ i < ds.length, ∃ d : Context, Queued c d (ds.take i) ∧ ds[i]? = some (mk d)) ∧
      ((ds.length < n ∧ (q = some (k + ds.length) ∨ 48 ≤ c.hwq.length + ds.length) ∧
          Context.queueEach mk q n k c = (c'.fatalStop .errQueue, .errQueue)) ∨
        (ds.length = n ∧ (∀ i < n, q ≠ some (k + i) ∧ c.hwq.length + i < 48) ∧
          Context.queueEach mk q n k c = (c'.queueFlush, .ok))) := by
  induction n generalizing k c with
  | zero =>
    exact ⟨[], c, .refl c, fun i hi => absurd hi (Nat.not_lt_zero i),
      .inr ⟨rfl, fun i hi => absurd hi (Nat.not_lt_zero i), rfl⟩⟩
  | succ n ih =>
    unfold Context.queueEach
    by_cases hf : c.queueFails q k = true
    · refine ⟨[], c, .refl c, fun i hi => absurd hi (Nat.not_lt_zero i), .inl ⟨Nat.succ_pos n, ?_, if_pos hf⟩⟩
      simpa using (c.queueFails_iff q k).mp hf
    · rw [if_neg hf]
      obtain ⟨ds, c', hq, hd, hr⟩ := ih (k + 1) (c.enqueue (mk c))
      have hlen : (c.enqueue (mk c)).hwq.length = c.hwq.length + 1 := by simp [Context.enqueue]
      have hno := mt (c.queueFails_iff q k).mpr hf
      push Not at hno
      rw [hlen] at hr
      refine ⟨mk c :: ds, c', (Queued.enqueue c (mk c)).trans hq, fun i hi => ?_, ?_⟩
      · cases i with
        | zero => exact ⟨c, .refl c, rfl⟩
        | succ i =>
          obtain ⟨d, h1, h2⟩ := hd i (by simpa using hi)
          exact ⟨d, (Queued.enqueue c (mk c)).trans h1, by simpa using h2⟩
      · rcases hr with ⟨h1, h2, h3⟩ | ⟨h1, h2, h3⟩
        · refine .inl ⟨by simpa using h1, h2.imp (fun h => ?_) (fun h => ?_), h3⟩
          · rw [h, List.length_cons]; congr 1; omega
          · rw [List.length_cons]; omega
        · refine .inr ⟨by simpa using h1, fun i hi => ?_, h3⟩
          cases i with
          | zero => exact ⟨hno.1, by simpa using hno.2⟩
          | succ i =>
            obtain ⟨h4, h5⟩ := h2 i (by omega)
            exact ⟨fun h => h4 (by rw [h]; congr 1; omega), by omega⟩

/-- The receive buffers queued one after another are the consecutive pool slots (44_receive.md R270). -/
theorem Context.rxDescriptors_eq {c : Context} {ds : List Descriptor} (hc : c.packetIndex.toNat < 48)
    (h : ∀ i < ds.length, ∃ d : Context, Queued c d (ds.take i) ∧ ds[i]? = some d.rxDescriptor) :
    ds = (List.range ds.length).map fun i => .rx ((c.packetIndex.toNat + i) % 48) := by
  refine List.ext_getElem? fun i => ?_
  by_cases hi : i < ds.length
  · obtain ⟨d, hq, hd⟩ := h i hi
    have := hq.index hc
    rw [List.length_take, Nat.min_eq_left (Nat.le_of_lt hi)] at this
    rw [hd, List.getElem?_map, List.getElem?_range hi, Option.map_some, Context.rxDescriptor, this]
    rfl
  · rw [List.getElem?_eq_none (Nat.le_of_not_lt hi), List.getElem?_eq_none (by simpa using Nat.le_of_not_lt hi)]

/-! ### The sample buffer -/

/-- No buffer, no bytes (20_memory.md R60). -/
theorem Context.pcmSize_unbound {c : Context} (h : c.pcm = none) : c.pcmSize = 0 := by simp [Context.pcmSize, h]

/-- The buffer's size where SET_PARAMS has written `pcm_channels` (20_memory.md R64). -/
theorem Context.pcmSize_bound {c : Context} {b : Binding} (h : c.pcm = some b)
    (hs : c.state = .configured ∨ c.active = true) : c.pcmSize = b.bufferSize * c.pcmChannels.toNat * c.sampleSize := by
  simp only [Context.pcmSize, h, Context.frameChannels, if_pos hs]

/-- What a host store can do: it writes one byte of the buffer of a stream of the block (20_memory.md R60). -/
theorem hostStore_eq_next {s a : Nat} {byte : Byte} {σ τ : State} (h : hostStore s a byte σ = .next τ) :
    s < σ.streams.length ∧ a < (σ.stream s).pcmSize ∧
      τ = σ.setStream s { σ.stream s with pcmMemory := (σ.stream s).pcmMemory.write a byte } := by
  unfold hostStore at h
  split at h
  · rename_i hc
    cases h
    exact ⟨hc.1, hc.2, rfl⟩
  · cases h

end Sys2Proof.Machine
end

