-- ==== Sys2Proof/Laws/Packet.lean ====
section
/-! SUPPORT. What the scheduler, the codec and the packet builder can do, said once: which fields each may change, and
the two ways a packet ends. -/

namespace Sys2Proof.Machine

/-! ### Scheduler -/

/-- DBGEN moves its phase and nothing else (42_scheduler.md R190). -/
theorem Context.dbgen_frame (c : Context) : c.dbgen.2 = { c with dataBlockState := c.dbgen.2.dataBlockState } := by
  unfold Context.dbgen
  dsimp only
  split <;> rfl

/-- SYTGEN moves its offset and its phase and nothing else (42_scheduler.md R197). -/
theorem Context.sytgen_frame (c : Context) :
    c.sytgen.2 = { c with lastSytOffset := c.sytgen.2.lastSytOffset, sytOffsetState := c.sytgen.2.sytOffsetState } := rfl

/-- SYT_EMIT leaves the context SYTGEN leaves. -/
@[simp] theorem Context.sytEmit_snd (c : Context) (cycle : Nat) : (c.sytEmit cycle).2 = c.sytgen.2 := rfl

/-- From a value a generator can reach, DBGEN leads to one, whatever the SYT state. -/
theorem Context.dbgen_phase {c : Context} (h : is44100Family c.sfc.toNat = true)
    (hs : c.dataBlockState.toNat < superPeriod c.sfc.toNat) :
    c.dbgen.2.dataBlockState.toNat < superPeriod c.sfc.toNat := by
  have hodd : c.sfc.toNat % 2 = 1 := by simpa [is44100Family] using h
  have hle : 80 >>> (c.sfc.toNat >>> 1) ≤ 80 := by rw [Nat.shiftRight_eq_div_pow]; exact Nat.div_le_self ..
  unfold Context.dbgen
  dsimp only
  rw [if_neg (by omega)]
  simp only [superPeriod, h, if_true] at hs ⊢
  simp only [BitVec.toNat_ofNat]
  split <;> omega

/-- At a clean rate DBGEN does not move. -/
theorem Context.dbgen_clean {c : Context} (h : is44100Family c.sfc.toNat = false) : c.dbgen = (c.dataBlockState.toNat, c) := by
  have : c.sfc.toNat % 2 = 0 := by
    have : ¬ c.sfc.toNat % 2 = 1 := by simpa [is44100Family] using h
    omega
  unfold Context.dbgen
  dsimp only
  rw [if_pos this]

/-- The SYT generator at a clean rate: its phase is a constant increment. -/
theorem Context.sytgen_clean {c : Context} (h : is44100Family c.sfc.toNat = false) :
    c.sytgen.2 = { c with
      lastSytOffset := BitVec.ofNat 13
        (if c.lastSytOffset.toNat < 3072 then c.lastSytOffset.toNat + c.sytOffsetState.toNat
          else c.lastSytOffset.toNat - 3072) } := by
  have h2 : c.sfc.toNat % 2 = 0 := by
    have : ¬ c.sfc.toNat % 2 = 1 := by simpa [is44100Family] using h
    omega
  by_cases hl : c.lastSytOffset.toNat < 3072 <;>
    simp [Context.sytgen, Config.ticksPerCycle, h2, hl]

/-- The SYT generator at a rate of the 44100 family. -/
theorem Context.sytgen_family {c : Context} (h : is44100Family c.sfc.toNat = true) :
    c.sytgen.2 = { c with
      lastSytOffset := BitVec.ofNat 13
        (if c.lastSytOffset.toNat < 3072 then c.lastSytOffset.toNat + sytIncrement c.sytOffsetState.toNat
          else c.lastSytOffset.toNat - 3072)
      sytOffsetState := BitVec.ofNat 12
        (if c.lastSytOffset.toNat < 3072 then (c.sytOffsetState.toNat + 1) % 147 else c.sytOffsetState.toNat) } := by
  have h2 : ¬ c.sfc.toNat % 2 = 0 := by
    have : c.sfc.toNat % 2 = 1 := by simpa [is44100Family] using h
    omega
  by_cases hl : c.lastSytOffset.toNat < 3072 <;>
    simp [Context.sytgen, Config.ticksPerCycle, h2, hl]

/-- Every increment of the 44100 family is 1386 or 1387 (42_scheduler.md R197). -/
theorem sytIncrement_le (phase : Nat) : sytIncrement phase = 1386 ∨ sytIncrement phase = 1387 := by
  simp only [sytIncrement]
  generalize decide ((phase % 13 ≠ 0 ∧ phase % 13 % 4 = 0) ∨ phase = 146) = b
  split <;> simp

/-- No initial SYT state is above 3072 (40_tables_config.md R132). -/
theorem initialStateOf_le {sfc d o : Nat} (h : initialStateOf sfc = some (d, o)) : o ≤ 3072 := by
  obtain ⟨hlt, he⟩ := List.getElem?_eq_some_iff.mp h
  simp only [List.length_cons, List.length_nil] at hlt
  interval_cases sfc <;> simp_all <;> omega

/-- From values the generators can reach, SYTGEN leads to ones (42_scheduler.md R197). -/
theorem Context.sytgen_sound {c : Context} (h : c.GeneratorsSound) : c.sytgen.2.GeneratorsSound := by
  have hl := h.offset
  cases hf : is44100Family c.sfc.toNat
  · have hi := h.clean hf
    have := initialStateOf_le hi
    rw [Context.sytgen_clean hf]
    refine ⟨?_, fun _ => hi, fun hc => absurd hc (by rw [hf]; simp)⟩
    rw [BitVec.toNat_ofNat]
    split <;> omega
  · obtain ⟨h1, h2⟩ := h.family hf
    have := sytIncrement_le c.sytOffsetState.toNat
    rw [Context.sytgen_family hf]
    refine ⟨?_, fun hc => absurd hc (by rw [hf]; simp), fun _ => ⟨h1, ?_⟩⟩
    · rw [BitVec.toNat_ofNat]
      split <;> omega
    · rw [BitVec.toNat_ofNat]
      split <;> omega

/-- From values the generators can reach, DBGEN leads to ones. -/
theorem Context.dbgen_sound {c : Context} (h : c.GeneratorsSound) : c.dbgen.2.GeneratorsSound := by
  cases hf : is44100Family c.sfc.toNat
  · rw [Context.dbgen_clean hf]; exact h
  · obtain ⟨h1, h2⟩ := h.family hf
    have := Context.dbgen_phase hf h1
    rw [Context.dbgen_frame]
    exact ⟨h.offset, fun hc => (by rw [hf] at hc; cases hc), fun _ => ⟨this, h2⟩⟩

/-! ### Building -/

/-- What CIP_BUILD, ENCODE or SILENCE and MIDI_FILL may change: the pool, the ports and the counter (43_transmit.md
R222). -/
theorem Context.buildPacket_frame (c : Context) (order : ByteOrder) (n : Nat) (syt : BitVec 16) :
    c.buildPacket order n syt =
      { c with
        pool := (c.buildPacket order n syt).pool
        midi := (c.midiFill n).2
        dbc := c.dbc + BitVec.ofNat 8 n } := rfl

/-- Building a packet keeps the pool's canonical form. -/
theorem Context.buildPacket_wf {c : Context} (h : c.pool.wf) (order : ByteOrder) (n : Nat) (syt : BitVec 16) :
    (c.buildPacket order n syt).pool.wf := Context.writeSlot_wf h ..

/-- The ports of `w` are those of `v` after some heads of their `midi_out` were taken. -/
structure PortsTaken (v w : Vector MidiPort 8) : Prop where
  port : ∀ p, (portOf w p).bound = (portOf v p).bound ∧ (portOf w p).received = (portOf v p).received ∧
    (portOf w p).out <:+ (portOf v p).out

theorem PortsTaken.refl (v : Vector MidiPort 8) : PortsTaken v v := ⟨fun _ => ⟨rfl, rfl, List.suffix_refl _⟩⟩

theorem PortsTaken.trans {u v w : Vector MidiPort 8} (h : PortsTaken u v) (h' : PortsTaken v w) : PortsTaken u w :=
  ⟨fun p => ⟨(h'.port p).1.trans (h.port p).1, (h'.port p).2.1.trans (h.port p).2.1,
    (h'.port p).2.2.trans (h.port p).2.2⟩⟩

/-- One port's turn on transmit takes at most one byte. -/
theorem fillTurn_taken (n port : Nat) (v : Vector MidiPort 8) : PortsTaken v (fillTurn n port v).2 := by
  unfold fillTurn
  dsimp only
  split
  · exact .refl v
  · rename_i byte rest hout
    split
    · refine ⟨fun p => ?_⟩
      rw [portOf_setPort]
      split
      · obtain ⟨rfl, _⟩ := ‹p = port ∧ port < 8›
        exact ⟨rfl, rfl, by simp [hout]⟩
      · exact ⟨rfl, rfl, List.suffix_refl _⟩
    · exact .refl v

theorem Context.fillFrom_taken (c : Context) (n b : Nat) (v : Vector MidiPort 8) :
    PortsTaken v (c.fillFrom n b v).2 := by
  induction n generalizing b v with
  | zero => exact .refl v
  | succ n ih => exact (fillTurn_taken _ _ _).trans (ih _ _)

/-- MIDI_FILL only takes bytes from the heads of the FIFOs (41_codec.md R169). -/
theorem Context.midiFill_taken (c : Context) (n : Nat) : PortsTaken c.midi (c.midiFill n).2 := by
  unfold Context.midiFill
  split
  · exact c.fillFrom_taken _ _ _
  · exact .refl _

/-- PTR_UPDATE moves the cursors and may set `period_pending` (43_transmit.md R230). -/
theorem Context.advanceCursors_frame (c : Context) (n : Nat) :
    c.advanceCursors n =
      { c with
        pcmBufferPointer := (c.advanceCursors n).pcmBufferPointer
        pcmPeriodPointer := (c.advanceCursors n).pcmPeriodPointer
        periodPending := (c.advanceCursors n).periodPending } := by
  unfold Context.advanceCursors
  split <;> rfl

/-- Nothing moves where no buffer is bound (43_transmit.md R231). -/
theorem Context.advanceCursors_none {c : Context} (h : c.pcm = none) (n : Nat) : c.advanceCursors n = c := by
  unfold Context.advanceCursors
  split
  · rfl
  · simp_all

/-- The cursors where a buffer is bound (43_transmit.md R230). -/
theorem Context.advanceCursors_some {c : Context} {b : Binding} (h : c.pcm = some b) (n : Nat) :
    c.advanceCursors n = c.ptrUpdate b n := by
  unfold Context.advanceCursors
  split
  · simp_all
  · simp_all

/-! ### TX_PACKET -/

/-- The context TX_PACKET has built before it queues (43_transmit.md R222, R224). -/
def Context.txBuilt (order : ByteOrder) (syt : BitVec 16) (c : Context) : Context :=
  if c.dbgen.1 = 0 then c.dbgen.2 else c.dbgen.2.buildPacket order c.dbgen.1 syt

/-- The descriptor TX_PACKET queues. -/
def Context.txDescriptor (order : ByteOrder) (syt : BitVec 16) (c : Context) : Descriptor :=
  if c.dbgen.1 = 0 then .skip else (c.txBuilt order syt).builtDescriptor c.dbgen.1

/-- What is built before the `queue()` call: the generator's phase, the pool, the ports and the counter may change. -/
theorem Context.txBuilt_frame (order : ByteOrder) (syt : BitVec 16) (c : Context) :
    ∃ (pool : Memory) (midi : Vector MidiPort 8), (c.pool.wf → pool.wf) ∧ PortsTaken c.midi midi ∧
      c.txBuilt order syt = { c with
        dataBlockState := c.dbgen.2.dataBlockState
        pool := pool
        midi := midi
        dbc := c.dbc + BitVec.ofNat 8 c.dbgen.1 } := by
  unfold Context.txBuilt
  have hg := c.dbgen_frame
  split
  · rename_i h0
    refine ⟨c.pool, c.midi, id, .refl _, ?_⟩
    rw [h0]
    conv_lhs => rw [hg]
    simp
  · refine ⟨(c.dbgen.2.buildPacket order c.dbgen.1 syt).pool, (c.dbgen.2.midiFill c.dbgen.1).2, fun hp => ?_, ?_, ?_⟩
    · refine Context.buildPacket_wf ?_ ..
      rw [hg]; exact hp
    · have := c.dbgen.2.midiFill_taken c.dbgen.1
      have e : c.dbgen.2.midi = c.midi := by rw [hg]
      rwa [e] at this
    · exact congrArg (fun x : Context => { x with
        pool := (c.dbgen.2.buildPacket order c.dbgen.1 syt).pool
        midi := (c.dbgen.2.midiFill c.dbgen.1).2
        dbc := x.dbc + BitVec.ofNat 8 c.dbgen.1 }) hg

/-- TX_PACKET ends in one of two ways: the `queue()` call fails and the stream stops, or the packet is queued and the
cursors move past it (43_transmit.md R222; 60_exceptions.md R346). -/
theorem Context.txPacket_cases (order : ByteOrder) (q : Option Nat) (k : Nat) (syt : BitVec 16) (c : Context) :
    ((q = some k ∨ 48 ≤ c.hwq.length) ∧
      c.txPacket order q k syt = (c.txBuilt order syt).fatalStop .errQueue) ∨
    (q ≠ some k ∧ c.hwq.length < 48 ∧
      c.txPacket order q k syt =
        if c.dbgen.1 = 0 then (c.txBuilt order syt).enqueue (c.txDescriptor order syt)
        else ((c.txBuilt order syt).enqueue (c.txDescriptor order syt)).advanceCursors
          (c.dbgen.1 * c.framesPerBlock)) := by
  have hh : (c.txBuilt order syt).hwq = c.hwq := by
    obtain ⟨_, _, _, _, e⟩ := c.txBuilt_frame order syt
    rw [e]
  have hf : (c.txBuilt order syt).framesPerBlock = c.framesPerBlock := by
    obtain ⟨_, _, _, _, e⟩ := c.txBuilt_frame order syt
    rw [e]; rfl
  have hq := (c.txBuilt order syt).queueFails_iff q k
  rw [hh] at hq
  have e : c.txPacket order q k syt =
      if (c.txBuilt order syt).queueFails q k then (c.txBuilt order syt).fatalStop .errQueue
      else if c.dbgen.1 = 0 then (c.txBuilt order syt).enqueue (c.txDescriptor order syt)
      else ((c.txBuilt order syt).enqueue (c.txDescriptor order syt)).advanceCursors
        (c.dbgen.1 * (c.txBuilt order syt).framesPerBlock) := rfl
  rw [e]
  by_cases h : (c.txBuilt order syt).queueFails q k = true
  · exact .inl ⟨hq.mp h, if_pos h⟩
  · have h' := mt hq.mpr h
    push Not at h'
    refine .inr ⟨h'.1, h'.2, ?_⟩
    rw [if_neg h, hf]

/-- A TX_PACKET of at least one block whose `queue()` succeeds builds, queues and counts one packet. -/
theorem Context.txPacket_queued {order : ByteOrder} {q : Option Nat} {k : Nat} {syt : BitVec 16} {c : Context}
    (hn : 1 ≤ c.dbgen.1) (hq : q ≠ some k) (hl : c.hwq.length < 48) :
    c.PacketQueued order syt (c.txPacket order q k syt) := by
  have hn0 : ¬ c.dbgen.1 = 0 := by omega
  refine ⟨hn, ?_⟩
  rcases c.txPacket_cases order q k syt with ⟨h | h, _⟩ | ⟨_, _, e⟩
  · exact absurd h hq
  · omega
  · rw [e, if_neg hn0]
    simp only [Context.withPacket, Context.txDescriptor, Context.txBuilt, if_neg hn0]

/-- A TX_PACKET of at least one block whose `queue()` fails stops the stream with its packet built. -/
theorem Context.txPacket_failed {order : ByteOrder} {q : Option Nat} {k : Nat} {syt : BitVec 16} {c : Context}
    (hn : 1 ≤ c.dbgen.1) (h : q = some k ∨ 48 ≤ c.hwq.length) :
    c.txPacket order q k syt = (c.withPacket order syt).fatalStop .errQueue := by
  have hn0 : ¬ c.dbgen.1 = 0 := by omega
  rcases c.txPacket_cases order q k syt with ⟨_, e⟩ | ⟨h1, h2, _⟩
  · rw [e, Context.txBuilt, if_neg hn0, Context.withPacket]
  · rcases h with h | h
    · exact absurd h h1
    · omega

/-! ### Runs of the generators -/

@[simp] theorem Context.length_blockRun (n : Nat) (c : Context) : (c.blockRun n).length = n := by
  induction n generalizing c with
  | zero => rfl
  | succ n ih => simp [Context.blockRun, ih]

@[simp] theorem Context.length_sytRun (n : Nat) (c : Context) : (c.sytRun n).length = n := by
  induction n generalizing c with
  | zero => rfl
  | succ n ih => simp [Context.sytRun, ih]

end Sys2Proof.Machine
end

