-- ==== Sys2Proof/Laws/PerInstr.lean ====
section
/-! SUPPORT. The per-instruction family EncodeForm: what presents an instruction carries its row's fixed bits
(spec/opcode_table.json; 30_encoding.md R91 to R104, R110). -/

namespace Sys2Proof.Laws.EncodeForm

open Sys2Proof.Machine

/-- A row of the opcode table: the bits it numbers, the fixed bits' mask and their value. -/
structure Row where
  nbits : Nat
  fixed : Nat
  mask : Nat
deriving DecidableEq, Repr

/-- An operation's row: the 8-bit selector (R110). -/
def Row.operation (selector : Nat) : Row := { nbits := 8, fixed := selector, mask := 0xFF }

/-- The row of an instruction. -/
def rowOf : Instr → Row
  | .init _ _ => .operation 0x01
  | .destroy _ => .operation 0x02
  | .setParams _ _ _ _ _ _ => .operation 0x03
  | .setPcmPosition _ _ _ => .operation 0x04
  | .setMidiPosition _ _ => .operation 0x05
  | .setPcmFormat _ _ => .operation 0x06
  | .setTransferDelay _ _ => .operation 0x07
  | .setSync _ _ => .operation 0x08
  | .start _ _ _ _ _ _ => .operation 0x10
  | .stop _ => .operation 0x11
  | .busReset => .operation 0x12
  | .update _ _ => .operation 0x13
  | .updateFail _ => .operation 0x14
  | .startTimeout _ => .operation 0x15
  | .status _ => .operation 0x16
  | .pcmPrepare _ => .operation 0x20
  | .pcmBind _ _ => .operation 0x21
  | .pcmPointer _ => .operation 0x22
  | .midiBind _ _ _ => .operation 0x23
  | .midiPush _ _ _ => .operation 0x24
  | .txComplete _ _ _ _ => .operation 0x30
  | .rxComplete _ _ _ _ => .operation 0x31
  | .periodNotify _ => .operation 0x32
  | .cipQ0 _ _ _ => { nbits := 32, fixed := 0x00000000, mask := 0xC000FF00 }
  | .cipQ1 _ _ => { nbits := 32, fixed := 0x90000000, mask := 0xFFF80000 }
  | .cipQ1RxMatch _ _ _ => { nbits := 32, fixed := 0x90000000, mask := 0xBF000000 }
  | .cipQ1NoData _ _ => { nbits := 32, fixed := 0x90FF0000, mask := 0xBFFF0000 }
  | .sytNoInfo => { nbits := 16, fixed := 0xFFFF, mask := 0xFFFF }
  | .sytTimestamp _ _ => { nbits := 16, fixed := 0, mask := 0 }
  | .am824Pcm _ => { nbits := 32, fixed := 0x40000000, mask := 0xFF000000 }
  | .am824MidiNoData _ => { nbits := 32, fixed := 0x80000000, mask := 0xFF000000 }
  | .am824Midi1 _ _ => { nbits := 32, fixed := 0x81000000, mask := 0xFF000000 }
  | .am824Midi2 _ _ _ => { nbits := 32, fixed := 0x82000000, mask := 0xFF000000 }
  | .am824Midi3 _ _ _ => { nbits := 32, fixed := 0x83000000, mask := 0xFF000000 }

/-- What presents an instruction agrees with its row: an operation's record begins with the selector; a word has the
row's width and its fixed bits. -/
def Statement (i : Instr) : Prop :=
  match (rowOf i).nbits with
  | 8 => ∃ operands, encode i = .operation (BitVec.ofNat 8 (rowOf i).fixed :: operands)
  | 16 => ∃ v : BitVec 16, encode i = .wire (sytBytes v) ∧
      v &&& BitVec.ofNat 16 (rowOf i).mask = BitVec.ofNat 16 (rowOf i).fixed
  | 32 => ∃ q : Quadlet, encode i = .wire (quadletBytes q) ∧
      q &&& BitVec.ofNat 32 (rowOf i).mask = BitVec.ofNat 32 (rowOf i).fixed
  | _ => False

/-- A field of `w` bits at bit `n` lies outside a mask that is clear there. -/
theorem field_outside {w : Nat} (x : BitVec w) (n : Nat) (m : BitVec 32) (hm : ∀ k < w, m.getLsbD (n + k) = false) :
    (x.setWidth 32 <<< n) &&& m = 0#32 := by
  refine BitVec.eq_of_getLsbD_eq fun k _ => ?_
  rw [BitVec.getLsbD_and, BitVec.getLsbD_shiftLeft, BitVec.getLsbD_setWidth, BitVec.getLsbD_zero]
  by_cases hk : k < n
  · simp only [hk, decide_true, Bool.not_true, Bool.and_false, Bool.false_and]
  · by_cases hw : k - n < w
    · have := hm (k - n) hw
      rw [show n + (k - n) = k by omega] at this
      rw [this, Bool.and_false]
    · rw [BitVec.getLsbD_of_ge x _ (Nat.le_of_not_lt hw), Bool.and_false, Bool.and_false, Bool.false_and]

/-- The same of a field at bit 0. -/
theorem low_outside {w : Nat} (x : BitVec w) (m : BitVec 32) (hm : ∀ k < w, m.getLsbD k = false) :
    x.setWidth 32 &&& m = 0#32 := by
  have := field_outside x 0 m (by simpa only [Nat.zero_add] using hm)
  rwa [BitVec.shiftLeft_zero] at this

/-- A mask splits over the parts of a word. -/
theorem or_masked {a b m f : BitVec 32} (ha : a &&& m = f) (hb : b &&& m = 0#32) : (a ||| b) &&& m = f := by
  rw [BitVec.and_comm, BitVec.and_or_distrib_left, BitVec.and_comm m a, BitVec.and_comm m b, ha, hb, BitVec.or_zero]

theorem init : ∀ s d, Statement (.init s d) := fun _ _ => ⟨_, rfl⟩
theorem destroy : ∀ s, Statement (.destroy s) := fun _ => ⟨_, rfl⟩
theorem setParams : ∀ s rate ch ports b w, Statement (.setParams s rate ch ports b w) := fun _ _ _ _ _ _ => ⟨_, rfl⟩
theorem setPcmPosition : ∀ s c slot, Statement (.setPcmPosition s c slot) := fun _ _ _ => ⟨_, rfl⟩
theorem setMidiPosition : ∀ s slot, Statement (.setMidiPosition s slot) := fun _ _ => ⟨_, rfl⟩
theorem setPcmFormat : ∀ s f, Statement (.setPcmFormat s f) := fun _ _ => ⟨_, rfl⟩
theorem setTransferDelay : ∀ s t, Statement (.setTransferDelay s t) := fun _ _ => ⟨_, rfl⟩
theorem setSync : ∀ m t, Statement (.setSync m t) := fun _ _ => ⟨_, rfl⟩
theorem start : ∀ s ch sp n r q, Statement (.start s ch sp n r q) := fun _ _ _ _ _ _ => ⟨_, rfl⟩
theorem stop : ∀ s, Statement (.stop s) := fun _ => ⟨_, rfl⟩
theorem busReset : Statement (.busReset) := ⟨_, rfl⟩
theorem update : ∀ s n, Statement (.update s n) := fun _ _ => ⟨_, rfl⟩
theorem updateFail : ∀ s, Statement (.updateFail s) := fun _ => ⟨_, rfl⟩
theorem startTimeout : ∀ s, Statement (.startTimeout s) := fun _ => ⟨_, rfl⟩
theorem status : ∀ s, Statement (.status s) := fun _ => ⟨_, rfl⟩
theorem pcmPrepare : ∀ s, Statement (.pcmPrepare s) := fun _ => ⟨_, rfl⟩
theorem pcmBind : ∀ s b, Statement (.pcmBind s b) := fun _ _ => ⟨_, rfl⟩
theorem pcmPointer : ∀ s, Statement (.pcmPointer s) := fun _ => ⟨_, rfl⟩
theorem midiBind : ∀ s p b, Statement (.midiBind s p b) := fun _ _ _ => ⟨_, rfl⟩
theorem midiPush : ∀ s p b, Statement (.midiPush s p b) := fun _ _ _ => ⟨_, rfl⟩
theorem txComplete : ∀ s c n q, Statement (.txComplete s c n q) := fun _ _ _ _ => ⟨_, rfl⟩
theorem rxComplete : ∀ s c b q, Statement (.rxComplete s c b q) := fun _ _ _ _ => ⟨_, rfl⟩
theorem periodNotify : ∀ s, Statement (.periodNotify s) := fun _ => ⟨_, rfl⟩

theorem sytNoInfo : Statement .sytNoInfo := ⟨_, rfl, by decide⟩
theorem sytTimestamp : ∀ c o, Statement (.sytTimestamp c o) := fun _ _ => ⟨_, rfl, BitVec.and_zero⟩
theorem cipQ0 : ∀ sid dbs dbc, Statement (.cipQ0 sid dbs dbc) := fun sid dbs dbc =>
  have h : encodeQuadlet (.cipQ0 sid dbs dbc) &&& 0xC000FF00#32 = 0x00000000#32 :=
    or_masked (or_masked (field_outside sid 24 0xC000FF00#32 (by decide))
      (field_outside dbs 16 0xC000FF00#32 (by decide)))
      (low_outside dbc 0xC000FF00#32 (by decide))
  ⟨_, rfl, h⟩
theorem cipQ1 : ∀ sfc syt, Statement (.cipQ1 sfc syt) := fun sfc syt =>
  have h : encodeQuadlet (.cipQ1 sfc syt) &&& 0xFFF80000#32 = 0x90000000#32 :=
    or_masked (or_masked (by decide)
      (field_outside sfc 16 0xFFF80000#32 (by decide)))
      (low_outside syt 0xFFF80000#32 (by decide))
  ⟨_, rfl, h⟩
theorem cipQ1RxMatch : ∀ form fdf syt, Statement (.cipQ1RxMatch form fdf syt) := fun form fdf syt =>
  have h : encodeQuadlet (.cipQ1RxMatch form fdf syt) &&& 0xBF000000#32 = 0x90000000#32 :=
    or_masked (or_masked (or_masked (by decide)
      (field_outside form 30 0xBF000000#32 (by decide)))
      (field_outside fdf 16 0xBF000000#32 (by decide)))
      (low_outside syt 0xBF000000#32 (by decide))
  ⟨_, rfl, h⟩
theorem cipQ1NoData : ∀ form syt, Statement (.cipQ1NoData form syt) := fun form syt =>
  have h : encodeQuadlet (.cipQ1NoData form syt) &&& 0xBFFF0000#32 = 0x90FF0000#32 :=
    or_masked (or_masked (by decide)
      (field_outside form 30 0xBFFF0000#32 (by decide)))
      (low_outside syt 0xBFFF0000#32 (by decide))
  ⟨_, rfl, h⟩
theorem am824Pcm : ∀ x, Statement (.am824Pcm x) := fun x =>
  have h : encodeQuadlet (.am824Pcm x) &&& 0xFF000000#32 = 0x40000000#32 :=
    or_masked (by decide)
      (low_outside x 0xFF000000#32 (by decide))
  ⟨_, rfl, h⟩
theorem am824MidiNoData : ∀ low, Statement (.am824MidiNoData low) := fun low =>
  have h : encodeQuadlet (.am824MidiNoData low) &&& 0xFF000000#32 = 0x80000000#32 :=
    or_masked (by decide)
      (low_outside low 0xFF000000#32 (by decide))
  ⟨_, rfl, h⟩
theorem am824Midi1 : ∀ b low, Statement (.am824Midi1 b low) := fun b low =>
  have h : encodeQuadlet (.am824Midi1 b low) &&& 0xFF000000#32 = 0x81000000#32 :=
    or_masked (or_masked (by decide)
      (field_outside b 16 0xFF000000#32 (by decide)))
      (low_outside low 0xFF000000#32 (by decide))
  ⟨_, rfl, h⟩
theorem am824Midi2 : ∀ b c low, Statement (.am824Midi2 b c low) := fun b c low =>
  have h : encodeQuadlet (.am824Midi2 b c low) &&& 0xFF000000#32 = 0x82000000#32 :=
    or_masked (or_masked (or_masked (by decide)
      (field_outside b 16 0xFF000000#32 (by decide)))
      (field_outside c 8 0xFF000000#32 (by decide)))
      (low_outside low 0xFF000000#32 (by decide))
  ⟨_, rfl, h⟩
theorem am824Midi3 : ∀ b c d, Statement (.am824Midi3 b c d) := fun b c d =>
  have h : encodeQuadlet (.am824Midi3 b c d) &&& 0xFF000000#32 = 0x83000000#32 :=
    or_masked (or_masked (or_masked (by decide)
      (field_outside b 16 0xFF000000#32 (by decide)))
      (field_outside c 8 0xFF000000#32 (by decide)))
      (low_outside d 0xFF000000#32 (by decide))
  ⟨_, rfl, h⟩

end Sys2Proof.Laws.EncodeForm
end

