-- ==== Sys2Proof/Laws/Receive.lean ====
section
/-! SUPPORT. What the receive side can do, said once: intake, the reorder window, delivery and the slave drive. -/

namespace Sys2Proof.Machine

/-! ### Intake (44_receive.md R250) -/

/-- Taking packets off the queue changes the queue, the pool, the violations and the sequence counter only. -/
theorem Context.intake_spec (batch : List (List Byte)) (c : Context) :
    (∃ pool, (c.pool.wf → pool.wf) ∧ (Context.intake batch c).1 = { c with
      hwq := c.hwq.drop batch.length
      flushed := c.flushed - batch.length
      pool := pool
      protoViolations := (Context.intake batch c).1.protoViolations
      rxSeq := c.rxSeq + BitVec.ofNat 32 batch.length }) ∧
    ∀ e ∈ (Context.intake batch c).2, e.bytes ∈ batch ∧ c.validate e.bytes = .accept := by
  induction batch generalizing c with
  | nil => exact ⟨⟨c.pool, id, by simp [Context.intake]⟩, by simp [Context.intake]⟩
  | cons pkt batch ih =>
    obtain ⟨⟨pool, hp, e⟩, hn⟩ := ih (c.takePacket pkt)
    refine ⟨⟨pool, fun h => hp (Memory.writeBytes_wf h _ _), ?_⟩, fun x hx => ?_⟩
    · unfold Context.intake
      dsimp only
      conv_lhs => rw [e]
      simp only [Context.takePacket, List.drop_drop, List.length_cons, Nat.sub_sub, BitVec.add_assoc]
      rw [Nat.add_comm 1 batch.length, Nat.add_comm batch.length 1]
      congr 1
      exact congrArg (c.rxSeq + ·) (BitVec.ofNat_add ..).symm
    · unfold Context.intake at hx
      dsimp only at hx
      rcases List.mem_append.mp hx with hx | hx
      · unfold Context.newEntry at hx
        split at hx
        · rw [List.mem_singleton.mp hx]
          exact ⟨List.mem_cons_self .., ‹_›⟩
        · cases hx
      · obtain ⟨h1, h2⟩ := hn x hx
        exact ⟨List.mem_cons_of_mem _ h1, h2⟩

/-- An accepted packet has at least one data block (44_receive.md R252). -/
theorem Context.length_of_accept {c : Context} {pkt : List Byte} (h : c.validate pkt = .accept) : 8 ≤ pkt.length := by
  unfold Context.validate at h
  split at h
  · cases h
  · omega

/-! ### The reorder window (44_receive.md R258) -/

/-- Inserting one entry keeps the others. -/
theorem mem_insertEntry (table : List Entry) (x y : Entry) : y ∈ insertEntry table x ↔ y = x ∨ y ∈ table := by
  have h : table = (table.reverse.dropWhile fun a => later a.dbc x.dbc).reverse ++
      (table.reverse.takeWhile fun a => later a.dbc x.dbc).reverse := by
    rw [← List.reverse_append, List.takeWhile_append_dropWhile, List.reverse_reverse]
  conv_rhs => rw [h]
  simp only [insertEntry, List.mem_append, List.mem_cons]
  tauto

/-- Inserting one entry adds one. -/
theorem length_insertEntry (table : List Entry) (x : Entry) : (insertEntry table x).length = table.length + 1 := by
  have h : table = (table.reverse.dropWhile fun a => later a.dbc x.dbc).reverse ++
      (table.reverse.takeWhile fun a => later a.dbc x.dbc).reverse := by
    rw [← List.reverse_append, List.takeWhile_append_dropWhile, List.reverse_reverse]
  conv_rhs => rw [h]
  simp only [insertEntry, List.length_append, List.length_cons]
  omega

/-- The table holds the carried and the new entries and nothing else. -/
theorem mem_sortEntries (carry new : List Entry) (y : Entry) : y ∈ sortEntries carry new ↔ y ∈ carry ∨ y ∈ new := by
  induction new generalizing carry with
  | nil => simp [sortEntries]
  | cons x new ih =>
    have : sortEntries carry (x :: new) = sortEntries (insertEntry carry x) new := rfl
    rw [this, ih, mem_insertEntry, List.mem_cons]
    tauto

theorem length_sortEntries (carry new : List Entry) : (sortEntries carry new).length = carry.length + new.length := by
  induction new generalizing carry with
  | nil => rfl
  | cons x new ih =>
    have : sortEntries carry (x :: new) = sortEntries (insertEntry carry x) new := rfl
    rw [this, ih, length_insertEntry, List.length_cons]
    omega

/-! ### Delivery (44_receive.md R265, R267) -/

/-- DECODE changes the sample buffer only (41_codec.md R168). -/
theorem Context.decodePcm_frame (order : ByteOrder) (c : Context) (b : Binding) (e : Entry) (n : Nat) :
    ∃ mem : Memory, (c.pcmMemory.wf → mem.wf) ∧ c.decodePcm order b e n = { c with pcmMemory := mem } := by
  unfold Context.decodePcm
  suffices h : ∀ (slots : List PcmSlot) (d : Context), ∃ mem : Memory, (d.pcmMemory.wf → mem.wf) ∧
      slots.foldl (fun c' p =>
        Context.storeSample order c' (c.hostFrame b p.frame) p.channel (dec32 (quadletAt e.bytes p.quadlet))) d =
        { d with pcmMemory := mem } from h (c.pcmSlots n) c
  intro slots
  induction slots with
  | nil => exact fun d => ⟨d.pcmMemory, id, rfl⟩
  | cons p slots ih =>
    intro d
    obtain ⟨mem, hm, he⟩ := ih
      (Context.storeSample order d (c.hostFrame b p.frame) p.channel (dec32 (quadletAt e.bytes p.quadlet)))
    exact ⟨mem, fun h => hm (Memory.writeBytes_wf h _ _), he⟩

@[simp] theorem length_leBytes (n v : Nat) : (leBytes n v).length = n := by
  induction n generalizing v with
  | zero => rfl
  | succ n ih => rw [leBytes, List.length_cons, ih]

@[simp] theorem length_sampleBytes (order : ByteOrder) (n v : Nat) : (sampleBytes order n v).length = n := by
  cases order <;> simp [sampleBytes]

/-- A PCM slot's frame lies inside the packet's frames, its channel below the channel count (41_codec.md R164). -/
theorem Context.mem_pcmSlots {c : Context} {n : Nat} {p : PcmSlot} (h : p ∈ c.pcmSlots n) :
    p.frame < n * c.framesPerBlock ∧ p.channel < c.pcmChannels.toNat := by
  obtain ⟨b, hb, h⟩ := List.mem_flatMap.mp h
  obtain ⟨ch, hch, h⟩ := List.mem_flatMap.mp h
  obtain ⟨ki, hki, rfl⟩ := List.mem_map.mp h
  have hk : ki.2 < c.framesPerBlock := by
    unfold Context.channelSlots at hki
    unfold Context.framesPerBlock
    split at hki <;> simp_all
    rcases hki with rfl | rfl <;> simp
  have hb := List.mem_range.mp hb
  have : (b + 1) * c.framesPerBlock ≤ n * c.framesPerBlock := Nat.mul_le_mul_right _ hb
  rw [Nat.add_mul, Nat.one_mul] at this
  exact ⟨Nat.lt_of_lt_of_le (Nat.add_lt_add_left hk _) this, List.mem_range.mp hch⟩

/-- DECODE changes no byte outside the samples of the packet's frames (R168). -/
theorem Context.decodePcm_outside (order : ByteOrder) (c : Context) (b : Binding) (e : Entry) (n a : Nat)
    (h : ∀ j < n * c.framesPerBlock, ∀ ch < c.pcmChannels.toNat,
      a < c.sampleAddress (c.hostFrame b j) ch ∨ c.sampleAddress (c.hostFrame b j) ch + c.sampleSize ≤ a) :
    (c.decodePcm order b e n).pcmByte a = c.pcmByte a := by
  unfold Context.decodePcm
  suffices hs : ∀ slots : List PcmSlot, (∀ p ∈ slots, p.frame < n * c.framesPerBlock ∧ p.channel < c.pcmChannels.toNat) →
      ∀ mem : Memory, (slots.foldl (fun c' p =>
        Context.storeSample order c' (c.hostFrame b p.frame) p.channel (dec32 (quadletAt e.bytes p.quadlet)))
          { c with pcmMemory := mem }).pcmByte a = mem.byte c.pcmEpoch a from
    hs (c.pcmSlots n) (fun _ => Context.mem_pcmSlots) c.pcmMemory
  intro slots
  induction slots with
  | nil => exact fun _ _ => rfl
  | cons p slots ih =>
    intro hp mem
    have hq := hp p (List.mem_cons_self ..)
    have := h p.frame hq.1 p.channel hq.2
    refine (ih (fun q hq => hp q (List.mem_cons_of_mem _ hq)) _).trans ?_
    refine Memory.byte_writeBytes_outside _ _ _ _ _ ?_
    rw [length_sampleBytes]
    exact this

theorem Context.decodeBound_frame (order : ByteOrder) (c : Context) (e : Entry) (n : Nat) :
    ∃ mem : Memory, (c.pcmMemory.wf → mem.wf) ∧ (c.pcm = none → mem = c.pcmMemory) ∧
      c.decodeBound order e n = { c with pcmMemory := mem } := by
  unfold Context.decodeBound
  split
  · exact ⟨c.pcmMemory, id, fun _ => rfl, rfl⟩
  · rename_i b hb
    obtain ⟨mem, hm, he⟩ := c.decodePcm_frame order b e n
    exact ⟨mem, hm, fun h => (by rw [hb] at h; cases h), he⟩

/-- The ports of `w` are those of `v` after bytes were appended to some traces. -/
structure PortsReceived (v w : Vector MidiPort 8) : Prop where
  port : ∀ p, (portOf w p).bound = (portOf v p).bound ∧ (portOf w p).out = (portOf v p).out ∧
    (portOf v p).received <+: (portOf w p).received

theorem PortsReceived.refl (v : Vector MidiPort 8) : PortsReceived v v := ⟨fun _ => ⟨rfl, rfl, List.prefix_refl _⟩⟩

theorem PortsReceived.trans {u v w : Vector MidiPort 8} (h : PortsReceived u v) (h' : PortsReceived v w) :
    PortsReceived u w :=
  ⟨fun p => ⟨(h'.port p).1.trans (h.port p).1, (h'.port p).2.1.trans (h.port p).2.1,
    (h.port p).2.2.trans (h'.port p).2.2⟩⟩

theorem extractTurn_received (n port : Nat) (q : Quadlet) (v : Vector MidiPort 8) :
    PortsReceived v (extractTurn n port q v) := by
  unfold extractTurn
  dsimp only
  split
  · refine ⟨fun p => ?_⟩
    rw [portOf_setPort]
    split
    · obtain ⟨rfl, _⟩ := ‹p = port ∧ port < 8›
      exact ⟨rfl, rfl, List.prefix_append _ _⟩
    · exact ⟨rfl, rfl, List.prefix_refl _⟩
  · exact .refl v

/-- MIDI_EXTRACT appends to the ports' traces only (41_codec.md R171). -/
theorem Context.extractMidi_frame (c : Context) (e : Entry) (n : Nat) :
    ∃ ports, PortsReceived c.midi ports ∧ c.extractMidi e n = { c with midi := ports } := by
  refine ⟨(c.extractMidi e n).midi, ?_, rfl⟩
  unfold Context.extractMidi
  dsimp only
  generalize c.midi = v
  generalize List.range n = l
  induction l generalizing v with
  | nil => exact .refl v
  | cons b l ih => exact (extractTurn_received _ _ _ _).trans (ih _)

theorem Context.extractConfigured_frame (c : Context) (e : Entry) (n : Nat) :
    ∃ ports, PortsReceived c.midi ports ∧ c.extractConfigured e n = { c with midi := ports } := by
  unfold Context.extractConfigured
  split
  · exact c.extractMidi_frame e n
  · exact ⟨c.midi, .refl _, rfl⟩

/-- What DELIVER may change of the receiving stream: the counter, the sample buffer, the ports' traces and the cursors;
with no buffer bound the buffer and the cursors keep their values. -/
theorem Context.delivered_frame (order : ByteOrder) (c : Context) (e : Entry) :
    ∃ (mem : Memory) (ports : Vector MidiPort 8), (c.pcmMemory.wf → mem.wf) ∧ (c.pcm = none → mem = c.pcmMemory) ∧
      PortsReceived c.midi ports ∧
      c.delivered order e =
        { c with
          dbc := e.dbc + BitVec.ofNat 8 (c.blockCount e.bytes.length)
          pcmMemory := mem
          midi := ports }.advanceCursors (c.blockCount e.bytes.length * c.framesPerBlock) := by
  unfold Context.delivered
  dsimp only
  generalize c.blockCount e.bytes.length = n
  obtain ⟨mem, h1, h2, e1⟩ := { c with dbc := e.dbc }.decodeBound_frame order e n
  rw [e1]
  obtain ⟨ports, h3, e2⟩ := { c with dbc := e.dbc, pcmMemory := mem }.extractConfigured_frame e n
  rw [e2]
  exact ⟨mem, ports, h1, h2, h3, rfl⟩

end Sys2Proof.Machine
end

