-- ==== Sys2Proof/Laws/Slot.lean ====
section
/-! SUPPORT. Reading back the quadlets stored in a pool slot. -/

namespace Sys2Proof.Machine

/-- The bytes of a quadlet make the quadlet. -/
theorem quadletOf_bytes (q : Quadlet) :
    quadletOf (q.extractLsb' 24 8) (q.extractLsb' 16 8) (q.extractLsb' 8 8) (q.extractLsb' 0 8) = q := by
  apply BitVec.eq_of_getLsbD_eq
  intro i hi
  simp only [quadletOf, BitVec.getLsbD_or, BitVec.getLsbD_shiftLeft, BitVec.getLsbD_setWidth, BitVec.getLsbD_extractLsb']
  interval_cases i <;> simp

@[simp] theorem length_quadletBytes (q : Quadlet) : (quadletBytes q).length = 4 := rfl

/-- A quadlet of a slot's bytes is made of four bytes of the pool. -/
theorem Context.quadletAt_slotBytes (c : Context) (i n k : Nat) (h : 4 * k + 4 ≤ n) :
    quadletAt (c.slotBytes i n) k =
      quadletOf (c.poolByte (c.slotBase i + 4 * k)) (c.poolByte (c.slotBase i + 4 * k + 1))
        (c.poolByte (c.slotBase i + 4 * k + 2)) (c.poolByte (c.slotBase i + 4 * k + 3)) := by
  have hb : ∀ j < n, (c.slotBytes i n).getD j 0 = c.poolByte (c.slotBase i + j) := by
    intro j hj
    rw [List.getD_eq_getElem?_getD]
    simp [Context.slotBytes, Memory.bytes, Context.poolByte, hj]
  unfold quadletAt
  rw [hb _ (by omega), hb _ (by omega), hb _ (by omega), hb _ (by omega)]
  simp only [Nat.add_assoc]

/-- The pool after some quadlets were stored from an address. -/
def storeQuadlets (base : Nat) (m : Memory) (ws : List (Nat × Quadlet)) : Memory :=
  ws.foldl (fun m w => m.writeBytes (base + 4 * w.1) (quadletBytes w.2)) m

/-- A byte outside every stored quadlet keeps its value. -/
theorem byte_storeQuadlets_outside (base epoch a : Nat) (ws : List (Nat × Quadlet)) (m : Memory)
    (h : ∀ w ∈ ws, a < base + 4 * w.1 ∨ base + 4 * w.1 + 4 ≤ a) :
    (storeQuadlets base m ws).byte epoch a = m.byte epoch a := by
  induction ws generalizing m with
  | nil => rfl
  | cons w ws ih =>
    have e : storeQuadlets base m (w :: ws) =
        storeQuadlets base (m.writeBytes (base + 4 * w.1) (quadletBytes w.2)) ws := rfl
    rw [e, ih _ fun x hx => h x (List.mem_cons_of_mem _ hx)]
    exact Memory.byte_writeBytes_outside _ _ _ _ _ (h w (List.mem_cons_self ..))

/-- A byte of a quadlet holds what was stored there last. -/
theorem byte_storeQuadlets_last (base epoch k j : Nat) (q : Quadlet) (pre post : List (Nat × Quadlet)) (m : Memory)
    (h : ∀ w ∈ post, w.1 ≠ k) (hj : j < 4) :
    (storeQuadlets base m (pre ++ (k, q) :: post)).byte epoch (base + 4 * k + j) = (quadletBytes q).getD j 0 := by
  have e : storeQuadlets base m (pre ++ (k, q) :: post) =
      storeQuadlets base ((storeQuadlets base m pre).writeBytes (base + 4 * k) (quadletBytes q)) post := by
    simp [storeQuadlets]
  rw [e, byte_storeQuadlets_outside]
  · rw [Memory.byte_writeBytes_inside _ _ _ _ _ (by simpa using hj), List.getD_eq_getElem _ _ (by simpa using hj)]
  · intro w hw
    have := h w hw
    omega

/-- The quadlet stored last at an index of a slot is read back; `n` bytes of the slot are read. -/
theorem Context.quadletAt_writeSlot_last (c : Context) (i n k : Nat) (q : Quadlet) (pre post : List (Nat × Quadlet))
    (h : ∀ w ∈ post, w.1 ≠ k) (hn : 4 * k + 4 ≤ n) :
    quadletAt ((c.writeSlot i (pre ++ (k, q) :: post)).slotBytes i n) k = q := by
  rw [Context.quadletAt_slotBytes _ _ _ _ hn]
  have hb : ∀ j < 4, (c.writeSlot i (pre ++ (k, q) :: post)).poolByte (c.slotBase i + 4 * k + j) =
      (quadletBytes q).getD j 0 := fun j hj =>
    byte_storeQuadlets_last (c.slotBase i) c.poolEpoch k j q pre post c.pool h hj
  have h0 := hb 0 (by omega)
  rw [Nat.add_zero] at h0
  have e : (c.writeSlot i (pre ++ (k, q) :: post)).slotBase i = c.slotBase i := rfl
  rw [e, h0, hb 1 (by omega), hb 2 (by omega), hb 3 (by omega)]
  exact quadletOf_bytes q

/-- A quadlet stored once in a slot is read back. -/
theorem Context.quadletAt_writeSlot (c : Context) (i n k : Nat) (q : Quadlet) (ws : List (Nat × Quadlet))
    (hd : (ws.map Prod.fst).Nodup) (h : (k, q) ∈ ws) (hn : 4 * k + 4 ≤ n) :
    quadletAt ((c.writeSlot i ws).slotBytes i n) k = q := by
  obtain ⟨pre, post, rfl⟩ := List.append_of_mem h
  refine c.quadletAt_writeSlot_last i n k q pre post (fun w hw hc => ?_) hn
  rw [List.map_append, List.map_cons, List.nodup_append] at hd
  exact (List.nodup_cons.mp hd.2.1).1 (List.mem_map.mpr ⟨w, hw, hc⟩)

/-- A pool byte outside every quadlet stored in a slot keeps its value. -/
theorem Context.poolByte_writeSlot (c : Context) (i a : Nat) (ws : List (Nat × Quadlet))
    (h : ∀ w ∈ ws, a < c.slotBase i + 4 * w.1 ∨ c.slotBase i + 4 * w.1 + 4 ≤ a) :
    (c.writeSlot i ws).poolByte a = c.poolByte a := byte_storeQuadlets_outside _ _ _ _ _ h

/-- What the position maps have to be (40_tables_config.md R138). -/
theorem Context.mapsOk_iff (c : Context) :
    c.mapsOk = true ↔ c.namedSlots.Nodup ∧ ∀ k ∈ c.namedSlots, k < c.dataBlockQuadlets.toNat := by
  simp only [Context.mapsOk, Bool.and_eq_true, decide_eq_true_eq, List.all_eq_true]

/-- The quadlets MIDI_FILL stores to (41_codec.md R169). -/
theorem Context.fillFrom_fst (c : Context) (n b : Nat) (v : Vector MidiPort 8) :
    (c.fillFrom n b v).1.map Prod.fst = (List.range n).map fun k => c.midiQuadlet (b + k) := by
  induction n generalizing b v with
  | zero => rfl
  | succ n ih =>
    rw [List.range_succ_eq_map, List.map_cons, List.map_map]
    unfold Context.fillFrom
    rw [List.map_cons, ih]
    congr 1
    refine List.map_congr_left fun k _ => ?_
    simp only [Function.comp_apply]
    congr 1
    omega

end Sys2Proof.Machine
end

