-- ==== Sys2Proof/Tests/Slice0.lean ====
section
/-! SUPPORT. The model's own tests: ill-formed terms, words written out from 30_encoding.md, one small step per
instruction with results from 95_test_vectors.md or worked by hand from the rules, and for every statement with
hypotheses a witness that meets them. -/

namespace Sys2Proof.Tests

open Machine

/-! ### Small states -/

/-- A stopped 48000 Hz Send stream, one PCM channel in slot 0 and MIDI in slot 1 of a two-quadlet data block. -/
def configured : Context :=
  { Context.reset with
    state := .configured, sfc := 2, sytInterval := 8, pcmChannels := 1, midiPorts := 1, dataBlockQuadlets := 2,
    midiPosition := 1, pcmFormat := .s32, transferDelayBase := 11776 }

/-- The same stream running, as START leaves it, its node id 1. -/
def sending : Context :=
  { configured with
    state := .running, transferDelay := 11776, sourceNodeId := 1, dataBlockState := 6, sytOffsetState := 1024,
    lastSytOffset := 3072, poolAllocated := true, isoContext := true, packetIndexValid := true,
    hwq := List.replicate 48 .skip, flushed := 48 }

/-- A running Receive stream of the same layout. -/
def receiving : Context := { sending with direction := .receive, hwq := (List.range 48).map .rx }

/-- A buffer of 16 frames in periods of 8. -/
def smallBuffer : Binding := { bufferSize := 16, periodSize := 8 }

/-- A block whose streams are the given ones. -/
def block (cs : List Context) : State :=
  { params := { reorderHold := 0, hostByteOrder := .little }, streams := cs, allocations := 1, inbox := []
    response := .none }

/-- What an instruction returns, if it ends in a next state. -/
def answer (i : Instr) (σ : State) : Option Response :=
  match exec i σ with
  | .next τ => some τ.response
  | _ => none

/-- The stream `s` after an instruction; the stream before it if there is no next state. -/
def after (i : Instr) (σ : State) (s : Nat := 0) : Context :=
  match exec i σ with
  | .next τ => τ.stream s
  | _ => σ.stream s

/-- The quadlets of a byte string, for comparison with 95_test_vectors.md. -/
def quadlets (bytes : List Byte) : List Nat := (List.range (bytes.length / 4)).map fun k => (quadletAt bytes k).toNat

/-- The last packet queued, in quadlets. -/
def lastPacket (c : Context) : List Nat :=
  match c.hwq.getLast? with
  | some (.tx bytes) => quadlets bytes
  | _ => []

/-- The bytes of quadlets, most significant first. -/
def packetOf (qs : List Nat) : List Byte := qs.flatMap fun q => quadletBytes (BitVec.ofNat 32 q)

/-- The instruction an input decodes to. -/
def reads (input : Input) : Option Instr :=
  match decode input with
  | .ok i => some i
  | .error _ => none

/-! ### Ill-formed terms, one for each check of WellFormed.lean -/

/-- A stream index that does not fit its field, in every operation that names a stream. -/
theorem test_illformed_stream :
    ([.init (2 ^ 32) .send, .destroy (2 ^ 32), .setParams (2 ^ 32) 1 1 1 true true, .setPcmPosition (2 ^ 32) 0 0,
      .setMidiPosition (2 ^ 32) 0, .setPcmFormat (2 ^ 32) .s16, .setTransferDelay (2 ^ 32) 0, .setSync (2 ^ 32) none,
      .start (2 ^ 32) 0 0 0 true none, .stop (2 ^ 32), .update (2 ^ 32) 0, .updateFail (2 ^ 32),
      .startTimeout (2 ^ 32), .status (2 ^ 32), .pcmPrepare (2 ^ 32), .pcmBind (2 ^ 32) none, .pcmPointer (2 ^ 32),
      .midiBind (2 ^ 32) 0 true, .midiPush (2 ^ 32) 0 0, .txComplete (2 ^ 32) 0 0 none,
      .rxComplete (2 ^ 32) 0 [] none, .periodNotify (2 ^ 32)] : List Instr).all (fun i => !i.wellFormed) = true := by
  decide

/-- A natural operand that does not fit its field. -/
theorem test_illformed_naturals :
    ([.setParams 0 (2 ^ 32) 1 1 true true, .setParams 0 1 (2 ^ 32) 1 true true, .setParams 0 1 1 (2 ^ 32) true true,
      .setPcmPosition 0 (2 ^ 32) 0, .setPcmPosition 0 0 (2 ^ 32), .setMidiPosition 0 (2 ^ 32),
      .setSync 0 (some (2 ^ 32)), .start 0 0 0 0 true (some (2 ^ 32)), .txComplete 0 (2 ^ 32) 0 none,
      .txComplete 0 0 0 (some (2 ^ 32)), .rxComplete 0 (2 ^ 32) [] none,
      .rxComplete 0 0 [] (some (2 ^ 32))] : List Instr).all (fun i => !i.wellFormed) = true := by decide

/-- An operand outside its range of R112. -/
theorem test_illformed_ranges :
    ([.setTransferDelay 0 65536, .start 0 64 0 0 true none, .start 0 0 8 0 true none, .start 0 0 0 64 true none,
      .update 0 64, .pcmBind 0 (some ⟨16, 0⟩), .pcmBind 0 (some ⟨16, 17⟩), .pcmBind 0 (some ⟨2 ^ 32, 1⟩),
      .midiBind 0 8 true, .midiPush 0 8 0, .txComplete 0 0 49 none,
      .rxComplete 0 0 (List.replicate 49 []) none] : List Instr).all (fun i => !i.wellFormed) = true := by decide

/-- A wire-format term whose word belongs to another row (R94, R101). -/
theorem test_illformed_words :
    ([.cipQ1RxMatch 0 0xFF 0, .cipQ1RxMatch 0 7 0, .sytTimestamp 0xF 0xFFF] : List Instr).all
      (fun i => !i.wellFormed) = true := by decide

/-- The bounds themselves are well-formed. -/
theorem test_wellformed_bounds :
    ([.setTransferDelay 0 65535, .start (2 ^ 32 - 1) 63 7 63 true (some 47), .update 0 63, .pcmBind 0 (some ⟨16, 16⟩),
      .midiBind 0 7 true, .txComplete 0 0 48 none, .cipQ1RxMatch 0 8 0, .cipQ1RxMatch 1 7 0, .sytTimestamp 0xF 0xFFE]
      : List Instr).all Instr.wellFormed = true := by decide

/-! ### Words written out from the spec's encodings (R91 to R97, R101, R110; the operand layout is log entry 2) -/

theorem test_decode_configuration :
    reads (.operation [0x01, 0, 0, 0, 1, 1]) = some (.init 1 .receive) ∧
    reads (.operation [0x02, 0, 0, 0, 1]) = some (.destroy 1) ∧
    reads (.operation [0x03, 0, 0, 0, 0, 0, 0, 0xAC, 0x44, 0, 0, 0, 2, 0, 0, 0, 3, 1, 0]) =
      some (.setParams 0 44100 2 3 true false) ∧
    reads (.operation [0x04, 0, 0, 0, 0, 0, 0, 0, 1, 0, 0, 0, 2]) = some (.setPcmPosition 0 1 2) ∧
    reads (.operation [0x05, 0, 0, 0, 0, 0, 0, 0, 2]) = some (.setMidiPosition 0 2) ∧
    reads (.operation [0x06, 0, 0, 0, 0, 0]) = some (.setPcmFormat 0 .s16) ∧
    reads (.operation [0x07, 0, 0, 0, 0, 0, 0, 0x2E, 0x00]) = some (.setTransferDelay 0 11776) ∧
    reads (.operation [0x08, 0, 0, 0, 1, 1, 0, 0, 0, 0]) = some (.setSync 1 (some 0)) := by decide

theorem test_decode_lifecycle :
    reads (.operation [0x10, 0, 0, 0, 0, 0, 0, 0, 5, 0, 0, 0, 2, 0, 0, 0, 63, 1, 0]) =
      some (.start 0 5 2 63 true none) ∧
    reads (.operation [0x11, 0, 0, 0, 1]) = some (.stop 1) ∧
    reads (.operation [0x12]) = some .busReset ∧
    reads (.operation [0x13, 0, 0, 0, 0, 0, 0, 0, 2]) = some (.update 0 2) ∧
    reads (.operation [0x14, 0, 0, 0, 1]) = some (.updateFail 1) ∧
    reads (.operation [0x15, 0, 0, 0, 1]) = some (.startTimeout 1) ∧
    reads (.operation [0x16, 0, 0, 0, 1]) = some (.status 1) := by decide

theorem test_decode_bindings_and_events :
    reads (.operation [0x20, 0, 0, 0, 1]) = some (.pcmPrepare 1) ∧
    reads (.operation [0x21, 0, 0, 0, 0, 1, 0, 0, 0, 16, 0, 0, 0, 8]) = some (.pcmBind 0 (some smallBuffer)) ∧
    reads (.operation [0x22, 0, 0, 0, 1]) = some (.pcmPointer 1) ∧
    reads (.operation [0x23, 0, 0, 0, 0, 0, 0, 0, 7, 1]) = some (.midiBind 0 7 true) ∧
    reads (.operation [0x24, 0, 0, 0, 0, 0, 0, 0, 7, 0xF8]) = some (.midiPush 0 7 0xF8) ∧
    reads (.operation [0x30, 0, 0, 0, 0, 0, 0, 0, 4, 0, 0, 0, 1, 1, 0, 0, 0, 0]) =
      some (.txComplete 0 4 1 (some 0)) ∧
    reads (.operation [0x31, 0, 0, 0, 1, 0, 0, 0, 0, 0, 0, 0, 2, 0, 0, 0, 1, 0xAA, 0, 0, 0, 0, 0]) =
      some (.rxComplete 1 0 [[0xAA], []] none) ∧
    reads (.operation [0x32, 0, 0, 0, 1]) = some (.periodNotify 1) := by decide

/-- 95_test_vectors.md 2.1, and the rows' fixed bits at both ends. -/
theorem test_decode_words :
    reads (.wire [0x3F, 0x81, 0x00, 0xFF]) = some (.cipQ0 63 129 255) ∧
    reads (.wire [0x90, 0x06, 0xFF, 0xFF]) = some (.cipQ1 6 0xFFFF) ∧
    reads (.wire [0xD0, 0x02, 0x00, 0x00]) = some (.cipQ1RxMatch 1 2 0) ∧
    reads (.wire [0x90, 0xFF, 0x12, 0x34]) = some (.cipQ1NoData 0 0x1234) ∧
    reads (.wire [0xFF, 0xFF]) = some .sytNoInfo ∧
    reads (.wire [0x53, 0x6A]) = some (.sytTimestamp 5 0x36A) ∧
    reads (.wire [0x40, 0x12, 0x34, 0x56]) = some (.am824Pcm 0x123456) ∧
    reads (.wire [0x80, 0x00, 0x00, 0x00]) = some (.am824MidiNoData 0) ∧
    reads (.wire [0x81, 0xF8, 0x00, 0x00]) = some (.am824Midi1 0xF8 0) ∧
    reads (.wire [0x82, 0xC0, 0x3C, 0x00]) = some (.am824Midi2 0xC0 0x3C 0) ∧
    reads (.wire [0x83, 0x90, 0x40, 0x40]) = some (.am824Midi3 0x90 0x40 0x40) := by decide

/-- What is no instruction: R111's selectors, R98's reserved label, a record cut short, bytes left over. -/
theorem test_decode_refuses :
    ([.operation [0x00], .operation [0x09], .operation [0x17], .operation [0x25], .operation [0x33],
      .operation [0xFF], .operation [], .operation [0x02, 0, 0, 0], .operation [0x01, 0, 0, 0, 0, 2],
      .operation [0x12, 1], .wire [0x84, 0x11, 0x22, 0x33], .wire [0x41, 0, 0, 0], .wire [0xA0, 0x02, 0, 0],
      .wire [0x40, 0, 0]] : List Input).all (fun i => (reads i).isNone) = true := by decide

/-! ### Configuration: 95_test_vectors.md 2.2 -/

theorem test_init : (after (.init 0 .send) State.reset).state = .idle ∧
    (after (.init 0 .send) State.reset).transferDelayBase = 11776 := by decide

theorem test_init_twice : answer (.init 0 .send) (block [configured]) = some (.code .errState) := by decide

theorem test_destroy : (after (.destroy 0) (block [configured])).state = .absent := by decide

theorem test_destroy_paired : answer (.destroy 0)
    (block [configured, { configured with direction := .receive, syncSlave := some 0 }]) =
      some (.code .errState) := by decide

/-- Dual wire at 192000 Hz runs at 96000 Hz on the wire. -/
theorem test_setParams_dual :
    let c := after (.setParams 0 192000 2 1 false true) (block [configured])
    (c.sfc, c.sytInterval, c.dataBlockQuadlets, c.midiPosition) = (4, 16, 5, 4) := by decide

theorem test_setParams_rate : answer (.setParams 0 22050 2 0 false false) (block [configured]) =
    some (.code .errParam) := by decide

theorem test_setPcmPosition : (after (.setPcmPosition 0 0 1) (block [configured])).position 0 = 1 := by decide

theorem test_setPcmPosition_slot : answer (.setPcmPosition 0 0 2) (block [configured]) =
    some (.code .errParam) := by decide

theorem test_setMidiPosition : (after (.setMidiPosition 0 0) (block [configured])).midiPosition = 0 := by decide

theorem test_setMidiPosition_slot : answer (.setMidiPosition 0 2) (block [configured]) =
    some (.code .errParam) := by decide

theorem test_setPcmFormat : (after (.setPcmFormat 0 .s16) (block [configured])).pcmFormat = .s16 := by decide

theorem test_setPcmFormat_receive : answer (.setPcmFormat 0 .s16) (block [{ configured with direction := .receive }]) =
    some (.code .errParam) := by decide

theorem test_setTransferDelay : (after (.setTransferDelay 0 65535) (block [configured])).transferDelayBase = 65535 := by
  decide

theorem test_setSync : (after (.setSync 1 (some 0)) (block [configured, { configured with direction := .receive }])
    1).syncSlave = some 0 := by decide

theorem test_setSync_self : answer (.setSync 0 (some 0)) (block [{ configured with direction := .receive }]) =
    some (.code .errParam) := by decide

/-! ### Lifecycle: 95_test_vectors.md 2.2, 2.4, 2.9 -/

/-- Blocking at 48000 Hz adds one SYT interval of 4096 ticks (R203). -/
theorem test_start_blocking :
    (after (.start 0 0 2 1 true none) (block [{ configured with blocking := true }])).transferDelay = 15872 := by decide

theorem test_start_map : answer (.start 0 0 0 0 true none) (block [{ configured with midiPosition := 0 }]) =
    some (.code .errParam) := by decide

theorem test_stop : (after (.stop 0) (block [sending])).state = .idle ∧
    (after (.stop 0) (block [sending])).hwq = [] := by decide

theorem test_stop_stopped : after (.stop 0) (block [configured]) = configured := by decide

theorem test_busReset : (after .busReset (block [sending])).state = .recovering ∧
    (after .busReset (block [configured])).state = .configured := by decide

theorem test_update : (after (.update 0 2) (block [{ sending with state := .recovering }])).state = .running ∧
    (after (.update 0 2) (block [{ sending with state := .recovering }])).sourceNodeId = 2 := by decide

theorem test_updateFail : answer (.updateFail 0) (block [sending]) = some (.code .errDisconnect) ∧
    (after (.updateFail 0) (block [sending])).aborts = [] := by decide

theorem test_startTimeout : (after (.startTimeout 0) (block [sending])).lastError = .errTimeout := by decide

theorem test_startTimeout_late : answer (.startTimeout 0) (block [{ sending with callbacked := true }]) = none := by
  decide

theorem test_status : answer (.status 0) (block [sending]) = some (.status .running true .ok 0) := by decide

/-! ### Bindings -/

theorem test_pcmPrepare :
    (after (.pcmPrepare 0) (block [{ sending with pcmBufferPointer := 5 }])).pcmBufferPointer = 0 := by decide

theorem test_pcmBind : (after (.pcmBind 0 (some smallBuffer)) (block [sending])).pcm = some smallBuffer := by decide

/-- R311: a buffer that does not hold the cursor is refused. -/
theorem test_pcmBind_cursor : answer (.pcmBind 0 (some smallBuffer))
    (block [{ sending with pcmBufferPointer := 16 }]) = some (.code .errParam) := by decide

theorem test_pcmPointer :
    answer (.pcmPointer 0) (block [{ sending with pcmBufferPointer := 2 }]) = some (.pointer 2) := by decide

theorem test_midiBind : (portOf (after (.midiBind 0 7 true) (block [sending])).midi 7).bound = true := by decide

/-- R315: an unbound port takes no byte. -/
theorem test_midiPush_unbound : answer (.midiPush 0 0 0xF8) (block [sending]) = some (.code .errState) := by decide

/-- A running stream whose port 0 is bound and holds two bytes. -/
def withMidi : Context :=
  { sending with midi := setPort sending.midi 0 { bound := true, out := [0x90, 0x3C], received := [] } }

theorem test_midiPush : (portOf (after (.midiPush 0 0 0x7F) (block [withMidi])).midi 0).out = [0x90, 0x3C, 0x7F] := by
  decide

theorem test_periodNotify : (after (.periodNotify 0)
    (block [{ sending with pcm := some smallBuffer, periodPending := true }])).notices = [.periodElapsed] := by decide

/-! ### Transmit: 95_test_vectors.md 2.3, 2.4 -/

/-- Packet 0 of a 48000 Hz non-blocking stream is `01020000 90023A00`; port 0 has its turn in block 0. -/
theorem test_txComplete : lastPacket (after (.txComplete 0 0 1 none) (block [withMidi])) =
    [0x01020000, 0x90023A00, 0x40000000, 0x81900000, 0x40000000, 0x80000000, 0x40000000, 0x80000000, 0x40000000,
      0x80000000, 0x40000000, 0x80000000, 0x40000000, 0x80000000] := by decide

/-- 2.5: cursors 12, 12 and six frames give 18, 2 and the period flag. -/
theorem test_txComplete_cursors :
    let c := after (.txComplete 0 0 1 none) (block [{ sending with
      pcm := some { bufferSize := 64, periodSize := 16 }, pcmBufferPointer := 12, pcmPeriodPointer := 12 }])
    (c.pcmBufferPointer, c.pcmPeriodPointer, c.periodPending) = (18, 2, true) := by decide

/-! ### Receive: 95_test_vectors.md 2.3, 2.6, 2.8 and P3 -/

/-- Packet A of P3. -/
def packetA : List Byte := packetOf ([0x02020000, 0x90021234] ++ List.replicate 12 0x40000000)

/-- A master and the slave it drives, whose own callback has been seen and which has one free descriptor. -/
def master : Context := { receiving with syncSlave := some 1 }

def slave : Context :=
  { sending with callbacked := true, hwq := List.replicate 47 .skip, flushed := 47 }

/-- P3: the slave's packet carries the received SYT with the slave's delay, `5034`, and the slave's own counter. -/
theorem test_rxComplete_drives :
    (lastPacket (after (.rxComplete 0 0 [packetA] none) (block [master, slave]) 1)).take 2 =
      [0x01020000, 0x90025034] := by decide

/-- 2.3, DECODE: `40123456` is the sample `12345600`, in little-endian byte order. -/
theorem test_rxComplete_decodes :
    (after (.rxComplete 0 0 [packetOf [0x02020000, 0x90021234, 0x40123456, 0x80000000]] none)
      (block [{ receiving with pcm := some smallBuffer, pcmBufferPointer := 15 }])).pcmMemory =
      [(60, 0x00), (61, 0x56), (62, 0x34), (63, 0x12)] := by decide

/-- 2.6: the verdicts, for a stream with `sfc = 2` and `dbq = 2`. -/
theorem test_validate :
    receiving.validate (packetOf [0x02020000, 0x9002FFFF]) = .dropSilent ∧
    receiving.validate (packetOf [0x02020000, 0x90021234, 0]) = .dropSilent ∧
    receiving.validate (packetOf [0x3F0500AA, 0x90021234, 0, 0]) = .accept ∧
    receiving.validate (packetOf [0x02020000, 0x90FF1234, 0, 0]) = .dropSilent ∧
    receiving.validate (packetOf [0x02020000, 0x90011234, 0, 0]) = .dropViolation ∧
    receiving.validate (packetOf [0x82020000, 0x90021234, 0, 0]) = .dropViolation ∧
    receiving.validate (packetOf [0x02020000, 0x10020000]) = .dropViolation := by decide

/-- An entry with a counter. -/
def entryOf (dbc : Byte) : Entry := { id := 0, dbc := dbc, bytes := packetA }

/-- 2.7: arrivals `4 250 254`, `0 128`, a late `6` behind a carried `12`, and the case outside the window. -/
theorem test_sort :
    (sortEntries [] [entryOf 4, entryOf 250, entryOf 254]).map Entry.dbc = [250, 254, 4] ∧
    (sortEntries [] [entryOf 0, entryOf 128]).map Entry.dbc = [0, 128] ∧
    (sortEntries [entryOf 12] [entryOf 6]).map Entry.dbc = [6, 12] ∧
    (sortEntries [] [entryOf 0, entryOf 200, entryOf 100]).map Entry.dbc = [200, 0, 100] := by decide

/-- 2.3: the conversions. -/
theorem test_codec : enc16 0x8000 = 0x40800000 ∧ enc32 0x123456FF = 0x40123456 ∧ dec32 0xFF000001 = 0x100 := by decide

/-! ### Words presented alone (log entry 3) -/

theorem test_words_read :
    answer (.cipQ0 2 2 6) State.reset = some (.reading (.headerQ0 6)) ∧
    answer (.cipQ1 2 0x1234) State.reset = some (.reading (.headerQ1 2 0x1234)) ∧
    answer (.cipQ1RxMatch 1 2 0) State.reset = some (.reading (.headerQ1 2 0)) ∧
    answer (.cipQ1NoData 0 0x1234) State.reset = some (.reading .noData) ∧
    answer .sytNoInfo State.reset = some (.reading .noTimestamp) ∧
    answer (.sytTimestamp 5 0x36A) State.reset = some (.reading (.timestamp 5 0x36A)) := by decide

theorem test_payload_words_read :
    answer (.am824Pcm 0x123456) State.reset = some (.reading (.sample 0x12345600)) ∧
    answer (.am824MidiNoData 7) State.reset = some (.reading (.midi [])) ∧
    answer (.am824Midi1 0xF8 0) State.reset = some (.reading (.midi [0xF8])) ∧
    answer (.am824Midi2 0xC0 0x3C 0) State.reset = some (.reading (.midi [0xC0, 0x3C])) ∧
    answer (.am824Midi3 0x90 0x40 0x40) State.reset = some (.reading (.midi [0x90, 0x40, 0x40])) := by decide

/-- The table's words run as the first instruction after reset: STATUS of stream 0. -/
theorem test_fetch : (match step (State.reset.withFetchWord 8 0x16) with
    | .next τ => some τ.response
    | _ => none) = some (.status .absent false .ok 0) := by decide

/-! ### Sound states -/

/-- The parameters of the layout of the small states. -/
theorem params_sound {c : Context} (h : (c.sfc, c.sytInterval, c.pcmChannels, c.midiPorts, c.dataBlockQuadlets,
    c.dualWire) = (2, 8, 1, 1, 2, false)) : c.ParamsSound := by
  simp only [Prod.mk.injEq] at h
  obtain ⟨h1, h2, h3, h4, h5, h6⟩ := h
  constructor <;> simp only [Context.pcmSlotCount, Context.framesPerBlock, h1, h2, h3, h4, h5, h6] <;> decide

/-- The reset generators of 48000 Hz. -/
theorem generators_sound {c : Context} (h : (c.sfc, c.dataBlockState, c.sytOffsetState, c.lastSytOffset) =
    (2, 6, 1024, 3072)) : c.GeneratorsSound := by
  simp only [Prod.mk.injEq] at h
  obtain ⟨h1, h2, h3, h4⟩ := h
  refine ⟨?_, fun _ => ?_, fun hf => ?_⟩
  · rw [h4]; decide
  · rw [h1, h2, h3]; decide
  · rw [h1] at hf; exact absurd hf (by decide)

/-- Without a buffer only the receive format is asked for. -/
theorem unbound_sound {c : Context} (h : c.pcm = none) (hf : c.direction = .receive → c.pcmFormat = .s32) :
    c.BindingSound where
  range b hb := by rw [h] at hb; cases hb
  bufferCursor b hb := by rw [h] at hb; cases hb
  periodCursor b hb := by rw [h] at hb; cases hb
  absent _ := h
  receiveFormat _ := hf

/-- A queue of silent cycles on a Send stream. -/
theorem send_queue {c : Context} {n : Nat} (h : c.hwq = List.replicate n .skip) (hf : c.flushed = n) (hn : n ≤ 48)
    (hi : c.packetIndex.toNat < 48 ∧ c.direction = .send) : c.QueueSound where
  flushedAll := by rw [h, hf, List.length_replicate]
  capacity := by rw [h, List.length_replicate]; exact hn
  index _ := hi.1
  sendQueue _ slot hm := by
    rw [h] at hm
    cases List.eq_of_mem_replicate hm
  receiveQueue _ hd := by rw [hi.2] at hd; cases hd

/-- A full queue of receive buffers. -/
theorem receive_queue {c : Context} (h : c.hwq = (List.range 48).map .rx) (hf : c.flushed = 48)
    (hi : c.packetIndex = 0 ∧ c.direction = .receive) : c.QueueSound where
  flushedAll := by rw [h, hf]; decide
  capacity := by rw [h]; decide
  index _ := by rw [hi.1]; decide
  sendQueue hd := by rw [hi.2] at hd; cases hd
  receiveQueue _ _ := by rw [h, hi.1]; decide

theorem sending_sound : sending.Sound 0 where
  params _ := params_sound rfl
  maps _ := by decide
  generators _ := generators_sound rfl
  resources := ⟨rfl, rfl, rfl, fun h => absurd h (by decide)⟩
  queue := send_queue rfl rfl (by decide) (by decide)
  binding := unbound_sound rfl fun _ => rfl
  carry := ⟨by decide, fun _ h => absurd h List.not_mem_nil⟩
  memory := ⟨.nil, .nil⟩

theorem receiving_sound : receiving.Sound 0 where
  params _ := params_sound rfl
  maps _ := by decide
  generators _ := generators_sound rfl
  resources := ⟨rfl, rfl, rfl, fun h => absurd h (by decide)⟩
  queue := receive_queue rfl rfl (by decide)
  binding := unbound_sound rfl fun _ => rfl
  carry := ⟨by decide, fun _ h => absurd h List.not_mem_nil⟩
  memory := ⟨.nil, .nil⟩

theorem master_sound : master.Sound 0 where
  params _ := params_sound rfl
  maps _ := by decide
  generators _ := generators_sound rfl
  resources := ⟨rfl, rfl, rfl, fun h => absurd h (by decide)⟩
  queue := receive_queue rfl rfl (by decide)
  binding := unbound_sound rfl fun _ => rfl
  carry := ⟨by decide, fun _ h => absurd h List.not_mem_nil⟩
  memory := ⟨.nil, .nil⟩

theorem slave_sound : slave.Sound 0 where
  params _ := params_sound rfl
  maps _ := by decide
  generators _ := generators_sound rfl
  resources := ⟨rfl, rfl, rfl, fun h => absurd h (by decide)⟩
  queue := send_queue rfl rfl (by decide) (by decide)
  binding := unbound_sound rfl fun _ => rfl
  carry := ⟨by decide, fun _ h => absurd h List.not_mem_nil⟩
  memory := ⟨.nil, .nil⟩

/-- The streams of a block of two. -/
theorem stream_block (a b : Context) (s : Nat) :
    (block [a, b]).stream s = if s = 0 then a else if s = 1 then b else Context.reset := by
  match s with
  | 0 => rfl
  | 1 => rfl
  | n + 2 => rfl

/-- A block of two sound streams without a pair is sound. -/
theorem block_sound {a b : Context} (ha : a.Sound 0) (hb : b.Sound 0) (na : a.syncSlave = none)
    (nb : b.syncSlave = none) : (block [a, b]).Sound := by
  have hn : ∀ m t, ((block [a, b]).stream m).syncSlave ≠ some t := fun m t h => by
    rw [stream_block] at h
    split at h
    · rw [na] at h; cases h
    · split at h
      · rw [nb] at h; cases h
      · cases h
  refine ⟨(show 1 ≤ 2 by decide), fun s hs => ?_, fun m t h => absurd h (hn m t), fun m t h => absurd h (hn m t),
    fun m t h => absurd h (hn m t), fun m _ t h => absurd h (hn m t)⟩
  match s, hs with
  | 0, _ => exact ha
  | 1, _ => exact hb
  | n + 2, hs => exact absurd hs (by simp only [block, List.length_cons, List.length_nil]; omega)

/-- The master with a sound Send stream as its slave is sound. -/
theorem pair_sound_of {b : Context} (hb : b.Sound 0) (hd : b.direction = .send) (hn : b.syncSlave = none)
    (hp : b.state ≠ .absent) : (block [master, b]).Sound := by
  have hs : ∀ m t, ((block [master, b]).stream m).syncSlave = some t → m = 0 ∧ t = 1 := fun m t h => by
    rw [stream_block] at h
    split at h
    · exact ⟨by assumption, (Option.some.inj h).symm⟩
    · split at h
      · rw [hn] at h; cases h
      · cases h
  refine ⟨(show 1 ≤ 2 by decide), fun s h => ?_, fun m t h => ?_, fun m t h => ?_, fun m t h => ?_,
    fun m m' t h h' => ?_⟩
  · match s, h with
    | 0, _ => exact master_sound
    | 1, _ => exact hb
    | n + 2, hs => exact absurd hs (by simp only [block, List.length_cons, List.length_nil]; omega)
  · obtain ⟨rfl, rfl⟩ := hs m t h
    exact ⟨(show 1 < 2 by decide), by decide⟩
  · obtain ⟨rfl, rfl⟩ := hs m t h
    exact ⟨rfl, hd⟩
  · obtain ⟨rfl, rfl⟩ := hs m t h
    exact ⟨(show LifeState.running ≠ .absent by decide), hp⟩
  · rw [(hs m t h).1, (hs m' t h').1]

/-- The driving pair is sound. -/
theorem pair_sound : (block [master, slave]).Sound := pair_sound_of slave_sound rfl rfl (by decide)

/-- One sending and one receiving stream. -/
def both : State := block [sending, receiving]

theorem both_sound : both.Sound := block_sound sending_sound receiving_sound rfl rfl

/-! ### Witnesses: for every statement with hypotheses, states and operands that meet them -/

/-- A stopped Receive stream of the small layout, and a state with one stream of each kind. -/
def stoppedReceiver : Context := { configured with direction := .receive }

def stopped : State := block [configured, stoppedReceiver]

/-- The sending stream with a buffer whose cursors are at their last values, and with a port in use. -/
def bound : Context :=
  { withMidi with pcm := some smallBuffer, pcmBufferPointer := 15, pcmPeriodPointer := 7 }

/-- The receiving stream with the same buffer. -/
def boundReceiver : Context :=
  { receiving with pcm := some smallBuffer, pcmBufferPointer := 15, pcmPeriodPointer := 7 }

/-- The buffer's cursors at their last values. -/
theorem bound_cursors {c : Context} (h : c.pcm = some smallBuffer)
    (hc : c.pcmBufferPointer = 15 ∧ c.pcmPeriodPointer = 7) (hs : c.state = .running)
    (hf : c.pcmFormat = .s32) : c.BindingSound where
  range b hb := by rw [h] at hb; cases hb; decide
  bufferCursor b hb := by rw [h] at hb; cases hb; rw [hc.1]; decide
  periodCursor b hb := by rw [h] at hb; cases hb; rw [hc.2]; decide
  absent ha := by rw [hs] at ha; cases ha
  receiveFormat _ _ := hf

theorem bound_sound : bound.Sound 0 where
  params _ := params_sound rfl
  maps _ := by decide
  generators _ := generators_sound rfl
  resources := ⟨rfl, rfl, rfl, fun h => absurd h (by decide)⟩
  queue := send_queue rfl rfl (by decide) (by decide)
  binding := bound_cursors rfl (by decide) rfl rfl
  carry := ⟨by decide, fun _ h => absurd h List.not_mem_nil⟩
  memory := ⟨.nil, .nil⟩

theorem boundReceiver_sound : boundReceiver.Sound 0 where
  params _ := params_sound rfl
  maps _ := by decide
  generators _ := generators_sound rfl
  resources := ⟨rfl, rfl, rfl, fun h => absurd h (by decide)⟩
  queue := receive_queue rfl rfl (by decide)
  binding := bound_cursors rfl (by decide) rfl rfl
  carry := ⟨by decide, fun _ h => absurd h List.not_mem_nil⟩
  memory := ⟨.nil, .nil⟩

/-- A block whose two streams are bound to buffers is sound too. -/
theorem block_bound_sound : (block [bound, boundReceiver]).Sound :=
  block_sound bound_sound boundReceiver_sound rfl rfl

theorem witness_DecodeInvertsEncode :
    ([.init (2 ^ 32 - 1) .receive, .setParams 1 (2 ^ 32 - 1) 64 8 true true, .setTransferDelay 0 65535,
      .setSync 1 none, .start 1 63 7 63 false (some (2 ^ 32 - 1)), .pcmBind 0 (some ⟨2 ^ 32 - 1, 1⟩),
      .midiPush 0 7 0xFF, .txComplete 0 0 48 (some 47), .rxComplete 0 0 (List.replicate 48 [0]) none,
      .cipQ1RxMatch 1 0xFE 0, .sytTimestamp 0xF 0xFFE] : List Instr).all Instr.wellFormed = true := by decide

theorem witness_QuadletDecodesToItsOwnWord :
    decodeQuadlet 0x3F8100FF = .ok (.cipQ0 63 129 255) ∧ decodeQuadlet 0x90070000 = .ok (.cipQ1 7 0) ∧
    decodeQuadlet 0x90080000 = .ok (.cipQ1RxMatch 0 8 0) ∧ decodeQuadlet 0xD0FFFFFF = .ok (.cipQ1NoData 1 0xFFFF) ∧
    decodeQuadlet 0x40FFFFFF = .ok (.am824Pcm 0xFFFFFF) ∧ decodeQuadlet 0x83FFFFFF = .ok (.am824Midi3 255 255 255) :=
  ⟨rfl, rfl, rfl, rfl, rfl, rfl⟩

/-- Each clause at the bounds: the first selector that is none, the first stream outside, the least operands outside
their ranges, and completion events: for a stopped stream, for one of the other direction, for one descriptor more than
are flushed, and with a packet that is no whole quadlet or too long by one byte. -/
theorem witness_InterfaceRefusesInadmissibleInputs :
    ((both.withInbox [.operation [0x09]]).inbox = .operation (0x09 :: []) :: [] ∧
      (0x09 : Byte) ∉ ([0x01, 0x02, 0x03, 0x04, 0x05, 0x06, 0x07, 0x08, 0x10, 0x11, 0x12, 0x13, 0x14, 0x15, 0x16,
        0x20, 0x21, 0x22, 0x23, 0x24, 0x30, 0x31, 0x32] : List Byte)) ∧
    (targetOf (.stop 2) = some 2 ∧ both.streams.length ≤ 2) ∧
    (65535 < 65536 ∧ both.streams.length ≤ 2 ∧ 63 < 64 ∧ 7 < 8 ∧ (⟨16, 0⟩ : Binding).periodSize < 1 ∧
      (⟨16, 17⟩ : Binding).bufferSize < 17 ∧ 2 ^ 32 ≤ (⟨2 ^ 32, 1⟩ : Binding).bufferSize ∧ 8 ≤ 8 ∧ 48 < 49 ∧
      48 < (List.replicate 49 ([] : List Byte)).length) ∧
    (1 < both.streams.length ∧ (stopped.stream 0).state ≠ .running ∧ (stopped.stream 0).state ≠ .recovering ∧
      (both.stream 1).direction = .receive ∧ 47 ≤ 48 ∧ ((block [slave]).stream 0).flushed < 48) ∧
    ([packetOf [0]].length ≤ 48 ∧ (both.stream 0).direction = .send ∧ (List.replicate 1 (0 : Byte)).length % 4 ≠ 0 ∧
      (both.stream 1).bufSize < (List.replicate 73 (0 : Byte)).length) := by decide

/-- A record, and no record. -/
theorem witness_StepRunsTheDecodedInstruction :
    (∃ σ : State, σ.inbox = .operation [0x12] :: [.wire [0xFF, 0xFF]] ∧ decode (.operation [0x12]) = .ok .busReset) ∧
    both.inbox = [] :=
  ⟨⟨both.withInbox [.operation [0x12], .wire [0xFF, 0xFF]], rfl, rfl⟩, rfl⟩

/-- The last byte of the buffer and the first one past it, on a Configured and on an Idle stream; no buffer; and a stream
outside the block. -/
theorem witness_HostStoreWritesOneByte :
    (let σ := block [{ bound with state := .configured }]
     σ.withInbox [.hostStore 0 63 0xAB] = { σ with inbox := [.hostStore 0 63 0xAB] } ∧
     0 < σ.streams.length ∧ (σ.stream 0).pcm = some smallBuffer ∧
     63 < smallBuffer.bufferSize * (σ.stream 0).pcmChannels.toNat * 4 ∧
     smallBuffer.bufferSize * (σ.stream 0).pcmChannels.toNat * 4 ≤ 64) ∧
    (((block [{ bound with state := .idle }]).stream 0).state = .idle ∧ 4095 < smallBuffer.bufferSize * 64 * 4 ∧
      smallBuffer.bufferSize * 64 * 4 ≤ 4096) ∧
    (both.stream 0).pcm = none ∧ both.streams.length ≤ 2 := by decide

/-- R60, R64: the host's byte stands where it was stored, on an Idle stream too. -/
theorem test_hostStore :
    (match step ((block [{ bound with state := .idle }]).withInbox [.hostStore 0 4095 0xAB]) with
      | .next τ => (τ.stream 0).pcmMemory
      | _ => []) = [(4095, 0xAB)] := by decide

theorem witness_ResetValues : (1 ≤ 1) ∧ (0 < 1) ∧ (State.resetWith 1 (by decide) both.params).streams.length = 1 := by
  decide

theorem witness_AbsentContextAnswersErrState : 1 < State.reset.streams.length ∧
    (State.reset.stream 1).state = .absent ∧ smallBuffer.inRange = true := by decide

theorem witness_InitCreatesTheContext : 1 < State.reset.streams.length ∧ (State.reset.stream 1).state = .absent ∧
    1 < both.streams.length ∧ (both.stream 1).state ≠ .absent := by decide

/-- Both cases: an unpaired stream, and a slave. -/
theorem witness_DestroyRemovesTheContext :
    ((stopped.stream 0).state = .configured ∧ (stopped.stream 0).syncSlave = none ∧
      ∀ m < stopped.streams.length, (stopped.stream m).syncSlave ≠ some 0) ∧
    ((block [configured, { stoppedReceiver with syncSlave := some 0 }]).stream 1).syncSlave = some 0 := by decide

theorem witness_SetParamsConfigures : 0 < stopped.streams.length ∧ (stopped.stream 0).state = .configured ∧
    (stopped.stream 0).pcm = none ∧ rateOf 6 = some 192000 ∧ sytIntervalOf 6 = some 32 ∧
    384000 = (if true then 2 * 192000 else 192000) ∧ 64 ≤ 64 ∧ 8 ≤ 8 ∧ 0 < 64 + 8 := by decide

/-- An active stream; and a free one with a rate and a channel count that are not supported. -/
theorem witness_SetParamsRefuses : (both.stream 0).state = .running ∧ (stopped.stream 0).state = .configured ∧
    (stopped.stream 0).pcm = none ∧ ¬ (22050 ∈ ([32000, 44100, 48000, 88200, 96000, 176400, 192000] : List Nat)) ∧
    ¬ 65 ≤ 64 := by decide

/-- The last slot and the first one past it, a stream without MIDI, and one that is not Configured. -/
theorem witness_PositionCommandsSetTheMaps : (both.stream 0).state ≠ .configured ∧ (stopped.stream 0).state = .configured ∧
    0 < (stopped.stream 0).pcmChannels.toNat ∧ 1 < (stopped.stream 0).dataBlockQuadlets.toNat ∧
    (stopped.stream 0).dataBlockQuadlets.toNat ≤ 2 ∧ (stopped.stream 0).pcmChannels.toNat ≤ 1 ∧
    (stopped.stream 0).midiPorts ≠ 0 ∧ (block [{ configured with midiPorts := 0 }]).stream 0 =
      { configured with midiPorts := 0 } := by decide

theorem witness_FormatAndDelayAreSet : (stopped.stream 0).state = .configured ∧ (stopped.stream 0).pcm = none ∧
    (stopped.stream 0).direction = .send ∧ (stopped.stream 1).direction = .receive ∧ (stopped.stream 1).pcm = none ∧
    ((block [bound]).stream 0).pcm ≠ none ∧ 65535 ≤ 65535 ∧ (both.stream 0).state = .running ∧
    (State.reset.stream 1).state = .absent := by decide

/-- A free master with a stopped Send stream; an active master; a master that is a Send stream; and an active target. -/
theorem witness_SetSyncPairs :
    ((stopped.stream 1).state = .configured ∧ (stopped.stream 1).syncSlave = none ∧
      (stopped.stream 1).direction = .receive ∧ (stopped.stream 0).direction = .send ∧
      ∀ m2 < stopped.streams.length, m2 ≠ 1 → (stopped.stream m2).syncSlave ≠ some 0) ∧
    (both.stream 1).state = .running ∧ (stopped.stream 0).direction ≠ .receive ∧
    ((block [sending, stoppedReceiver]).stream 1).state = .configured ∧
    ((block [sending, stoppedReceiver]).stream 0).active = true := by decide

theorem witness_RefusedCommandsChangeNothing : ∃ τ, exec (.stop 0) State.reset = .next τ ∧
    τ.response = .code .errState := ⟨_, rfl, rfl⟩

theorem witness_StartSeedsAndPrimes : 0 < stopped.streams.length ∧ 63 ≤ 63 ∧ 7 ≤ 7 ∧
    (∀ k, some 48 = some k → 48 ≤ k) ∧ (stopped.stream 0).state = .configured ∧ (stopped.stream 0).mapsOk = true ∧
    initialStateOf (stopped.stream 0).sfc.toNat = some (6, 1024) ∧
    rateOf (stopped.stream 0).sfc.toNat = some 48000 := by
  refine ⟨by decide, by decide, by decide, fun k h => ?_, by decide, by decide, by decide, by decide⟩
  cases h
  decide

/-- An active stream, an Absent one, one with maps that collide, and one with valid maps. -/
theorem witness_StartRefuses : (both.stream 1).state = .running ∧ (State.reset.stream 1).state = .absent ∧
    ((block [{ configured with midiPosition := 0 }]).stream 0).mapsOk = false ∧
    ((block [{ configured with midiPosition := 0 }]).stream 0).state = .configured ∧
    (stopped.stream 0).state = .configured ∧ (stopped.stream 0).mapsOk = true := by decide

theorem witness_PrimingFailureStopsTheStream : 0 < stopped.streams.length ∧ 47 < 48 ∧
    (stopped.stream 0).state = .configured ∧ (stopped.stream 0).mapsOk = true ∧
    initialStateOf (stopped.stream 0).sfc.toNat = some (6, 1024) ∧
    rateOf (stopped.stream 0).sfc.toNat = some 48000 := by decide

theorem witness_StopTearsDown : (both.stream 1).state = .running ∧ (stopped.stream 1).state = .configured ∧
    (State.reset.stream 1).state = .absent := by decide

theorem witness_BusResetRecovers : (both.stream 1).state = .running ∧ (stopped.stream 1).state ≠ .running := by decide

theorem witness_UpdateRefreshesTheNodeId : 1 < both.streams.length ∧ 63 ≤ 63 ∧ (both.stream 1).state = .running ∧
    (stopped.stream 1).state = .configured ∧ (State.reset.stream 1).state = .absent := by decide

theorem witness_DisconnectAndTimeoutAreFatalStops : (both.stream 1).state = .running ∧
    (both.stream 1).callbacked = false ∧ (stopped.stream 1).state = .configured ∧
    (stopped.stream 1).active = false ∧ (State.reset.stream 1).state = .absent ∧
    ((block [slave]).stream 0).callbacked = true := by decide

theorem witness_StatusAndPointerRead : 1 < State.reset.streams.length ∧ (State.reset.stream 1).state = .absent ∧
    (both.stream 1).state ≠ .absent := by decide

/-- Unbound and bound; a buffer that just holds the cursors, and one that just does not. -/
theorem witness_PcmPrepareAndBind : (both.stream 0).state ≠ .absent ∧ (both.stream 0).pcm = none ∧
    ((block [bound]).stream 0).pcm ≠ none ∧ ((block [bound]).stream 0).pcmBufferPointer.toNat < 16 ∧
    ((block [bound]).stream 0).pcmPeriodPointer.toNat < 8 ∧ (1 ≤ 8 ∧ 8 ≤ 16 ∧ 16 < 2 ^ 32) ∧
    15 ≤ ((block [bound]).stream 0).pcmBufferPointer.toNat := by decide

theorem witness_MidiPortsBindAndPush : (7 < 8) ∧ ((block [withMidi]).stream 0).state ≠ .absent ∧
    (portOf ((block [withMidi]).stream 0).midi 0).bound = true ∧
    (portOf ((block [withMidi]).stream 0).midi 7).bound = false ∧ (State.reset.stream 1).state = .absent := by decide

theorem witness_PeriodNotifyDelivers : ((block [{ bound with periodPending := true }]).stream 0).periodPending = true ∧
    (both.stream 0).periodPending = false := by decide

theorem witness_BlockCountsAreInRange : sending.ParamsSound ∧ sending.GeneratorsSound :=
  ⟨params_sound rfl, generators_sound rfl⟩

/-- 44100 Hz at the last phase of its super-period. -/
theorem witness_BlockCountsAreExact :
    Context.GeneratorsSound { Context.reset with sfc := 1, dataBlockState := 79, sytOffsetState := 146 } ∧
    rateOf 1 = some 44100 ∧ (Context.dbgen { Context.reset with sfc := 1, dataBlockState := 79 }).1 = 5 :=
  ⟨⟨by decide, fun h => absurd h (by decide), fun _ => by decide⟩, rfl, by decide⟩

/-- The offset at its greatest, which gives a timestamp, and one that gives none. -/
theorem witness_NoTwoPacketsWithoutTimestamp :
    Context.GeneratorsSound { sending with lastSytOffset := 6143 } ∧
    (Context.sytgen { sending with lastSytOffset := 6143 }).1 = some 3071 ∧
    Context.GeneratorsSound { sending with lastSytOffset := 2048 } ∧
    (Context.sytgen { sending with lastSytOffset := 2048 }).1 = none :=
  ⟨⟨by decide, fun _ => by decide, fun h => absurd h (by decide)⟩, by decide,
    ⟨by decide, fun _ => by decide, fun h => absurd h (by decide)⟩, by decide⟩

/-- 44100 Hz, packet 4: the third packet gave no timestamp, so three came before (95_test_vectors.md 2.4). -/
theorem witness_TimestampsMeetTheClosedForm :
    let c := { Context.reset with sfc := 1, sytOffsetState := 67, lastSytOffset := 3072 }
    initialStateOf c.sfc.toNat = some (0, 67) ∧ c.dataBlockState.toNat = 0 ∧ c.sytOffsetState.toNat = 67 ∧
    c.lastSytOffset.toNat = 3072 ∧ (c.sytRun 5)[4]? = some (some 1087) := by decide

/-- Without a buffer and with one, single wire and dual wire, for the last block and the last channel. -/
theorem witness_BuiltPacketPcmSlots :
    sending.mapsOk = true ∧ bound.mapsOk = true ∧ 5 < 6 ∧ 0 < bound.pcmChannels.toNat ∧
    Context.mapsOk { bound with dualWire := true, dataBlockQuadlets := 3, midiPosition := 2 } = true ∧
    ∃ bytes, (sending.buildPacket .little 6 0x3A00).builtDescriptor 6 = .tx bytes :=
  ⟨by decide, by decide, by decide, by decide, by decide, _, rfl⟩

theorem witness_TransmittedPacketHidesThePool : sending.mapsOk = true ∧ sending.ParamsSound :=
  ⟨by decide, params_sound rfl⟩

/-- A configured, bound port that sends both of its bytes in its turns, blocks 0 and 8, and none in block 16; and a
port that is not bound. -/
theorem witness_MidiFillConservesBytes : (7 < 8) ∧ 0 < withMidi.midiPorts.toNat ∧ 0 < withMidi.midiPorts.toNat ∧
    (portOf withMidi.midi 0).bound = true ∧ (withMidi.dbc.toNat + 8) % 8 = 0 ∧ 8 < 17 ∧
    (portOf withMidi.midi 0).out[(List.range 8).countP fun b => (withMidi.dbc.toNat + b) % 8 == 0]? = some 0x3C ∧
    (portOf withMidi.midi 0).out.length ≤ (List.range 16).countP (fun b => (withMidi.dbc.toNat + b) % 8 == 0) ∧
    (portOf withMidi.midi 1).bound = false := by decide

/-- A port that takes bytes; and an entry for a stream with MIDI and for one without. -/
theorem witness_MidiExtractFollowsTheTurns : (7 < 8) ∧ 0 < withMidi.midiPorts.toNat ∧
    (portOf withMidi.midi 0).bound = true ∧ { withMidi with midiPorts := 0 }.midiPorts.toNat = 0 := by decide

/-- All 48 descriptors consumed; unbound, and bound with the cursors at their last values. -/
theorem witness_TxCompleteBuildsThePackets : 0 < both.streams.length ∧ 48 ≤ 48 ∧
    (both.stream 0).Sound both.params.reorderHold ∧ (both.stream 0).active = true ∧
    (both.stream 0).direction = .send ∧ 48 ≤ (both.stream 0).hwq.length ∧ both.isSlave 0 = false ∧
    (both.stream 0).pcm = none ∧ bound.Sound 0 ∧ bound.pcm = some smallBuffer :=
  ⟨by decide, by decide, sending_sound, by decide, by decide, by decide, by decide, by decide, bound_sound, by decide⟩

theorem witness_SlaveTxCompleteBuildsNothing :
    ((block [master, slave]).stream 1).Sound (block [master, slave]).params.reorderHold ∧
    ((block [master, slave]).stream 1).active = true ∧ ((block [master, slave]).stream 1).direction = .send ∧
    47 ≤ ((block [master, slave]).stream 1).hwq.length ∧ (block [master, slave]).isSlave 1 = true :=
  ⟨slave_sound, by decide, by decide, by decide, by decide⟩

theorem witness_TxQueueFailureStopsTheStream : 47 < 48 ∧ 48 ≤ 48 ∧
    (both.stream 0).Sound both.params.reorderHold ∧ (both.stream 0).active = true ∧
    (both.stream 0).direction = .send ∧ 48 ≤ (both.stream 0).hwq.length ∧ both.isSlave 0 = false :=
  ⟨by decide, by decide, sending_sound, by decide, by decide, by decide, by decide⟩

/-- Two packets to compare: the last ones of the same stream, unbound and bound. -/
theorem witness_BindingKeepsTheCadence :
    let c := { sending with hwq := [] }
    let d := { c with pcm := some smallBuffer }
    ∃ x y, (c.txPacket .little none 0 0x3A00).hwq[0]? = some (.tx x) ∧
      (d.txPacket .little none 0 0x3A00).hwq[0]? = some (.tx y) :=
  ⟨_, _, rfl, rfl⟩

/-- The three verdicts at their bounds: one data block exactly, and one byte less; FDF 0xFF, and FDF one less; a header
that does not match over too few bytes for a data block; and one byte less than a header. -/
theorem witness_ValidateAccepts : 1 ≤ receiving.dataBlockQuadlets.toNat ∧
    receiving.validate (packetOf [0x02020000, 0x90021234, 0, 0]) = .accept ∧
    receiving.validate ((packetOf [0x02020000, 0x90021234, 0, 0]).take 15) = .dropSilent ∧
    receiving.validate (packetOf [0x02020000, 0x90FF1234, 0, 0]) = .dropSilent ∧
    receiving.validate (packetOf [0x02020000, 0x90FE1234, 0, 0]) = .dropViolation ∧
    receiving.validate (packetOf [0x82020000, 0x90FF1234]) = .dropViolation ∧
    receiving.validate ((packetOf [0x82020000, 0x90FF1234]).take 7) = .dropSilent := by decide

/-- A window from 250 to 121, its ends included, across the wrap. -/
theorem witness_SortOrdersTheWindow :
    let carry := [entryOf 250, entryOf 0]
    let new := [entryOf 121, entryOf 254]
    (∀ e ∈ carry ++ new, (e.dbc - 250).toNat ≤ 127) ∧ ((carry ++ new).map Entry.dbc).Nodup ∧
    carry.Pairwise (fun a b => (a.dbc - 250).toNat < (b.dbc - 250).toNat) := by decide

/-- A full batch, the largest packets and one accepted packet in it; unbound, and bound with the cursors at their last
values. -/
theorem witness_RxCompleteKeepsTheBooks : 1 < both.streams.length ∧ both.Sound ∧ (both.stream 1).active = true ∧
    (both.stream 1).direction = .receive ∧
    (∀ p ∈ packetA :: List.replicate 47 (List.replicate 72 0), p.length % 4 = 0 ∧ p.length ≤ (both.stream 1).bufSize) ∧
    (both.stream 1).pcm = none ∧ (block [bound, boundReceiver]).Sound ∧
    ((block [bound, boundReceiver]).stream 1).active = true ∧
    ((block [bound, boundReceiver]).stream 1).pcm = some smallBuffer :=
  ⟨by decide, both_sound, by decide, by decide, by decide, by decide, block_bound_sound, by decide, by decide⟩

/-- While the master drives: the oracle names call 0, and a later call of the master; the slave's queue is full at
call 1. While the buffers are queued again: the first call after two of the slave's, and the last of 48 where there is no
slave and a buffer is bound. -/
theorem witness_RxQueueFailureStopsTheStream :
    (let σ := block [master, slave]
     σ.Sound ∧ (σ.stream 0).active = true ∧ (σ.stream 0).direction = .receive ∧ (σ.stream 0).syncSlave = some 1 ∧
     (σ.stream 1).drivable = true ∧
     (∀ p ∈ [packetA, packetA], p.length % 4 = 0 ∧ p.length ≤ (σ.stream 0).bufSize) ∧
     1 < (σ.deliveries 0 [packetA, packetA]).length ∧ (σ.stream 1).hwq.length + 1 = 48 ∧
     (∀ k, some 0 = some k → k = 0 ∨ 0 + 2 < k) ∧ (∀ k, some 4 = some k → k = 1 ∨ 1 + 2 < k) ∧
     σ.slaveCalls 0 [packetA, packetA] = 2) ∧
    (let σ := block [bound, boundReceiver]
     1 < σ.streams.length ∧ σ.Sound ∧ (σ.stream 1).active = true ∧ (σ.stream 1).direction = .receive ∧
     σ.drivenSlave 1 = none ∧ σ.slaveCalls 1 (List.replicate 48 packetA) = 0 ∧ 47 < 48 ∧
     (∀ p ∈ List.replicate 48 packetA, p.length % 4 = 0 ∧ p.length ≤ (σ.stream 1).bufSize)) :=
  ⟨⟨pair_sound, by decide, by decide, by decide, by decide, by decide, by decide, by decide,
      fun k h => .inl (Option.some.inj h).symm, fun k h => .inr (Option.some.inj h ▸ by decide), by decide⟩,
    by decide, block_bound_sound, by decide, by decide, by decide, by decide, by decide, by decide⟩

theorem witness_DroppedPacketsLeaveNoTrace : 1 < both.streams.length ∧ both.Sound ∧ (both.stream 1).active = true ∧
    (both.stream 1).direction = .receive ∧ (both.stream 1).carry = [] ∧
    (∀ p ∈ [packetOf [0x02020000, 0x10020000], []],
      p.length % 4 = 0 ∧ p.length ≤ (both.stream 1).bufSize ∧ (both.stream 1).validate p ≠ .accept) :=
  ⟨by decide, both_sound, by decide, by decide, by decide, by decide⟩

/-- One packet for the slave's one free descriptor. -/
theorem witness_MasterDrivesItsSlave :
    let σ := block [master, slave]
    0 < σ.streams.length ∧ [packetA].length ≤ 48 ∧ σ.Sound ∧ (σ.stream 0).active = true ∧
    (σ.stream 0).direction = .receive ∧ (σ.stream 0).syncSlave = some 1 ∧ (σ.stream 1).drivable = true ∧
    (∀ p ∈ [packetA], p.length % 4 = 0 ∧ p.length ≤ (σ.stream 0).bufSize) ∧
    (σ.deliveries 0 [packetA]).length = 1 ∧ (σ.stream 1).hwq.length + (σ.deliveries 0 [packetA]).length ≤ 48 :=
  ⟨by decide, by decide, pair_sound, by decide, by decide, by decide, by decide, by decide, by decide, by decide⟩

/-- A packet of as many frames as the buffer has, single wire and dual wire; and a delivered one of six. -/
theorem witness_DecodedSamplesAreReadBack : bound.pcmFormat = .s32 ∧ 0 < bound.pcmChannels.toNat ∧
    16 * bound.framesPerBlock ≤ smallBuffer.bufferSize ∧ bound.pcm = some smallBuffer ∧
    (packetA.length / 4 - 2) / bound.dataBlockQuadlets.toNat = 6 ∧ 6 * bound.framesPerBlock ≤ 16 ∧ 5 < 6 ∧
    8 * Context.framesPerBlock { bound with dualWire := true } ≤ smallBuffer.bufferSize ∧ 15 < 16 := by decide

theorem witness_WireWordsAreRead : (0xFE : Byte) ≠ 0xFF#8 ∧
    ((0xF : BitVec 4) ≠ 0xF#4 ∨ (0xFFE : BitVec 12) ≠ 0xFFF#12) := by decide

theorem witness_ConfigurationIsImmutableWhileActive : ∃ τ, exec .busReset both = .next τ ∧
    (both.stream 0).active = true := ⟨_, rfl, by decide⟩

theorem witness_OnlyTheTableChangesTheState : ∃ τ, exec (.stop 0) both = .next τ ∧
    (τ.stream 0).state ≠ (both.stream 0).state := ⟨_, rfl, by decide⟩

theorem witness_TracesOnlyGrow : ∃ τ, exec (.txComplete 0 0 2 none) both = .next τ := ⟨_, rfl⟩

theorem witness_OtherStreamsAreUntouched : ∃ τ, exec (.stop 0) both = .next τ ∧ targetOf (.stop 0) = some 0 ∧
    (1 : Nat) ≠ 0 ∧ ∀ cycle batch q, Instr.stop 0 = .rxComplete 0 cycle batch q → (both.stream 0).syncSlave ≠ some 1 :=
  ⟨_, rfl, rfl, by decide, fun _ _ _ h => by cases h⟩

theorem witness_StepKeepsMemoryCanonical : (∀ s, (both.stream s).MemorySound) ∧
    ∃ τ, step (both.withInbox [.operation [0x12]]) = .next τ := by
  refine ⟨fun s => ?_, _, rfl⟩
  rw [both, stream_block]
  split
  · exact ⟨.nil, .nil⟩
  · split <;> exact ⟨.nil, .nil⟩

theorem witness_StepKeepsStatesSound : (both.withInbox [.operation [0x12]]).Sound ∧
    ∃ τ, step (both.withInbox [.operation [0x12]]) = .next τ :=
  ⟨⟨both_sound.nonempty, both_sound.streams, ⟨both_sound.pairing.slaveExists, both_sound.pairing.directions, both_sound.pairing.present,
    both_sound.pairing.oneMaster⟩⟩, _, rfl⟩

/-- The smallest block. -/
theorem witness_ResetIsSound : 1 ≤ 1 ∧ (State.resetWith 1 (by decide) both.params).streams.length = 1 := by decide

theorem witness_SoundStatesNeverFault : both.Sound ∧ (block [master, slave]).Sound := ⟨both_sound, pair_sound⟩

end Sys2Proof.Tests
end

section
/-! SUPPORT. What an operation ensures of the state it answers, through the checks of the interface (30_encoding.md
R112; 70_reset_and_hazards.md R392), and what one step can be. -/

namespace Sys2Proof.Machine

/-! ### What an outcome ensures -/

/-- Every next state the outcome answers satisfies `P`; a fault and a refusal answer none. -/
def Ensures (P : State → Prop) (r : Result) : Prop := ∀ τ, r = .next τ → P τ

section
variable {P : State → Prop} {r r' : Result}

theorem ensures_next {τ : State} (h : P τ) : Ensures P (.next τ) := fun _ e => by cases e; exact h

theorem ensures_fault (f : Fault) : Ensures P (.fault f) := fun _ e => by cases e

theorem ensures_refused (x : Refusal) : Ensures P (.refused x) := fun _ e => by cases e

theorem ensures_ite {p : Prop} [Decidable p] (h : Ensures P r) (h' : Ensures P r') :
    Ensures P (if p then r else r') := by
  split
  · exact h
  · exact h'

theorem ensures_onStream {s : Nat} {σ : State} {k : Context → Result} (h : Ensures P (k (σ.stream s))) :
    Ensures P (onStream s σ k) := fun τ e => h τ (onStream_eq_next e).2

theorem ensures_guardRange {ok : Bool} (h : Ensures P r) : Ensures P (guardRange ok r) :=
  fun τ e => h τ (guardRange_eq_next e).2

theorem ensures_guardAdmitted {ok : Bool} (h : Ensures P r) : Ensures P (guardAdmitted ok r) :=
  fun τ e => h τ (guardAdmitted_eq_next e).2

theorem ensures_guardAccess {ok : Bool} (h : Ensures P r) : Ensures P (guardAccess ok r) :=
  fun τ e => h τ (guardAccess_eq_next e).2

end

/-! ### The step (00_scope.md R2) -/

/-- With nothing presented the step answers the same state. -/
theorem step_of_inbox_nil {σ : State} (h : σ.inbox = []) : step σ = .next σ := by
  unfold step
  rw [h]

/-- A presented input that decodes is run on the state without it. A host store never decodes. -/
theorem step_of_decode {σ : State} {input : Input} {rest : List Input} {i : Instr} (h : σ.inbox = input :: rest)
    (hd : decode input = .ok i) : step σ = exec i (σ.withInbox rest) := by
  unfold step
  cases input with
  | operation bytes => simp only [h, hd]
  | wire bytes => simp only [h, hd]
  | hostStore s a byte => cases hd

/-- A presented input that is no host store and does not decode is refused. -/
theorem step_of_decode_error {σ : State} {input : Input} {rest : List Input} {e : DecodeError}
    (h : σ.inbox = input :: rest) (hs : ∀ s a byte, input ≠ .hostStore s a byte) (hd : decode input = .error e) :
    step σ = .refused (refusalOf e) := by
  unfold step
  cases input with
  | operation bytes => simp only [h, hd]
  | wire bytes => simp only [h, hd]
  | hostStore s a byte => exact absurd rfl (hs s a byte)

/-- A presented host store is done on the state without it (20_memory.md R60). -/
theorem step_of_hostStore {σ : State} {s a : Nat} {byte : Byte} {rest : List Input}
    (h : σ.inbox = .hostStore s a byte :: rest) : step σ = hostStore s a byte (σ.withInbox rest) := by
  unfold step
  rw [h]

/-- A property that holds of the state whatever its inbox, and that a host store and every instruction keep, is kept by
the step. -/
theorem step_ensures {P : State → Prop} {σ : State} (h : P σ) (hinbox : ∀ rest, P (σ.withInbox rest))
    (hstore : ∀ s a byte σ', P σ' → Ensures P (hostStore s a byte σ'))
    (hexec : ∀ i σ', P σ' → Ensures P (exec i σ')) : Ensures P (step σ) := by
  cases hi : σ.inbox with
  | nil =>
    rw [step_of_inbox_nil hi]
    exact ensures_next h
  | cons input rest =>
    by_cases hs : ∃ s a byte, input = .hostStore s a byte
    · obtain ⟨s, a, byte, rfl⟩ := hs
      rw [step_of_hostStore hi]
      exact hstore s a byte _ (hinbox rest)
    · push Not at hs
      cases hd : decode input with
      | ok i =>
        rw [step_of_decode hi hd]
        exact hexec i _ (hinbox rest)
      | error e =>
        rw [step_of_decode_error hi hs hd]
        exact ensures_refused _

/-- Settles O5, by the equations of the step. -/
theorem stepRunsTheDecodedInstruction : Obligations.StepRunsTheDecodedInstruction :=
  ⟨fun _ _ _ _ h hd => step_of_decode h hd, fun _ h => step_of_inbox_nil h⟩

end Sys2Proof.Machine
end

section
/-! SUPPORT. The canonical form of a stream's memories through the operations on its context (10_state.md R40;
20_memory.md R64). An operation that names neither memory keeps it by unfolding its record update; the others store
bytes. -/

namespace Sys2Proof.Machine

section
variable {c : Context}

theorem Context.memorySound_reset : Context.reset.MemorySound := ⟨.nil, .nil⟩

/-! ### Queue and fatal stop -/

theorem Context.MemorySound.enqueue (h : c.MemorySound) (d : Descriptor) : (c.enqueue d).MemorySound :=
  ⟨h.pool, h.pcm⟩

theorem Context.MemorySound.queueFlush (h : c.MemorySound) : c.queueFlush.MemorySound := ⟨h.pool, h.pcm⟩

/-- The released pool is empty (45_lifecycle_sync.md R296). -/
theorem Context.MemorySound.fatalStop (h : c.MemorySound) (code : Code) : (c.fatalStop code).MemorySound := by
  cases ha : c.active with
  | false => rwa [Context.fatalStop_of_not_active ha]
  | true =>
    obtain ⟨_, _, _, e⟩ := Context.fatalStop_of_active ha code
    rw [e]
    exact ⟨.nil, h.pcm⟩

theorem Context.MemorySound.queueEach (mk : Context → Descriptor) (q : Option Nat) {n k : Nat} (h : c.MemorySound) :
    (Context.queueEach mk q n k c).1.MemorySound := by
  induction n generalizing k c with
  | zero => exact h.queueFlush
  | succ n ih =>
    unfold Context.queueEach
    split
    · exact h.fatalStop _
    · exact ih (h.enqueue _)

/-! ### Transmit -/

theorem Context.MemorySound.sytgen (h : c.MemorySound) : c.sytgen.2.MemorySound := ⟨h.pool, h.pcm⟩

theorem Context.MemorySound.txBuilt (order : ByteOrder) (syt : BitVec 16) (h : c.MemorySound) :
    (c.txBuilt order syt).MemorySound := by
  obtain ⟨_, _, hp, _, e⟩ := c.txBuilt_frame order syt
  rw [e]
  exact ⟨hp h.pool, h.pcm⟩

theorem Context.MemorySound.advanceCursors (h : c.MemorySound) (n : Nat) : (c.advanceCursors n).MemorySound := by
  rw [c.advanceCursors_frame n]
  exact ⟨h.pool, h.pcm⟩

theorem Context.MemorySound.txPacket (order : ByteOrder) (q : Option Nat) (k : Nat) (syt : BitVec 16)
    (h : c.MemorySound) : (c.txPacket order q k syt).MemorySound := by
  have hb := h.txBuilt order syt
  rcases c.txPacket_cases order q k syt with ⟨_, e⟩ | ⟨_, _, e⟩ <;> rw [e]
  · exact hb.fatalStop _
  · split
    · exact hb.enqueue _
    · exact (hb.enqueue _).advanceCursors _

theorem Context.MemorySound.txSlot (order : ByteOrder) (q : Option Nat) (cycle count i : Nat) (h : c.MemorySound) :
    (c.txSlot order q cycle count i).MemorySound := h.sytgen.txPacket ..

theorem Context.MemorySound.txLoop (order : ByteOrder) (q : Option Nat) (cycle count : Nat) {n i : Nat}
    (h : c.MemorySound) : (c.txLoop order q cycle count n i).MemorySound := by
  induction n generalizing i c with
  | zero => exact h.queueFlush
  | succ n ih =>
    have hs := h.txSlot order q cycle count i
    unfold Context.txLoop
    dsimp only
    split
    · exact hs
    · exact ih hs

theorem Context.MemorySound.txCompleted (order : ByteOrder) (slave : Bool) (cycle count : Nat) (q : Option Nat)
    (h : c.MemorySound) : (c.txCompleted order slave cycle count q).MemorySound := by
  have hc : ({ c with callbacked := true }.consume count).MemorySound := ⟨h.pool, h.pcm⟩
  unfold Context.txCompleted
  dsimp only
  split
  · exact hc.queueFlush
  · exact hc.txLoop ..

/-! ### Receive -/

theorem Context.MemorySound.intake (batch : List (List Byte)) (h : c.MemorySound) :
    (Context.intake batch c).1.MemorySound := by
  obtain ⟨⟨_, hp, e⟩, _⟩ := c.intake_spec batch
  rw [e]
  exact ⟨hp h.pool, h.pcm⟩

theorem Context.MemorySound.delivered (order : ByteOrder) (e : Entry) (h : c.MemorySound) :
    (c.delivered order e).MemorySound := by
  obtain ⟨_, _, hm, _, _, he⟩ := c.delivered_frame order e
  rw [he]
  refine Context.MemorySound.advanceCursors ?_ _
  exact ⟨h.pool, hm h.pcm⟩

end

/-! ### States -/

/-- The memories of every stream are in canonical form. -/
def State.MemorySound (σ : State) : Prop := ∀ s, (σ.stream s).MemorySound

section
variable {σ : State}

theorem State.MemorySound.setStream (h : σ.MemorySound) (s : Nat) {c : Context} (hc : c.MemorySound) :
    (σ.setStream s c).MemorySound := fun s' => by
  rw [State.stream_setStream]
  split
  · exact hc
  · exact h s'

/-- An answer with the state as it is. -/
theorem State.MemorySound.reply (h : σ.MemorySound) (code : Code) : Ensures State.MemorySound (σ.reply code) :=
  ensures_next h

theorem State.MemorySound.noResult (h : σ.MemorySound) : Ensures State.MemorySound σ.noResult := ensures_next h

/-- A word of a wire format changes the response only (log entry 3). -/
theorem State.MemorySound.read (h : σ.MemorySound) (r : WireReading) : Ensures State.MemorySound (σ.read r) :=
  ensures_next h

/-- Registers of one stream are written and neither of its memories. -/
theorem State.MemorySound.setStream_registers (h : σ.MemorySound) (s : Nat) {c : Context}
    (hp : c.pool = (σ.stream s).pool) (hm : c.pcmMemory = (σ.stream s).pcmMemory) : (σ.setStream s c).MemorySound :=
  h.setStream s ⟨hp ▸ (h s).pool, hm ▸ (h s).pcm⟩

/-- A command that writes registers of one stream and neither of its memories. -/
theorem State.MemorySound.reply_setStream (h : σ.MemorySound) (s : Nat) {c : Context} (code : Code)
    (hp : c.pool = (σ.stream s).pool) (hm : c.pcmMemory = (σ.stream s).pcmMemory) :
    Ensures State.MemorySound ((σ.setStream s c).reply code) :=
  (h.setStream_registers s hp hm).reply code

/-! ### Deliveries (44_receive.md R265, R266) -/

theorem Delivery.drive_memorySound {d : Delivery} (h : d.state.MemorySound) (q : Option Nat) (s : Nat) (e : Entry) :
    (d.drive q s e).state.MemorySound := by
  unfold Delivery.drive
  split
  · exact h
  · exact h.setStream _ ((h _).txPacket ..)

theorem Delivery.deliver_memorySound {d : Delivery} (h : d.state.MemorySound) (q : Option Nat) (s : Nat) (e : Entry) :
    (d.deliver q s e).state.MemorySound := by
  have hd := d.drive_memorySound h q s e
  exact hd.setStream s ((hd s).delivered ..)

theorem Delivery.foldl_deliver_memorySound (q : Option Nat) (s : Nat) (es : List Entry) {d : Delivery}
    (h : d.state.MemorySound) : (es.foldl (Delivery.deliver q s) d).state.MemorySound := by
  induction es generalizing d with
  | nil => exact h
  | cons e es ih => exact ih (d.deliver_memorySound h q s e)

theorem State.MemorySound.flushSlave (h : σ.MemorySound) (s : Nat) (driven : Bool) :
    (σ.flushSlave s driven).MemorySound := by
  unfold State.flushSlave
  split
  · exact h
  · split
    · exact h.setStream _ (h _).queueFlush
    · exact h

theorem State.MemorySound.rxCompleted (h : σ.MemorySound) (s : Nat) (batch : List (List Byte)) (q : Option Nat) :
    (rxCompleted s batch q σ).MemorySound := by
  have htaken : (Context.intake batch { σ.stream s with callbacked := true }).1.MemorySound :=
    Context.MemorySound.intake batch ⟨(h s).pool, (h s).pcm⟩
  unfold Machine.rxCompleted
  extract_lets _ taken table n d _ carried flushed
  have hd : d.state.MemorySound := Delivery.foldl_deliver_memorySound q s _ (h.setStream s htaken)
  have hcarried : carried.MemorySound := hd.setStream s ⟨(hd s).pool, (hd s).pcm⟩
  have hflushed : flushed.MemorySound := hcarried.flushSlave s d.driven
  exact hflushed.setStream s ((hflushed s).queueEach ..)

end

end Sys2Proof.Machine
end

section
/-! SUPPORT. Every operation keeps the memories in canonical form, and so does every step (log entry 7). -/

namespace Sys2Proof.Machine

section
variable {σ : State}

/-! ### Configuration (40_tables_config.md) -/

theorem execInit_memorySound (s : Nat) (d : Direction) (h : σ.MemorySound) :
    Ensures State.MemorySound (execInit s d σ) :=
  ensures_onStream <| ensures_ite (h.reply _) (h.reply_setStream s _ rfl rfl)

theorem execDestroy_memorySound (s : Nat) (h : σ.MemorySound) : Ensures State.MemorySound (execDestroy s σ) :=
  ensures_onStream <| ensures_ite (h.reply _) <| ensures_ite (h.reply _) (h.reply_setStream s _ rfl rfl)

theorem execSetParams_memorySound (s rate ch ports : Nat) (b w : Bool) (h : σ.MemorySound) :
    Ensures State.MemorySound (execSetParams s rate ch ports b w σ) := by
  refine ensures_onStream <| ensures_ite (h.reply _) <| ensures_ite (h.reply _) ?_
  cases wireCode rate w with
  | none => exact h.reply _
  | some code => exact ensures_ite (h.reply _) <| ensures_ite (h.reply _) (h.reply_setStream s _ rfl rfl)

theorem execSetPcmPosition_memorySound (s ch slot : Nat) (h : σ.MemorySound) :
    Ensures State.MemorySound (execSetPcmPosition s ch slot σ) :=
  ensures_onStream <| ensures_ite (h.reply _) <| ensures_ite (h.reply _) <| ensures_ite (h.reply _)
    (h.reply_setStream s _ rfl rfl)

theorem execSetMidiPosition_memorySound (s slot : Nat) (h : σ.MemorySound) :
    Ensures State.MemorySound (execSetMidiPosition s slot σ) :=
  ensures_onStream <| ensures_ite (h.reply _) <| ensures_ite (h.reply _) (h.reply_setStream s _ rfl rfl)

theorem execSetPcmFormat_memorySound (s : Nat) (f : SampleFormat) (h : σ.MemorySound) :
    Ensures State.MemorySound (execSetPcmFormat s f σ) :=
  ensures_onStream <| ensures_ite (h.reply _) <| ensures_ite (h.reply _) <| ensures_ite (h.reply _)
    (h.reply_setStream s _ rfl rfl)

theorem execSetTransferDelay_memorySound (s ticks : Nat) (h : σ.MemorySound) :
    Ensures State.MemorySound (execSetTransferDelay s ticks σ) :=
  ensures_guardRange <| ensures_onStream <| ensures_ite (h.reply _) (h.reply_setStream s _ rfl rfl)

theorem execSetSync_memorySound (m : Nat) (t : Option Nat) (h : σ.MemorySound) :
    Ensures State.MemorySound (execSetSync m t σ) := by
  refine ensures_guardRange <| ensures_onStream <| ensures_ite (h.reply _) <| ensures_ite (h.reply _) <|
    ensures_ite (h.reply _) ?_
  cases t with
  | none => exact h.reply_setStream m _ rfl rfl
  | some t =>
    exact ensures_ite (h.reply _) <| ensures_ite (h.reply _) <| ensures_ite (h.reply _) <| ensures_ite (h.reply _)
      (h.reply_setStream m _ rfl rfl)

/-! ### Lifecycle (45_lifecycle_sync.md) -/

/-- START takes a fresh, empty pool (R293). -/
theorem startStream_memorySound (s channel speed node : Nat) (q : Option Nat) (h : σ.MemorySound) :
    Ensures State.MemorySound (startStream s channel speed node q (σ.stream s) σ) := by
  have seeded (dbs sos rate : Nat) :
      ((σ.stream s).seeded channel speed node dbs sos rate σ.allocations).MemorySound := ⟨.nil, (h s).pcm⟩
  unfold startStream
  split
  · exact State.MemorySound.reply (State.MemorySound.setStream (σ := σ.allocate) h s ((seeded ..).queueEach ..)) _
  · exact ensures_fault _

theorem execStart_memorySound (s channel speed node : Nat) (res : Bool) (q : Option Nat) (h : σ.MemorySound) :
    Ensures State.MemorySound (execStart s channel speed node res q σ) :=
  ensures_guardRange <| ensures_onStream <| ensures_ite (h.reply _) <| ensures_ite (h.reply _) <|
    ensures_ite (h.reply _) <| ensures_ite (h.reply _) (startStream_memorySound s channel speed node q h)

theorem execStop_memorySound (s : Nat) (h : σ.MemorySound) : Ensures State.MemorySound (execStop s σ) :=
  ensures_onStream <| ensures_ite (h.reply _) <| ensures_ite (h.reply _) <|
    (h.setStream s (c := (σ.stream s).stopped) ⟨.nil, (h s).pcm⟩).reply _

theorem Context.MemorySound.busReset {c : Context} (h : c.MemorySound) : c.busReset.MemorySound := by
  unfold Context.busReset
  split
  · exact ⟨h.pool, h.pcm⟩
  · exact h

/-- A stream read after every stream had its part of a bus reset: a context after reset has none (R298). -/
theorem State.stream_map_busReset (σ : State) (s : Nat) :
    { σ with streams := σ.streams.map Context.busReset }.stream s = (σ.stream s).busReset :=
  List.getD_map σ.streams Context.reset Context.busReset

theorem execBusReset_memorySound (h : σ.MemorySound) : Ensures State.MemorySound (execBusReset σ) :=
  ensures_next fun s => by
    rw [State.stream_respond, State.stream_map_busReset]
    exact (h s).busReset

theorem execUpdate_memorySound (s node : Nat) (h : σ.MemorySound) :
    Ensures State.MemorySound (execUpdate s node σ) :=
  ensures_guardRange <| ensures_onStream <| ensures_ite (h.reply _) <| ensures_ite (h.reply _)
    (h.reply_setStream s _ rfl rfl)

theorem execUpdateFail_memorySound (s : Nat) (h : σ.MemorySound) : Ensures State.MemorySound (execUpdateFail s σ) :=
  ensures_onStream <| ensures_ite (h.reply _) <| ensures_ite (h.reply _) <|
    (h.setStream s ((h s).fatalStop _)).reply _

theorem execStartTimeout_memorySound (s : Nat) (h : σ.MemorySound) :
    Ensures State.MemorySound (execStartTimeout s σ) :=
  ensures_onStream <| ensures_guardAdmitted (h.setStream s ((h s).fatalStop _)).noResult

theorem execStatus_memorySound (s : Nat) (h : σ.MemorySound) : Ensures State.MemorySound (execStatus s σ) :=
  ensures_onStream <| ensures_next h

/-! ### Bindings (45_lifecycle_sync.md) -/

theorem execPcmPrepare_memorySound (s : Nat) (h : σ.MemorySound) : Ensures State.MemorySound (execPcmPrepare s σ) :=
  ensures_onStream <| ensures_ite (h.reply _) <| ensures_ite (h.reply _) (h.reply_setStream s _ rfl rfl)

/-- A bound buffer's bytes are the host's: none is stored yet (R311; log entry 7). -/
theorem execPcmBind_memorySound (s : Nat) (b : Option Binding) (h : σ.MemorySound) :
    Ensures State.MemorySound (execPcmBind s b σ) := by
  refine ensures_guardRange <| ensures_onStream <| ensures_ite (h.reply _) ?_
  cases b with
  | none => exact h.reply_setStream s _ rfl rfl
  | some b =>
    have hbound : ((σ.stream s).bindPcm b σ.allocations).MemorySound := ⟨(h s).pool, .nil⟩
    exact ensures_ite (h.reply _) (State.MemorySound.setStream (σ := σ.allocate) h s hbound |>.reply _)

theorem execPcmPointer_memorySound (s : Nat) (h : σ.MemorySound) : Ensures State.MemorySound (execPcmPointer s σ) :=
  ensures_onStream <| ensures_ite (h.reply _) (ensures_next h)

theorem execMidiBind_memorySound (s p : Nat) (b : Bool) (h : σ.MemorySound) :
    Ensures State.MemorySound (execMidiBind s p b σ) :=
  ensures_guardRange <| ensures_onStream <| ensures_ite (h.reply _) (h.reply_setStream s _ rfl rfl)

theorem execMidiPush_memorySound (s p : Nat) (byte : Byte) (h : σ.MemorySound) :
    Ensures State.MemorySound (execMidiPush s p byte σ) :=
  ensures_guardRange <| ensures_onStream <| ensures_ite (h.reply _) (h.reply_setStream s _ rfl rfl)

/-! ### Events (43_transmit.md, 44_receive.md, 45_lifecycle_sync.md) -/

theorem execPeriodNotify_memorySound (s : Nat) (h : σ.MemorySound) :
    Ensures State.MemorySound (execPeriodNotify s σ) :=
  ensures_onStream <| ensures_guardAdmitted <| State.MemorySound.noResult (h.setStream_registers s rfl rfl)

theorem execTxComplete_memorySound (s cycle count : Nat) (q : Option Nat) (h : σ.MemorySound) :
    Ensures State.MemorySound (execTxComplete s cycle count q σ) :=
  ensures_guardRange <| ensures_onStream <| ensures_guardAdmitted <| ensures_ite h.noResult <|
    ensures_guardAccess (h.setStream s ((h s).txCompleted ..)).noResult

theorem execRxComplete_memorySound (s cycle : Nat) (batch : List (List Byte)) (q : Option Nat) (h : σ.MemorySound) :
    Ensures State.MemorySound (execRxComplete s cycle batch q σ) :=
  ensures_guardRange <| ensures_onStream <| ensures_guardAdmitted <| ensures_ite h.noResult <|
    ensures_guardAccess (h.rxCompleted s batch q).noResult

/-! ### The machine -/

/-- Every instruction keeps the memories in canonical form. -/
theorem exec_memorySound (i : Instr) (h : σ.MemorySound) : Ensures State.MemorySound (exec i σ) := by
  cases i with
  | init s d => exact execInit_memorySound s d h
  | destroy s => exact execDestroy_memorySound s h
  | setParams s rate ch ports b w => exact execSetParams_memorySound s rate ch ports b w h
  | setPcmPosition s ch slot => exact execSetPcmPosition_memorySound s ch slot h
  | setMidiPosition s slot => exact execSetMidiPosition_memorySound s slot h
  | setPcmFormat s f => exact execSetPcmFormat_memorySound s f h
  | setTransferDelay s ticks => exact execSetTransferDelay_memorySound s ticks h
  | setSync m t => exact execSetSync_memorySound m t h
  | start s ch sp node res q => exact execStart_memorySound s ch sp node res q h
  | stop s => exact execStop_memorySound s h
  | busReset => exact execBusReset_memorySound h
  | update s node => exact execUpdate_memorySound s node h
  | updateFail s => exact execUpdateFail_memorySound s h
  | startTimeout s => exact execStartTimeout_memorySound s h
  | status s => exact execStatus_memorySound s h
  | pcmPrepare s => exact execPcmPrepare_memorySound s h
  | pcmBind s b => exact execPcmBind_memorySound s b h
  | pcmPointer s => exact execPcmPointer_memorySound s h
  | midiBind s p b => exact execMidiBind_memorySound s p b h
  | midiPush s p byte => exact execMidiPush_memorySound s p byte h
  | txComplete s cycle count q => exact execTxComplete_memorySound s cycle count q h
  | rxComplete s cycle batch q => exact execRxComplete_memorySound s cycle batch q h
  | periodNotify s => exact execPeriodNotify_memorySound s h
  | cipQ0 | cipQ1 | cipQ1RxMatch | cipQ1NoData | sytNoInfo | sytTimestamp | am824Pcm | am824MidiNoData | am824Midi1
  | am824Midi2 | am824Midi3 => exact h.read _

/-- The host's store of one byte keeps the memories in canonical form (20_memory.md R60). -/
theorem hostStore_memorySound (s a : Nat) (byte : Byte) (h : σ.MemorySound) :
    Ensures State.MemorySound (hostStore s a byte σ) := fun τ e => by
  obtain ⟨_, _, rfl⟩ := hostStore_eq_next e
  exact h.setStream s ⟨(h s).pool, Memory.write_wf (h s).pcm a byte⟩

theorem step_memorySound (h : σ.MemorySound) : Ensures State.MemorySound (step σ) :=
  step_ensures h (fun _ => h) (fun s a byte _ h => hostStore_memorySound s a byte h) fun i _ h => exec_memorySound i h

end

/-- Settles O57: `State.MemorySound` is kept by a host store and by every instruction, and so by the step. -/
theorem stepKeepsMemoryCanonical : Obligations.StepKeepsMemoryCanonical :=
  fun _ τ h e => step_memorySound h τ e

end Sys2Proof.Machine
end

section
/-! SUPPORT. What an operation keeps of a stream context: its configuration (10_state.md R24), what its traces hold
already (R47), and that it is not Absent. Said once for each operation on a context, then for the block. -/

namespace Sys2Proof.Machine

/-! ### Outcomes of a check -/

section
variable {P : State → Prop} {r r' : Result}

/-- Each branch may use its side of the test. -/
theorem ensures_ite_of {p : Prop} [Decidable p] (h : p → Ensures P r) (h' : ¬ p → Ensures P r') :
    Ensures P (if p then r else r') := by
  split
  · exact h ‹_›
  · exact h' ‹_›

theorem ensures_onStream_of {s : Nat} {σ : State} {k : Context → Result}
    (h : s < σ.streams.length → Ensures P (k (σ.stream s))) : Ensures P (onStream s σ k) :=
  fun τ e => h (onStream_eq_next e).1 τ (onStream_eq_next e).2

theorem ensures_guardRange_of {ok : Bool} (h : ok = true → Ensures P r) : Ensures P (guardRange ok r) :=
  fun τ e => h (guardRange_eq_next e).1 τ (guardRange_eq_next e).2

theorem ensures_guardAdmitted_of {ok : Bool} (h : ok = true → Ensures P r) : Ensures P (guardAdmitted ok r) :=
  fun τ e => h (guardAdmitted_eq_next e).1 τ (guardAdmitted_eq_next e).2

end

/-! ### Lifecycle states -/

theorem Context.active_of_not_settable {c : Context} (hp : ¬ c.state = .absent) (hs : ¬ c.settable = true) :
    c.active = true := by
  rw [Context.settable_iff] at hs
  rw [Context.active_iff]
  cases h : c.state <;> simp_all

theorem Context.not_active_of_settable {c : Context} (h : c.settable = true) : c.active = false :=
  c.active_eq_false_iff.mpr (.inr (c.settable_iff.mp h))

theorem Context.not_active_of_configured {c : Context} (h : c.state = .configured) : c.active = false :=
  c.active_eq_false_iff.mpr (.inr (.inr h))

theorem Context.present_of_active {c : Context} (h : c.active = true) : c.state ≠ .absent := fun ha => by
  rw [c.active_eq_false_iff.mpr (.inl ha)] at h
  cases h

theorem Context.present_of_settable {c : Context} (h : c.settable = true) : c.state ≠ .absent := fun ha => by
  rw [Context.settable_iff, ha] at h
  rcases h with h | h <;> cases h

/-! ### The relations -/

section
variable {c c' c'' : Context}

theorem Context.SameConfiguration.refl (c : Context) : c.SameConfiguration c := by constructor <;> rfl

theorem Context.SameConfiguration.trans (h : c.SameConfiguration c') (h' : c'.SameConfiguration c'') :
    c.SameConfiguration c'' where
  direction := h'.direction.trans h.direction
  blocking := h'.blocking.trans h.blocking
  dualWire := h'.dualWire.trans h.dualWire
  sfc := h'.sfc.trans h.sfc
  sytInterval := h'.sytInterval.trans h.sytInterval
  pcmChannels := h'.pcmChannels.trans h.pcmChannels
  midiPorts := h'.midiPorts.trans h.midiPorts
  dataBlockQuadlets := h'.dataBlockQuadlets.trans h.dataBlockQuadlets
  pcmPositions := h'.pcmPositions.trans h.pcmPositions
  midiPosition := h'.midiPosition.trans h.midiPosition
  transferDelayBase := h'.transferDelayBase.trans h.transferDelayBase
  syncSlave := h'.syncSlave.trans h.syncSlave

theorem Context.TracesGrow.refl (c : Context) : c.TracesGrow c :=
  ⟨List.prefix_refl _, List.prefix_refl _, List.prefix_refl _, fun _ _ => List.prefix_refl _⟩

theorem Context.TracesGrow.trans (h : c.TracesGrow c') (h' : c'.TracesGrow c'') : c.TracesGrow c'' where
  wire := h.wire.trans h'.wire
  notices := h.notices.trans h'.notices
  aborts := h.aborts.trans h'.aborts
  received p hp := (h.received p hp).trans (h'.received p hp)

/-- The wire, the notices and the aborts are as before, and so are the bytes every port has received. -/
theorem Context.TracesGrow.of_received (hw : c'.wire = c.wire) (hn : c'.notices = c.notices)
    (ha : c'.aborts = c.aborts) (hm : ∀ p < 8, (portOf c'.midi p).received = (portOf c.midi p).received) :
    c.TracesGrow c' where
  wire := by rw [hw]
  notices := by rw [hn]
  aborts := by rw [ha]
  received p hp := by rw [hm p hp]

/-- What an operation keeps of a stream it does not configure: the configuration, the beginnings of the traces, and that
the stream is not Absent. -/
structure Context.Advances (c c' : Context) : Prop where
  configuration : c.SameConfiguration c'
  traces : c.TracesGrow c'
  present : c.state ≠ .absent → c'.state ≠ .absent

theorem Context.Advances.refl (c : Context) : c.Advances c := ⟨.refl c, .refl c, id⟩

theorem Context.Advances.trans (h : c.Advances c') (h' : c'.Advances c'') : c.Advances c'' :=
  ⟨h.configuration.trans h'.configuration, h.traces.trans h'.traces, h'.present ∘ h.present⟩

/-- The configuration is kept if an update names none of its fields. -/
theorem Context.SameConfiguration.of_kept (e : c' = { c' with
    direction := c.direction, blocking := c.blocking, dualWire := c.dualWire, sfc := c.sfc,
    sytInterval := c.sytInterval, pcmChannels := c.pcmChannels, midiPorts := c.midiPorts,
    dataBlockQuadlets := c.dataBlockQuadlets, pcmPositions := c.pcmPositions, midiPosition := c.midiPosition,
    transferDelayBase := c.transferDelayBase, syncSlave := c.syncSlave }) : c.SameConfiguration c' := by
  rw [e]
  constructor <;> rfl

/-- An update that names neither the configuration nor a trace nor a port. -/
theorem Context.Advances.of_kept (hs : c.state ≠ .absent → c'.state ≠ .absent) (e : c' = { c' with
    direction := c.direction, blocking := c.blocking, dualWire := c.dualWire, sfc := c.sfc,
    sytInterval := c.sytInterval, pcmChannels := c.pcmChannels, midiPorts := c.midiPorts,
    dataBlockQuadlets := c.dataBlockQuadlets, pcmPositions := c.pcmPositions, midiPosition := c.midiPosition,
    transferDelayBase := c.transferDelayBase, syncSlave := c.syncSlave,
    wire := c.wire, notices := c.notices, aborts := c.aborts, midi := c.midi }) : c.Advances c' where
  configuration := by rw [e]; constructor <;> rfl
  traces := by rw [e]; exact .of_received rfl rfl rfl fun _ _ => rfl
  present := hs

/-! ### Queue and fatal stop -/

theorem Context.advances_queueFlush (c : Context) : c.Advances c.queueFlush := .of_kept id rfl

theorem Context.advances_enqueue (c : Context) (d : Descriptor) : c.Advances (c.enqueue d) := .of_kept id rfl

/-- A detached port keeps what it has received. -/
theorem PortsDetached.received {v w : Vector MidiPort 8} (h : PortsDetached v w) (p : Nat) (hp : p < 8) :
    (portOf w p).received = (portOf v p).received := by rw [h p hp]

/-- A fatal stop appends at most its code to the aborts (60_exceptions.md R345). -/
theorem Context.advances_fatalStop (c : Context) (code : Code) : c.Advances (c.fatalStop code) := by
  cases ha : c.active with
  | false => rw [Context.fatalStop_of_not_active ha]; exact .refl c
  | true =>
    obtain ⟨ports, index, hports, e⟩ := Context.fatalStop_of_active ha code
    rw [e]
    refine ⟨.of_kept rfl, ⟨List.prefix_refl _, List.prefix_refl _, ?_, fun p hp => ?_⟩, fun _ h => by cases h⟩
    · dsimp only
      split
      · exact List.prefix_append _ _
      · exact List.prefix_refl _
    · dsimp only
      rw [hports.received p hp]

theorem Context.advances_queueEach (mk : Context → Descriptor) (q : Option Nat) (n k : Nat) (c : Context) :
    c.Advances (Context.queueEach mk q n k c).1 := by
  induction n generalizing k c with
  | zero => exact c.advances_queueFlush
  | succ n ih =>
    unfold Context.queueEach
    split
    · exact c.advances_fatalStop _
    · exact (c.advances_enqueue _).trans (ih ..)

/-! ### Lifecycle -/

theorem Context.advances_seeded (c : Context) (channel speed node dbs sos rate epoch : Nat) :
    c.Advances (c.seeded channel speed node dbs sos rate epoch) := .of_kept (fun _ h => by cases h) rfl

theorem Context.advances_stopped (c : Context) : c.Advances c.stopped where
  configuration := .of_kept rfl
  traces := .of_received rfl rfl rfl (detachPorts_detached c.midi).received
  present _ h := by cases h

theorem Context.advances_busReset (c : Context) : c.Advances c.busReset := by
  unfold Context.busReset
  split
  · exact .of_kept (fun _ h => by cases h) rfl
  · exact .refl c

/-! ### Transmit -/

theorem Context.advances_sytgen (c : Context) : c.Advances c.sytgen.2 := .of_kept id rfl

/-- Building a packet takes bytes from the heads of the FIFOs and touches no trace. -/
theorem Context.advances_txBuilt (order : ByteOrder) (syt : BitVec 16) (c : Context) :
    c.Advances (c.txBuilt order syt) := by
  obtain ⟨pool, midi, _, hm, e⟩ := c.txBuilt_frame order syt
  rw [e]
  exact ⟨.of_kept rfl, .of_received rfl rfl rfl fun p _ => (hm.port p).2.1, id⟩

theorem Context.advances_advanceCursors (c : Context) (n : Nat) : c.Advances (c.advanceCursors n) := by
  rw [c.advanceCursors_frame n]
  exact .of_kept id rfl

theorem Context.advances_txPacket (order : ByteOrder) (q : Option Nat) (k : Nat) (syt : BitVec 16) (c : Context) :
    c.Advances (c.txPacket order q k syt) := by
  have hb := c.advances_txBuilt order syt
  have hq := hb.trans (Context.advances_enqueue _ (c.txDescriptor order syt))
  rcases c.txPacket_cases order q k syt with ⟨_, e⟩ | ⟨_, _, e⟩ <;> rw [e]
  · exact hb.trans (Context.advances_fatalStop ..)
  · split
    · exact hq
    · exact hq.trans (Context.advances_advanceCursors ..)

theorem Context.advances_txSlot (order : ByteOrder) (q : Option Nat) (cycle count i : Nat) (c : Context) :
    c.Advances (c.txSlot order q cycle count i) := c.advances_sytgen.trans (Context.advances_txPacket ..)

theorem Context.advances_txLoop (order : ByteOrder) (q : Option Nat) (cycle count n i : Nat) (c : Context) :
    c.Advances (c.txLoop order q cycle count n i) := by
  induction n generalizing i c with
  | zero => exact c.advances_queueFlush
  | succ n ih =>
    have hs := c.advances_txSlot order q cycle count i
    unfold Context.txLoop
    dsimp only
    split
    · exact hs
    · exact hs.trans (ih ..)

/-- The consumed descriptors join the wire (43_transmit.md R220). -/
theorem Context.advances_consume (c : Context) (count : Nat) : c.Advances (c.consume count) where
  configuration := .of_kept rfl
  traces := ⟨List.prefix_append _ _, List.prefix_refl _, List.prefix_refl _, fun _ _ => List.prefix_refl _⟩
  present := id

/-- The completion events note that the stream had its callback. -/
theorem Context.advances_callbacked (c : Context) : c.Advances { c with callbacked := true } := .of_kept id rfl

theorem Context.advances_txCompleted (order : ByteOrder) (slave : Bool) (cycle count : Nat) (q : Option Nat)
    (c : Context) : c.Advances (c.txCompleted order slave cycle count q) := by
  have hc := c.advances_callbacked.trans (Context.advances_consume _ count)
  unfold Context.txCompleted
  dsimp only
  split
  · exact hc.trans (Context.advances_queueFlush _)
  · exact hc.trans (Context.advances_txLoop ..)

/-! ### Receive -/

theorem Context.advances_intake (batch : List (List Byte)) (c : Context) :
    c.Advances (Context.intake batch c).1 := by
  obtain ⟨⟨_, _, e⟩, _⟩ := c.intake_spec batch
  rw [e]
  exact .of_kept id rfl

/-- A delivery appends to what the ports have received (44_receive.md R265). -/
theorem Context.advances_delivered (order : ByteOrder) (c : Context) (e : Entry) :
    c.Advances (c.delivered order e) := by
  obtain ⟨mem, ports, _, _, hp, he⟩ := c.delivered_frame order e
  rw [he]
  refine Context.Advances.trans (c' := { c with dbc := _, pcmMemory := mem, midi := ports }) ?_
    (Context.advances_advanceCursors ..)
  exact ⟨.of_kept rfl, ⟨List.prefix_refl _, List.prefix_refl _, List.prefix_refl _, fun p _ => (hp.port p).2.2⟩, id⟩

end

/-! ### The block -/

/-- Every stream of the block advances; the parameters and the number of streams are kept. -/
structure State.Advances (σ τ : State) : Prop where
  params : τ.params = σ.params
  length : τ.streams.length = σ.streams.length
  each : ∀ s, (σ.stream s).Advances (τ.stream s)

section
variable {σ τ υ : State}

theorem State.Advances.refl (σ : State) : σ.Advances σ := ⟨rfl, rfl, fun s => .refl (σ.stream s)⟩

theorem State.Advances.trans (h : σ.Advances τ) (h' : τ.Advances υ) : σ.Advances υ :=
  ⟨h'.params.trans h.params, h'.length.trans h.length, fun s => (h.each s).trans (h'.each s)⟩

theorem State.advances_setStream (σ : State) {s : Nat} {c : Context} (h : (σ.stream s).Advances c) :
    σ.Advances (σ.setStream s c) where
  params := rfl
  length := σ.length_setStream s c
  each s' := by
    rw [State.stream_setStream]
    split
    · rename_i hs
      rw [hs.1]
      exact h
    · exact .refl _

theorem Delivery.advances_drive (q : Option Nat) (s : Nat) (d : Delivery) (e : Entry) :
    d.state.Advances (d.drive q s e).state := by
  unfold Delivery.drive
  split
  · exact .refl _
  · exact State.advances_setStream _ (Context.advances_txPacket ..)

theorem Delivery.advances_deliver (q : Option Nat) (s : Nat) (d : Delivery) (e : Entry) :
    d.state.Advances (d.deliver q s e).state :=
  (d.advances_drive q s e).trans (State.advances_setStream _ (Context.advances_delivered ..))

theorem Delivery.advances_foldl_deliver (q : Option Nat) (s : Nat) (es : List Entry) (d : Delivery) :
    d.state.Advances (es.foldl (Delivery.deliver q s) d).state := by
  induction es generalizing d with
  | nil => exact .refl _
  | cons e es ih => exact (d.advances_deliver q s e).trans (ih _)

theorem State.advances_flushSlave (σ : State) (s : Nat) (driven : Bool) : σ.Advances (σ.flushSlave s driven) := by
  unfold State.flushSlave
  split
  · exact .refl _
  · split
    · exact σ.advances_setStream (Context.advances_queueFlush _)
    · exact .refl _

theorem State.advances_rxCompleted (σ : State) (s : Nat) (batch : List (List Byte)) (q : Option Nat) :
    σ.Advances (rxCompleted s batch q σ) := by
  have htaken := (σ.stream s).advances_callbacked.trans (Context.advances_intake batch _)
  unfold Machine.rxCompleted
  extract_lets _ taken table n d _ carried flushed
  have hd : σ.Advances d.state :=
    (σ.advances_setStream htaken).trans
      (Delivery.advances_foldl_deliver q s _ { state := σ.setStream s taken.1, calls := 0, driven := false })
  have hcarried : σ.Advances carried := hd.trans (State.advances_setStream _ (.of_kept id rfl))
  have hflushed : σ.Advances flushed := hcarried.trans (State.advances_flushSlave ..)
  exact hflushed.trans (State.advances_setStream _ (Context.advances_queueEach ..))

theorem State.advances_busReset (σ : State) : σ.Advances { σ with streams := σ.streams.map Context.busReset } where
  params := rfl
  length := List.length_map ..
  each s := by
    rw [State.stream_map_busReset]
    exact Context.advances_busReset _

end

end Sys2Proof.Machine
end

section
/-! SUPPORT. No instruction changes the configuration of an active stream (10_state.md R24) or shortens a trace (R47):
one case per instruction, by what each keeps of the stream it names. -/

namespace Sys2Proof.Machine

/-- What every instruction keeps of every stream: the beginnings of its traces and, while it is active, its
configuration. -/
structure Context.Evolves (c c' : Context) : Prop where
  traces : c.TracesGrow c'
  configuration : c.active = true → c.SameConfiguration c'

/-- Every stream of the block evolves. -/
def State.Evolves (σ τ : State) : Prop := ∀ s, (σ.stream s).Evolves (τ.stream s)

section
variable {c c' : Context} {σ τ : State}

theorem Context.Evolves.refl (c : Context) : c.Evolves c := ⟨.refl c, fun _ => .refl c⟩

theorem Context.Advances.evolves (h : c.Advances c') : c.Evolves c' := ⟨h.traces, fun _ => h.configuration⟩

/-- A stream that is not active may be configured, if its traces are kept. -/
theorem Context.Evolves.of_not_active (h : c.active = false) (ht : c.TracesGrow c') : c.Evolves c' :=
  ⟨ht, fun ha => by rw [h] at ha; cases ha⟩

/-- A configuration command that names no trace and no port. -/
theorem Context.Evolves.of_configured (h : c.active = false)
    (e : c' = { c' with wire := c.wire, notices := c.notices, aborts := c.aborts, midi := c.midi }) : c.Evolves c' :=
  .of_not_active h (by rw [e]; exact .of_received rfl rfl rfl fun _ _ => rfl)

theorem State.Advances.evolves (h : σ.Advances τ) : σ.Evolves τ := fun s => (h.each s).evolves

/-! ### Answers -/

theorem State.evolves_reply (σ : State) (code : Code) : Ensures σ.Evolves (σ.reply code) :=
  ensures_next fun _ => .refl _

theorem State.evolves_noResult (σ : State) : Ensures σ.Evolves σ.noResult := ensures_next fun _ => .refl _

theorem State.evolves_read (σ : State) (r : WireReading) : Ensures σ.Evolves (σ.read r) :=
  ensures_next fun _ => .refl _

theorem State.evolves_setStream (σ : State) {s : Nat} (h : (σ.stream s).Evolves c) : σ.Evolves (σ.setStream s c) :=
  fun s' => by
    rw [State.stream_setStream]
    split
    · rename_i hs
      rw [hs.1]
      exact h
    · exact .refl _

theorem State.evolves_reply_setStream (σ : State) {s : Nat} (code : Code) (h : (σ.stream s).Evolves c) :
    Ensures σ.Evolves ((σ.setStream s c).reply code) := ensures_next (σ.evolves_setStream h)

theorem State.evolves_noResult_setStream (σ : State) {s : Nat} (h : (σ.stream s).Evolves c) :
    Ensures σ.Evolves (σ.setStream s c).noResult := ensures_next (σ.evolves_setStream h)

end

/-! ### Configuration (40_tables_config.md) -/

section
variable (σ : State)

theorem execInit_evolves (s : Nat) (d : Direction) : Ensures σ.Evolves (execInit s d σ) :=
  ensures_onStream <| ensures_ite_of (fun _ => σ.evolves_reply _) fun h =>
    σ.evolves_reply_setStream _ <| .of_not_active ((Context.active_eq_false_iff _).mpr (.inl (not_not.mp h)))
      (.of_received rfl rfl rfl (detachPorts_detached _).received)

theorem execDestroy_evolves (s : Nat) : Ensures σ.Evolves (execDestroy s σ) :=
  ensures_onStream <| ensures_ite_of (fun _ => σ.evolves_reply _) fun h => ensures_ite (σ.evolves_reply _) <|
    σ.evolves_reply_setStream _ <| .of_not_active (Context.not_active_of_settable (by simpa using h))
      (.of_received rfl rfl rfl fun p hp => by rw [Context.destroyed_midi, portOf_unbindPorts _ hp])

theorem execSetParams_evolves (s rate ch ports : Nat) (b w : Bool) :
    Ensures σ.Evolves (execSetParams s rate ch ports b w σ) := by
  refine ensures_onStream <| ensures_ite_of (fun _ => σ.evolves_reply _) fun h => ensures_ite (σ.evolves_reply _) ?_
  cases wireCode rate w with
  | none => exact σ.evolves_reply _
  | some code =>
    exact ensures_ite (σ.evolves_reply _) <| ensures_ite (σ.evolves_reply _) <|
      σ.evolves_reply_setStream _ <| .of_configured (Context.not_active_of_settable (by simpa using h)) rfl

theorem execSetPcmPosition_evolves (s ch slot : Nat) : Ensures σ.Evolves (execSetPcmPosition s ch slot σ) :=
  ensures_onStream <| ensures_ite_of (fun _ => σ.evolves_reply _) fun h => ensures_ite (σ.evolves_reply _) <|
    ensures_ite (σ.evolves_reply _) <|
      σ.evolves_reply_setStream _ <| .of_configured (Context.not_active_of_configured (not_not.mp h)) rfl

theorem execSetMidiPosition_evolves (s slot : Nat) : Ensures σ.Evolves (execSetMidiPosition s slot σ) :=
  ensures_onStream <| ensures_ite_of (fun _ => σ.evolves_reply _) fun h => ensures_ite (σ.evolves_reply _) <|
    σ.evolves_reply_setStream _ <| .of_configured (Context.not_active_of_configured (not_not.mp h)) rfl

/-- The sample format is not among the immutable fields. -/
theorem execSetPcmFormat_evolves (s : Nat) (f : SampleFormat) : Ensures σ.Evolves (execSetPcmFormat s f σ) :=
  ensures_onStream <| ensures_ite (σ.evolves_reply _) <| ensures_ite (σ.evolves_reply _) <|
    ensures_ite (σ.evolves_reply _) <|
      σ.evolves_reply_setStream _ (Context.Advances.evolves (.of_kept id rfl))

theorem execSetTransferDelay_evolves (s ticks : Nat) : Ensures σ.Evolves (execSetTransferDelay s ticks σ) :=
  ensures_guardRange <| ensures_onStream <| ensures_ite_of (fun _ => σ.evolves_reply _) fun h =>
    σ.evolves_reply_setStream _ <| .of_configured (Context.not_active_of_settable (by simpa using h)) rfl

theorem execSetSync_evolves (m : Nat) (t : Option Nat) : Ensures σ.Evolves (execSetSync m t σ) := by
  refine ensures_guardRange <| ensures_onStream <| ensures_ite (σ.evolves_reply _) <|
    ensures_ite_of (fun _ => σ.evolves_reply _) fun h => ensures_ite (σ.evolves_reply _) ?_
  have ha : (σ.stream m).active = false := Bool.eq_false_iff.mpr h
  cases t with
  | none => exact σ.evolves_reply_setStream _ (.of_configured ha rfl)
  | some t =>
    exact ensures_ite (σ.evolves_reply _) <| ensures_ite (σ.evolves_reply _) <| ensures_ite (σ.evolves_reply _) <|
      ensures_ite (σ.evolves_reply _) <| σ.evolves_reply_setStream _ (.of_configured ha rfl)

/-! ### Lifecycle (45_lifecycle_sync.md) -/

theorem startStream_evolves (s channel speed node : Nat) (q : Option Nat) :
    Ensures σ.Evolves (startStream s channel speed node q (σ.stream s) σ) := by
  unfold startStream
  split
  · refine ensures_next (State.evolves_setStream (σ := σ.allocate) (Context.Advances.evolves ?_))
    exact (Context.advances_seeded ..).trans (Context.advances_queueEach ..)
  · exact ensures_fault _

theorem execStart_evolves (s channel speed node : Nat) (res : Bool) (q : Option Nat) :
    Ensures σ.Evolves (execStart s channel speed node res q σ) :=
  ensures_guardRange <| ensures_onStream <| ensures_ite (σ.evolves_reply _) <| ensures_ite (σ.evolves_reply _) <|
    ensures_ite (σ.evolves_reply _) <| ensures_ite (σ.evolves_reply _) (startStream_evolves σ s channel speed node q)

theorem execStop_evolves (s : Nat) : Ensures σ.Evolves (execStop s σ) :=
  ensures_onStream <| ensures_ite (σ.evolves_reply _) <| ensures_ite (σ.evolves_reply _) <|
    σ.evolves_reply_setStream _ (Context.advances_stopped _).evolves

theorem execBusReset_evolves : Ensures σ.Evolves (execBusReset σ) := ensures_next σ.advances_busReset.evolves

theorem execUpdate_evolves (s node : Nat) : Ensures σ.Evolves (execUpdate s node σ) :=
  ensures_guardRange <| ensures_onStream <| ensures_ite (σ.evolves_reply _) <| ensures_ite (σ.evolves_reply _) <|
    σ.evolves_reply_setStream _ (Context.Advances.evolves (.of_kept (fun _ h => by cases h) rfl))

theorem execUpdateFail_evolves (s : Nat) : Ensures σ.Evolves (execUpdateFail s σ) :=
  ensures_onStream <| ensures_ite (σ.evolves_reply _) <| ensures_ite (σ.evolves_reply _) <|
    σ.evolves_reply_setStream _ (Context.advances_fatalStop ..).evolves

theorem execStartTimeout_evolves (s : Nat) : Ensures σ.Evolves (execStartTimeout s σ) :=
  ensures_onStream <| ensures_guardAdmitted <|
    σ.evolves_noResult_setStream (Context.advances_fatalStop ..).evolves

theorem execStatus_evolves (s : Nat) : Ensures σ.Evolves (execStatus s σ) :=
  ensures_onStream <| ensures_next fun _ => .refl _

/-! ### Bindings (45_lifecycle_sync.md) -/

theorem execPcmPrepare_evolves (s : Nat) : Ensures σ.Evolves (execPcmPrepare s σ) :=
  ensures_onStream <| ensures_ite (σ.evolves_reply _) <| ensures_ite (σ.evolves_reply _) <|
    σ.evolves_reply_setStream _ (Context.Advances.evolves (.of_kept id rfl))

theorem execPcmBind_evolves (s : Nat) (b : Option Binding) : Ensures σ.Evolves (execPcmBind s b σ) := by
  refine ensures_guardRange <| ensures_onStream <| ensures_ite (σ.evolves_reply _) ?_
  cases b with
  | none => exact σ.evolves_reply_setStream _ (Context.Advances.evolves (.of_kept id rfl))
  | some b =>
    exact ensures_ite (σ.evolves_reply _) <|
      σ.allocate.evolves_reply_setStream _ (Context.Advances.evolves (.of_kept id rfl))

theorem execPcmPointer_evolves (s : Nat) : Ensures σ.Evolves (execPcmPointer s σ) :=
  ensures_onStream <| ensures_ite (σ.evolves_reply _) <| ensures_next fun _ => .refl _

/-- One port is replaced by one that has received the same bytes. -/
theorem Context.evolves_setPort (c : Context) (p : Nat) (x : MidiPort)
    (h : x.received = (portOf c.midi p).received) : c.Evolves { c with midi := setPort c.midi p x } where
  traces := .of_received rfl rfl rfl fun p' _ => by
    rw [portOf_setPort]
    split
    · rename_i hp
      rw [hp.1, h]
    · rfl
  configuration _ := .of_kept rfl

theorem execMidiBind_evolves (s p : Nat) (b : Bool) : Ensures σ.Evolves (execMidiBind s p b σ) :=
  ensures_guardRange <| ensures_onStream <| ensures_ite (σ.evolves_reply _) <|
    σ.evolves_reply_setStream _ <| Context.evolves_setPort _ _ _ (by split <;> rfl)

theorem execMidiPush_evolves (s p : Nat) (byte : Byte) : Ensures σ.Evolves (execMidiPush s p byte σ) :=
  ensures_guardRange <| ensures_onStream <| ensures_ite (σ.evolves_reply _) <|
    σ.evolves_reply_setStream _ <| Context.evolves_setPort _ _ _ rfl

/-! ### Events (43_transmit.md, 44_receive.md, 45_lifecycle_sync.md) -/

/-- A notification of a bound buffer is appended to the notices (R314). -/
theorem execPeriodNotify_evolves (s : Nat) : Ensures σ.Evolves (execPeriodNotify s σ) := by
  refine ensures_onStream <| ensures_guardAdmitted <| σ.evolves_noResult_setStream
    ⟨⟨List.prefix_refl _, ?_, List.prefix_refl _, fun _ _ => List.prefix_refl _⟩, fun _ => .of_kept rfl⟩
  dsimp only
  split
  · exact List.prefix_append _ _
  · exact List.prefix_refl _

theorem execTxComplete_evolves (s cycle count : Nat) (q : Option Nat) :
    Ensures σ.Evolves (execTxComplete s cycle count q σ) :=
  ensures_guardRange <| ensures_onStream <| ensures_guardAdmitted <| ensures_ite σ.evolves_noResult <|
    ensures_guardAccess <| σ.evolves_noResult_setStream (Context.advances_txCompleted ..).evolves

theorem execRxComplete_evolves (s cycle : Nat) (batch : List (List Byte)) (q : Option Nat) :
    Ensures σ.Evolves (execRxComplete s cycle batch q σ) :=
  ensures_guardRange <| ensures_onStream <| ensures_guardAdmitted <| ensures_ite σ.evolves_noResult <|
    ensures_guardAccess <| ensures_next (σ.advances_rxCompleted s batch q).evolves

/-! ### The machine -/

/-- Every instruction keeps the traces of every stream, and the configuration of every active one. -/
theorem exec_evolves (i : Instr) : Ensures σ.Evolves (exec i σ) := by
  cases i with
  | init s d => exact execInit_evolves σ s d
  | destroy s => exact execDestroy_evolves σ s
  | setParams s rate ch ports b w => exact execSetParams_evolves σ s rate ch ports b w
  | setPcmPosition s ch slot => exact execSetPcmPosition_evolves σ s ch slot
  | setMidiPosition s slot => exact execSetMidiPosition_evolves σ s slot
  | setPcmFormat s f => exact execSetPcmFormat_evolves σ s f
  | setTransferDelay s ticks => exact execSetTransferDelay_evolves σ s ticks
  | setSync m t => exact execSetSync_evolves σ m t
  | start s ch sp node res q => exact execStart_evolves σ s ch sp node res q
  | stop s => exact execStop_evolves σ s
  | busReset => exact execBusReset_evolves σ
  | update s node => exact execUpdate_evolves σ s node
  | updateFail s => exact execUpdateFail_evolves σ s
  | startTimeout s => exact execStartTimeout_evolves σ s
  | status s => exact execStatus_evolves σ s
  | pcmPrepare s => exact execPcmPrepare_evolves σ s
  | pcmBind s b => exact execPcmBind_evolves σ s b
  | pcmPointer s => exact execPcmPointer_evolves σ s
  | midiBind s p b => exact execMidiBind_evolves σ s p b
  | midiPush s p byte => exact execMidiPush_evolves σ s p byte
  | txComplete s cycle count q => exact execTxComplete_evolves σ s cycle count q
  | rxComplete s cycle batch q => exact execRxComplete_evolves σ s cycle batch q
  | periodNotify s => exact execPeriodNotify_evolves σ s
  | cipQ0 | cipQ1 | cipQ1RxMatch | cipQ1NoData | sytNoInfo | sytTimestamp | am824Pcm | am824MidiNoData | am824Midi1
  | am824Midi2 | am824Midi3 => exact σ.evolves_read _

end

/-- Settles O53: what every instruction keeps of an active stream holds its configuration. -/
theorem configurationIsImmutableWhileActive : Obligations.ConfigurationIsImmutableWhileActive :=
  fun i σ τ s e ha => (exec_evolves σ i τ e s).configuration ha

/-- Settles O55: what every instruction keeps of a stream holds the beginnings of its traces. -/
theorem tracesOnlyGrow : Obligations.TracesOnlyGrow := fun i σ τ s e => (exec_evolves σ i τ e s).traces

end Sys2Proof.Machine
end

section
/-! SUPPORT. What hardware reset leaves of a block (10_state.md R50; 70_reset_and_hazards.md R380). -/

namespace Sys2Proof.Machine

/-- Every stream reads as a context after reset, those outside the block too. -/
theorem State.stream_resetWith (n : Nat) (hn : 1 ≤ n) (p : Params) (s : Nat) :
    (State.resetWith n hn p).stream s = Context.reset := by
  rw [State.stream, State.resetWith, List.getD_eq_getElem?_getD, List.getElem?_replicate]
  split <;> rfl

theorem State.length_resetWith (n : Nat) (hn : 1 ≤ n) (p : Params) :
    (State.resetWith n hn p).streams.length = n := List.length_replicate ..

/-- Every port is unbound, with an empty FIFO and an empty trace. -/
theorem portOf_reset {p : Nat} (hp : p < 8) : portOf Context.reset.midi p = MidiPort.reset := by
  simp [portOf, Context.reset, hp]

/-- Settles O7: every stream of the block is a context after reset. -/
theorem resetValues : Obligations.ResetValues := by
  intro n hn p s _
  rw [State.stream_resetWith]
  exact ⟨State.length_resetWith n hn p, rfl, rfl, rfl, rfl, rfl, rfl, rfl, rfl, rfl, rfl, rfl, rfl, rfl,
    fun port hp => portOf_reset hp, rfl, rfl, rfl⟩

end Sys2Proof.Machine
end

section
/-! SUPPORT. A sound stream context through the operations on it. A stream that holds no resource is sound by what it
lacks; a command between operations rebuilds the part of the invariant it touches; an active stream inside an operation
has the whole invariant but for its hardware queue. -/

namespace Sys2Proof.Machine

section
variable {c c' : Context} {hold : Nat}

/-! ### Streams without resources -/

/-- What INIT, DESTROY, STOP and a fatal stop leave: no pool, no queue context, nothing queued or carried, no buffer
bound, nothing pending (45_lifecycle_sync.md R295, R296). -/
structure Context.Released (c : Context) : Prop where
  poolAllocated : c.poolAllocated = false
  context : c.isoContext = false
  index : c.packetIndexValid = false
  hwq : c.hwq = []
  flushed : c.flushed = 0
  carry : c.carry = []
  pool : c.pool = []
  pending : c.periodPending = false
  unbound : c.pcm = none

/-- A released stream that is Absent or Idle is sound. -/
theorem Context.Released.sound (h : c.Released) (hs : c.state = .absent ∨ c.state = .idle)
    (hf : c.state ≠ .absent → c.direction = .receive → c.pcmFormat = .s32) (hm : c.pcmMemory.wf) : c.Sound hold := by
  have ha : c.active = false := c.active_eq_false_iff.mpr (hs.imp_right .inl)
  have hno : ¬ c.active = true := by rw [ha]; exact Bool.false_ne_true
  refine ⟨?_, fun h => absurd h hno, fun h => absurd h hno, ?_, ?_, ?_, ?_, ?_⟩
  case refine_1 =>
    rintro (hc | hc)
    · rw [hc] at hs
      rcases hs with hs | hs <;> cases hs
    · exact absurd hc hno
  case refine_2 =>
    exact ⟨h.poolAllocated.trans ha.symm, h.context.trans ha.symm, h.index.trans ha.symm,
      fun _ => ⟨h.hwq, h.carry, h.pool, h.pending⟩⟩
  case refine_3 =>
    refine ⟨by rw [h.flushed, h.hwq]; rfl, ?_, fun hi => ?_, fun _ slot => ?_, fun h => absurd h hno⟩
    · rw [h.hwq]
      exact Nat.zero_le _
    · rw [h.index] at hi
      cases hi
    · rw [h.hwq]
      exact List.not_mem_nil
  case refine_4 =>
    have hb : ∀ b, ¬ c.pcm = some b := fun b => by rw [h.unbound]; exact nofun
    exact ⟨fun b hc => absurd hc (hb b), fun b hc => absurd hc (hb b), fun b hc => absurd hc (hb b),
      fun _ => h.unbound, hf⟩
  case refine_5 => exact ⟨by rw [h.carry]; exact Nat.zero_le _, fun e he => (by rw [h.carry] at he; cases he)⟩
  case refine_6 => exact ⟨by rw [h.pool]; exact .nil, hm⟩

theorem Context.sound_reset : Context.reset.Sound hold :=
  Context.Released.sound ⟨rfl, rfl, rfl, rfl, rfl, rfl, rfl, rfl, rfl⟩ (.inl rfl) (fun h => absurd rfl h) .nil

/-- A sound stream that is not active holds no resource but a bound buffer. -/
theorem Context.Sound.released (h : c.Sound hold) (ha : c.active = false) : { c with pcm := none }.Released := by
  obtain ⟨hq, hc, hp, hn⟩ := h.resources.stopped ha
  exact ⟨h.resources.pool.trans ha, h.resources.context.trans ha, h.resources.index.trans ha, hq,
    by rw [h.queue.flushedAll, hq]; rfl, hc, hp, hn, rfl⟩

theorem Context.Sound.initialised (h : c.Sound hold) (ha : c.active = false) (d : Direction) :
    (c.initialised d).Sound hold := by
  have r := h.released ha
  exact Context.Released.sound ⟨r.poolAllocated, r.context, rfl, r.hwq, r.flushed, r.carry, r.pool, rfl, rfl⟩ (.inr rfl)
    (fun _ _ => rfl) h.memory.pcm

theorem Context.Sound.destroyed (h : c.Sound hold) (ha : c.active = false) : c.destroyed.Sound hold := by
  have r := h.released ha
  exact Context.Released.sound ⟨r.poolAllocated, r.context, r.index, r.hwq, r.flushed, r.carry, r.pool, rfl, rfl⟩
    (.inl rfl) (fun h => absurd rfl h) h.memory.pcm

/-- STOP leaves a sound stream (R295). -/
theorem Context.sound_stopped (hf : c.direction = .receive → c.pcmFormat = .s32) (hm : c.pcmMemory.wf) :
    c.stopped.Sound hold :=
  Context.Released.sound ⟨rfl, rfl, rfl, rfl, rfl, rfl, rfl, rfl, rfl⟩ (.inr rfl) (fun _ => hf) hm

/-- A fatal stop of an active stream leaves a sound one, whatever its queue was (60_exceptions.md R345). -/
theorem Context.sound_fatalStop (ha : c.active = true) (hf : c.direction = .receive → c.pcmFormat = .s32)
    (hm : c.pcmMemory.wf) (code : Code) : (c.fatalStop code).Sound hold := by
  obtain ⟨_, _, _, e⟩ := Context.fatalStop_of_active ha code
  rw [e]
  exact Context.Released.sound ⟨rfl, rfl, rfl, rfl, rfl, rfl, rfl, rfl, rfl⟩ (.inr rfl) (fun _ => hf) hm

theorem Context.state_fatalStop (ha : c.active = true) (code : Code) : (c.fatalStop code).state = .idle := by
  obtain ⟨_, _, _, e⟩ := Context.fatalStop_of_active ha code
  rw [e]

/-! ### Commands -/

/-- The parameters depend on six registers. -/
theorem Context.ParamsSound.of_kept (h : c.ParamsSound) (e : c' = { c' with
    dualWire := c.dualWire, sfc := c.sfc, sytInterval := c.sytInterval, pcmChannels := c.pcmChannels,
    midiPorts := c.midiPorts, dataBlockQuadlets := c.dataBlockQuadlets }) : c'.ParamsSound := by
  rw [e]
  exact ⟨h.interval, h.channels, h.ports, h.blockSize, h.blockNotEmpty⟩

theorem Context.ParamsSound.of_configuration (h : c.ParamsSound) (e : c.SameConfiguration c') : c'.ParamsSound :=
  h.of_kept (by
    rw [← e.dualWire, ← e.sfc, ← e.sytInterval, ← e.pcmChannels, ← e.midiPorts, ← e.dataBlockQuadlets])

/-- Whether the maps are valid is a matter of the configuration (40_tables_config.md R138). -/
theorem Context.SameConfiguration.mapsOk (e : c.SameConfiguration c') : c'.mapsOk = c.mapsOk := by
  have hs : c'.namedSlots = c.namedSlots := by
    simp only [Context.namedSlots, Context.channelSlots, Context.position, e.dualWire, e.pcmChannels, e.midiPorts,
      e.pcmPositions, e.midiPosition]
  rw [Bool.eq_iff_iff, Context.mapsOk_iff, Context.mapsOk_iff, hs, e.dataBlockQuadlets]

/-- An update that leaves the pool, the queue and the carry alone and does not start or stop the stream: what remains of
the invariant. -/
theorem Context.Sound.of_resources (h : c.Sound hold) (ha : c'.active = c.active)
    (hparams : c'.state = .configured ∨ c'.active = true → c'.ParamsSound) (hmaps : c'.active = true → c'.mapsOk = true)
    (hgen : c'.active = true → c'.GeneratorsSound) (hn : c'.active = false → c'.periodPending = false)
    (hb : c'.BindingSound) (hm : c'.pcmMemory.wf)
    (e : c' = { c' with
      direction := c.direction, packetIndex := c.packetIndex, packetIndexValid := c.packetIndexValid,
      poolAllocated := c.poolAllocated, pool := c.pool, isoContext := c.isoContext, hwq := c.hwq,
      flushed := c.flushed, carry := c.carry }) : c'.Sound hold := by
  have r := h.resources
  have q := h.queue
  refine ⟨hparams, hmaps, hgen, ?_, ?_, hb, ?_, ⟨?_, hm⟩⟩
  case refine_1 =>
    refine ⟨?_, ?_, ?_, fun hs => ?_⟩
    · rw [ha, e]; exact r.pool
    · rw [ha, e]; exact r.context
    · rw [ha, e]; exact r.index
    · obtain ⟨hq, hc, hp, _⟩ := r.stopped (ha ▸ hs)
      exact ⟨by rw [e]; exact hq, by rw [e]; exact hc, by rw [e]; exact hp, hn hs⟩
  case refine_2 =>
    refine ⟨?_, ?_, ?_, ?_, ?_⟩
    case refine_5 => rw [ha, e]; exact q.receiveQueue
    all_goals rw [e]
    exacts [q.flushedAll, q.capacity, q.index, q.sendQueue]
  case refine_3 => rw [e]; exact ⟨h.carry.bound, h.carry.headers⟩
  case refine_4 => rw [e]; exact h.memory.pool

/-- The binding of a stream that is not Absent does not depend on its state. -/
theorem Context.BindingSound.of_kept (h : c.BindingSound) (hp : c.state ≠ .absent) (hp' : c'.state ≠ .absent)
    (e : c' = { c' with
      direction := c.direction, pcm := c.pcm, pcmFormat := c.pcmFormat, pcmBufferPointer := c.pcmBufferPointer,
      pcmPeriodPointer := c.pcmPeriodPointer }) : c'.BindingSound := by
  refine ⟨?_, ?_, ?_, fun ha => absurd ha hp', fun _ => ?_⟩ <;> rw [e]
  exacts [h.range, h.bufferCursor, h.periodCursor, h.receiveFormat hp]

/-- With no buffer bound the cursors are free. -/
theorem Context.bindingSound_of_unbound (h : c.pcm = none)
    (hf : c.state ≠ .absent → c.direction = .receive → c.pcmFormat = .s32) : c.BindingSound := by
  have hb : ∀ b, ¬ c.pcm = some b := fun b => by rw [h]; exact nofun
  exact ⟨fun b hc => absurd hc (hb b), fun b hc => absurd hc (hb b), fun b hc => absurd hc (hb b), fun _ => h, hf⟩

/-- A command that configures a stream that is not active: its parameters have to be sound where it ends Configured. -/
theorem Context.Sound.reconfigured (h : c.Sound hold) (ha : c.active = false) (hp : c.state ≠ .absent)
    (ha' : c'.active = false) (hp' : c'.state ≠ .absent) (hparams : c'.state = .configured → c'.ParamsSound)
    (e : c' = { c with
      state := c'.state, blocking := c'.blocking, dualWire := c'.dualWire, sfc := c'.sfc,
      sytInterval := c'.sytInterval, pcmChannels := c'.pcmChannels, midiPorts := c'.midiPorts,
      dataBlockQuadlets := c'.dataBlockQuadlets, pcmPositions := c'.pcmPositions, midiPosition := c'.midiPosition,
      transferDelayBase := c'.transferDelayBase, syncSlave := c'.syncSlave }) : c'.Sound hold := by
  have hno : ¬ c'.active = true := by rw [ha']; exact Bool.false_ne_true
  refine h.of_resources (ha'.trans ha.symm) (fun hs => hparams (hs.resolve_right hno)) (fun h => absurd h hno)
    (fun h => absurd h hno) (fun _ => ?_) (h.binding.of_kept hp hp' ?_) ?_ ?_ <;> rw [e]
  exacts [(h.resources.stopped ha).2.2.2, h.memory.pcm]

/-- What is bound, the cursors, the sample format and the notifications may change where the binding stays sound. -/
theorem Context.Sound.rebound (h : c.Sound hold) (hb : c'.BindingSound) (hm : c'.pcmMemory.wf)
    (hn : c.periodPending = false → c'.periodPending = false)
    (e : c' = { c with
      pcm := c'.pcm, pcmMemory := c'.pcmMemory, pcmEpoch := c'.pcmEpoch, pcmFormat := c'.pcmFormat,
      pcmBufferPointer := c'.pcmBufferPointer, pcmPeriodPointer := c'.pcmPeriodPointer,
      periodPending := c'.periodPending, midi := c'.midi, notices := c'.notices }) : c'.Sound hold := by
  have hs : c'.state = c.state := by rw [e]
  have ha : c'.active = c.active := congrArg LifeState.active hs
  have hc : c.SameConfiguration c' := .of_kept (by rw [e])
  refine h.of_resources ha (fun h' => ?_) (fun h' => ?_) (fun h' => ?_) (fun h' => ?_) hb hm (by rw [e])
  · rw [ha, hs] at h'
    exact (h.params h').of_configuration hc
  · rw [hc.mapsOk]
    exact h.maps (ha ▸ h')
  · have g := h.generators (ha ▸ h')
    rw [e]
    exact ⟨g.offset, g.clean, g.family⟩
  · exact hn (h.resources.stopped (ha ▸ h')).2.2.2

/-- The invariant does not speak of the MIDI ports. -/
theorem Context.Sound.with_midi (h : c.Sound hold) (ports : Vector MidiPort 8) :
    { c with midi := ports }.Sound hold :=
  h.rebound ⟨h.binding.range, h.binding.bufferCursor, h.binding.periodCursor, h.binding.absent, h.binding.receiveFormat⟩
    h.memory.pcm id rfl

/-- UPDATE and BUS_RESET move an active stream between Running and Recovering (45_lifecycle_sync.md R298, R299). -/
theorem Context.Sound.resumed (h : c.Sound hold) (ha : c.active = true) (ha' : c'.active = true)
    (e : c' = { c with state := c'.state, sourceNodeId := c'.sourceNodeId }) : c'.Sound hold := by
  have hc : c.SameConfiguration c' := .of_kept (by rw [e])
  have g := h.generators ha
  refine h.of_resources (ha'.trans ha.symm) (fun _ => (h.params (.inr ha)).of_configuration hc)
    (fun _ => hc.mapsOk.trans (h.maps ha)) (fun _ => ?_) (fun hs => ?_)
    (h.binding.of_kept (Context.present_of_active ha) (Context.present_of_active ha') ?_) ?_ ?_
  case refine_2 => rw [ha'] at hs; cases hs
  all_goals rw [e]
  exacts [⟨g.offset, g.clean, g.family⟩, h.memory.pcm]

end

end Sys2Proof.Machine
end

section
/-! SUPPORT. An active stream inside an operation: the whole invariant holds but for the hardware queue, which is short
of the descriptors still to be queued. A failing `queue()` stops the stream, and a stopped stream is sound; the last
descriptor and the flush restore the queue (20_memory.md R79; 44_receive.md R270). -/

namespace Sys2Proof.Machine

/-- The invariant of an active stream but for its hardware queue. -/
structure Context.RunSound (c : Context) (hold : Nat) : Prop where
  active : c.active = true
  params : c.ParamsSound
  maps : c.mapsOk = true
  generators : c.GeneratorsSound
  pool : c.poolAllocated = true
  context : c.isoContext = true
  valid : c.packetIndexValid = true
  binding : c.BindingSound
  carry : c.CarrySound hold
  memory : c.MemorySound

/-- A Send stream inside an operation: not all it has queued need be flushed. -/
structure Context.SendingSound (c : Context) (hold : Nat) : Prop where
  run : c.RunSound hold
  direction : c.direction = .send
  index : c.packetIndex.toNat < Config.queueLength
  capacity : c.hwq.length ≤ Config.queueLength
  queue : ∀ slot, Descriptor.rx slot ∉ c.hwq

/-- A Receive stream inside an operation that has `missing` receive buffers still to queue: the queue holds the others,
the slots before the packet index, the oldest first. -/
structure Context.ReceivingSound (c : Context) (hold missing : Nat) : Prop where
  run : c.RunSound hold
  direction : c.direction = .receive
  index : c.packetIndex.toNat < Config.queueLength
  bound : missing ≤ Config.queueLength
  queue : c.hwq = (List.range (Config.queueLength - missing)).map fun k =>
    .rx ((c.packetIndex.toNat + missing + k) % Config.queueLength)

section
variable {c c' : Context} {hold : Nat}

/-! ### Between operations and inside one -/

theorem Context.Sound.run (h : c.Sound hold) (ha : c.active = true) : c.RunSound hold where
  active := ha
  params := h.params (.inr ha)
  maps := h.maps ha
  generators := h.generators ha
  pool := h.resources.pool.trans ha
  context := h.resources.context.trans ha
  valid := h.resources.index.trans ha
  binding := h.binding
  carry := h.carry
  memory := h.memory

theorem Context.RunSound.sound (h : c.RunSound hold) (hq : c.QueueSound) : c.Sound hold where
  params _ := h.params
  maps _ := h.maps
  generators _ := h.generators
  resources := ⟨h.pool.trans h.active.symm, h.context.trans h.active.symm, h.valid.trans h.active.symm,
    fun hs => by rw [h.active] at hs; cases hs⟩
  queue := hq
  binding := h.binding
  carry := h.carry
  memory := h.memory

theorem Context.RunSound.fatalStop (h : c.RunSound hold) (code : Code) : (c.fatalStop code).Sound hold :=
  Context.sound_fatalStop h.active (h.binding.receiveFormat (Context.present_of_active h.active)) h.memory.pcm code

theorem Context.Sound.sending (h : c.Sound hold) (ha : c.active = true) (hd : c.direction = .send) :
    c.SendingSound hold :=
  ⟨h.run ha, hd, h.queue.index (h.resources.index.trans ha), h.queue.capacity, h.queue.sendQueue hd⟩

theorem Context.Sound.receiving (h : c.Sound hold) (ha : c.active = true) (hd : c.direction = .receive) :
    c.ReceivingSound hold 0 :=
  ⟨h.run ha, hd, h.queue.index (h.resources.index.trans ha), Nat.zero_le _, h.queue.receiveQueue ha hd⟩

/-! ### Updates inside an operation -/

/-- An update that neither configures nor starts nor stops the stream: what remains of the invariant. -/
theorem Context.RunSound.of_parts (h : c.RunSound hold) (hc : c.SameConfiguration c') (hg : c'.GeneratorsSound)
    (hb : c'.BindingSound) (hr : c'.CarrySound hold) (hm : c'.MemorySound) (e : c' = { c' with
      state := c.state, poolAllocated := c.poolAllocated, isoContext := c.isoContext,
      packetIndexValid := c.packetIndexValid }) : c'.RunSound hold := by
  refine ⟨?_, h.params.of_configuration hc, hc.mapsOk.trans h.maps, hg, ?_, ?_, ?_, hb, hr, hm⟩ <;> rw [e]
  exacts [h.active, h.pool, h.context, h.valid]

/-- An update that names nothing the invariant speaks of but the memories and the queue. -/
theorem Context.RunSound.of_kept (h : c.RunSound hold) (hm : c'.MemorySound) (e : c' = { c with
    dbc := c'.dbc, packetIndex := c'.packetIndex, callbacked := c'.callbacked, periodPending := c'.periodPending,
    protoViolations := c'.protoViolations, rxSeq := c'.rxSeq, pool := c'.pool, hwq := c'.hwq,
    flushed := c'.flushed, pcmMemory := c'.pcmMemory, midi := c'.midi, wire := c'.wire }) : c'.RunSound hold := by
  have hp := Context.present_of_active h.active
  refine h.of_parts (.of_kept (by rw [e])) ?_ (h.binding.of_kept hp (by rw [e]; exact hp) (by rw [e])) ?_ hm
    (by rw [e]) <;> rw [e]
  exacts [⟨h.generators.offset, h.generators.clean, h.generators.family⟩, ⟨h.carry.bound, h.carry.headers⟩]

/-- The generators advance from values they can reach to such values. -/
theorem Context.RunSound.of_generators (h : c.RunSound hold) (hg : c'.GeneratorsSound) (e : c' = { c with
    lastSytOffset := c'.lastSytOffset, dataBlockState := c'.dataBlockState,
    sytOffsetState := c'.sytOffsetState }) : c'.RunSound hold := by
  have hp := Context.present_of_active h.active
  refine h.of_parts (.of_kept (by rw [e])) hg (h.binding.of_kept hp (by rw [e]; exact hp) (by rw [e])) ?_ ?_
    (by rw [e]) <;> rw [e]
  exacts [⟨h.carry.bound, h.carry.headers⟩, ⟨h.memory.pool, h.memory.pcm⟩]

/-- The reorder carry is replaced by a sound one. -/
theorem Context.RunSound.with_carry (h : c.RunSound hold) {carry : List Entry}
    (hc : { c with carry := carry }.CarrySound hold) : { c with carry := carry }.RunSound hold :=
  have hp := Context.present_of_active h.active
  h.of_parts (.of_kept rfl) ⟨h.generators.offset, h.generators.clean, h.generators.family⟩ (h.binding.of_kept hp hp rfl)
    hc ⟨h.memory.pool, h.memory.pcm⟩ rfl

/-- The sizes of a binding (30_encoding.md R112). -/
theorem inRange_iff (b : Binding) :
    b.inRange = true ↔ 1 ≤ b.periodSize ∧ b.periodSize ≤ b.bufferSize ∧ b.bufferSize < 2 ^ 32 := by
  simp only [Binding.inRange, Bool.and_eq_true, decide_eq_true_eq, and_assoc]

/-- A cursor advanced modulo a size lies below the size. -/
theorem cursor_lt {size : Nat} (n : Nat) (h : 1 ≤ size) :
    (BitVec.ofNat 32 (n % size)).toNat < size := by
  rw [BitVec.toNat_ofNat]
  exact Nat.lt_of_le_of_lt (Nat.mod_le ..) (Nat.mod_lt _ h)

/-- PTR_UPDATE keeps the cursors inside the bound buffer (43_transmit.md R230). -/
theorem Context.BindingSound.ptrUpdate (h : c.BindingSound) {b : Binding} (hb : c.pcm = some b) (n : Nat) :
    (c.ptrUpdate b n).BindingSound := by
  obtain ⟨h1, h2, _⟩ := (inRange_iff b).mp (h.range b hb)
  have only : ∀ b', (c.ptrUpdate b n).pcm = some b' → b' = b := fun b' hb' => Option.some.inj (hb'.symm.trans hb)
  refine ⟨h.range, fun b' hb' => ?_, fun b' hb' => ?_, h.absent, h.receiveFormat⟩ <;> rw [only b' hb']
  · exact cursor_lt _ (h1.trans h2)
  · exact cursor_lt _ h1

theorem Context.BindingSound.advanceCursors (h : c.BindingSound) (n : Nat) : (c.advanceCursors n).BindingSound := by
  cases hb : c.pcm with
  | none => rw [Context.advanceCursors_none hb]; exact h
  | some b => rw [Context.advanceCursors_some hb]; exact h.ptrUpdate hb n

theorem Context.RunSound.advanceCursors (h : c.RunSound hold) (n : Nat) : (c.advanceCursors n).RunSound hold := by
  refine h.of_parts (c.advances_advanceCursors n).configuration ?_ (h.binding.advanceCursors n) ?_
    (h.memory.advanceCursors n) ?_ <;> rw [c.advanceCursors_frame n]
  exacts [⟨h.generators.offset, h.generators.clean, h.generators.family⟩, ⟨h.carry.bound, h.carry.headers⟩]

theorem Context.RunSound.enqueue (h : c.RunSound hold) (d : Descriptor) : (c.enqueue d).RunSound hold :=
  h.of_kept (h.memory.enqueue d) rfl

theorem Context.RunSound.queueFlush (h : c.RunSound hold) : c.queueFlush.RunSound hold :=
  h.of_kept h.memory.queueFlush rfl

theorem Context.RunSound.callbacked (h : c.RunSound hold) : { c with callbacked := true }.RunSound hold :=
  h.of_kept ⟨h.memory.pool, h.memory.pcm⟩ rfl

/-- The packet index stays inside the ring (10_state.md R36). -/
theorem Context.packetIndex_enqueue (c : Context) (d : Descriptor) :
    (c.enqueue d).packetIndex.toNat = (c.packetIndex.toNat + 1) % Config.queueLength := by
  rw [Context.enqueue_packetIndex, BitVec.toNat_ofNat]
  exact Nat.mod_eq_of_lt (Nat.lt_trans (Nat.mod_lt _ (by decide)) (by decide))

theorem Context.packetIndex_enqueue_lt (c : Context) (d : Descriptor) :
    (c.enqueue d).packetIndex.toNat < Config.queueLength := by
  rw [c.packetIndex_enqueue d]
  exact Nat.mod_lt _ (by decide)

/-! ### A Send stream (43_transmit.md) -/

/-- An update that leaves the queue alone. -/
theorem Context.SendingSound.of_run (h : c.SendingSound hold) (hr : c'.RunSound hold)
    (e : c' = { c' with direction := c.direction, packetIndex := c.packetIndex, hwq := c.hwq }) :
    c'.SendingSound hold := by
  refine ⟨hr, ?_, ?_, ?_, ?_⟩ <;> rw [e]
  exacts [h.direction, h.index, h.capacity, h.queue]

theorem Context.SendingSound.queueFlush (h : c.SendingSound hold) : c.queueFlush.Sound hold :=
  h.run.queueFlush.sound ⟨rfl, h.capacity, fun _ => h.index, fun _ => h.queue,
    fun _ hd => by rw [Context.queueFlush_direction, h.direction] at hd; cases hd⟩

theorem Context.SendingSound.enqueue (h : c.SendingSound hold) {d : Descriptor} (hd : ∀ slot, d ≠ .rx slot)
    (hl : c.hwq.length < Config.queueLength) : (c.enqueue d).SendingSound hold where
  run := h.run.enqueue d
  direction := h.direction
  index := c.packetIndex_enqueue_lt d
  capacity := by rw [Context.enqueue_hwq, List.length_append]; exact hl
  queue slot hs := by
    rw [Context.enqueue_hwq, List.mem_append, List.mem_singleton] at hs
    exact hs.elim (h.queue slot) fun e => hd slot e.symm

theorem Context.SendingSound.consume (h : c.SendingSound hold) (count : Nat) : (c.consume count).SendingSound hold where
  run := h.run.of_kept ⟨h.run.memory.pool, h.run.memory.pcm⟩ rfl
  direction := h.direction
  index := h.index
  capacity := by
    rw [Context.consume_hwq, List.length_drop]
    exact Nat.le_trans (Nat.sub_le ..) h.capacity
  queue slot hs := h.queue slot (List.mem_of_mem_drop hs)

theorem Context.SendingSound.advanceCursors (h : c.SendingSound hold) (n : Nat) :
    (c.advanceCursors n).SendingSound hold := by
  refine h.of_run (h.run.advanceCursors n) ?_
  rw [c.advanceCursors_frame n]

theorem Context.SendingSound.sytgen (h : c.SendingSound hold) : c.sytgen.2.SendingSound hold :=
  h.of_run (h.run.of_generators (Context.sytgen_sound h.run.generators) c.sytgen_frame) rfl

theorem Context.SendingSound.txBuilt (h : c.SendingSound hold) (order : ByteOrder) (syt : BitVec 16) :
    (c.txBuilt order syt).SendingSound hold := by
  have hg : c.dbgen.2.RunSound hold :=
    h.run.of_generators (Context.dbgen_sound h.run.generators) (by rw [c.dbgen_frame])
  have hm := h.run.memory.txBuilt order syt
  obtain ⟨pool, midi, _, _, e⟩ := c.txBuilt_frame order syt
  refine h.of_run (hg.of_kept hm ?_) ?_
  · rw [e, c.dbgen_frame]
  · rw [e]

/-- What TX_PACKET queues is no receive buffer. -/
theorem Context.txDescriptor_ne_rx (order : ByteOrder) (syt : BitVec 16) (c : Context) (slot : Nat) :
    c.txDescriptor order syt ≠ .rx slot := by
  unfold Context.txDescriptor
  split
  · exact nofun
  · exact nofun

/-- After TX_PACKET the stream has stopped and is sound, or it goes on. -/
theorem Context.SendingSound.txPacket (h : c.SendingSound hold) (order : ByteOrder) (q : Option Nat) (k : Nat)
    (syt : BitVec 16) :
    ((c.txPacket order q k syt).state = .idle ∧ (c.txPacket order q k syt).Sound hold) ∨
      (c.txPacket order q k syt).SendingSound hold := by
  have hb := h.txBuilt order syt
  rcases c.txPacket_cases order q k syt with ⟨_, e⟩ | ⟨_, hl, e⟩ <;> rw [e]
  · exact .inl ⟨Context.state_fatalStop hb.run.active _, hb.run.fatalStop _⟩
  · have hlen : (c.txBuilt order syt).hwq.length < Config.queueLength := by
      obtain ⟨_, _, _, _, e⟩ := c.txBuilt_frame order syt
      rw [e]
      exact hl
    have hq := hb.enqueue (c.txDescriptor_ne_rx order syt) hlen
    right
    split
    · exact hq
    · exact hq.advanceCursors _

theorem Context.SendingSound.txLoop (h : c.SendingSound hold) (order : ByteOrder) (q : Option Nat)
    (cycle count n i : Nat) : (c.txLoop order q cycle count n i).Sound hold := by
  induction n generalizing i c with
  | zero => exact h.queueFlush
  | succ n ih =>
    have hs : ((c.txSlot order q cycle count i).state = .idle ∧ (c.txSlot order q cycle count i).Sound hold) ∨
        (c.txSlot order q cycle count i).SendingSound hold := h.sytgen.txPacket order q (i - 1) _
    unfold Context.txLoop
    dsimp only
    rcases hs with ⟨hi, hs⟩ | hs
    · rw [if_pos hi]
      exact hs
    · have hi : ¬ (c.txSlot order q cycle count i).state = .idle := fun hi => by
        have ha := (Context.active_eq_false_iff _).mpr (.inr (.inl hi))
        rw [hs.run.active] at ha
        cases ha
      rw [if_neg hi]
      exact ih hs (i + 1)

theorem Context.Sound.txCompleted (h : c.Sound hold) (ha : c.active = true) (hd : c.direction = .send)
    (order : ByteOrder) (slave : Bool) (cycle count : Nat) (q : Option Nat) :
    (c.txCompleted order slave cycle count q).Sound hold := by
  have hs := h.sending ha hd
  have hc : ({ c with callbacked := true }.consume count).SendingSound hold :=
    (hs.of_run hs.run.callbacked rfl).consume count
  unfold Context.txCompleted
  dsimp only
  split
  · exact hc.queueFlush
  · exact hc.txLoop ..

/-- Queueing descriptors that are no receive buffers, until one fails or all are flushed. -/
theorem Context.SendingSound.queueEach {mk : Context → Descriptor}
    (hmk : ∀ d : Context, d.direction = .send → ∀ slot, mk d ≠ .rx slot) (h : c.SendingSound hold) (q : Option Nat)
    (n k : Nat) : (Context.queueEach mk q n k c).1.Sound hold := by
  induction n generalizing k c with
  | zero => exact h.queueFlush
  | succ n ih =>
    unfold Context.queueEach
    split
    · exact h.run.fatalStop _
    · rename_i hf
      have hl : c.hwq.length < Config.queueLength := by
        have := mt (c.queueFails_iff q k).mpr hf
        push Not at this
        exact this.2
      exact ih (h.enqueue (hmk c h.direction) hl) (k + 1)

/-! ### A Receive stream (44_receive.md) -/

/-- An update that leaves the queue alone. -/
theorem Context.ReceivingSound.of_run {n : Nat} (h : c.ReceivingSound hold n) (hr : c'.RunSound hold)
    (e : c' = { c' with direction := c.direction, packetIndex := c.packetIndex, hwq := c.hwq }) :
    c'.ReceivingSound hold n := by
  refine ⟨hr, ?_, ?_, h.bound, ?_⟩ <;> rw [e]
  exacts [h.direction, h.index, h.queue]

/-- With no buffer missing, the flush restores the queue. -/
theorem Context.ReceivingSound.queueFlush (h : c.ReceivingSound hold 0) : c.queueFlush.Sound hold := by
  refine h.run.queueFlush.sound ⟨rfl, ?_, fun _ => h.index, fun hd => ?_, fun _ _ => h.queue⟩
  · rw [Context.queueFlush_hwq, h.queue, List.length_map, List.length_range]
    exact Nat.sub_le ..
  · rw [Context.queueFlush_direction, h.direction] at hd
    cases hd

/-- A receive buffer queued at the packet index is the next slot of the ring. -/
theorem Context.ReceivingSound.enqueue {n : Nat} (h : c.ReceivingSound hold (n + 1)) :
    (c.enqueue c.rxDescriptor).ReceivingSound hold n where
  run := h.run.enqueue _
  direction := h.direction
  index := c.packetIndex_enqueue_lt _
  bound := Nat.le_of_succ_le h.bound
  queue := by
    have hi := h.index
    have hb := h.bound
    rw [Context.enqueue_hwq, h.queue, c.packetIndex_enqueue]
    simp only [Config.queueLength] at hi hb ⊢
    rw [show 48 - n = 48 - (n + 1) + 1 by omega, List.range_succ, List.map_append, List.map_singleton]
    congr 1
    · exact List.map_congr_left fun k _ => by congr 1; omega
    · rw [Context.rxDescriptor]
      congr 2
      omega

/-- Queueing the missing receive buffers, until one fails or all are flushed (R270). -/
theorem Context.ReceivingSound.queueEach {mk : Context → Descriptor}
    (hmk : ∀ d : Context, d.direction = .receive → mk d = d.rxDescriptor) {n : Nat} (h : c.ReceivingSound hold n)
    (q : Option Nat) (k : Nat) : (Context.queueEach mk q n k c).1.Sound hold := by
  induction n generalizing k c with
  | zero => exact h.queueFlush
  | succ n ih =>
    unfold Context.queueEach
    split
    · exact h.run.fatalStop _
    · rw [hmk c h.direction]
      exact ih h.enqueue (k + 1)

/-- A delivery moves the counter, the sample buffer, the ports and the cursors (R265). -/
theorem Context.ReceivingSound.delivered {n : Nat} (h : c.ReceivingSound hold n) (order : ByteOrder) (e : Entry) :
    (c.delivered order e).ReceivingSound hold n := by
  obtain ⟨mem, ports, hm, _, _, he⟩ := c.delivered_frame order e
  rw [he]
  have hr : { c with
      dbc := e.dbc + BitVec.ofNat 8 (c.blockCount e.bytes.length), pcmMemory := mem, midi := ports }.RunSound hold :=
    h.run.of_kept ⟨h.run.memory.pool, hm h.run.memory.pcm⟩ rfl
  refine h.of_run (hr.advanceCursors _) ?_
  rw [Context.advanceCursors_frame]

theorem drop_map_range {α : Type} (f : Nat → α) (m n : Nat) :
    ((List.range m).map f).drop n = (List.range (m - n)).map fun k => f (n + k) :=
  List.ext_getElem (by simp) fun k _ _ => by simp

/-- The intake takes the batch's descriptors off the queue (R250). -/
theorem Context.Sound.intake (h : c.Sound hold) (ha : c.active = true) (hd : c.direction = .receive)
    (batch : List (List Byte)) (hb : batch.length ≤ Config.queueLength) :
    (Context.intake batch { c with callbacked := true }).1.ReceivingSound hold batch.length := by
  have hc := (h.receiving ha hd).run.callbacked
  have hm := hc.memory.intake batch
  obtain ⟨⟨pool, _, e⟩, _⟩ := { c with callbacked := true }.intake_spec batch
  refine ⟨hc.of_kept hm ?_, ?_, ?_, hb, ?_⟩ <;> rw [e]
  · exact hd
  · exact (h.receiving ha hd).index
  · dsimp only
    rw [(h.receiving ha hd).queue, drop_map_range]
    exact List.map_congr_left fun k _ => by simp only [Nat.add_zero, Nat.add_assoc]

/-- What is carried over of a table: at most `hold` entries, each with a header (R262). -/
theorem Context.CarrySound.drop (h : c.CarrySound hold) (batch : List (List Byte)) (d : Context) :
    let table := sortEntries c.carry (Context.intake batch { c with callbacked := true }).2
    { d with carry := table.drop (deliverCount table hold) }.CarrySound hold := by
  obtain ⟨_, hnew⟩ := { c with callbacked := true }.intake_spec batch
  refine ⟨?_, fun e he => ?_⟩
  · dsimp only
    rw [List.length_drop, deliverCount]
    omega
  · rcases (mem_sortEntries ..).mp (List.mem_of_mem_drop he) with he | he
    · exact h.headers e he
    · exact Context.length_of_accept (hnew e he).2

/-! ### START (45_lifecycle_sync.md R293) -/

/-- A register that a value fits holds the value. -/
theorem toNat_ofNat_of_lt {w n : Nat} (h : n < 2 ^ w) : (BitVec.ofNat w n).toNat = n := by
  rw [BitVec.toNat_ofNat, Nat.mod_eq_of_lt h]

/-- The seeds of the generators are values they can reach (40_tables_config.md R132). -/
theorem initialStateOf_reachable {sfc dbs sos : Nat} (h : initialStateOf sfc = some (dbs, sos)) :
    dbs < 2 ^ 7 ∧ sos < 2 ^ 12 ∧ (is44100Family sfc = true → dbs < superPeriod sfc ∧ sos < 147) := by
  obtain ⟨hlt, he⟩ := List.getElem?_eq_some_iff.mp h
  simp only [List.length_cons, List.length_nil] at hlt
  interval_cases sfc <;> cases he <;> decide

/-- START on a Configured stream with valid maps leaves, before it primes the queue, all but the queue sound. -/
theorem Context.Sound.seeded (h : c.Sound hold) (hs : c.state = .configured) (hmaps : c.mapsOk = true) {dbs sos : Nat}
    (hi : initialStateOf c.sfc.toNat = some (dbs, sos)) (channel speed node rate epoch : Nat) :
    (c.seeded channel speed node dbs sos rate epoch).RunSound hold := by
  obtain ⟨hd, ho, hf⟩ := initialStateOf_reachable hi
  have ed : (BitVec.ofNat 7 dbs).toNat = dbs := toNat_ofNat_of_lt hd
  have eo : (BitVec.ofNat 12 sos).toNat = sos := toNat_ofNat_of_lt ho
  refine ⟨rfl, (h.params (.inl hs)).of_configuration (.of_kept rfl), hmaps, ⟨?_, fun _ => ?_, fun hc => ?_⟩, rfl, rfl,
    rfl, h.binding.of_kept (by rw [hs]; exact nofun) nofun rfl, ⟨Nat.zero_le _, nofun⟩, ⟨.nil, h.memory.pcm⟩⟩
  · exact Nat.le_of_ble_eq_true rfl
  · rw [Context.seeded_dataBlockState, Context.seeded_sytOffsetState, ed, eo]
    exact hi
  · rw [Context.seeded_dataBlockState, Context.seeded_sytOffsetState, ed, eo]
    exact hf hc

/-- START primes the empty queue with 48 descriptors of the stream's direction. -/
theorem Context.Sound.primed (h : c.Sound hold) (hs : c.state = .configured) (hmaps : c.mapsOk = true) {dbs sos : Nat}
    (hi : initialStateOf c.sfc.toNat = some (dbs, sos)) (channel speed node rate epoch : Nat) (q : Option Nat) :
    (Context.queueEach Context.primingDescriptor q Config.queueLength 0
      (c.seeded channel speed node dbs sos rate epoch)).1.Sound hold := by
  have hr := h.seeded hs hmaps hi channel speed node rate epoch
  have hx : (c.seeded channel speed node dbs sos rate epoch).packetIndex.toNat < Config.queueLength := Nat.succ_pos _
  cases hd : c.direction with
  | send =>
    refine Context.SendingSound.queueEach (fun d e slot => ?_) ⟨hr, hd, hx, Nat.zero_le _, nofun⟩ q _ _
    rw [Context.primingDescriptor, e]
    exact nofun
  | receive =>
    exact Context.ReceivingSound.queueEach (fun d e => by rw [Context.primingDescriptor, e])
      ⟨hr, hd, hx, Nat.le_refl _, rfl⟩ q _

/-! ### SET_PARAMS (40_tables_config.md R136) -/

/-- The SYT interval of a rate's code fits its register, and so does the code (R130). -/
theorem sytIntervalOf_bounds {sfc interval : Nat} (h : sytIntervalOf sfc = some interval) :
    sfc < 2 ^ 3 ∧ interval < 2 ^ 6 := by
  obtain ⟨hlt, _⟩ := List.getElem?_eq_some_iff.mp h
  have hm := List.mem_of_getElem? h
  simp only [List.length_cons, List.length_nil, List.mem_cons, List.not_mem_nil, or_false] at hlt hm
  omega

theorem sytIntervalOf_wireCode {rate code interval : Nat} {dualWire : Bool}
    (h : wireCode rate dualWire = some (code, interval)) : sytIntervalOf code = some interval := by
  unfold wireCode at h
  split at h
  · cases h
  · split at h
    · cases h
    · split at h
      · cases h
      · cases h
        assumption

/-- Checked operands make sound parameters. -/
theorem Context.paramsSound_parameterized (c : Context) {code interval channels ports : Nat} (blocking dualWire : Bool)
    (hi : sytIntervalOf code = some interval) (hc : channels ≤ Config.pcmChannelsMax)
    (hp : ports ≤ Config.midiPortsMax) (hne : ¬ (channels = 0 ∧ ports = 0)) :
    (c.parameterized code interval channels ports blocking dualWire).ParamsSound := by
  obtain ⟨hcode, hinterval⟩ := sytIntervalOf_bounds hi
  simp only [Config.pcmChannelsMax, Config.midiPortsMax] at hc hp
  have ec : (BitVec.ofNat 7 channels).toNat = channels := toNat_ofNat_of_lt (by omega)
  have ep : (BitVec.ofNat 4 ports).toNat = ports := toNat_ofNat_of_lt (by omega)
  have eb : (BitVec.ofNat 8 (channels * (if dualWire then 2 else 1) + if 0 < ports then 1 else 0)).toNat =
      channels * (if dualWire then 2 else 1) + if 0 < ports then 1 else 0 :=
    toNat_ofNat_of_lt (by split <;> split <;> omega)
  refine ⟨?_, ?_, ?_, ?_, ?_⟩ <;> unfold Context.parameterized
  · dsimp only
    rw [toNat_ofNat_of_lt hcode, toNat_ofNat_of_lt hinterval]
    exact hi
  · exact ec.trans_le hc
  · exact ep.trans_le hp
  · dsimp only [Context.pcmSlotCount, Context.framesPerBlock]
    rw [eb, ec, ep]
  · dsimp only
    rw [eb]
    split <;> split <;> omega

end

end Sys2Proof.Machine
end

section
/-! SUPPORT. A sound state through the replacement of one stream, and through RX_COMPLETE, where a master and its slave
are both inside the operation. -/

namespace Sys2Proof.Machine

section
variable {σ τ : State} {c : Context} {s : Nat}

/-! ### The pairing (10_state.md R33) -/

/-- What a pairing needs of its two streams when an operation changes them. -/
structure Context.SameEnd (c c' : Context) : Prop where
  direction : c'.direction = c.direction
  present : c.state ≠ .absent → c'.state ≠ .absent

/-- The stream keeps its slave and what its pairings need of it. -/
structure Context.SamePairing (c c' : Context) : Prop where
  direction : c'.direction = c.direction
  syncSlave : c'.syncSlave = c.syncSlave
  present : c.state ≠ .absent → c'.state ≠ .absent

theorem Context.SamePairing.refl (c : Context) : c.SamePairing c := ⟨rfl, rfl, id⟩

theorem Context.SamePairing.sameEnd {c c' : Context} (h : c.SamePairing c') : c.SameEnd c' := ⟨h.direction, h.present⟩

theorem Context.Advances.samePairing {c' : Context} (h : c.Advances c') : c.SamePairing c' :=
  ⟨h.configuration.direction, h.configuration.syncSlave, h.present⟩

/-- Every pairing there is was there before, between the same ends. -/
theorem State.PairingSound.of_pairs (h : σ.PairingSound) (hl : τ.streams.length = σ.streams.length)
    (hs : ∀ m t, (τ.stream m).syncSlave = some t → (σ.stream m).syncSlave = some t ∧
      (σ.stream m).SameEnd (τ.stream m) ∧ (σ.stream t).SameEnd (τ.stream t)) : τ.PairingSound where
  slaveExists m t hm := by
    rw [hl]
    exact h.slaveExists m t (hs m t hm).1
  directions m t hm := by
    obtain ⟨hm, h₁, h₂⟩ := hs m t hm
    rw [h₁.direction, h₂.direction]
    exact h.directions m t hm
  present m t hm := by
    obtain ⟨hm, h₁, h₂⟩ := hs m t hm
    exact (h.present m t hm).imp h₁.present h₂.present
  oneMaster m m' t hm hm' := h.oneMaster m m' t (hs m t hm).1 (hs m' t hm').1

theorem State.PairingSound.of_same (h : σ.PairingSound) (hl : τ.streams.length = σ.streams.length)
    (hs : ∀ s, (σ.stream s).SamePairing (τ.stream s)) : τ.PairingSound :=
  h.of_pairs hl fun m t hm => ⟨(hs m).syncSlave.symm.trans hm, (hs m).sameEnd, (hs t).sameEnd⟩

/-- A stream that is no master may change as far as its own master allows. -/
theorem State.PairingSound.setStream_unpaired (h : σ.PairingSound) (hc : c.syncSlave = none)
    (hs : ∀ m, (σ.stream m).syncSlave = some s → (σ.stream s).SameEnd c) : (σ.setStream s c).PairingSound :=
  h.of_pairs (σ.length_setStream s c) fun m t hm => by
    have refl (c : Context) : c.SameEnd c := (Context.SamePairing.refl c).sameEnd
    rw [State.stream_setStream] at hm
    split at hm
    · rw [hc] at hm
      cases hm
    · rename_i hms
      rw [State.stream_setStream, if_neg hms, State.stream_setStream]
      refine ⟨hm, refl _, ?_⟩
      split
      · rename_i ht
        rw [ht.1] at hm ⊢
        exact hs m hm
      · exact refl _

/-- SET_SYNC's new pairing, after its checks (40_tables_config.md R143). -/
theorem State.PairingSound.setStream_paired (h : σ.PairingSound) {m t : Nat} (hm : m < σ.streams.length)
    (ht : t < σ.streams.length) (hne : t ≠ m) (hd : (σ.stream m).direction = .receive ∧ (σ.stream t).direction = .send)
    (hp : (σ.stream m).state ≠ .absent ∧ (σ.stream t).state ≠ .absent)
    (hone : ∀ m', m' ≠ m → (σ.stream m').syncSlave ≠ some t) :
    (σ.setStream m { σ.stream m with syncSlave := some t }).PairingSound := by
  have hrest : ∀ m', ((σ.setStream m { σ.stream m with syncSlave := some t }).stream m').direction =
        (σ.stream m').direction ∧
      ((σ.setStream m { σ.stream m with syncSlave := some t }).stream m').state = (σ.stream m').state := fun m' => by
    rw [State.stream_setStream]
    split
    · rename_i e
      rw [e.1]
      exact ⟨rfl, rfl⟩
    · exact ⟨rfl, rfl⟩
  have hslave : ∀ m' t', ((σ.setStream m { σ.stream m with syncSlave := some t }).stream m').syncSlave = some t' →
      (m' = m ∧ t' = t) ∨ (m' ≠ m ∧ (σ.stream m').syncSlave = some t') := fun m' t' hm' => by
    rw [State.stream_setStream] at hm'
    by_cases e : m' = m
    · rw [if_pos ⟨e, hm⟩] at hm'
      exact .inl ⟨e, (Option.some.inj hm').symm⟩
    · rw [if_neg fun x => e x.1] at hm'
      exact .inr ⟨e, hm'⟩
  refine ⟨fun m' t' hm' => ?_, fun m' t' hm' => ?_, fun m' t' hm' => ?_, fun m₁ m₂ t' h₁ h₂ => ?_⟩
  · rw [State.length_setStream]
    rcases hslave m' t' hm' with ⟨rfl, rfl⟩ | ⟨_, hm'⟩
    · exact ⟨ht, hne⟩
    · exact h.slaveExists m' t' hm'
  · rw [(hrest m').1, (hrest t').1]
    rcases hslave m' t' hm' with ⟨rfl, rfl⟩ | ⟨_, hm'⟩
    · exact hd
    · exact h.directions m' t' hm'
  · rw [(hrest m').2, (hrest t').2]
    rcases hslave m' t' hm' with ⟨rfl, rfl⟩ | ⟨_, hm'⟩
    · exact hp
    · exact h.present m' t' hm'
  · rcases hslave m₁ t' h₁ with ⟨e₁, rfl⟩ | ⟨e₁, g₁⟩ <;> rcases hslave m₂ _ h₂ with ⟨e₂, e⟩ | ⟨e₂, g₂⟩
    · exact e₁.trans e₂.symm
    · exact absurd g₂ (hone m₂ e₂)
    · exact absurd (e ▸ g₁) (hone m₁ e₁)
    · exact h.oneMaster m₁ m₂ t' g₁ g₂

/-- Only a stream of the block is a master. -/
theorem State.lt_of_syncSlave (σ : State) {m t : Nat} (h : (σ.stream m).syncSlave = some t) :
    m < σ.streams.length := by
  by_contra hm
  rw [σ.stream_outside (Nat.le_of_not_lt hm)] at h
  cases h

/-- Another master of `t` is found by SET_SYNC (R143). -/
theorem State.hasOtherMaster_of_ne (σ : State) {m m' t : Nat} (hne : m' ≠ m) (h : (σ.stream m').syncSlave = some t) :
    σ.hasOtherMaster m t = true := by
  rw [State.hasOtherMaster, List.any_eq_true]
  refine ⟨m', List.mem_range.mpr (σ.lt_of_syncSlave h), ?_⟩
  rw [h, Bool.and_eq_true, bne_iff_ne, beq_self_eq_true]
  exact ⟨hne, rfl⟩

/-! ### One stream replaced -/

/-- The invariant speaks of the parameters and the streams only. -/
theorem State.Sound.of_streams (h : σ.Sound) (hp : τ.params = σ.params) (hs : τ.streams = σ.streams) : τ.Sound := by
  have e : ∀ s, τ.stream s = σ.stream s := fun s => by rw [State.stream, State.stream, hs]
  refine ⟨hs ▸ h.nonempty, fun s hl => ?_, h.pairing.of_same (by rw [hs]) fun s => by rw [e s]; exact .refl _⟩
  rw [e s, hp]
  exact h.streams s (hs ▸ hl)

theorem State.Sound.reply (h : σ.Sound) (code : Code) : Ensures State.Sound (σ.reply code) :=
  ensures_next (h.of_streams rfl rfl)

theorem State.Sound.noResult (h : σ.Sound) : Ensures State.Sound σ.noResult := ensures_next (h.of_streams rfl rfl)

theorem State.Sound.read (h : σ.Sound) (r : WireReading) : Ensures State.Sound (σ.read r) :=
  ensures_next (h.of_streams rfl rfl)

/-- One stream is replaced by a sound one, and the pairing is sound. -/
theorem State.Sound.setStream_pairing (h : σ.Sound) (hc : c.Sound σ.params.reorderHold)
    (hp : (σ.setStream s c).PairingSound) : (σ.setStream s c).Sound where
  nonempty := (σ.length_setStream s c).symm ▸ h.nonempty
  streams s' hs' := by
    rw [State.stream_setStream]
    split
    · exact hc
    · exact h.streams s' (σ.length_setStream s c ▸ hs')
  pairing := hp

/-- One stream is replaced by a sound one that keeps its part in the pairing. -/
theorem State.Sound.setStream (h : σ.Sound) (hc : c.Sound σ.params.reorderHold)
    (hp : (σ.stream s).SamePairing c) : (σ.setStream s c).Sound :=
  h.setStream_pairing hc <| h.pairing.of_same (σ.length_setStream s c) fun s' => by
    rw [State.stream_setStream]
    split
    · rename_i e
      rw [e.1]
      exact hp
    · exact .refl _

/-! ### RX_COMPLETE (44_receive.md R250) -/

/-- Inside RX_COMPLETE: the receiver misses its batch's buffers, its slave may have unflushed packets once it was
driven, the other streams are sound. -/
structure Delivery.Sound (σ : State) (s missing : Nat) (d : Delivery) : Prop where
  advances : σ.Advances d.state
  receiver : (d.state.stream s).ReceivingSound σ.params.reorderHold missing
  others : ∀ s' < σ.streams.length, s' ≠ s → (d.state.stream s').Sound σ.params.reorderHold ∨
    (σ.stream s).syncSlave = some s' ∧ d.driven = true ∧ (d.state.stream s').SendingSound σ.params.reorderHold

/-- The slave is driven by one packet, after which it has stopped or goes on (R266). -/
theorem Delivery.Sound.drive {d : Delivery} {n : Nat} (hσ : σ.Sound) (h : d.Sound σ s n) (q : Option Nat) (e : Entry) :
    (d.drive q s e).Sound σ s n := by
  have hadv := h.advances.trans (d.advances_drive q s e)
  unfold Delivery.drive at hadv ⊢
  split at hadv
  · exact h
  rename_i t ht
  obtain ⟨hslave, hdrivable⟩ := Option.filter_eq_some_iff.mp ht
  rw [(h.advances.each s).configuration.syncSlave] at hslave
  obtain ⟨htl, hts⟩ := hσ.pairing.slaveExists s t hslave
  have hsend : (d.state.stream t).direction = .send :=
    (h.advances.each t).configuration.direction.trans (hσ.pairing.directions s t hslave).2
  have hactive : (d.state.stream t).active = true := by
    simp only [Context.drivable, Bool.and_eq_true] at hdrivable
    exact hdrivable.1.1
  have hsending : (d.state.stream t).SendingSound σ.params.reorderHold :=
    (h.others t htl hts).elim (fun hs => hs.sending hactive hsend) fun hs => hs.2.2
  refine ⟨hadv, ?_, fun s' hs' hne => ?_⟩
  · rw [State.stream_setStream_ne _ _ hts.symm]
    exact h.receiver
  · rw [State.stream_setStream]
    split
    · rename_i hst
      refine (hsending.txPacket ..).imp (fun hx => hx.2) fun hx => ⟨?_, rfl, hx⟩
      rw [hst.1]
      exact hslave
    · exact (h.others s' hs' hne).imp id fun hx => ⟨hx.1, rfl, hx.2.2⟩

/-- The receiver's own context is replaced. -/
theorem Delivery.Sound.setReceiver {d : Delivery} {n : Nat} (h : d.Sound σ s n)
    (hc : c.ReceivingSound σ.params.reorderHold n) (ha : (d.state.stream s).Advances c) :
    Delivery.Sound σ s n { d with state := d.state.setStream s c } := by
  refine ⟨h.advances.trans (d.state.advances_setStream ha), ?_, fun s' hs' hne => ?_⟩
  · rw [State.stream_setStream]
    split
    · exact hc
    · exact h.receiver
  · rw [State.stream_setStream_ne _ _ hne]
    exact h.others s' hs' hne

theorem Delivery.Sound.foldl_deliver {d : Delivery} {n : Nat} (hσ : σ.Sound) (h : d.Sound σ s n) (q : Option Nat)
    (es : List Entry) : (es.foldl (Delivery.deliver q s) d).Sound σ s n := by
  induction es generalizing d with
  | nil => exact h
  | cons e es ih =>
    have hd := h.drive hσ q e
    exact ih (hd.setReceiver (hd.receiver.delivered ..) (Context.advances_delivered ..))

/-- After the slave's flush every stream but the receiver is sound (R271). -/
theorem Delivery.Sound.flushSlave {d : Delivery} {n : Nat} (hσ : σ.Sound) (h : d.Sound σ s n) (s' : Nat)
    (hs' : s' < σ.streams.length) (hne : s' ≠ s) :
    ((d.state.flushSlave s d.driven).stream s').Sound σ.params.reorderHold := by
  have hsync := (h.advances.each s).configuration.syncSlave
  unfold State.flushSlave
  split
  · rename_i hno
    exact (h.others s' hs' hne).resolve_right fun hx => by rw [← hsync, hno] at hx; cases hx.1
  · rename_i t ht
    split
    · rename_i hflush
      rw [Bool.and_eq_true] at hflush
      rw [State.stream_setStream]
      split
      · rename_i e
        have hsend := (h.advances.each s').configuration.direction.trans
          (hσ.pairing.directions s s' (by rw [← hsync, ht, e.1])).2
        rw [← e.1] at hflush ⊢
        exact ((h.others s' hs' hne).elim (fun hx => hx.sending hflush.2 hsend) fun hx => hx.2.2).queueFlush
      · rename_i e
        refine (h.others s' hs' hne).resolve_right fun hx => e ⟨?_, ?_⟩
        · rw [← hsync, ht] at hx
          exact (Option.some.inj hx.1).symm
        · rw [← hsync, ht] at hx
          rw [h.advances.length, Option.some.inj hx.1]
          exact hs'
    · rename_i hflush
      refine (h.others s' hs' hne).resolve_right fun hx => hflush ?_
      rw [← hsync, ht] at hx
      rw [Option.some.inj hx.1, hx.2.1, hx.2.2.run.active]
      rfl

/-- The flush of the slave leaves the receiver as it is. -/
theorem Delivery.Sound.stream_flushSlave {d : Delivery} {n : Nat} (hσ : σ.Sound) (h : d.Sound σ s n) :
    (d.state.flushSlave s d.driven).stream s = d.state.stream s := by
  unfold State.flushSlave
  split
  · rfl
  · rename_i t ht
    rw [(h.advances.each s).configuration.syncSlave] at ht
    split
    · exact State.stream_setStream_ne _ _ (hσ.pairing.slaveExists s t ht).2.symm
    · rfl

theorem Context.carry_intake (batch : List (List Byte)) (c : Context) : (Context.intake batch c).1.carry = c.carry := by
  obtain ⟨⟨_, _, e⟩, _⟩ := c.intake_spec batch
  rw [e]

/-- The deliveries begin when the receiver has taken its batch. -/
theorem State.Sound.delivery_start (h : σ.Sound) (hs : s < σ.streams.length) {n : Nat}
    (hc : c.ReceivingSound σ.params.reorderHold n) (ha : (σ.stream s).Advances c) :
    Delivery.Sound σ s n { state := σ.setStream s c, calls := 0, driven := false } := by
  refine ⟨σ.advances_setStream ha, ?_, fun s' hs' hne => .inl ?_⟩
  · rw [State.stream_setStream_same _ _ _ hs]
    exact hc
  · rw [State.stream_setStream_ne _ _ hne]
    exact h.streams s' hs'

/-- RX_COMPLETE after its deliveries: the batch is taken, the deliverable entries of the table are delivered and the
others carried (R250, R260, R262). -/
def State.rxDelivered (s : Nat) (batch : List (List Byte)) (q : Option Nat) (σ : State) : Delivery :=
  let taken := Context.intake batch { σ.stream s with callbacked := true }
  let table := sortEntries taken.1.carry taken.2
  let n := deliverCount table σ.params.reorderHold
  let d := (table.take n).foldl (Delivery.deliver q s) { state := σ.setStream s taken.1, calls := 0, driven := false }
  { d with state := d.state.setStream s { d.state.stream s with carry := table.drop n } }

/-- After the deliveries RX_COMPLETE flushes the slave and queues the batch's buffers again (R270, R271). -/
theorem rxCompleted_eq (s : Nat) (batch : List (List Byte)) (q : Option Nat) (σ : State) :
    rxCompleted s batch q σ =
      ((σ.rxDelivered s batch q).state.flushSlave s (σ.rxDelivered s batch q).driven).setStream s
        (Context.queueEach Context.rxDescriptor q batch.length (σ.rxDelivered s batch q).calls
          (((σ.rxDelivered s batch q).state.flushSlave s (σ.rxDelivered s batch q).driven).stream s)).1 := rfl

theorem State.Sound.rxDelivered (h : σ.Sound) (hs : s < σ.streams.length) (ha : (σ.stream s).active = true)
    (hd : (σ.stream s).direction = .receive) (batch : List (List Byte)) (hb : batch.length ≤ Config.queueLength)
    (q : Option Nat) : (σ.rxDelivered s batch q).Sound σ s batch.length := by
  have hc := h.streams s hs
  have htaken := hc.intake ha hd batch hb
  have hadv := (σ.stream s).advances_callbacked.trans (Context.advances_intake batch _)
  have hcarry := fun d => hc.carry.drop batch d
  have hold := Context.carry_intake batch { σ.stream s with callbacked := true }
  unfold State.rxDelivered
  generalize Context.intake batch { σ.stream s with callbacked := true } = taken at *
  dsimp only
  rw [hold]
  have hdone := (h.delivery_start hs htaken hadv).foldl_deliver h q
    ((sortEntries (σ.stream s).carry taken.2).take
      (deliverCount (sortEntries (σ.stream s).carry taken.2) σ.params.reorderHold))
  exact hdone.setReceiver (hdone.receiver.of_run (hdone.receiver.run.with_carry (hcarry _)) rfl) (.of_kept id rfl)

theorem State.Sound.rxCompleted (h : σ.Sound) (hs : s < σ.streams.length) (ha : (σ.stream s).active = true)
    (hd : (σ.stream s).direction = .receive) (batch : List (List Byte)) (hb : batch.length ≤ Config.queueLength)
    (q : Option Nat) : (rxCompleted s batch q σ).Sound := by
  have hadv := σ.advances_rxCompleted s batch q
  have hdone := h.rxDelivered hs ha hd batch hb q
  refine ⟨hadv.length ▸ h.nonempty, fun s' hs' => ?_,
    h.pairing.of_same hadv.length fun s' => (hadv.each s').samePairing⟩
  rw [hadv.length] at hs'
  rw [hadv.params, rxCompleted_eq, State.stream_setStream]
  split
  · rw [hdone.stream_flushSlave h]
    exact hdone.receiver.queueEach (fun _ _ => rfl) q _
  · rename_i hne
    refine hdone.flushSlave h s' hs' fun e => hne ⟨e, ?_⟩
    rw [(hdone.advances.trans (State.advances_flushSlave ..)).length]
    exact hs

end

end Sys2Proof.Machine
end

section
/-! SUPPORT. Every instruction and every host store leaves a sound state sound: one case per instruction, by what its
checks say of the stream it names. -/

namespace Sys2Proof.Machine

section
variable {σ : State}

/-- A command that replaces one stream of the block by a sound one that keeps its part in the pairing. -/
theorem State.Sound.reply_setStream (h : σ.Sound) {s : Nat} {c : Context} (code : Code)
    (hc : c.Sound σ.params.reorderHold) (hp : (σ.stream s).SamePairing c) :
    Ensures State.Sound ((σ.setStream s c).reply code) := (h.setStream hc hp).reply code

/-! ### Configuration (40_tables_config.md) -/

/-- A stream that INIT finds Absent is in no pairing (R134, R143). -/
theorem execInit_sound (s : Nat) (d : Direction) (h : σ.Sound) : Ensures State.Sound (execInit s d σ) :=
  ensures_onStream_of fun hs => ensures_ite_of (fun _ => h.reply _) fun hc => by
    have ha : (σ.stream s).state = .absent := not_not.mp hc
    have hsound := (h.streams s hs).initialised ((Context.active_eq_false_iff _).mpr (.inl ha)) d
    exact (h.setStream_pairing hsound <| h.pairing.setStream_unpaired rfl fun m hm =>
      absurd ha (h.pairing.present m s hm).2).reply _

theorem execDestroy_sound (s : Nat) (h : σ.Sound) : Ensures State.Sound (execDestroy s σ) :=
  ensures_onStream_of fun hs => ensures_ite_of (fun _ => h.reply _) fun hset =>
    ensures_ite_of (fun _ => h.reply _) fun hpair => by
      have ha := Context.not_active_of_settable (c := σ.stream s) (by simpa using hset)
      rw [Bool.or_eq_true, not_or] at hpair
      obtain ⟨hmaster, hslave⟩ := hpair
      have hno : (σ.stream s).syncSlave = none := by simpa using hmaster
      exact (h.setStream_pairing ((h.streams s hs).destroyed ha) <| h.pairing.setStream_unpaired hno fun m hm =>
        absurd ((σ.isSlave_iff s).mpr ⟨m, σ.lt_of_syncSlave hm, hm⟩) hslave).reply _

theorem execSetParams_sound (s rate ch ports : Nat) (b w : Bool) (h : σ.Sound) :
    Ensures State.Sound (execSetParams s rate ch ports b w σ) := by
  refine ensures_onStream_of fun hs => ensures_ite_of (fun _ => h.reply _) fun hset => ensures_ite (h.reply _) ?_
  have hset : (σ.stream s).settable = true := by simpa using hset
  cases hw : wireCode rate w with
  | none => exact h.reply _
  | some code =>
    refine ensures_ite_of (fun _ => h.reply _) fun hmax => ensures_ite_of (fun _ => h.reply _) fun hne => ?_
    rw [not_or, Nat.not_lt, Nat.not_lt] at hmax
    exact h.reply_setStream _ ((h.streams s hs).reconfigured (Context.not_active_of_settable hset)
      (Context.present_of_settable hset) rfl nofun
      (fun _ => Context.paramsSound_parameterized _ b w (sytIntervalOf_wireCode hw) hmax.1 hmax.2 hne) rfl)
      ⟨rfl, rfl, fun _ => nofun⟩

/-- A position map of a Configured stream (R139, R140): the maps are checked by START. -/
theorem State.Sound.reply_setPosition (h : σ.Sound) {s : Nat} (hs : s < σ.streams.length)
    (hc : (σ.stream s).state = .configured) (positions : Vector (BitVec 8) 64) (midi : BitVec 8) (code : Code) :
    Ensures State.Sound
      ((σ.setStream s { σ.stream s with pcmPositions := positions, midiPosition := midi }).reply code) := by
  have hsound := h.streams s hs
  have ha := Context.not_active_of_configured hc
  have hp : (σ.stream s).state ≠ .absent := by rw [hc]; exact nofun
  exact h.reply_setStream _ (hsound.reconfigured ha hp ha hp (fun _ => (hsound.params (.inl hc)).of_kept rfl) rfl)
    ⟨rfl, rfl, id⟩

theorem execSetPcmPosition_sound (s ch slot : Nat) (h : σ.Sound) :
    Ensures State.Sound (execSetPcmPosition s ch slot σ) :=
  ensures_onStream_of fun hs => ensures_ite_of (fun _ => h.reply _) fun hc => ensures_ite (h.reply _) <|
    ensures_ite (h.reply _) (h.reply_setPosition hs (not_not.mp hc) _ _ _)

theorem execSetMidiPosition_sound (s slot : Nat) (h : σ.Sound) :
    Ensures State.Sound (execSetMidiPosition s slot σ) :=
  ensures_onStream_of fun hs => ensures_ite_of (fun _ => h.reply _) fun hc => ensures_ite (h.reply _)
    (h.reply_setPosition hs (not_not.mp hc) _ _ _)

theorem execSetPcmFormat_sound (s : Nat) (f : SampleFormat) (h : σ.Sound) :
    Ensures State.Sound (execSetPcmFormat s f σ) := by
  refine ensures_onStream_of fun hs => ensures_ite (h.reply _) <| ensures_ite_of (fun _ => h.reply _) fun hb =>
    ensures_ite_of (fun _ => h.reply _) fun hf => ?_
  refine h.reply_setStream _ ((h.streams s hs).rebound (Context.bindingSound_of_unbound (by simpa using hb)
    fun _ hd => ?_) (h.streams s hs).memory.pcm id rfl) ⟨rfl, rfl, id⟩
  cases f with
  | s16 => exact absurd ⟨hd, rfl⟩ hf
  | s32 => rfl

theorem execSetTransferDelay_sound (s ticks : Nat) (h : σ.Sound) :
    Ensures State.Sound (execSetTransferDelay s ticks σ) :=
  ensures_guardRange <| ensures_onStream_of fun hs => ensures_ite_of (fun _ => h.reply _) fun hset => by
    have hset : (σ.stream s).settable = true := by simpa using hset
    have ha := Context.not_active_of_settable hset
    have hp := Context.present_of_settable hset
    exact h.reply_setStream _ ((h.streams s hs).reconfigured ha hp ha hp
      (fun hc => ((h.streams s hs).params (.inl hc)).of_kept rfl) rfl) ⟨rfl, rfl, id⟩

/-- A stream that is not active and not Absent stays sound whatever it is paired with. -/
theorem Context.Sound.with_syncSlave {c : Context} {hold : Nat} (h : c.Sound hold) (ha : c.active = false)
    (hp : c.state ≠ .absent) (t : Option Nat) : { c with syncSlave := t }.Sound hold :=
  h.reconfigured ha hp ha hp (fun hc => (h.params (.inl hc)).of_kept rfl) rfl

theorem execSetSync_sound (m : Nat) (t : Option Nat) (h : σ.Sound) : Ensures State.Sound (execSetSync m t σ) := by
  refine ensures_guardRange_of fun ht => ensures_onStream_of fun hm => ensures_ite_of (fun _ => h.reply _) fun hp =>
    ensures_ite_of (fun _ => h.reply _) fun ha => ensures_ite (h.reply _) ?_
  have hsound := (h.streams m hm).with_syncSlave (Bool.eq_false_iff.mpr ha) hp
  cases t with
  | none => exact State.Sound.reply (h.setStream_pairing (hsound none) <|
      h.pairing.setStream_unpaired rfl fun _ _ => ⟨rfl, id⟩) _
  | some t =>
    refine ensures_ite_of (fun _ => h.reply _) fun hne => ensures_ite_of (fun _ => h.reply _) fun hst =>
      ensures_ite_of (fun _ => h.reply _) fun hd => ensures_ite_of (fun _ => h.reply _) fun hone => ?_
    have ht : t < σ.streams.length := by simpa using ht
    rw [not_or, not_not, not_not] at hd
    refine State.Sound.reply (h.setStream_pairing (hsound (some t)) <|
      h.pairing.setStream_paired hm ht hne hd ⟨hp, (not_or.mp hst).1⟩ fun m' hne' hm' => hone ?_) _
    exact σ.hasOtherMaster_of_ne hne' hm'

/-! ### Lifecycle (45_lifecycle_sync.md) -/

theorem execStart_sound (s channel speed node : Nat) (res : Bool) (q : Option Nat) (h : σ.Sound) :
    Ensures State.Sound (execStart s channel speed node res q σ) := by
  refine ensures_guardRange <| ensures_onStream_of fun hs => ensures_ite (h.reply _) <|
    ensures_ite_of (fun _ => h.reply _) fun hc => ensures_ite_of (fun _ => h.reply _) fun hmaps =>
      ensures_ite (h.reply _) ?_
  have hmaps : (σ.stream s).mapsOk = true := by simpa using hmaps
  unfold startStream
  split
  · rename_i dbs sos rate hi _
    have hadv := ((σ.stream s).advances_seeded channel speed node dbs sos rate σ.allocations).trans
      (Context.advances_queueEach Context.primingDescriptor q Config.queueLength 0 _)
    have hσ : σ.allocate.Sound := h.of_streams rfl rfl
    exact hσ.reply_setStream _ ((h.streams s hs).primed (not_not.mp hc) hmaps hi ..) hadv.samePairing
  · exact ensures_fault _

theorem execStop_sound (s : Nat) (h : σ.Sound) : Ensures State.Sound (execStop s σ) :=
  ensures_onStream_of fun hs => ensures_ite_of (fun _ => h.reply _) fun hp => ensures_ite (h.reply _) <|
    h.reply_setStream _ (Context.sound_stopped ((h.streams s hs).binding.receiveFormat hp) (h.streams s hs).memory.pcm)
      (Context.advances_stopped _).samePairing

theorem Context.Sound.busReset {c : Context} {hold : Nat} (h : c.Sound hold) : c.busReset.Sound hold := by
  unfold Context.busReset
  split
  · rename_i hr
    exact h.resumed (c.active_iff.mpr (.inl hr)) rfl rfl
  · exact h

theorem execBusReset_sound (h : σ.Sound) : Ensures State.Sound (execBusReset σ) := by
  have hadv := σ.advances_busReset
  refine ensures_next (State.Sound.of_streams (σ := { σ with streams := σ.streams.map Context.busReset })
    ⟨hadv.length ▸ h.nonempty, fun s hs => ?_,
      h.pairing.of_same hadv.length fun s => (hadv.each s).samePairing⟩ rfl rfl)
  rw [State.stream_map_busReset]
  exact (h.streams s (hadv.length ▸ hs)).busReset

theorem execUpdate_sound (s node : Nat) (h : σ.Sound) : Ensures State.Sound (execUpdate s node σ) :=
  ensures_guardRange <| ensures_onStream_of fun hs => ensures_ite_of (fun _ => h.reply _) fun hp =>
    ensures_ite_of (fun _ => h.reply _) fun hset =>
      h.reply_setStream _ ((h.streams s hs).resumed (Context.active_of_not_settable hp hset) rfl rfl)
        ⟨rfl, rfl, fun _ => nofun⟩

theorem execUpdateFail_sound (s : Nat) (h : σ.Sound) : Ensures State.Sound (execUpdateFail s σ) :=
  ensures_onStream_of fun hs => ensures_ite_of (fun _ => h.reply _) fun hp =>
    ensures_ite_of (fun _ => h.reply _) fun hset =>
      h.reply_setStream _ (((h.streams s hs).run (Context.active_of_not_settable hp hset)).fatalStop _)
        (Context.advances_fatalStop ..).samePairing

theorem execStartTimeout_sound (s : Nat) (h : σ.Sound) : Ensures State.Sound (execStartTimeout s σ) :=
  ensures_onStream_of fun hs => ensures_guardAdmitted_of fun hadm => by
    rw [Context.admitsTimeout, Bool.and_eq_true] at hadm
    exact (h.setStream (((h.streams s hs).run hadm.1).fatalStop _) (Context.advances_fatalStop ..).samePairing).noResult

theorem execStatus_sound (s : Nat) (h : σ.Sound) : Ensures State.Sound (execStatus s σ) :=
  ensures_onStream <| ensures_next (h.of_streams rfl rfl)

/-! ### Bindings (45_lifecycle_sync.md) -/

theorem execPcmPrepare_sound (s : Nat) (h : σ.Sound) : Ensures State.Sound (execPcmPrepare s σ) :=
  ensures_onStream_of fun hs => ensures_ite (h.reply _) <| ensures_ite_of (fun _ => h.reply _) fun hb =>
    h.reply_setStream _ ((h.streams s hs).rebound
      (Context.bindingSound_of_unbound (by simpa using hb) (h.streams s hs).binding.receiveFormat)
      (h.streams s hs).memory.pcm (fun _ => rfl) rfl) ⟨rfl, rfl, id⟩

/-- A buffer is bound only where the cursors lie inside it (R311). -/
theorem execPcmBind_sound (s : Nat) (b : Option Binding) (h : σ.Sound) :
    Ensures State.Sound (execPcmBind s b σ) := by
  refine ensures_guardRange_of fun hr => ensures_onStream_of fun hs => ensures_ite_of (fun _ => h.reply _) fun hp => ?_
  have hsound := h.streams s hs
  cases b with
  | none =>
    exact h.reply_setStream _ (hsound.rebound
      (Context.bindingSound_of_unbound rfl hsound.binding.receiveFormat) hsound.memory.pcm id rfl) ⟨rfl, rfl, id⟩
  | some b =>
    refine ensures_ite_of (fun _ => h.reply _) fun hcur => ?_
    rw [not_or, Nat.not_le, Nat.not_le] at hcur
    have hσ : σ.allocate.Sound := h.of_streams rfl rfl
    have only : ∀ b', ((σ.stream s).bindPcm b σ.allocations).pcm = some b' → b = b' := fun b' => Option.some.inj
    exact hσ.reply_setStream _ (hsound.rebound
      ⟨fun b' hb => only b' hb ▸ hr, fun b' hb => only b' hb ▸ hcur.1, fun b' hb => only b' hb ▸ hcur.2,
        fun ha => absurd ha hp, hsound.binding.receiveFormat⟩ .nil id rfl) ⟨rfl, rfl, id⟩

theorem execPcmPointer_sound (s : Nat) (h : σ.Sound) : Ensures State.Sound (execPcmPointer s σ) :=
  ensures_onStream <| ensures_ite (h.reply _) <| ensures_next (h.of_streams rfl rfl)

theorem execMidiBind_sound (s p : Nat) (b : Bool) (h : σ.Sound) : Ensures State.Sound (execMidiBind s p b σ) :=
  ensures_guardRange <| ensures_onStream_of fun hs => ensures_ite (h.reply _) <|
    h.reply_setStream _ ((h.streams s hs).with_midi _) ⟨rfl, rfl, id⟩

theorem execMidiPush_sound (s p : Nat) (byte : Byte) (h : σ.Sound) : Ensures State.Sound (execMidiPush s p byte σ) :=
  ensures_guardRange <| ensures_onStream_of fun hs => ensures_ite (h.reply _) <|
    h.reply_setStream _ ((h.streams s hs).with_midi _) ⟨rfl, rfl, id⟩

/-! ### Events (43_transmit.md, 44_receive.md, 45_lifecycle_sync.md) -/

theorem execPeriodNotify_sound (s : Nat) (h : σ.Sound) : Ensures State.Sound (execPeriodNotify s σ) :=
  ensures_onStream_of fun hs => ensures_guardAdmitted <| by
    have b := (h.streams s hs).binding
    exact State.Sound.noResult (h.setStream ((h.streams s hs).rebound
      ⟨b.range, b.bufferCursor, b.periodCursor, b.absent, b.receiveFormat⟩ (h.streams s hs).memory.pcm (fun _ => rfl)
      rfl) ⟨rfl, rfl, id⟩)

theorem execTxComplete_sound (s cycle count : Nat) (q : Option Nat) (h : σ.Sound) :
    Ensures State.Sound (execTxComplete s cycle count q σ) :=
  ensures_guardRange <| ensures_onStream_of fun hs => ensures_guardAdmitted_of fun hadm =>
    ensures_ite h.noResult <| ensures_guardAccess <| by
      simp only [Context.admitsTx, Bool.and_eq_true, beq_iff_eq] at hadm
      exact (h.setStream ((h.streams s hs).txCompleted hadm.1.1 hadm.1.2 ..)
        (Context.advances_txCompleted ..).samePairing).noResult

theorem execRxComplete_sound (s cycle : Nat) (batch : List (List Byte)) (q : Option Nat) (h : σ.Sound) :
    Ensures State.Sound (execRxComplete s cycle batch q σ) :=
  ensures_guardRange_of fun hb => ensures_onStream_of fun hs => ensures_guardAdmitted_of fun hadm =>
    ensures_ite h.noResult <| ensures_guardAccess <| by
      simp only [Context.admitsRx, Bool.and_eq_true, beq_iff_eq] at hadm
      exact (h.rxCompleted hs hadm.1.1.1 hadm.1.1.2 batch (by simpa using hb) q).noResult

/-! ### The machine -/

/-- Every instruction leaves a sound state sound. -/
theorem exec_sound (i : Instr) (h : σ.Sound) : Ensures State.Sound (exec i σ) := by
  cases i with
  | init s d => exact execInit_sound s d h
  | destroy s => exact execDestroy_sound s h
  | setParams s rate ch ports b w => exact execSetParams_sound s rate ch ports b w h
  | setPcmPosition s ch slot => exact execSetPcmPosition_sound s ch slot h
  | setMidiPosition s slot => exact execSetMidiPosition_sound s slot h
  | setPcmFormat s f => exact execSetPcmFormat_sound s f h
  | setTransferDelay s ticks => exact execSetTransferDelay_sound s ticks h
  | setSync m t => exact execSetSync_sound m t h
  | start s ch sp node res q => exact execStart_sound s ch sp node res q h
  | stop s => exact execStop_sound s h
  | busReset => exact execBusReset_sound h
  | update s node => exact execUpdate_sound s node h
  | updateFail s => exact execUpdateFail_sound s h
  | startTimeout s => exact execStartTimeout_sound s h
  | status s => exact execStatus_sound s h
  | pcmPrepare s => exact execPcmPrepare_sound s h
  | pcmBind s b => exact execPcmBind_sound s b h
  | pcmPointer s => exact execPcmPointer_sound s h
  | midiBind s p b => exact execMidiBind_sound s p b h
  | midiPush s p byte => exact execMidiPush_sound s p byte h
  | txComplete s cycle count q => exact execTxComplete_sound s cycle count q h
  | rxComplete s cycle batch q => exact execRxComplete_sound s cycle batch q h
  | periodNotify s => exact execPeriodNotify_sound s h
  | cipQ0 | cipQ1 | cipQ1RxMatch | cipQ1NoData | sytNoInfo | sytTimestamp | am824Pcm | am824MidiNoData | am824Midi1
  | am824Midi2 | am824Midi3 => exact h.read _

/-- The host's store of one byte leaves a sound state sound (20_memory.md R60). -/
theorem hostStore_sound (s a : Nat) (byte : Byte) (h : σ.Sound) : Ensures State.Sound (hostStore s a byte σ) :=
  fun τ e => by
    obtain ⟨hs, _, rfl⟩ := hostStore_eq_next e
    have b := (h.streams s hs).binding
    exact h.setStream ((h.streams s hs).rebound ⟨b.range, b.bufferCursor, b.periodCursor, b.absent, b.receiveFormat⟩
      (Memory.write_wf (h.streams s hs).memory.pcm a byte) id rfl) ⟨rfl, rfl, id⟩

theorem step_sound (h : σ.Sound) : Ensures State.Sound (step σ) :=
  step_ensures h (fun _ => h.of_streams rfl rfl) (fun s a byte _ h => hostStore_sound s a byte h) fun i _ h =>
    exec_sound i h

end

/-- Settles O59: every stream is sound as a context after reset, and none is paired. -/
theorem resetIsSound : Obligations.ResetIsSound := fun n hn p => by
  have hno : ∀ m t, ¬ ((State.resetWith n hn p).stream m).syncSlave = some t := fun m t => by
    rw [State.stream_resetWith]
    exact nofun
  refine ⟨?_, fun s _ => ?_, ⟨fun m t h => ?_, fun m t h => ?_, fun m t h => ?_, fun m _ t h => ?_⟩⟩
  · rw [State.length_resetWith]
    exact hn
  · rw [State.stream_resetWith]
    exact Context.sound_reset
  all_goals exact absurd h (hno m t)

/-- Settles O58: a host store and every instruction leave a sound state sound, and so does the step. -/
theorem stepKeepsStatesSound : Obligations.StepKeepsStatesSound := fun _ τ h e => step_sound h τ e

end Sys2Proof.Machine
end

section
/-! SUPPORT. Why no step from a sound state ends in a fault (20_memory.md R61, R64, R69; 30_encoding.md R100): only
TX_COMPLETE, RX_COMPLETE and START can raise one, and a sound stream meets the checks they raise it by. -/

namespace Sys2Proof.Machine

/-! ### Outcomes without a fault -/

/-- The outcome is a next state or a refusal. -/
def NoFault (r : Result) : Prop := ∀ f, r ≠ .fault f

section
variable {r r' : Result}

theorem noFault_next (τ : State) : NoFault (.next τ) := nofun

theorem noFault_refused (x : Refusal) : NoFault (.refused x) := nofun

theorem noFault_reply {σ : State} {code : Code} : NoFault (σ.reply code) := noFault_next _

theorem noFault_noResult {σ : State} : NoFault σ.noResult := noFault_next _

/-- Each branch may use its side of the test. -/
theorem noFault_ite {p : Prop} [Decidable p] (h : p → NoFault r) (h' : ¬ p → NoFault r') :
    NoFault (if p then r else r') := by
  split
  · exact h ‹_›
  · exact h' ‹_›

theorem noFault_onStream {s : Nat} {σ : State} {k : Context → Result}
    (h : s < σ.streams.length → NoFault (k (σ.stream s))) : NoFault (onStream s σ k) :=
  noFault_ite h fun _ => noFault_refused _

theorem noFault_guardRange {ok : Bool} (h : NoFault r) : NoFault (guardRange ok r) :=
  noFault_ite (fun _ => h) fun _ => noFault_refused _

theorem noFault_guardAdmitted {ok : Bool} (h : ok = true → NoFault r) : NoFault (guardAdmitted ok r) :=
  noFault_ite h fun _ => noFault_refused _

/-- The access check raises no fault where the accesses exist. -/
theorem noFault_guardAccess {ok : Bool} (hok : ok = true) (h : NoFault r) : NoFault (guardAccess ok r) := by
  rw [hok, guardAccess_true]
  exact h

/-- A command's check that ends it with a code. -/
theorem noFault_ite_reply {σ : State} {code : Code} {p : Prop} [Decidable p] (h : NoFault r) :
    NoFault (if p then σ.reply code else r) :=
  noFault_ite (fun _ => noFault_reply) fun _ => h

end

/-- Where no host store and no instruction ends in a fault, the step does not. -/
theorem step_noFault {σ : State} (hstore : ∀ s a byte σ', NoFault (hostStore s a byte σ'))
    (hexec : ∀ i rest, NoFault (exec i (σ.withInbox rest))) : NoFault (step σ) := by
  cases hi : σ.inbox with
  | nil =>
    rw [step_of_inbox_nil hi]
    exact noFault_next _
  | cons input rest =>
    by_cases hs : ∃ s a byte, input = .hostStore s a byte
    · obtain ⟨s, a, byte, rfl⟩ := hs
      rw [step_of_hostStore hi]
      exact hstore s a byte _
    · push Not at hs
      cases hd : decode input with
      | ok i =>
        rw [step_of_decode hi hd]
        exact hexec i rest
      | error e =>
        rw [step_of_decode_error hi hs hd]
        exact noFault_refused _

/-- A host store to an address outside the buffer is refused, not a fault (20_memory.md R64). -/
theorem hostStore_noFault (s a : Nat) (byte : Byte) (σ : State) : NoFault (hostStore s a byte σ) :=
  noFault_ite (fun _ => noFault_next _) fun _ => noFault_refused _

/-! ### The tables at a sound stream's rate (40_tables_config.md R130 to R132) -/

/-- A rate that has a SYT interval is not the reserved one (30_encoding.md R100). -/
theorem lt_of_sytIntervalOf {sfc interval : Nat} (h : sytIntervalOf sfc = some interval) : sfc < 7 :=
  (List.getElem?_eq_some_iff.mp h).1

/-- The tables START reads have an entry for every rate but the reserved one. -/
theorem start_tables_of_lt {sfc : Nat} (h : sfc < 7) :
    ∃ dbs sos rate, initialStateOf sfc = some (dbs, sos) ∧ rateOf sfc = some rate := by
  interval_cases sfc <;> exact ⟨_, _, _, rfl, rfl⟩

/-- Outside the 44100 family every packet has the table's number of blocks, at most a SYT interval (42_scheduler.md R191).
-/
theorem initialStateOf_le_interval {sfc interval dbs sos : Nat} (hi : sytIntervalOf sfc = some interval)
    (h : initialStateOf sfc = some (dbs, sos)) : dbs ≤ interval := by
  have hlt := lt_of_sytIntervalOf hi
  interval_cases sfc <;> cases hi <;> cases h <;> decide

/-- At a rate of the 44100 family the fuller packets fit a SYT interval (42_scheduler.md R192). -/
theorem family_blocks_le_interval {sfc interval : Nat} (hi : sytIntervalOf sfc = some interval)
    (hf : sfc % 2 = 1) : (if sfc = 1 then 6 else 11 * (sfc >>> 1) + 1) ≤ interval := by
  have hlt := lt_of_sytIntervalOf hi
  obtain rfl | rfl | rfl : sfc = 1 ∨ sfc = 3 ∨ sfc = 5 := by omega
  all_goals cases hi; decide

/-! ### A sound stream's accesses -/

section
variable {c : Context} {hold : Nat}

/-- What DBGEN can return fits the pool slot (42_scheduler.md R196). -/
theorem Context.maxBlocks_le_interval (hp : c.ParamsSound) (hg : c.GeneratorsSound) :
    c.maxBlocks ≤ c.sytInterval.toNat := by
  unfold Context.maxBlocks
  by_cases hf : c.sfc.toNat % 2 = 0
  · rw [if_pos hf]
    exact initialStateOf_le_interval hp.interval (hg.clean (by rw [is44100Family, hf]; rfl))
  · rw [if_neg hf]
    exact family_blocks_le_interval hp.interval (Nat.mod_two_ne_zero.mp hf)

/-- The sizes of a buffer that may be bound are not 0 (30_encoding.md R112). -/
theorem Binding.sizes_pos {b : Binding} (h : b.inRange = true) : 1 ≤ b.bufferSize ∧ 1 ≤ b.periodSize := by
  simp only [Binding.inRange, Bool.and_eq_true, decide_eq_true_eq] at h
  omega

/-- What both engines need, as propositions. -/
theorem Context.engineFits_iff (c : Context) : c.engineFits = true ↔
    c.poolAllocated = true ∧ c.packetIndex.toNat < Config.queueLength ∧
      c.pcmChannels.toNat ≤ Config.pcmChannelsMax ∧ 1 ≤ c.dataBlockQuadlets.toNat ∧ c.mapsOk = true ∧
      c.flushed ≤ c.hwq.length ∧ ∀ b, c.pcm = some b → 1 ≤ b.bufferSize ∧ 1 ≤ b.periodSize := by
  simp only [Context.engineFits, Bool.and_eq_true, decide_eq_true_eq, Option.all_eq_true, and_assoc]

theorem Context.Sound.engineFits (h : c.Sound hold) (ha : c.active = true) : c.engineFits = true := by
  have hr := h.run ha
  exact c.engineFits_iff.mpr ⟨hr.pool, h.queue.index hr.valid, hr.params.channels, hr.params.blockNotEmpty, hr.maps,
    h.queue.flushedAll.le, fun b hb => Binding.sizes_pos (h.binding.range b hb)⟩

theorem Context.Sound.txFits (h : c.Sound hold) (ha : c.active = true) : c.txFits = true := by
  rw [Context.txFits, Bool.and_eq_true, decide_eq_true_eq]
  exact ⟨h.engineFits ha, Context.maxBlocks_le_interval (h.params (.inr ha)) (h.generators ha)⟩

/-- Between operations the queue of an active Receive stream holds receive slots only (44_receive.md R270). -/
theorem Context.Sound.hwq_isReceiveSlot (h : c.Sound hold) (ha : c.active = true) (hd : c.direction = .receive)
    {d : Descriptor} (hm : d ∈ c.hwq) : d.isReceiveSlot = true := by
  rw [h.queue.receiveQueue ha hd] at hm
  obtain ⟨k, -, rfl⟩ := List.mem_map.mp hm
  exact decide_eq_true (Nat.mod_lt _ (Nat.succ_pos _))

theorem Context.Sound.rxFits (h : c.Sound hold) (ha : c.active = true) (hd : c.direction = .receive) (count : Nat) :
    c.rxFits count = true := by
  have hformat := h.binding.receiveFormat (Context.present_of_active ha) hd
  simp only [Context.rxFits, Bool.and_eq_true, List.all_eq_true, decide_eq_true_eq, Bool.or_eq_true, beq_iff_eq]
  exact ⟨⟨⟨h.engineFits ha, fun d hm => h.hwq_isReceiveSlot ha hd (List.mem_of_mem_take hm)⟩, h.carry.headers⟩,
    .inr hformat⟩

end

section
variable {σ : State}

/-- The receive engine's accesses exist, and so do those of the slave it drives (44_receive.md R265). -/
theorem State.Sound.rxFits (h : σ.Sound) {s : Nat} (hs : s < σ.streams.length) (ha : (σ.stream s).active = true)
    (hd : (σ.stream s).direction = .receive) (count : Nat) : σ.rxFits s count = true := by
  rw [State.rxFits, Bool.and_eq_true, Option.all_eq_true]
  refine ⟨(h.streams s hs).rxFits ha hd count, fun t ht => ?_⟩
  obtain ⟨htl, hne⟩ := h.pairing.slaveExists s t ht
  rw [Bool.and_eq_true, bne_iff_ne, Bool.or_eq_true, Bool.not_eq_true']
  refine ⟨hne, ?_⟩
  cases hdrivable : (σ.stream t).drivable with
  | false => exact .inl rfl
  | true =>
    simp only [Context.drivable, Bool.and_eq_true] at hdrivable
    exact .inr ((h.streams t htl).txFits hdrivable.1.1)

/-! ### The operations that can fault -/

/-- START runs only at a rate the tables have (30_encoding.md R100). -/
theorem startStream_noFault {c : Context} (h : c.ParamsSound) (s channel speed node : Nat) (q : Option Nat) :
    NoFault (startStream s channel speed node q c σ) := by
  obtain ⟨dbs, sos, rate, hi, hr⟩ := start_tables_of_lt (lt_of_sytIntervalOf h.interval)
  unfold startStream
  rw [hi, hr]
  exact noFault_next _

theorem execStart_noFault (h : σ.Sound) (s channel speed node : Nat) (res : Bool) (q : Option Nat) :
    NoFault (execStart s channel speed node res q σ) :=
  noFault_guardRange <| noFault_onStream fun hs => noFault_ite_reply <|
    noFault_ite (fun _ => noFault_reply) fun hc => noFault_ite_reply <| noFault_ite_reply <|
      startStream_noFault ((h.streams s hs).params (.inl (not_not.mp hc))) _ _ _ _ _

theorem execTxComplete_noFault (h : σ.Sound) (s cycle count : Nat) (q : Option Nat) :
    NoFault (execTxComplete s cycle count q σ) :=
  noFault_guardRange <| noFault_onStream fun hs => noFault_guardAdmitted fun hadm =>
    noFault_ite (fun _ => noFault_noResult) fun _ => by
      simp only [Context.admitsTx, Bool.and_eq_true] at hadm
      exact noFault_guardAccess ((h.streams s hs).txFits hadm.1.1) (noFault_noResult)

theorem execRxComplete_noFault (h : σ.Sound) (s cycle : Nat) (batch : List (List Byte)) (q : Option Nat) :
    NoFault (execRxComplete s cycle batch q σ) :=
  noFault_guardRange <| noFault_onStream fun hs => noFault_guardAdmitted fun hadm =>
    noFault_ite (fun _ => noFault_noResult) fun _ => by
      simp only [Context.admitsRx, Bool.and_eq_true, beq_iff_eq] at hadm
      exact noFault_guardAccess (h.rxFits hs hadm.1.1.1 hadm.1.1.2 _) (noFault_noResult)

end

/-! ### The operations that cannot -/

section
variable (σ : State)

theorem execInit_noFault (s : Nat) (d : Direction) : NoFault (execInit s d σ) :=
  noFault_onStream fun _ => noFault_ite_reply <| noFault_reply

theorem execDestroy_noFault (s : Nat) : NoFault (execDestroy s σ) :=
  noFault_onStream fun _ => noFault_ite_reply <| noFault_ite_reply <| noFault_reply

theorem execSetParams_noFault (s rate ch ports : Nat) (b w : Bool) :
    NoFault (execSetParams s rate ch ports b w σ) := by
  refine noFault_onStream fun _ => noFault_ite_reply <| noFault_ite_reply ?_
  cases wireCode rate w with
  | none => exact noFault_reply
  | some code => exact noFault_ite_reply <| noFault_ite_reply <| noFault_reply

theorem execSetPcmPosition_noFault (s ch slot : Nat) : NoFault (execSetPcmPosition s ch slot σ) :=
  noFault_onStream fun _ => noFault_ite_reply <| noFault_ite_reply <| noFault_ite_reply <|
    noFault_reply

theorem execSetMidiPosition_noFault (s slot : Nat) : NoFault (execSetMidiPosition s slot σ) :=
  noFault_onStream fun _ => noFault_ite_reply <| noFault_ite_reply <| noFault_reply

theorem execSetPcmFormat_noFault (s : Nat) (f : SampleFormat) : NoFault (execSetPcmFormat s f σ) :=
  noFault_onStream fun _ => noFault_ite_reply <| noFault_ite_reply <| noFault_ite_reply <|
    noFault_reply

theorem execSetTransferDelay_noFault (s ticks : Nat) : NoFault (execSetTransferDelay s ticks σ) :=
  noFault_guardRange <| noFault_onStream fun _ => noFault_ite_reply <| noFault_reply

theorem execSetSync_noFault (m : Nat) (t : Option Nat) : NoFault (execSetSync m t σ) := by
  refine noFault_guardRange <| noFault_onStream fun _ => noFault_ite_reply <| noFault_ite_reply <|
    noFault_ite_reply ?_
  cases t with
  | none => exact noFault_reply
  | some t =>
    exact noFault_ite_reply <| noFault_ite_reply <| noFault_ite_reply <| noFault_ite_reply <|
      noFault_reply

theorem execStop_noFault (s : Nat) : NoFault (execStop s σ) :=
  noFault_onStream fun _ => noFault_ite_reply <| noFault_ite_reply <| noFault_reply

theorem execUpdate_noFault (s node : Nat) : NoFault (execUpdate s node σ) :=
  noFault_guardRange <| noFault_onStream fun _ => noFault_ite_reply <| noFault_ite_reply <|
    noFault_reply

theorem execUpdateFail_noFault (s : Nat) : NoFault (execUpdateFail s σ) :=
  noFault_onStream fun _ => noFault_ite_reply <| noFault_ite_reply <| noFault_reply

theorem execStartTimeout_noFault (s : Nat) : NoFault (execStartTimeout s σ) :=
  noFault_onStream fun _ => noFault_guardAdmitted fun _ => noFault_noResult

theorem execStatus_noFault (s : Nat) : NoFault (execStatus s σ) := noFault_onStream fun _ => noFault_next _

theorem execPcmPrepare_noFault (s : Nat) : NoFault (execPcmPrepare s σ) :=
  noFault_onStream fun _ => noFault_ite_reply <| noFault_ite_reply <| noFault_reply

theorem execPcmBind_noFault (s : Nat) (b : Option Binding) : NoFault (execPcmBind s b σ) := by
  refine noFault_guardRange <| noFault_onStream fun _ => noFault_ite_reply ?_
  cases b with
  | none => exact noFault_reply
  | some b => exact noFault_ite_reply <| noFault_reply

theorem execPcmPointer_noFault (s : Nat) : NoFault (execPcmPointer s σ) :=
  noFault_onStream fun _ => noFault_ite_reply <| noFault_next _

theorem execMidiBind_noFault (s p : Nat) (b : Bool) : NoFault (execMidiBind s p b σ) :=
  noFault_guardRange <| noFault_onStream fun _ => noFault_ite_reply <| noFault_reply

theorem execMidiPush_noFault (s p : Nat) (byte : Byte) : NoFault (execMidiPush s p byte σ) :=
  noFault_guardRange <| noFault_onStream fun _ => noFault_ite_reply <| noFault_reply

theorem execPeriodNotify_noFault (s : Nat) : NoFault (execPeriodNotify s σ) :=
  noFault_onStream fun _ => noFault_guardAdmitted fun _ => noFault_noResult

end

/-! ### The machine -/

/-- No instruction ends in a fault from a sound state; BUS_RESET and the words of the wire formats answer a next state
at once. -/
theorem exec_noFault {σ : State} (h : σ.Sound) (i : Instr) : NoFault (exec i σ) := by
  cases i with
  | init s d => exact execInit_noFault σ s d
  | destroy s => exact execDestroy_noFault σ s
  | setParams s rate ch ports b w => exact execSetParams_noFault σ s rate ch ports b w
  | setPcmPosition s ch slot => exact execSetPcmPosition_noFault σ s ch slot
  | setMidiPosition s slot => exact execSetMidiPosition_noFault σ s slot
  | setPcmFormat s f => exact execSetPcmFormat_noFault σ s f
  | setTransferDelay s ticks => exact execSetTransferDelay_noFault σ s ticks
  | setSync m t => exact execSetSync_noFault σ m t
  | start s ch sp node res q => exact execStart_noFault h s ch sp node res q
  | stop s => exact execStop_noFault σ s
  | busReset => exact noFault_next _
  | update s node => exact execUpdate_noFault σ s node
  | updateFail s => exact execUpdateFail_noFault σ s
  | startTimeout s => exact execStartTimeout_noFault σ s
  | status s => exact execStatus_noFault σ s
  | pcmPrepare s => exact execPcmPrepare_noFault σ s
  | pcmBind s b => exact execPcmBind_noFault σ s b
  | pcmPointer s => exact execPcmPointer_noFault σ s
  | midiBind s p b => exact execMidiBind_noFault σ s p b
  | midiPush s p byte => exact execMidiPush_noFault σ s p byte
  | txComplete s cycle count q => exact execTxComplete_noFault h s cycle count q
  | rxComplete s cycle batch q => exact execRxComplete_noFault h s cycle batch q
  | periodNotify s => exact execPeriodNotify_noFault σ s
  | cipQ0 | cipQ1 | cipQ1RxMatch | cipQ1NoData | sytNoInfo | sytTimestamp | am824Pcm | am824MidiNoData | am824Midi1
  | am824Midi2 | am824Midi3 => exact noFault_next _

/-- Settles O60: the invariant does not speak of the inbox, so it holds of the state the operation runs on, where START
finds its rate in the tables and the engines their accesses. -/
theorem soundStatesNeverFault : Obligations.SoundStatesNeverFault := fun σ h =>
  step_noFault hostStore_noFault fun i rest =>
    have hrest : (σ.withInbox rest).Sound := h.of_streams rfl rfl
    exec_noFault hrest i

end Sys2Proof.Machine
end

section
/-! SUPPORT. The host's store of one byte of the bound sample buffer (20_memory.md R60, R64). -/

namespace Sys2Proof.Machine

/-- A byte read after a write (00_scope.md R12). -/
theorem Memory.byte_write (m : Memory) (epoch a x : Nat) (b : Byte) :
    (m.write a b).byte epoch x = if x = a then b else m.byte epoch x := by
  simp only [Memory.byte, Memory.read?_write]
  split <;> rfl

/-- The channels that bound a frame, by lifecycle state (log entry 26). -/
theorem Context.frameChannels_eq (c : Context) : c.frameChannels =
    if c.state = .configured ∨ c.state = .running ∨ c.state = .recovering then c.pcmChannels.toNat else 64 := by
  simp only [Context.frameChannels, c.active_iff, Config.pcmChannelsMax]

/-- The bytes of a host sample, by format. -/
theorem Context.sampleSize_eq (c : Context) : c.sampleSize = if c.pcmFormat = .s16 then 2 else 4 := by
  unfold Context.sampleSize
  cases c.pcmFormat <;> rfl

/-- The size of a bound buffer in any state (20_memory.md R60). -/
theorem Context.pcmSize_of_bound {c : Context} {b : Binding} (h : c.pcm = some b) :
    c.pcmSize = b.bufferSize * c.frameChannels * c.sampleSize := by
  rw [Context.pcmSize, h]

/-- A store to an address the buffer has is done. -/
theorem hostStore_of_lt {σ : State} {s a : Nat} (byte : Byte) (hs : s < σ.streams.length)
    (ha : a < (σ.stream s).pcmSize) : hostStore s a byte σ =
      .next (σ.setStream s { σ.stream s with pcmMemory := (σ.stream s).pcmMemory.write a byte }) := if_pos ⟨hs, ha⟩

/-- Every other store is refused. -/
theorem hostStore_of_le {σ : State} {s a : Nat} (byte : Byte)
    (h : σ.streams.length ≤ s ∨ (σ.stream s).pcmSize ≤ a) : hostStore s a byte σ = .refused .hostStoreOutside :=
  if_neg fun ⟨hs, ha⟩ => by omega

/-- Settles O6: the step is the host store on the state without its head, and the buffer's size decides it. -/
theorem hostStoreWritesOneByte : Obligations.HostStoreWritesOneByte := by
  intro σ s a byte rest hi
  dsimp only
  rw [← (σ.stream s).frameChannels_eq, ← (σ.stream s).sampleSize_eq, step_of_hostStore hi]
  refine ⟨fun b hs hb ha => ?_, fun h => hostStore_of_le byte ?_⟩
  · rw [← Context.pcmSize_of_bound hb] at ha
    exact ⟨(σ.stream s).pcmMemory.write a byte, hostStore_of_lt byte hs ha, fun x => Memory.byte_write ..⟩
  · rcases h with hs | hunbound | ⟨b, hb, ha⟩
    · exact .inl hs
    · exact .inr ((Context.pcmSize_unbound hunbound).trans_le (Nat.zero_le a))
    · rw [← Context.pcmSize_of_bound hb] at ha
      exact .inr ha

end Sys2Proof.Machine
end

section
/-! SUPPORT. Fields of a word: a field put at a bit is read back there, and a word is its fixed bits and its fields
(30_encoding.md R91 to R104). -/

namespace Sys2Proof

open Machine

/-! ### Fields -/

section
variable {v N : Nat} (x : BitVec v)

/-- A field of a word is read back where it was put. -/
@[simp] theorem extract_field_same (n w : Nat) (h : n + w ≤ N) :
    (x.setWidth N <<< n).extractLsb' n w = x.setWidth w := by
  refine BitVec.eq_of_getLsbD_eq fun k hk => ?_
  have hN : n + k < N := by omega
  simp [hk, hN]

/-- A field of a word leaves the bits above and below it clear. -/
@[simp] theorem extract_field_other (m n w : Nat) (h : m + v ≤ n ∨ n + w ≤ m) :
    (x.setWidth N <<< m).extractLsb' n w = 0#w := by
  refine BitVec.eq_of_getLsbD_eq fun k hk => ?_
  rw [BitVec.getLsbD_extractLsb', BitVec.getLsbD_shiftLeft, BitVec.getLsbD_setWidth, BitVec.getLsbD_zero]
  rcases h with h | h
  · simp [BitVec.getLsbD_of_ge x (n + k - m) (by omega)]
  · simp [show n + k < m by omega]

@[simp] theorem extract_low_same (w : Nat) (h : w ≤ N) : (x.setWidth N).extractLsb' 0 w = x.setWidth w := by
  simpa using extract_field_same x 0 w (N := N) (by omega)

@[simp] theorem extract_low_other (n w : Nat) (h : v ≤ n) : (x.setWidth N).extractLsb' n w = 0#w := by
  simpa using extract_field_other x 0 n w (N := N) (by omega)

end

/-- The field of `w` bits at bit `n` of a quadlet, put back, is the quadlet under the field's mask. -/
theorem field_eq_masked (q m : Quadlet) (n w : Nat)
    (hm : ∀ k < 32, m.getLsbD k = (decide (n ≤ k) && decide (k < n + w))) :
    (q.extractLsb' n w).setWidth 32 <<< n = q &&& m := by
  refine BitVec.eq_of_getLsbD_eq fun k hk => ?_
  rw [BitVec.getLsbD_and, hm k hk, BitVec.getLsbD_shiftLeft, BitVec.getLsbD_setWidth, BitVec.getLsbD_extractLsb']
  by_cases hn : n ≤ k
  · have : n + (k - n) = k := by omega
    by_cases hw : k < n + w
    · simp [hk, hn, hw, this, show k - n < w by omega, show k - n < 32 by omega]
    · simp [hw, show ¬ k - n < w by omega]
  · simp [hn, show k < n by omega]

/-- The same of a field at bit 0. -/
theorem low_eq_masked (q m : Quadlet) (w : Nat) (hm : ∀ k < 32, m.getLsbD k = decide (k < w)) :
    (q.extractLsb' 0 w).setWidth 32 = q &&& m := by
  have := field_eq_masked q m 0 w (by simpa using hm)
  rwa [BitVec.shiftLeft_zero] at this

/-- Two rows whose fixed bits disagree have no common word. -/
theorem rows_disjoint {q m f m' f' : Quadlet} (h : q &&& m = f) (hne : f &&& m' ≠ f' &&& m) : q &&& m' ≠ f' := by
  rintro rfl
  subst h
  exact hne (by rw [BitVec.and_assoc, BitVec.and_comm m m', BitVec.and_assoc])

/-! ### Bytes of a word -/

@[simp] theorem decode_quadletBytes (q : Quadlet) : decode (.wire (quadletBytes q)) = decodeQuadlet q :=
  congrArg decodeQuadlet (quadletOf_bytes q)

/-- The bytes of a SYT field make the field. -/
theorem sytOf_bytes (s : BitVec 16) : sytOf (s.extractLsb' 8 8) (s.extractLsb' 0 8) = s := by
  refine BitVec.eq_of_getLsbD_eq fun i hi => ?_
  simp only [sytOf, BitVec.getLsbD_or, BitVec.getLsbD_shiftLeft, BitVec.getLsbD_setWidth, BitVec.getLsbD_extractLsb']
  interval_cases i <;> simp

@[simp] theorem decode_sytBytes (s : BitVec 16) : decode (.wire (sytBytes s)) = .ok (decodeSyt s) :=
  congrArg (fun t => Except.ok (decodeSyt t)) (sytOf_bytes s)

theorem quadletBytes_injective : Function.Injective quadletBytes := fun q r h => by
  simp only [quadletBytes, List.cons.injEq, and_true] at h
  obtain ⟨h3, h2, h1, h0⟩ := h
  rw [← quadletOf_bytes q, h3, h2, h1, h0, quadletOf_bytes r]

/-! ### The rows of quadlets -/

open Laws.EncodeForm in
/-- The word of a quadlet row has the row's fixed bits. -/
theorem encodeQuadlet_masked {i : Instr} (h : Statement i) (hn : (rowOf i).nbits = 32)
    (he : encode i = .wire (quadletBytes (encodeQuadlet i))) :
    encodeQuadlet i &&& BitVec.ofNat 32 (rowOf i).mask = BitVec.ofNat 32 (rowOf i).fixed := by
  unfold Statement at h
  rw [hn] at h
  obtain ⟨q, hq, hm⟩ := h
  rw [he, Input.wire.injEq] at hq
  rwa [quadletBytes_injective hq]

section
variable {q : Quadlet}

theorem decodeQuadlet_of_q0 (h : q &&& 0xC000FF00#32 = 0x00000000#32) :
    decodeQuadlet q = .ok (.cipQ0 (q.extractLsb' 24 6) (q.extractLsb' 16 8) (q.extractLsb' 0 8)) := if_pos h

theorem decodeQuadlet_of_q1 (h : q &&& 0xBF000000#32 = 0x90000000#32) : decodeQuadlet q = .ok (decodeQ1 q) := by
  rw [decodeQuadlet, if_neg (rows_disjoint h (by decide)), if_pos h]

theorem decodeQuadlet_of_pcm (h : q &&& 0xFF000000#32 = 0x40000000#32) :
    decodeQuadlet q = .ok (.am824Pcm (q.extractLsb' 0 24)) := by
  rw [decodeQuadlet, if_neg (rows_disjoint h (by decide)), if_neg (rows_disjoint h (by decide)), if_pos h]

theorem decodeQuadlet_of_midiNoData (h : q &&& 0xFF000000#32 = 0x80000000#32) :
    decodeQuadlet q = .ok (.am824MidiNoData (q.extractLsb' 0 24)) := by
  rw [decodeQuadlet, if_neg (rows_disjoint h (by decide)), if_neg (rows_disjoint h (by decide)),
    if_neg (rows_disjoint h (by decide)), if_pos h]

theorem decodeQuadlet_of_midi1 (h : q &&& 0xFF000000#32 = 0x81000000#32) :
    decodeQuadlet q = .ok (.am824Midi1 (q.extractLsb' 16 8) (q.extractLsb' 0 16)) := by
  rw [decodeQuadlet, if_neg (rows_disjoint h (by decide)), if_neg (rows_disjoint h (by decide)),
    if_neg (rows_disjoint h (by decide)), if_neg (rows_disjoint h (by decide)), if_pos h]

theorem decodeQuadlet_of_midi2 (h : q &&& 0xFF000000#32 = 0x82000000#32) :
    decodeQuadlet q = .ok (.am824Midi2 (q.extractLsb' 16 8) (q.extractLsb' 8 8) (q.extractLsb' 0 8)) := by
  rw [decodeQuadlet, if_neg (rows_disjoint h (by decide)), if_neg (rows_disjoint h (by decide)),
    if_neg (rows_disjoint h (by decide)), if_neg (rows_disjoint h (by decide)), if_neg (rows_disjoint h (by decide)),
    if_pos h]

theorem decodeQuadlet_of_midi3 (h : q &&& 0xFF000000#32 = 0x83000000#32) :
    decodeQuadlet q = .ok (.am824Midi3 (q.extractLsb' 16 8) (q.extractLsb' 8 8) (q.extractLsb' 0 8)) := by
  rw [decodeQuadlet, if_neg (rows_disjoint h (by decide)), if_neg (rows_disjoint h (by decide)),
    if_neg (rows_disjoint h (by decide)), if_neg (rows_disjoint h (by decide)), if_neg (rows_disjoint h (by decide)),
    if_neg (rows_disjoint h (by decide)), if_pos h]

end

end Sys2Proof
end

section
/-! SUPPORT. The words of the wire formats: what each row's word decodes to, and that a quadlet which decodes is the
word of what it decodes to (30_encoding.md R91 to R104). -/

namespace Sys2Proof

open Machine Laws

/-! ### From a row's word to its instruction -/

theorem decodeQuadlet_cipQ0 (sid : BitVec 6) (dbs dbc : Byte) :
    decodeQuadlet (encodeQuadlet (.cipQ0 sid dbs dbc)) = .ok (.cipQ0 sid dbs dbc) := by
  rw [decodeQuadlet_of_q0 (encodeQuadlet_masked (EncodeForm.cipQ0 ..) rfl rfl)]
  simp [encodeQuadlet, BitVec.extractLsb'_or]

/-- The three rows of quadlet 1 are one form: CIP_Q1 is the word with FORM 0 and FDF `sfc` (R92, R100). -/
theorem encodeQuadlet_cipQ1 (sfc : BitVec 3) (syt : BitVec 16) :
    encodeQuadlet (.cipQ1 sfc syt) = encodeQuadlet (.cipQ1RxMatch 0#1 (sfc.setWidth 8) syt) := by
  simp [encodeQuadlet]

/-- CIP_Q1_NODATA is the word with FDF 0xFF (R101). -/
theorem encodeQuadlet_cipQ1NoData (form : BitVec 1) (syt : BitVec 16) :
    encodeQuadlet (.cipQ1NoData form syt) = encodeQuadlet (.cipQ1RxMatch form 0xFF#8 syt) := by
  have h : 0x90FF0000#32 = 0x90000000#32 ||| (0xFF#8).setWidth 32 <<< 16 := by decide
  calc encodeQuadlet (.cipQ1NoData form syt)
    _ = 0x90000000#32 ||| (0xFF#8).setWidth 32 <<< 16 ||| form.setWidth 32 <<< 30 ||| syt.setWidth 32 := by
      rw [← h]; rfl
    _ = encodeQuadlet (.cipQ1RxMatch form 0xFF#8 syt) := by
      rw [BitVec.or_assoc 0x90000000#32, BitVec.or_comm (BitVec.setWidth 32 0xFF#8 <<< 16), ← BitVec.or_assoc]; rfl

/-- The fields of a word of quadlet 1 (R92, R103). -/
theorem q1_fields (form : BitVec 1) (fdf : Byte) (syt : BitVec 16) :
    let q := encodeQuadlet (.cipQ1RxMatch form fdf syt)
    q.extractLsb' 30 1 = form ∧ q.extractLsb' 16 8 = fdf ∧ q.extractLsb' 16 3 = fdf.setWidth 3 ∧
      q.extractLsb' 0 16 = syt := by
  simp [encodeQuadlet, BitVec.extractLsb'_or]

theorem q1_masked (form : BitVec 1) (fdf : Byte) (syt : BitVec 16) :
    encodeQuadlet (.cipQ1RxMatch form fdf syt) &&& 0xBF000000#32 = 0x90000000#32 :=
  encodeQuadlet_masked (EncodeForm.cipQ1RxMatch ..) rfl rfl

/-- How a word of quadlet 1 is decoded: by its FORM and FDF (R92, R101, R104). -/
theorem decodeQuadlet_q1 (form : BitVec 1) (fdf : Byte) (syt : BitVec 16) :
    decodeQuadlet (encodeQuadlet (.cipQ1RxMatch form fdf syt)) = .ok
      (if fdf = 0xFF#8 then .cipQ1NoData form syt
        else if form = 0#1 ∧ fdf.toNat < 8 then .cipQ1 (fdf.setWidth 3) syt else .cipQ1RxMatch form fdf syt) := by
  obtain ⟨hform, hfdf, hsfc, hsyt⟩ := q1_fields form fdf syt
  rw [decodeQuadlet_of_q1 (q1_masked ..)]
  simp only [decodeQ1, hform, hfdf, hsfc, hsyt]

/-- The FDF of a sampling-frequency code has no bit above it (R100). -/
theorem fdf_lt_iff (fdf : Byte) : fdf.toNat < 8 ↔ (fdf.setWidth 3).setWidth 8 = fdf := by
  rw [← BitVec.toNat_inj]
  simp only [BitVec.toNat_setWidth]
  omega

theorem sfc_fdf_lt (sfc : BitVec 3) : (sfc.setWidth 8).toNat < 8 := (fdf_lt_iff _).mpr (by simp)

theorem sfc_fdf_ne_noData (sfc : BitVec 3) : sfc.setWidth 8 ≠ 0xFF#8 := fun h =>
  absurd (sfc_fdf_lt sfc) (by rw [h]; decide)

/-- Which words of quadlet 1 are left to the third row (log entry 3). -/
theorem wellFormed_cipQ1RxMatch (form : BitVec 1) (fdf : Byte) (syt : BitVec 16) :
    (Instr.cipQ1RxMatch form fdf syt).wellFormed = true ↔ fdf ≠ 0xFF#8 ∧ ¬ (form = 0#1 ∧ fdf.toNat < 8) := by
  simp only [Instr.wellFormed, Bool.and_eq_true, Bool.not_eq_true', ← Bool.decide_and, decide_eq_true_eq,
    decide_eq_false_iff_not]

theorem decodeQuadlet_cipQ1 (sfc : BitVec 3) (syt : BitVec 16) :
    decodeQuadlet (encodeQuadlet (.cipQ1 sfc syt)) = .ok (.cipQ1 sfc syt) := by
  have hw : (sfc.setWidth 8).setWidth 3 = sfc := by simp
  rw [encodeQuadlet_cipQ1, decodeQuadlet_q1, if_neg (sfc_fdf_ne_noData sfc), if_pos ⟨rfl, sfc_fdf_lt sfc⟩, hw]

theorem decodeQuadlet_cipQ1NoData (form : BitVec 1) (syt : BitVec 16) :
    decodeQuadlet (encodeQuadlet (.cipQ1NoData form syt)) = .ok (.cipQ1NoData form syt) := by
  rw [encodeQuadlet_cipQ1NoData, decodeQuadlet_q1, if_pos rfl]

theorem decodeQuadlet_cipQ1RxMatch {form : BitVec 1} {fdf : Byte} {syt : BitVec 16}
    (h : (Instr.cipQ1RxMatch form fdf syt).wellFormed = true) :
    decodeQuadlet (encodeQuadlet (.cipQ1RxMatch form fdf syt)) = .ok (.cipQ1RxMatch form fdf syt) := by
  obtain ⟨hdata, hother⟩ := (wellFormed_cipQ1RxMatch ..).mp h
  rw [decodeQuadlet_q1, if_neg hdata, if_neg hother]

theorem decodeQuadlet_am824Pcm (x : BitVec 24) : decodeQuadlet (encodeQuadlet (.am824Pcm x)) = .ok (.am824Pcm x) := by
  rw [decodeQuadlet_of_pcm (encodeQuadlet_masked (EncodeForm.am824Pcm ..) rfl rfl)]
  simp [encodeQuadlet, BitVec.extractLsb'_or]

theorem decodeQuadlet_am824MidiNoData (low : BitVec 24) :
    decodeQuadlet (encodeQuadlet (.am824MidiNoData low)) = .ok (.am824MidiNoData low) := by
  rw [decodeQuadlet_of_midiNoData (encodeQuadlet_masked (EncodeForm.am824MidiNoData ..) rfl rfl)]
  simp [encodeQuadlet, BitVec.extractLsb'_or]

section
variable (b1 b2 b3 : Byte)

theorem decodeQuadlet_am824Midi1 (low : BitVec 16) :
    decodeQuadlet (encodeQuadlet (.am824Midi1 b1 low)) = .ok (.am824Midi1 b1 low) := by
  rw [decodeQuadlet_of_midi1 (encodeQuadlet_masked (EncodeForm.am824Midi1 ..) rfl rfl)]
  simp [encodeQuadlet, BitVec.extractLsb'_or]

theorem decodeQuadlet_am824Midi2 :
    decodeQuadlet (encodeQuadlet (.am824Midi2 b1 b2 b3)) = .ok (.am824Midi2 b1 b2 b3) := by
  rw [decodeQuadlet_of_midi2 (encodeQuadlet_masked (EncodeForm.am824Midi2 ..) rfl rfl)]
  simp [encodeQuadlet, BitVec.extractLsb'_or]

theorem decodeQuadlet_am824Midi3 :
    decodeQuadlet (encodeQuadlet (.am824Midi3 b1 b2 b3)) = .ok (.am824Midi3 b1 b2 b3) := by
  rw [decodeQuadlet_of_midi3 (encodeQuadlet_masked (EncodeForm.am824Midi3 ..) rfl rfl)]
  simp [encodeQuadlet, BitVec.extractLsb'_or]

end

/-- The two fields of a SYT word (R94). -/
theorem syt_fields (cycle4 : BitVec 4) (offset : BitVec 12) :
    let v := encodeSyt (.sytTimestamp cycle4 offset)
    v.extractLsb' 12 4 = cycle4 ∧ v.extractLsb' 0 12 = offset := by
  simp [encodeSyt, BitVec.extractLsb'_or]

/-- A SYT word is a timestamp unless both its fields are all ones (R94). -/
theorem encodeSyt_ne_noInfo {cycle4 : BitVec 4} {offset : BitVec 12} (h : cycle4 ≠ 0xF#4 ∨ offset ≠ 0xFFF#12) :
    encodeSyt (.sytTimestamp cycle4 offset) ≠ Config.sytNoInfo := fun he => by
  obtain ⟨hcycle, hoffset⟩ := syt_fields cycle4 offset
  rw [he] at hcycle hoffset
  exact h.elim (· hcycle.symm) (· hoffset.symm)

theorem decodeSyt_sytTimestamp {cycle4 : BitVec 4} {offset : BitVec 12} (h : cycle4 ≠ 0xF#4 ∨ offset ≠ 0xFFF#12) :
    decodeSyt (encodeSyt (.sytTimestamp cycle4 offset)) = .sytTimestamp cycle4 offset := by
  obtain ⟨hcycle, hoffset⟩ := syt_fields cycle4 offset
  rw [decodeSyt, if_neg (encodeSyt_ne_noInfo h), hcycle, hoffset]

/-! ### From a quadlet to the word of its instruction -/

section
variable {q : Quadlet}

theorem encodeQuadlet_of_q0 (h : q &&& 0xC000FF00#32 = 0x00000000#32) :
    encodeQuadlet (.cipQ0 (q.extractLsb' 24 6) (q.extractLsb' 16 8) (q.extractLsb' 0 8)) = q := by
  rw [← BitVec.zero_or (x := encodeQuadlet _), ← h, encodeQuadlet, field_eq_masked q 0x3F000000#32 24 6 (by decide),
    field_eq_masked q 0x00FF0000#32 16 8 (by decide), low_eq_masked q 0x000000FF#32 8 (by decide),
    ← BitVec.and_or_distrib_left, ← BitVec.and_or_distrib_left, ← BitVec.and_or_distrib_left]
  exact BitVec.and_allOnes

/-- Every quadlet that passes the receive header check of quadlet 1 is the form of all three rows (R104). -/
theorem encodeQuadlet_of_q1 (h : q &&& 0xBF000000#32 = 0x90000000#32) :
    encodeQuadlet (.cipQ1RxMatch (q.extractLsb' 30 1) (q.extractLsb' 16 8) (q.extractLsb' 0 16)) = q := by
  rw [encodeQuadlet, field_eq_masked q 0x40000000#32 30 1 (by decide),
    field_eq_masked q 0x00FF0000#32 16 8 (by decide), low_eq_masked q 0x0000FFFF#32 16 (by decide), ← h,
    ← BitVec.and_or_distrib_left, ← BitVec.and_or_distrib_left, ← BitVec.and_or_distrib_left]
  exact BitVec.and_allOnes

theorem sfc_of_fdf (q : Quadlet) : q.extractLsb' 16 3 = (q.extractLsb' 16 8).setWidth 3 :=
  (BitVec.setWidth_extractLsb'_of_le (by decide)).symm

/-- The row the decoder picks for such a quadlet has the quadlet as its word. -/
theorem encode_decodeQ1 (h : q &&& 0xBF000000#32 = 0x90000000#32) :
    encode (decodeQ1 q) = .wire (quadletBytes q) ∧ (decodeQ1 q).wellFormed = true := by
  have hq := encodeQuadlet_of_q1 h
  unfold decodeQ1
  dsimp only
  split
  · rename_i hfdf
    rw [hfdf] at hq
    refine ⟨?_, rfl⟩
    rw [encode, encodeQuadlet_cipQ1NoData, hq]
  · rename_i hdata
    split
    · rename_i hcode
      obtain ⟨hform, hfdf⟩ := hcode
      rw [hform] at hq
      refine ⟨?_, rfl⟩
      rw [encode, encodeQuadlet_cipQ1, sfc_of_fdf, (fdf_lt_iff _).mp hfdf, hq]
    · rename_i hother
      exact ⟨by rw [encode, hq], (wellFormed_cipQ1RxMatch ..).mpr ⟨hdata, hother⟩⟩

/-- A quadlet of the given label is that label and its low 24 bits. -/
theorem label_or_low {f : Quadlet} (h : q &&& 0xFF000000#32 = f) : f ||| (q &&& 0x00FFFFFF#32) = q := by
  rw [← h, ← BitVec.and_or_distrib_left]
  exact BitVec.and_allOnes

theorem low_as_three_bytes (q : Quadlet) :
    q &&& 0x00FFFFFF#32 = (q.extractLsb' 16 8).setWidth 32 <<< 16 ||| (q.extractLsb' 8 8).setWidth 32 <<< 8 |||
      (q.extractLsb' 0 8).setWidth 32 := by
  rw [field_eq_masked q 0x00FF0000#32 16 8 (by decide), field_eq_masked q 0x0000FF00#32 8 8 (by decide),
    low_eq_masked q 0x000000FF#32 8 (by decide), ← BitVec.and_or_distrib_left, ← BitVec.and_or_distrib_left]
  rfl

theorem low_as_byte_and_rest (q : Quadlet) :
    q &&& 0x00FFFFFF#32 = (q.extractLsb' 16 8).setWidth 32 <<< 16 ||| (q.extractLsb' 0 16).setWidth 32 := by
  rw [field_eq_masked q 0x00FF0000#32 16 8 (by decide), low_eq_masked q 0x0000FFFF#32 16 (by decide),
    ← BitVec.and_or_distrib_left]
  rfl

theorem encodeQuadlet_of_pcm (h : q &&& 0xFF000000#32 = 0x40000000#32) :
    encodeQuadlet (.am824Pcm (q.extractLsb' 0 24)) = q := by
  rw [encodeQuadlet, low_eq_masked q 0x00FFFFFF#32 24 (by decide), label_or_low h]

theorem encodeQuadlet_of_midiNoData (h : q &&& 0xFF000000#32 = 0x80000000#32) :
    encodeQuadlet (.am824MidiNoData (q.extractLsb' 0 24)) = q := by
  rw [encodeQuadlet, low_eq_masked q 0x00FFFFFF#32 24 (by decide), label_or_low h]

theorem encodeQuadlet_of_midi1 (h : q &&& 0xFF000000#32 = 0x81000000#32) :
    encodeQuadlet (.am824Midi1 (q.extractLsb' 16 8) (q.extractLsb' 0 16)) = q := by
  rw [encodeQuadlet, BitVec.or_assoc, ← low_as_byte_and_rest, label_or_low h]

theorem encodeQuadlet_of_midi2 (h : q &&& 0xFF000000#32 = 0x82000000#32) :
    encodeQuadlet (.am824Midi2 (q.extractLsb' 16 8) (q.extractLsb' 8 8) (q.extractLsb' 0 8)) = q := by
  rw [encodeQuadlet, BitVec.or_assoc, BitVec.or_assoc, ← BitVec.or_assoc (BitVec.setWidth 32 _ <<< 16),
    ← low_as_three_bytes, label_or_low h]

theorem encodeQuadlet_of_midi3 (h : q &&& 0xFF000000#32 = 0x83000000#32) :
    encodeQuadlet (.am824Midi3 (q.extractLsb' 16 8) (q.extractLsb' 8 8) (q.extractLsb' 0 8)) = q := by
  rw [encodeQuadlet, BitVec.or_assoc, BitVec.or_assoc, ← BitVec.or_assoc (BitVec.setWidth 32 _ <<< 16),
    ← low_as_three_bytes, label_or_low h]

end

/-- Settles O2, row by row in the decoder's order: a quadlet is its row's fixed bits and its fields. -/
theorem quadletDecodesToItsOwnWord : Obligations.QuadletDecodesToItsOwnWord := by
  intro q i h
  unfold decodeQuadlet at h
  split at h
  · cases h; exact ⟨by rw [encode, encodeQuadlet_of_q0 ‹_›], rfl⟩
  split at h
  · cases h; exact encode_decodeQ1 ‹_›
  split at h
  · cases h; exact ⟨by rw [encode, encodeQuadlet_of_pcm ‹_›], rfl⟩
  split at h
  · cases h; exact ⟨by rw [encode, encodeQuadlet_of_midiNoData ‹_›], rfl⟩
  split at h
  · cases h; exact ⟨by rw [encode, encodeQuadlet_of_midi1 ‹_›], rfl⟩
  split at h
  · cases h; exact ⟨by rw [encode, encodeQuadlet_of_midi2 ‹_›], rfl⟩
  split at h
  · cases h; exact ⟨by rw [encode, encodeQuadlet_of_midi3 ‹_›], rfl⟩
  · cases h

end Sys2Proof
end

section
/-! SUPPORT. Operand fields: each is read back from its bytes, whatever follows it in the record (30_encoding.md R110;
log entry 2). -/

namespace Sys2Proof

open Machine

/-! ### One operand -/

/-- `take` reads the value `a` from `bytes`, whatever bytes follow, and leaves those. -/
def Reads {α : Type} (take : List Byte → Except DecodeError (α × List Byte)) (bytes : List Byte) (a : α) : Prop :=
  ∀ rest, take (bytes ++ rest) = .ok (a, rest)

section
variable {α β : Type} {take : List Byte → Except DecodeError (α × List Byte)} {bytes : List Byte} {a : α}
  {k : α × List Byte → Except DecodeError β} {result : Except DecodeError β}

/-- An operand that others follow: the rest is read after it. -/
theorem Reads.next (h : Reads take bytes a) {rest : List Byte} (hk : k (a, rest) = result) :
    (take (bytes ++ rest) >>= k) = result := by
  rw [h rest]
  exact hk

/-- The last operand of a record. -/
theorem Reads.last (h : Reads take bytes a) (hk : k (a, []) = result) : (take bytes >>= k) = result := by
  have := h.next (rest := []) hk
  rwa [List.append_nil] at this

end

theorem reads_nat {n : Nat} (h : fitsField n = true) : Reads takeNat (putNat n) n := fun rest => by
  have hn : n < 2 ^ 32 := of_decide_eq_true h
  calc takeNat (putNat n ++ rest)
    _ = .ok ((BitVec.ofNat 32 n).toNat, rest) :=
      congrArg (fun q : Quadlet => Except.ok (q.toNat, rest)) (quadletOf_bytes (BitVec.ofNat 32 n))
    _ = .ok (n, rest) := by rw [BitVec.toNat_ofNat, Nat.mod_eq_of_lt hn]

theorem reads_nat_le {n m : Nat} (h : n ≤ m) (hm : m < 2 ^ 32) : Reads takeNat (putNat n) n :=
  reads_nat (decide_eq_true (Nat.lt_of_le_of_lt h hm))

theorem reads_byte (b : Byte) : Reads takeByte [b] b := fun _ => rfl

theorem reads_bool (b : Bool) : Reads takeBool (putBool b) b := fun _ => by cases b <;> rfl

theorem reads_direction (d : Direction) : Reads takeDirection (putDirection d) d := fun rest => by
  cases d with
  | send => exact (reads_bool false).next rfl
  | receive => exact (reads_bool true).next rfl

theorem reads_format (f : SampleFormat) : Reads takeFormat (putFormat f) f := fun rest => by
  cases f with
  | s16 => exact (reads_bool false).next rfl
  | s32 => exact (reads_bool true).next rfl

theorem reads_option {q : Option Nat} (h : q.all fitsField = true) : Reads takeOption (putOption q) q := fun rest => by
  cases q with
  | none => exact (reads_bool false).next rfl
  | some n =>
    rw [putOption, List.append_assoc]
    exact (reads_bool true).next ((reads_nat h).next rfl)

theorem reads_binding {b : Option Binding} (h : b.all Binding.inRange = true) :
    Reads takeBinding (putBinding b) b := fun rest => by
  cases b with
  | none => exact (reads_bool false).next rfl
  | some b =>
    obtain ⟨_, hperiod, hbuffer⟩ := (inRange_iff b).mp h
    rw [putBinding, List.append_assoc, List.append_assoc]
    exact (reads_bool true).next <| (reads_nat (decide_eq_true hbuffer)).next <|
      (reads_nat_le hperiod hbuffer).next rfl

/-- The packets of a batch, one after another: each one's length says where it ends. -/
theorem reads_packets (ps : List (List Byte)) (h : ∀ p ∈ ps, fitsField p.length = true) :
    Reads (takePackets ps.length) (putPackets ps) ps := fun rest => by
  induction ps with
  | nil => rfl
  | cons p ps ih =>
    have hp := h p (List.mem_cons_self ..)
    have hps := ih fun p' hp' => h p' (List.mem_cons_of_mem _ hp')
    rw [putPackets, List.append_assoc, List.append_assoc]
    refine (reads_nat hp).next ?_
    simp [hps, bind, Except.bind, pure, Except.pure]

theorem reads_batch {batch : List (List Byte)} (h : batchOk batch = true) :
    Reads takeBatch (putBatch batch) batch := fun rest => by
  simp only [batchOk, Bool.and_eq_true, decide_eq_true_eq, List.all_eq_true] at h
  obtain ⟨hlen, hpackets⟩ := h
  rw [putBatch, List.append_assoc]
  exact (reads_nat_le hlen (by decide)).next (reads_packets batch hpackets rest)

/-! ### Records -/

/-- Settles O1, by cases on the instruction: a record's operands are read one after another, a word by its row. -/
theorem decodeInvertsEncode : Obligations.DecodeInvertsEncode := by
  intro i h
  cases i with
  | init s d => exact (reads_nat h).next <| (reads_direction d).last rfl
  | destroy s => exact (reads_nat h).last rfl
  | setParams s rate ch ports blocking dual =>
    simp only [Instr.wellFormed, Bool.and_eq_true] at h
    obtain ⟨⟨⟨hs, hrate⟩, hch⟩, hports⟩ := h
    simp only [encode, List.append_assoc]
    exact (reads_nat hs).next <| (reads_nat hrate).next <| (reads_nat hch).next <| (reads_nat hports).next <|
      (reads_bool blocking).next <| (reads_bool dual).last rfl
  | setPcmPosition s c slot =>
    simp only [Instr.wellFormed, Bool.and_eq_true] at h
    obtain ⟨⟨hs, hc⟩, hslot⟩ := h
    simp only [encode, List.append_assoc]
    exact (reads_nat hs).next <| (reads_nat hc).next <| (reads_nat hslot).last rfl
  | setMidiPosition s slot =>
    simp only [Instr.wellFormed, Bool.and_eq_true] at h
    obtain ⟨hs, hslot⟩ := h
    exact (reads_nat hs).next <| (reads_nat hslot).last rfl
  | setPcmFormat s f => exact (reads_nat h).next <| (reads_format f).last rfl
  | setTransferDelay s ticks =>
    simp only [Instr.wellFormed, Bool.and_eq_true, decide_eq_true_eq] at h
    obtain ⟨hs, hticks⟩ := h
    exact (reads_nat hs).next <| (reads_nat_le hticks (by decide)).last rfl
  | setSync m t =>
    simp only [Instr.wellFormed, Bool.and_eq_true] at h
    obtain ⟨hm, ht⟩ := h
    exact (reads_nat hm).next <| (reads_option ht).last rfl
  | start s ch sp node res q =>
    simp only [Instr.wellFormed, Bool.and_eq_true, decide_eq_true_eq] at h
    obtain ⟨⟨⟨⟨hs, hch⟩, hsp⟩, hnode⟩, hq⟩ := h
    simp only [encode, List.append_assoc]
    exact (reads_nat hs).next <| (reads_nat_le hch (by decide)).next <| (reads_nat_le hsp (by decide)).next <|
      (reads_nat_le hnode (by decide)).next <| (reads_bool res).next <| (reads_option hq).last rfl
  | stop s => exact (reads_nat h).last rfl
  | busReset => rfl
  | update s node =>
    simp only [Instr.wellFormed, Bool.and_eq_true, decide_eq_true_eq] at h
    obtain ⟨hs, hnode⟩ := h
    exact (reads_nat hs).next <| (reads_nat_le hnode (by decide)).last rfl
  | updateFail s => exact (reads_nat h).last rfl
  | startTimeout s => exact (reads_nat h).last rfl
  | status s => exact (reads_nat h).last rfl
  | pcmPrepare s => exact (reads_nat h).last rfl
  | pcmBind s b =>
    simp only [Instr.wellFormed, Bool.and_eq_true] at h
    obtain ⟨hs, hb⟩ := h
    exact (reads_nat hs).next <| (reads_binding hb).last rfl
  | pcmPointer s => exact (reads_nat h).last rfl
  | midiBind s p bound =>
    simp only [Instr.wellFormed, Bool.and_eq_true, decide_eq_true_eq] at h
    obtain ⟨hs, hp⟩ := h
    simp only [encode, List.append_assoc]
    exact (reads_nat hs).next <| (reads_nat_le hp.le (by decide)).next <| (reads_bool bound).last rfl
  | midiPush s p byte =>
    simp only [Instr.wellFormed, Bool.and_eq_true, decide_eq_true_eq] at h
    obtain ⟨hs, hp⟩ := h
    simp only [encode, List.append_assoc]
    exact (reads_nat hs).next <| (reads_nat_le hp.le (by decide)).next <| (reads_byte byte).last rfl
  | txComplete s cycle count q =>
    simp only [Instr.wellFormed, Bool.and_eq_true, decide_eq_true_eq] at h
    obtain ⟨⟨⟨hs, hcycle⟩, hcount⟩, hq⟩ := h
    simp only [encode, List.append_assoc]
    exact (reads_nat hs).next <| (reads_nat hcycle).next <| (reads_nat_le hcount (by decide)).next <|
      (reads_option hq).last rfl
  | rxComplete s cycle batch q =>
    simp only [Instr.wellFormed, Bool.and_eq_true] at h
    obtain ⟨⟨⟨hs, hcycle⟩, hbatch⟩, hq⟩ := h
    simp only [encode, List.append_assoc]
    exact (reads_nat hs).next <| (reads_nat hcycle).next <| (reads_batch hbatch).next <| (reads_option hq).last rfl
  | periodNotify s => exact (reads_nat h).last rfl
  | cipQ0 sid dbs dbc => exact (decode_quadletBytes _).trans (decodeQuadlet_cipQ0 ..)
  | cipQ1 sfc syt => exact (decode_quadletBytes _).trans (decodeQuadlet_cipQ1 ..)
  | cipQ1RxMatch form fdf syt => exact (decode_quadletBytes _).trans (decodeQuadlet_cipQ1RxMatch h)
  | cipQ1NoData form syt => exact (decode_quadletBytes _).trans (decodeQuadlet_cipQ1NoData ..)
  | sytNoInfo => exact decode_sytBytes _
  | sytTimestamp cycle4 offset =>
    simp only [Instr.wellFormed, Bool.not_eq_true', ← Bool.decide_and, decide_eq_false_iff_not] at h
    exact (decode_sytBytes _).trans (congrArg Except.ok (decodeSyt_sytTimestamp (not_and_or.mp h)))
  | am824Pcm x => exact (decode_quadletBytes _).trans (decodeQuadlet_am824Pcm x)
  | am824MidiNoData low => exact (decode_quadletBytes _).trans (decodeQuadlet_am824MidiNoData low)
  | am824Midi1 b1 low => exact (decode_quadletBytes _).trans (decodeQuadlet_am824Midi1 b1 low)
  | am824Midi2 b1 b2 low => exact (decode_quadletBytes _).trans (decodeQuadlet_am824Midi2 b1 b2 low)
  | am824Midi3 b1 b2 b3 => exact (decode_quadletBytes _).trans (decodeQuadlet_am824Midi3 b1 b2 b3)

/-- Settles O3: the words are decoded by evaluation. -/
theorem specWordsDecode : Obligations.SpecWordsDecode := ⟨rfl, rfl, rfl, rfl⟩

end Sys2Proof
end

section
/-! SUPPORT. The receive side's reading of a word presented by itself (30_encoding.md R91 to R104; 41_codec.md R163,
R171; log entry 3). -/

namespace Sys2Proof.Machine

open Laws

theorem readQ0_cipQ0 (sid : BitVec 6) (dbs dbc : Byte) :
    readQ0 (encodeQuadlet (.cipQ0 sid dbs dbc)) = .headerQ0 dbc := by
  have hrow : encodeQuadlet (.cipQ0 sid dbs dbc) &&& 0xC000FF00#32 = 0#32 :=
    encodeQuadlet_masked (EncodeForm.cipQ0 ..) rfl rfl
  have heoh : encodeQuadlet (.cipQ0 sid dbs dbc) &&& 0x80000000#32 = 0#32 := by
    rw [show 0x80000000#32 = 0xC000FF00#32 &&& 0x80000000#32 by decide, ← BitVec.and_assoc, hrow, BitVec.zero_and]
  have hdbc : (encodeQuadlet (.cipQ0 sid dbs dbc)).extractLsb' 0 8 = dbc := by
    simp [encodeQuadlet, BitVec.extractLsb'_or]
  rw [readQ0, q0Accepted, decide_eq_true heoh, if_pos rfl, q0Dbc, hdbc]

/-- How a word of quadlet 1 is read: by its FDF (R101, R104). -/
theorem readQ1_word (form : BitVec 1) (fdf : Byte) (syt : BitVec 16) :
    readQ1 (encodeQuadlet (.cipQ1RxMatch form fdf syt)) = if fdf = 0xFF#8 then .noData else .headerQ1 fdf syt := by
  obtain ⟨-, hfdf, -, hsyt⟩ := q1_fields form fdf syt
  simp only [readQ1, q1Accepted, q1_masked, q1Fdf, q1Syt, hfdf, hsyt, decide_true, Bool.not_true, Bool.false_eq_true,
    if_false]

theorem readQ1_cipQ1 (sfc : BitVec 3) (syt : BitVec 16) :
    readQ1 (encodeQuadlet (.cipQ1 sfc syt)) = .headerQ1 (sfc.setWidth 8) syt := by
  rw [encodeQuadlet_cipQ1, readQ1_word, if_neg (sfc_fdf_ne_noData sfc)]

theorem readQ1_cipQ1NoData (form : BitVec 1) (syt : BitVec 16) :
    readQ1 (encodeQuadlet (.cipQ1NoData form syt)) = .noData := by
  rw [encodeQuadlet_cipQ1NoData, readQ1_word, if_pos rfl]

theorem readSyt_sytTimestamp {cycle4 : BitVec 4} {offset : BitVec 12} (h : cycle4 ≠ 0xF#4 ∨ offset ≠ 0xFFF#12) :
    readSyt (encodeSyt (.sytTimestamp cycle4 offset)) = .timestamp cycle4 offset := by
  obtain ⟨hcycle, hoffset⟩ := syt_fields cycle4 offset
  rw [readSyt, if_neg (encodeSyt_ne_noInfo h), hcycle, hoffset]

/-- The label is shifted out of a sample (41_codec.md R163). -/
theorem readPcm_am824Pcm (x : BitVec 24) :
    readPcm (encodeQuadlet (.am824Pcm x)) = .sample (BitVec.ofNat 32 (x.toNat * 256)) := by
  have hx : x.setWidth 32 <<< 8 = BitVec.ofNat 32 (x.toNat * 256) := by
    rw [← BitVec.toNat_inj, BitVec.toNat_shiftLeft, BitVec.toNat_ofNat, BitVec.toNat_setWidth, Nat.shiftLeft_eq]
    have := x.isLt
    omega
  calc readPcm (encodeQuadlet (.am824Pcm x))
    _ = .sample ((0x40000000#32 ||| x.setWidth 32) <<< 8) := rfl
    _ = .sample (0x40000000#32 <<< 8 ||| x.setWidth 32 <<< 8) := by rw [BitVec.shiftLeft_or_distrib]
    _ = .sample (BitVec.ofNat 32 (x.toNat * 256)) := by rw [hx]; simp

section
variable (b1 b2 b3 : Byte)

theorem midiBytes_noData (low : BitVec 24) : midiBytes (encodeQuadlet (.am824MidiNoData low)) = [] := by
  simp [midiBytes, encodeQuadlet, BitVec.extractLsb'_or]

theorem midiBytes_one (low : BitVec 16) : midiBytes (encodeQuadlet (.am824Midi1 b1 low)) = [b1] := by
  simp [midiBytes, encodeQuadlet, BitVec.extractLsb'_or]

theorem midiBytes_two (low : Byte) : midiBytes (encodeQuadlet (.am824Midi2 b1 b2 low)) = [b1, b2] := by
  simp [midiBytes, encodeQuadlet, BitVec.extractLsb'_or]

theorem midiBytes_three : midiBytes (encodeQuadlet (.am824Midi3 b1 b2 b3)) = [b1, b2, b3] := by
  simp [midiBytes, encodeQuadlet, BitVec.extractLsb'_or]

end

/-- A word whose reading is known answers it and changes nothing else. -/
theorem State.read_eq {r r' : WireReading} (σ : State) (h : r = r') :
    σ.read r = .next { σ with response := .reading r' } := by
  rw [h]; rfl

/-- Settles O52: every row's word is answered with the reading of its fields. -/
theorem wireWordsAreRead : Obligations.WireWordsAreRead := fun σ =>
  ⟨fun sid dbs dbc => σ.read_eq (readQ0_cipQ0 sid dbs dbc),
    fun sfc syt => σ.read_eq (by rw [readQ1_cipQ1, BitVec.ofNat_toNat]),
    fun form fdf syt hdata => σ.read_eq ((readQ1_word form fdf syt).trans (if_neg hdata)),
    fun form syt => σ.read_eq (readQ1_cipQ1NoData form syt),
    σ.read_eq rfl,
    fun _ _ h => σ.read_eq (readSyt_sytTimestamp h),
    fun x => σ.read_eq (readPcm_am824Pcm x),
    fun low => σ.read_eq (congrArg _ (midiBytes_noData low)),
    fun b1 low => σ.read_eq (congrArg _ (midiBytes_one b1 low)),
    fun b1 b2 low => σ.read_eq (congrArg _ (midiBytes_two b1 b2 low)),
    fun b1 b2 b3 => σ.read_eq (congrArg _ (midiBytes_three b1 b2 b3))⟩

end Sys2Proof.Machine
end

section
/-! SUPPORT. What the interface refuses: selectors, operands out of range and completion events that are not admitted
(30_encoding.md R111, R112; 70_reset_and_hazards.md R392). -/

namespace Sys2Proof.Machine

/-! ### Refusals of the checks -/

theorem onStream_of_le {s : Nat} {σ : State} (k : Context → Result) (h : σ.streams.length ≤ s) :
    onStream s σ k = .refused .operandRange := if_neg (Nat.not_lt.mpr h)

theorem guardRange_of_eq_false {ok : Bool} (h : ok = false) (r : Result) :
    guardRange ok r = .refused .operandRange := by
  rw [h]; rfl

theorem guardRange_of_not {p : Prop} [Decidable p] (h : ¬ p) (r : Result) :
    guardRange (decide p) r = .refused .operandRange := guardRange_of_eq_false (decide_eq_false h) r

/-- Where the rest is refused for its range, the operation is, whatever its own operands. -/
theorem guardRange_of_refused (ok : Bool) {r : Result} (h : r = .refused .operandRange) :
    guardRange ok r = .refused .operandRange := by
  cases ok with
  | false => rfl
  | true => exact h

/-- An event with operands in range, on a stream of the block, is refused where it is not admitted (R392). -/
theorem event_not_admitted {s : Nat} {σ : State} {inRange : Bool} {admitted : Context → Bool} {k : Context → Result}
    (hr : inRange = true) (hs : s < σ.streams.length) (ha : ¬ admitted (σ.stream s) = true) :
    guardRange inRange (onStream s σ fun c => guardAdmitted (admitted c) (k c)) = .refused .notAdmitted := by
  rw [hr, guardRange_true, onStream_of_lt _ hs, Bool.eq_false_iff.mpr ha, guardAdmitted_false]

/-! ### Selectors (R111) -/

/-- The selectors of the 23 operations (R110). -/
def selectors : List Byte :=
  [0x01, 0x02, 0x03, 0x04, 0x05, 0x06, 0x07, 0x08, 0x10, 0x11, 0x12, 0x13, 0x14, 0x15, 0x16, 0x20, 0x21, 0x22, 0x23,
    0x24, 0x30, 0x31, 0x32]

theorem decodeOperands_unknown {op : Nat} (h : op ∉ selectors.map BitVec.toNat) (operands : List Byte) :
    decodeOperands op operands = .error (.unknownSelector op) := by
  unfold decodeOperands
  split
  case h_24 => rfl
  all_goals exact absurd (by decide) h

theorem decode_unknown {op : Byte} (h : op ∉ selectors) (operands : List Byte) :
    decode (.operation (op :: operands)) = .error (.unknownSelector op.toNat) :=
  decodeOperands_unknown (mt (List.mem_map_of_injective fun _ _ => BitVec.eq_of_toNat_eq).mp h) operands

/-! ### Operands (R112) -/

/-- An operation on a stream outside the block is refused, whatever its other operands. -/
theorem exec_outside {i : Instr} {s : Nat} (ht : targetOf i = some s) {σ : State} (h : σ.streams.length ≤ s) :
    exec i σ = .refused .operandRange := by
  unfold exec
  cases i
  case busReset | cipQ0 | cipQ1 | cipQ1RxMatch | cipQ1NoData | sytNoInfo | sytTimestamp | am824Pcm | am824MidiNoData
    | am824Midi1 | am824Midi2 | am824Midi3 => cases ht
  case setTransferDelay | setSync | start | update | pcmBind | midiBind | midiPush | txComplete | rxComplete =>
    cases ht
    exact guardRange_of_refused _ (onStream_of_le _ h)
  case init | destroy | setParams | setPcmPosition | setMidiPosition | setPcmFormat | stop | updateFail | startTimeout
    | status | pcmPrepare | pcmPointer | periodNotify =>
    cases ht
    exact onStream_of_le _ h

/-! ### Admission (R392) -/

theorem Context.admitsTx_iff (c : Context) (count : Nat) : c.admitsTx count = true ↔
    (c.state = .running ∨ c.state = .recovering) ∧ c.direction = .send ∧ count ≤ c.flushed := by
  simp only [Context.admitsTx, Bool.and_eq_true, c.active_iff, beq_iff_eq, decide_eq_true_eq, and_assoc]

theorem Context.admitsRx_iff (c : Context) (batch : List (List Byte)) : c.admitsRx batch = true ↔
    (c.state = .running ∨ c.state = .recovering) ∧ c.direction = .receive ∧ batch.length ≤ c.flushed ∧
      ∀ p ∈ batch, p.length % 4 = 0 ∧ p.length ≤ c.bufSize := by
  simp only [Context.admitsRx, Bool.and_eq_true, c.active_iff, beq_iff_eq, decide_eq_true_eq, List.all_eq_true,
    and_assoc]

/-- Settles O4: an unknown selector decodes to nothing, an operand out of range fails the operation's first check, and
an event not admitted its last. -/
theorem interfaceRefusesInadmissibleInputs : Obligations.InterfaceRefusesInadmissibleInputs := by
  refine ⟨fun σ op operands rest hi hop => ?_, fun σ i s ht h => exec_outside ht h, fun σ s => ?_, fun σ s hs => ?_⟩
  · exact step_of_decode_error hi (fun _ _ _ => nofun) (decode_unknown hop operands)
  · refine ⟨fun ticks h => guardRange_of_not (Nat.not_le.mpr h) _, fun t h => guardRange_of_not (Nat.not_lt.mpr h) _,
      fun ch sp node res q h => guardRange_of_eq_false ?_ _, fun node h => guardRange_of_not (Nat.not_le.mpr h) _,
      fun b h => guardRange_of_eq_false ?_ _,
      fun p h => ⟨fun bound => guardRange_of_not (Nat.not_lt.mpr h) _,
        fun byte => guardRange_of_not (Nat.not_lt.mpr h) _⟩,
      fun cycle count q h => guardRange_of_not (Nat.not_le.mpr h) _,
      fun cycle batch q h => guardRange_of_not (Nat.not_le.mpr h) _⟩
    · rw [← Bool.decide_and, ← Bool.decide_and]
      exact decide_eq_false (by omega)
    · refine Bool.eq_false_iff.mpr fun hb => ?_
      obtain ⟨hperiod, hle, hbuffer⟩ := (inRange_iff b).mp hb
      omega
  · refine ⟨fun cycle count q hr h => ?_, fun cycle batch q hr h => ?_⟩
    · refine event_not_admitted (decide_eq_true hr) hs fun ha => ?_
      obtain ⟨hactive, hsend, hflushed⟩ := (Context.admitsTx_iff ..).mp ha
      rcases h with ⟨hr, hrec⟩ | hreceive | hmore
      · exact hactive.elim hr hrec
      · rw [hsend] at hreceive; cases hreceive
      · omega
    · refine event_not_admitted (decide_eq_true hr) hs fun ha => ?_
      obtain ⟨hactive, hreceive, hflushed, hlengths⟩ := (Context.admitsRx_iff ..).mp ha
      rcases h with ⟨hr, hrec⟩ | hsend | hmore | ⟨p, hp, hlen⟩
      · exact hactive.elim hr hrec
      · rw [hreceive] at hsend; cases hsend
      · omega
      · have := hlengths p hp
        omega

end Sys2Proof.Machine
end

section
/-! SUPPORT. The header of a built packet (30_encoding.md R90 to R92; 43_transmit.md R222, R225): no payload store
reaches quadlets 0 and 1. -/

namespace Sys2Proof.Machine

/-! ### The header's words as numbers -/

/-- A field above a number that ends below it is a sum. -/
theorem toNat_field_or {v : Nat} (x : BitVec v) (n : Nat) {y : Quadlet} (hx : v + n ≤ 32) (hy : y.toNat < 2 ^ n) :
    (x.setWidth 32 <<< n ||| y).toNat = x.toNat * 2 ^ n + y.toNat := by
  have hshift : x.toNat <<< n < 2 ^ 32 := by
    rw [Nat.shiftLeft_eq]
    calc x.toNat * 2 ^ n
      _ < 2 ^ v * 2 ^ n := Nat.mul_lt_mul_of_pos_right x.isLt (Nat.two_pow_pos n)
      _ = 2 ^ (v + n) := (Nat.pow_add ..).symm
      _ ≤ 2 ^ 32 := Nat.pow_le_pow_right (by decide) hx
  have hwidth : x.toNat < 2 ^ 32 := x.isLt.trans_le (Nat.pow_le_pow_right (by decide) (by omega))
  rw [BitVec.toNat_or, BitVec.toNat_shiftLeft, BitVec.toNat_setWidth, Nat.mod_eq_of_lt hwidth, Nat.mod_eq_of_lt hshift,
    ← Nat.shiftLeft_add_eq_or_of_lt hy, Nat.shiftLeft_eq]

theorem toNat_low {v : Nat} (x : BitVec v) (hv : v ≤ 32) : (x.setWidth 32).toNat = x.toNat := by
  rw [BitVec.toNat_setWidth, Nat.mod_eq_of_lt (x.isLt.trans_le (Nat.pow_le_pow_right (by decide) hv))]

theorem Context.toNat_headerQ0 (c : Context) : c.headerQ0.toNat =
    c.sourceNodeId.toNat * 2 ^ 24 + c.dataBlockQuadlets.toNat * 2 ^ 16 + c.dbc.toNat := by
  have hdbc := toNat_low c.dbc (by decide)
  have hdbq := toNat_field_or c.dataBlockQuadlets 16 (y := c.dbc.setWidth 32) (by decide) (by omega)
  rw [Context.headerQ0, BitVec.or_assoc, toNat_field_or _ _ (by decide) (by omega), hdbq, hdbc, Nat.add_assoc]

theorem Context.toNat_headerQ1 (c : Context) (syt : BitVec 16) :
    (c.headerQ1 syt).toNat = 0x90000000 + c.sfc.toNat * 2 ^ 16 + syt.toNat := by
  have hsyt := toNat_low syt (by decide)
  have hsfc := toNat_field_or c.sfc 16 (y := syt.setWidth 32) (by decide) (by omega)
  have hfixed : 0x90000000#32 = (0x90#8).setWidth 32 <<< 24 := by decide
  rw [Context.headerQ1, hfixed, BitVec.or_assoc, toNat_field_or _ _ (by decide) (by omega), hsfc, hsyt, Nat.add_assoc]
  rfl

/-! ### Stores to a packet (30_encoding.md R90) -/

/-- A PCM slot's quadlet lies behind the header. -/
theorem Context.two_le_pcmSlot {c : Context} {n : Nat} {p : PcmSlot} (h : p ∈ c.pcmSlots n) : 2 ≤ p.quadlet := by
  simp only [Context.pcmSlots, List.mem_flatMap, List.mem_map] at h
  obtain ⟨b, -, ch, -, ki, -, rfl⟩ := h
  exact (Nat.le_add_right 2 _).trans (Nat.le_add_right _ _)

theorem Context.two_le_payloadWrites {c : Context} {order : ByteOrder} {n : Nat} {w : Nat × Quadlet}
    (h : w ∈ c.payloadWrites order n) : 2 ≤ w.1 := by
  unfold Context.payloadWrites at h
  split at h <;>
  · obtain ⟨p, hp, rfl⟩ := List.mem_map.mp h
    exact Context.two_le_pcmSlot hp

theorem Context.two_le_midiFill {c : Context} {n : Nat} {w : Nat × Quadlet} (h : w ∈ (c.midiFill n).1) : 2 ≤ w.1 := by
  unfold Context.midiFill at h
  split at h
  · have hw := List.mem_map_of_mem (f := Prod.fst) h
    rw [Context.fillFrom_fst] at hw
    obtain ⟨b, -, hb⟩ := List.mem_map.mp hw
    rw [← hb]
    exact (Nat.le_add_right 2 _).trans (Nat.le_add_right _ _)
  · cases h

/-- The bytes of a built packet: what its slot reads as after the header, the PCM slots and the MIDI slots. -/
theorem Context.builtDescriptor_buildPacket (c : Context) (order : ByteOrder) (n : Nat) (syt : BitVec 16) :
    (c.buildPacket order n syt).builtDescriptor n =
      .tx ((c.writeSlot c.packetIndex.toNat
        (c.headerWrites syt ++ c.payloadWrites order n ++ (c.midiFill n).1)).slotBytes c.packetIndex.toNat
          (c.packetLength n)) := rfl

@[simp] theorem Context.length_slotBytes (c : Context) (i n : Nat) : (c.slotBytes i n).length = n := by
  simp [Context.slotBytes, Memory.bytes]

/-- What is stored after the header lies behind it. -/
theorem Context.two_le_stores {c : Context} {order : ByteOrder} {n : Nat} {w : Nat × Quadlet}
    (h : w ∈ c.payloadWrites order n ++ (c.midiFill n).1) : 2 ≤ w.1 :=
  (List.mem_append.mp h).elim Context.two_le_payloadWrites Context.two_le_midiFill

/-- Settles O35: the header's two quadlets are stored first, and every later store of the packet lies behind them. -/
theorem builtPacketHeader : Obligations.BuiltPacketHeader := by
  intro c order n syt
  have hlen : 8 ≤ c.packetLength n := Nat.le_add_right ..
  refine ⟨_, c.builtDescriptor_buildPacket order n syt, Context.length_slotBytes .., ?_, ?_, ?_⟩
  · rw [List.append_assoc, ← c.toNat_headerQ0]
    refine congrArg BitVec.toNat
      (c.quadletAt_writeSlot_last _ _ 0 _ [] ((1, c.headerQ1 syt) :: _) (fun w hw => ?_) (by omega))
    rcases List.mem_cons.mp hw with rfl | hw
    · exact one_ne_zero
    · have := Context.two_le_stores hw
      omega
  · rw [List.append_assoc, ← c.toNat_headerQ1]
    refine congrArg BitVec.toNat
      (c.quadletAt_writeSlot_last _ _ 1 _ [(0, c.headerQ0)] _ (fun w hw => ?_) (by omega))
    have := Context.two_le_stores hw
    omega
  · rw [c.buildPacket_frame, BitVec.toNat_add, BitVec.toNat_ofNat]
    omega

end Sys2Proof.Machine
end

section
/-! SUPPORT. The configuration commands on a stream of the block: each is its checks in their order, the first that
fails deciding (60_exceptions.md R343), and the one context it writes (40_tables_config.md R134 to R143). -/

namespace Sys2Proof.Machine

/-! ### The lifecycle states a command asks for -/

/-- The test by which a command refuses a stream that is not settable (40_tables_config.md R136). -/
theorem Context.not_settable_iff (c : Context) :
    (!c.settable) = true ↔ ¬ (c.state = .idle ∨ c.state = .configured) := by
  rw [← c.settable_iff, Bool.not_eq_true', Bool.not_eq_true]

/-- A stream is neither Absent nor active where it is Idle or Configured (10_state.md R23). -/
theorem Context.absent_or_active_iff (c : Context) :
    (c.state = .absent ∨ c.active = true) ↔ ¬ (c.state = .idle ∨ c.state = .configured) := by
  rw [c.active_iff]
  cases c.state <;> decide

/-! ### INIT and DESTROY (R134, R135) -/

section
variable {σ : State} {s : Nat}

theorem exec_init_of_lt (d : Direction) (hs : s < σ.streams.length) : exec (.init s d) σ =
    if (σ.stream s).state ≠ .absent then σ.reply .errState
    else (σ.setStream s ((σ.stream s).initialised d)).reply .ok := if_pos hs

theorem exec_destroy_of_lt (hs : s < σ.streams.length) : exec (.destroy s) σ =
    if !(σ.stream s).settable then σ.reply .errState
    else if (σ.stream s).syncSlave.isSome || σ.isSlave s then σ.reply .errState
    else (σ.setStream s (σ.stream s).destroyed).reply .ok := if_pos hs

end

/-- The test by which DESTROY refuses a stream that is paired, as a master or as a slave (10_state.md R33). -/
theorem State.paired_iff (σ : State) (s : Nat) : ((σ.stream s).syncSlave.isSome || σ.isSlave s) = true ↔
    ¬ ((σ.stream s).syncSlave = none ∧ ∀ m < σ.streams.length, (σ.stream m).syncSlave ≠ some s) := by
  rw [Bool.or_eq_true, σ.isSlave_iff, Option.isSome_iff_ne_none, not_and_or]
  push Not
  rfl

/-- Settles O9: INIT's one check is that the stream is Absent. -/
theorem initCreatesTheContext : Obligations.InitCreatesTheContext := by
  intro σ s d hs c
  rw [exec_init_of_lt d hs]
  exact ⟨fun ha => ⟨detachPorts c.midi, detachPorts_detached _, if_neg (not_not.mpr ha)⟩, fun hp => if_pos hp⟩

/-- Settles O10: DESTROY's two checks are those of the state and of the pairing. -/
theorem destroyRemovesTheContext : Obligations.DestroyRemovesTheContext := by
  intro σ s hs c allowed
  have hstate := c.not_settable_iff
  have hpair := σ.paired_iff s
  rw [exec_destroy_of_lt hs]
  constructor
  · rintro ⟨hset, hfree⟩
    refine ⟨unbindPorts c.midi, fun _ hp => portOf_unbindPorts _ hp, ?_⟩
    rw [if_neg (hstate.not_left.mpr hset), if_neg (hpair.not_left.mpr hfree)]
    rfl
  · intro hno
    by_cases hset : c.state = .idle ∨ c.state = .configured
    · rw [if_neg (hstate.not_left.mpr hset), if_pos (hpair.mpr fun hfree => hno ⟨hset, hfree⟩)]
      rfl
    · exact if_pos (hstate.mpr hset)

/-! ### SET_PARAMS (R136, R137) -/

/-- `sfc_of_rate` is the inverse of the table of rates (R131). -/
theorem sfcOfRate_eq_some_iff {rate code : Nat} : sfcOfRate rate = some code ↔ rateOf code = some rate := by
  constructor
  · intro h
    obtain ⟨hlt, hrate, _⟩ := List.findIdx?_eq_some_iff_getElem.mp h
    exact List.getElem?_eq_some_iff.mpr ⟨hlt, beq_iff_eq.mp hrate⟩
  · intro h
    have hlt : code < 7 := (List.getElem?_eq_some_iff.mp h).1
    interval_cases code <;> cases h <;> rfl

/-- Where the table of rates has an entry, the table of SYT intervals has one (R130, R131). -/
theorem sytIntervalOf_of_rateOf {code rate : Nat} (h : rateOf code = some rate) :
    ∃ interval, sytIntervalOf code = some interval :=
  ⟨_, List.getElem?_eq_getElem (l := [8, 8, 8, 16, 16, 32, 32]) (List.getElem?_eq_some_iff.mp h).1⟩

/-- The host rates SET_PARAMS takes are those of the table, doubled with dual wire (R136). -/
theorem wireCode_eq_some_iff {rate code interval : Nat} {dual : Bool} :
    wireCode rate dual = some (code, interval) ↔ ∃ wireRate, rateOf code = some wireRate ∧
      sytIntervalOf code = some interval ∧ rate = if dual then 2 * wireRate else wireRate := by
  constructor
  · intro h
    unfold wireCode at h
    split at h
    case isTrue => cases h
    case isFalse hodd =>
      cases hsfc : sfcOfRate (if dual then rate / 2 else rate) with
      | none =>
        rw [hsfc] at h
        cases h
      | some wire =>
        have hrate := sfcOfRate_eq_some_iff.mp hsfc
        obtain ⟨syt, hi⟩ := sytIntervalOf_of_rateOf hrate
        simp only [hsfc, hi, Option.some.injEq, Prod.mk.injEq] at h
        obtain ⟨rfl, rfl⟩ := h
        refine ⟨_, hrate, hi, ?_⟩
        cases dual with
        | false => rfl
        | true =>
          have heven : rate % 2 = 0 := by simpa using hodd
          exact (Nat.mul_div_cancel' (Nat.dvd_of_mod_eq_zero heven)).symm
  · rintro ⟨wireRate, hrate, hi, rfl⟩
    have hsfc := sfcOfRate_eq_some_iff.mpr hrate
    cases dual <;> simp [wireCode, hsfc, hi]

/-- An entry of the default position map (R137). -/
theorem getElem_defaultPositions (n : Nat) (v : Vector (BitVec 8) 64) (k : Nat) (hk : k < 64) :
    (defaultPositions n v)[k] = if k < n then BitVec.ofNat 8 k else v[k] := by
  induction n with
  | zero => rfl
  | succ n ih =>
    have hstep : defaultPositions (n + 1) v = (defaultPositions n v).setIfInBounds n (BitVec.ofNat 8 n) := by
      simp [defaultPositions, List.range_succ]
    simp only [hstep, Vector.getElem_setIfInBounds, ih]
    by_cases h : n = k
    · simp [h]
    · simp [h, show k < n + 1 ↔ k < n by omega]

section
variable {σ : State} {s rate ch ports : Nat} {blocking dual : Bool}

theorem exec_setParams_of_not_free (hs : s < σ.streams.length)
    (h : ¬ (((σ.stream s).state = .idle ∨ (σ.stream s).state = .configured) ∧ (σ.stream s).pcm = none)) :
    exec (.setParams s rate ch ports blocking dual) σ = σ.reply .errState := by
  refine (if_pos hs).trans ?_
  by_cases hset : (σ.stream s).state = .idle ∨ (σ.stream s).state = .configured
  · have hpcm : (σ.stream s).pcm.isSome = true := Option.isSome_iff_ne_none.mpr fun hp => h ⟨hset, hp⟩
    rw [if_neg ((Context.not_settable_iff _).not_left.mpr hset), if_pos hpcm]
  · exact if_pos ((Context.not_settable_iff _).mpr hset)

/-- The rate is the first operand to be checked. -/
theorem exec_setParams_of_no_rate (hs : s < σ.streams.length)
    (hset : (σ.stream s).state = .idle ∨ (σ.stream s).state = .configured) (hpcm : (σ.stream s).pcm = none)
    (hw : wireCode rate dual = none) :
    exec (.setParams s rate ch ports blocking dual) σ = σ.reply .errParam := by
  refine (if_pos hs).trans ?_
  rw [if_neg ((Context.not_settable_iff _).not_left.mpr hset), hpcm, hw]
  rfl

theorem exec_setParams_of_rate {code interval : Nat} (hs : s < σ.streams.length)
    (hset : (σ.stream s).state = .idle ∨ (σ.stream s).state = .configured) (hpcm : (σ.stream s).pcm = none)
    (hw : wireCode rate dual = some (code, interval)) :
    exec (.setParams s rate ch ports blocking dual) σ =
      if Config.pcmChannelsMax < ch ∨ Config.midiPortsMax < ports then σ.reply .errParam
      else if ch = 0 ∧ ports = 0 then σ.reply .errParam
      else (σ.setStream s ((σ.stream s).parameterized code interval ch ports blocking dual)).reply .ok := by
  refine (if_pos hs).trans ?_
  rw [if_neg ((Context.not_settable_iff _).not_left.mpr hset), hpcm, hw]
  rfl

end

/-- Settles O11: the operands pass every check, and the maps are the default ones. -/
theorem setParamsConfigures : Obligations.SetParamsConfigures := by
  intro σ s rate ch ports code interval wireRate blocking dual hs c slots hset hpcm hrate hi hr hch hports hne
  have hw := wireCode_eq_some_iff.mpr ⟨wireRate, hrate, hi, hr⟩
  have hslots : slots = ch * (if dual then 2 else 1) := by
    cases dual with
    | false => exact (Nat.mul_one ch).symm
    | true => exact Nat.mul_comm 2 ch
  refine ⟨defaultPositions ch c.pcmPositions, fun k hk => getElem_defaultPositions ch _ k hk, ?_⟩
  have hmax : ¬ (Config.pcmChannelsMax < ch ∨ Config.midiPortsMax < ports) :=
    not_or.mpr ⟨Nat.not_lt.mpr hch, Nat.not_lt.mpr hports⟩
  rw [exec_setParams_of_rate hs hset hpcm hw, if_neg hmax, if_neg (by omega), hslots]
  rfl

/-- Settles O12: a rate outside the table has no code, and with a code one of the other operands is out of range. -/
theorem setParamsRefuses : Obligations.SetParamsRefuses := by
  intro σ s rate ch ports blocking dual hs c free rates good
  refine ⟨fun hfree => exec_setParams_of_not_free hs hfree, fun ⟨hset, hpcm⟩ hbad => ?_⟩
  cases hw : wireCode rate dual with
  | none => exact exec_setParams_of_no_rate hs hset hpcm hw
  | some p =>
    obtain ⟨wireRate, hrate, -, hr⟩ := wireCode_eq_some_iff.mp (show wireCode rate dual = some (p.1, p.2) from hw)
    have hmem : wireRate ∈ rates := List.mem_of_getElem? hrate
    have hgood : if dual then ∃ r ∈ rates, rate = 2 * r else rate ∈ rates := by
      cases dual with
      | false => exact hr ▸ hmem
      | true => exact ⟨wireRate, hmem, hr⟩
    rw [exec_setParams_of_rate hs hset hpcm hw]
    by_cases hmax : Config.pcmChannelsMax < ch ∨ Config.midiPortsMax < ports
    · exact if_pos hmax
    · obtain ⟨hch, hports⟩ := not_or.mp hmax
      have hempty : ch = 0 ∧ ports = 0 := by
        by_contra hne
        exact hbad ⟨hgood, Nat.not_lt.mp hch, Nat.not_lt.mp hports, by omega⟩
      rw [if_neg hmax, if_pos hempty]
      rfl

/-! ### Positions, format and delay (R139 to R142) -/

section
variable {σ : State} {s : Nat}

theorem exec_setPcmPosition_of_lt (ch slot : Nat) (hs : s < σ.streams.length) : exec (.setPcmPosition s ch slot) σ =
    if (σ.stream s).state ≠ .configured then σ.reply .errState
    else if (σ.stream s).pcmChannels.toNat ≤ ch then σ.reply .errParam
    else if (σ.stream s).dataBlockQuadlets.toNat ≤ (if (σ.stream s).dualWire then 2 * slot + 1 else slot) then
      σ.reply .errParam
    else (σ.setStream s { σ.stream s with
      pcmPositions := (σ.stream s).pcmPositions.setIfInBounds ch (BitVec.ofNat 8 slot) }).reply .ok := if_pos hs

theorem exec_setMidiPosition_of_lt (slot : Nat) (hs : s < σ.streams.length) : exec (.setMidiPosition s slot) σ =
    if (σ.stream s).state ≠ .configured then σ.reply .errState
    else if (σ.stream s).midiPorts = 0 ∨ (σ.stream s).dataBlockQuadlets.toNat ≤ slot then σ.reply .errParam
    else (σ.setStream s { σ.stream s with midiPosition := BitVec.ofNat 8 slot }).reply .ok := if_pos hs

theorem exec_setPcmFormat_of_lt (f : SampleFormat) (hs : s < σ.streams.length) : exec (.setPcmFormat s f) σ =
    if (σ.stream s).state = .absent then σ.reply .errState
    else if (σ.stream s).pcm.isSome then σ.reply .errState
    else if (σ.stream s).direction = .receive ∧ f = .s16 then σ.reply .errParam
    else (σ.setStream s { σ.stream s with pcmFormat := f }).reply .ok := if_pos hs

theorem exec_setTransferDelay_of_lt {ticks : Nat} (ht : ticks ≤ 65535) (hs : s < σ.streams.length) :
    exec (.setTransferDelay s ticks) σ =
      if !(σ.stream s).settable then σ.reply .errState
      else (σ.setStream s { σ.stream s with transferDelayBase := BitVec.ofNat 16 ticks }).reply .ok :=
  (if_pos (decide_eq_true ht)).trans (if_pos hs)

end

/-- Settles O13: the checks in their order, and one entry of the map. -/
theorem positionCommandsSetTheMaps : Obligations.PositionCommandsSetTheMaps := by
  intro σ s slot hs c
  refine ⟨fun hstate => ?_, fun hstate => ?_⟩
  · exact ⟨fun ch => (exec_setPcmPosition_of_lt ch slot hs).trans (if_pos hstate),
      (exec_setMidiPosition_of_lt slot hs).trans (if_pos hstate)⟩
  have hpcm := fun ch => (exec_setPcmPosition_of_lt ch slot hs).trans (if_neg (not_not.mpr hstate))
  have hmidi := (exec_setMidiPosition_of_lt slot hs).trans (if_neg (not_not.mpr hstate))
  refine ⟨fun ch _ hch hslot => ?_, fun ch hbad => ?_, fun hports hslot => ?_, fun hbad => ?_⟩
  · refine ⟨c.pcmPositions.setIfInBounds ch (BitVec.ofNat 8 slot), fun k hk => ?_, ?_⟩
    · simp only [Vector.getElem_setIfInBounds, eq_comm]
    · rw [hpcm, if_neg (Nat.not_le.mpr hch), if_neg (Nat.not_le.mpr hslot)]
      rfl
  · rw [hpcm]
    by_cases hch : c.pcmChannels.toNat ≤ ch
    · exact if_pos hch
    · rw [if_neg hch, if_pos (hbad.resolve_left hch)]
      rfl
  · rw [hmidi, if_neg (not_or.mpr ⟨hports, Nat.not_le.mpr hslot⟩)]
    rfl
  · exact hmidi.trans (if_pos hbad)

/-- Settles O14: SET_PCM_FORMAT checks state, buffer and direction in this order, SET_TRANSFER_DELAY the state. -/
theorem formatAndDelayAreSet : Obligations.FormatAndDelayAreSet := by
  intro σ s hs c
  have hformat := fun f => exec_setPcmFormat_of_lt f hs
  have hdelay := fun ticks (ht : ticks ≤ 65535) => exec_setTransferDelay_of_lt ht hs
  have hset := c.not_settable_iff
  refine ⟨fun f hstate hpcm hf => ?_, fun hstate hpcm hdir => ?_, fun f hstate hpcm => ?_, fun f habsent => ?_,
    fun ticks ht hstate => ?_, fun ticks ht hstate => ?_⟩
  · have hok : ¬ (c.direction = .receive ∧ f = .s16) := by
      rintro ⟨hdir, rfl⟩
      exact hf.elim (by rw [hdir]; exact nofun) nofun
    rw [hformat, if_neg hstate, if_neg (by rw [hpcm]; exact nofun), if_neg hok]
    rfl
  · rw [hformat, if_neg hstate, if_neg (by rw [hpcm]; exact nofun), if_pos ⟨hdir, rfl⟩]
    rfl
  · rw [hformat, if_neg hstate, if_pos (Option.isSome_iff_ne_none.mpr hpcm)]
    rfl
  · exact (hformat f).trans (if_pos habsent)
  · exact (hdelay ticks ht).trans (if_neg (hset.not_left.mpr hstate))
  · refine (hdelay ticks ht).trans (if_pos (hset.mpr ?_))
    rcases hstate with h | h | h <;> rw [h] <;> decide

/-! ### SET_SYNC (R143) -/

/-- The master and its old slave may be paired anew: SET_SYNC's checks before those of the target. -/
def State.PairingFree (σ : State) (m : Nat) : Prop :=
  ((σ.stream m).state = .idle ∨ (σ.stream m).state = .configured) ∧
    ∀ old, (σ.stream m).syncSlave = some old → (σ.stream old).active = false

theorem State.pairingFree_iff (σ : State) (m : Nat) : σ.PairingFree m ↔
    ¬ (σ.stream m).state = .absent ∧ ¬ (σ.stream m).active = true ∧
      ¬ (σ.stream m).syncSlave.any (fun old => (σ.stream old).active) = true := by
  rw [State.PairingFree, ← not_not (a := (σ.stream m).state = .idle ∨ _), ← Context.absent_or_active_iff, not_or,
    and_assoc, Option.any_eq_true]
  push Not
  simp only [Bool.not_eq_true]

/-- Another stream has `t` as its slave. -/
theorem State.hasOtherMaster_iff (σ : State) (m t : Nat) : σ.hasOtherMaster m t = true ↔
    ¬ ∀ m2 < σ.streams.length, m2 ≠ m → (σ.stream m2).syncSlave ≠ some t := by
  simp only [State.hasOtherMaster, List.any_eq_true, List.mem_range, Bool.and_eq_true, bne_iff_ne, beq_iff_eq]
  push Not
  rfl

section
variable {σ : State} {m : Nat}

theorem exec_setSync_of_not_free {t : Option Nat} (hm : m < σ.streams.length)
    (ht : t.all (fun t => decide (t < σ.streams.length)) = true) (h : ¬ σ.PairingFree m) :
    exec (.setSync m t) σ = σ.reply .errState := by
  refine (if_pos ht).trans <| (if_pos hm).trans ?_
  dsimp only
  split
  · rfl
  split
  · rfl
  split
  · rfl
  exact absurd ((σ.pairingFree_iff m).mpr ⟨‹_›, ‹_›, ‹_›⟩) h

theorem exec_setSync_none_of_free (hm : m < σ.streams.length) (h : σ.PairingFree m) : exec (.setSync m none) σ =
    (σ.setStream m { σ.stream m with syncSlave := none }).reply .ok := by
  obtain ⟨hpresent, hstopped, hold⟩ := (σ.pairingFree_iff m).mp h
  exact (if_pos hm).trans <| (if_neg hpresent).trans <| (if_neg hstopped).trans (if_neg hold)

theorem exec_setSync_some_of_free {t : Nat} (hm : m < σ.streams.length) (ht : t < σ.streams.length)
    (h : σ.PairingFree m) : exec (.setSync m (some t)) σ =
      if t = m then σ.reply .errParam
      else if (σ.stream t).state = .absent ∨ (σ.stream t).active = true then σ.reply .errState
      else if (σ.stream m).direction ≠ .receive ∨ (σ.stream t).direction ≠ .send then σ.reply .errParam
      else if σ.hasOtherMaster m t then σ.reply .errParam
      else (σ.setStream m { σ.stream m with syncSlave := some t }).reply .ok := by
  obtain ⟨hpresent, hstopped, hold⟩ := (σ.pairingFree_iff m).mp h
  exact (if_pos (decide_eq_true ht)).trans <| (if_pos hm).trans <| (if_neg hpresent).trans <|
    (if_neg hstopped).trans (if_neg hold)

end

/-- Settles O15: the master's checks first, then those of the target in their order. -/
theorem setSyncPairs : Obligations.SetSyncPairs := by
  intro σ m hm c free
  refine ⟨fun h => exec_setSync_of_not_free hm Option.all_none h, fun h => exec_setSync_none_of_free hm h, ?_⟩
  intro t ht tc stopped fits
  have hstop := tc.absent_or_active_iff
  have hother := σ.hasOtherMaster_iff m t
  refine ⟨fun h => exec_setSync_of_not_free hm (decide_eq_true ht) h, fun h e => ?_, fun h hne hs => ?_,
    fun h hne hs hfits => ?_, fun h hne hs ⟨hdir, htdir, hone⟩ => ?_⟩
  all_goals rw [exec_setSync_some_of_free hm ht h]
  · exact if_pos e
  · rw [if_neg hne, if_pos (hstop.mpr hs)]
    rfl
  · rw [if_neg hne, if_neg (hstop.not_left.mpr hs)]
    by_cases hdir : c.direction ≠ .receive ∨ tc.direction ≠ .send
    · exact if_pos hdir
    · obtain ⟨hdir', htdir'⟩ := not_or.mp hdir
      rw [if_neg hdir, if_pos (hother.mpr fun hone => hfits ⟨not_not.mp hdir', not_not.mp htdir', hone⟩)]
      rfl
  · rw [if_neg hne, if_neg (hstop.not_left.mpr hs), if_neg (not_or.mpr ⟨not_not.mpr hdir, not_not.mpr htdir⟩),
      if_neg (hother.not_left.mpr hone)]
    rfl

end Sys2Proof.Machine
end

section
/-! SUPPORT. The sample codec's words as numbers (41_codec.md R161 to R163, R169, R171). -/

namespace Sys2Proof.Machine

/-! ### PCM -/

/-- A sample of 24 bits under the label 0x40. -/
theorem toNat_or_label {y : Quadlet} (hy : y.toNat < 2 ^ 24) :
    (y ||| 0x40000000#32).toNat = 0x40 * 2 ^ 24 + y.toNat := by
  have hlabel : 0x40000000#32 = (0x40#8).setWidth 32 <<< 24 := by decide
  rw [BitVec.or_comm, hlabel, toNat_field_or _ _ (by decide) hy]
  rfl

theorem toNat_enc32 (x : BitVec 32) : (enc32 x).toNat = 0x40 * 2 ^ 24 + x.toNat / 2 ^ 8 := by
  have hshift : (x >>> 8).toNat = x.toNat / 2 ^ 8 := by rw [BitVec.toNat_ushiftRight, Nat.shiftRight_eq_div_pow]
  rw [enc32, toNat_or_label (by omega), hshift]

theorem toNat_enc16 (y : BitVec 16) : (enc16 y).toNat = 0x40 * 2 ^ 24 + y.toNat * 2 ^ 8 := by
  have hshift : (y.setWidth 32 <<< 8).toNat = y.toNat * 2 ^ 8 := by
    rw [BitVec.toNat_shiftLeft, toNat_low y (by decide), Nat.shiftLeft_eq]
    omega
  rw [enc16, toNat_or_label (by omega), hshift]

/-- The label is shifted out (R163). -/
theorem toNat_dec32 (q : Quadlet) : (dec32 q).toNat = q.toNat % 2 ^ 24 * 256 := by
  rw [dec32, BitVec.toNat_shiftLeft, Nat.shiftLeft_eq]
  omega

/-- Settles O34: both encoders put the label above 24 bits, and DECODE shifts it out. -/
theorem samplesRoundTrip : Obligations.SamplesRoundTrip := by
  refine ⟨fun x => ?_, fun y => ?_⟩
  · rw [toNat_dec32, toNat_enc32]
    omega
  · rw [toNat_dec32, toNat_enc16]
    omega

/-! ### MPX-MIDI -/

theorem toNat_midiOne (b : Byte) : (midiOne b).toNat = 0x81000000 + b.toNat * 2 ^ 16 := by
  have hlabel : 0x81000000#32 = (0x81#8).setWidth 32 <<< 24 := by decide
  have hbyte : (b.setWidth 32 <<< 16).toNat = b.toNat * 2 ^ 16 := by
    rw [BitVec.toNat_shiftLeft, toNat_low b (by decide), Nat.shiftLeft_eq]
    omega
  rw [midiOne, hlabel, toNat_field_or _ _ (by decide) (by omega), hbyte]
  rfl

/-- The receiver reads back the byte of a one-byte quadlet. -/
theorem midiBytes_midiOne (b : Byte) : midiBytes (midiOne b) = [b] := by
  simp [midiBytes, midiOne, BitVec.extractLsb'_or]

theorem midiBytes_midiNoData : midiBytes midiNoData = [] := by decide

/-- The MIDI bytes of a quadlet by its number: the label says how many of the three data bytes count (R171). -/
theorem midiBytes_eq (q : Quadlet) :
    midiBytes q =
      if 0x81 ≤ q.toNat / 2 ^ 24 ∧ q.toNat / 2 ^ 24 ≤ 0x83 then
        [BitVec.ofNat 8 (q.toNat / 2 ^ 16), BitVec.ofNat 8 (q.toNat / 2 ^ 8), BitVec.ofNat 8 q.toNat].take
          (q.toNat / 2 ^ 24 - 0x80)
      else [] := by
  have hfield : ∀ k, q.extractLsb' k 8 = BitVec.ofNat 8 (q.toNat / 2 ^ k) := fun k => by
    rw [BitVec.extractLsb', Nat.shiftRight_eq_div_pow]
  have hlabel : ∀ v < 256, q.extractLsb' 24 8 = BitVec.ofNat 8 v ↔ q.toNat / 2 ^ 24 = v := fun v hv => by
    have := q.isLt
    rw [hfield, ← BitVec.toNat_inj, BitVec.toNat_ofNat, BitVec.toNat_ofNat]
    omega
  simp only [midiBytes, hlabel 0x81 (by decide), hlabel 0x82 (by decide), hlabel 0x83 (by decide)]
  simp only [hfield, Nat.pow_zero, Nat.div_one]
  split
  · next h => rw [h]; rfl
  split
  · next h => rw [h]; rfl
  split
  · next h => rw [h]; rfl
  · rw [if_neg (by omega)]

end Sys2Proof.Machine
end

section
/-! SUPPORT. What a packet's stores cover (30_encoding.md R90; 40_tables_config.md R138): with valid maps each slot of
each data block is stored at most once, and with sound parameters every one is; so a built packet's PCM slots are read
back (41_codec.md R165 to R167) and no byte of it is an old pool byte (R173). -/

namespace Sys2Proof.Machine

/-! ### The slots of the data blocks -/

/-- The quadlet of a packet that is wire slot `k` of data block `b` (30_encoding.md R90). -/
def Context.slotQuadlet (c : Context) (b k : Nat) : Nat := 2 + b * c.dataBlockQuadlets.toNat + k

/-- The wire slots that the position map of the channels names. -/
def Context.pcmNamedSlots (c : Context) : List Nat :=
  (List.range c.pcmChannels.toNat).flatMap fun ch => (c.channelSlots ch).map Prod.fst

/-- The wire slot of MPX-MIDI, where MIDI is configured. -/
def Context.midiNamedSlots (c : Context) : List Nat := if 0 < c.midiPorts.toNat then [c.midiPosition.toNat] else []

theorem Context.namedSlots_eq (c : Context) : c.namedSlots = c.pcmNamedSlots ++ c.midiNamedSlots := rfl

/-- The quadlets of a packet of `n` data blocks that the maps name. -/
def Context.namedQuadlets (c : Context) (n : Nat) : List Nat :=
  (List.range n).flatMap fun b => c.namedSlots.map (c.slotQuadlet b)

/-- A number has one quotient and one remainder. -/
theorem mul_add_inj {m q q' r r' : Nat} (hr : r < m) (hr' : r' < m) (h : q * m + r = q' * m + r') :
    q = q' ∧ r = r' := by
  have hpos : 0 < m := Nat.zero_lt_of_lt hr
  obtain ⟨hdiv, hmod⟩ := (Nat.div_mod_unique (a := r + m * q) hpos).mpr ⟨rfl, hr⟩
  obtain ⟨hdiv', hmod'⟩ := (Nat.div_mod_unique (a := r' + m * q') hpos).mpr ⟨rfl, hr'⟩
  rw [Nat.mul_comm q, Nat.mul_comm q', Nat.add_comm, Nat.add_comm _ r'] at h
  exact ⟨hdiv.symm.trans (h ▸ hdiv'), hmod.symm.trans (h ▸ hmod')⟩

/-- A slot's quadlet lies behind the header. -/
theorem Context.two_le_slotQuadlet (c : Context) (b k : Nat) : 2 ≤ c.slotQuadlet b k :=
  (Nat.le_add_right 2 _).trans (Nat.le_add_right _ _)

/-- Slots of different places in a packet are different quadlets. -/
theorem Context.slotQuadlet_inj {c : Context} {b b' k k' : Nat} (hk : k < c.dataBlockQuadlets.toNat)
    (hk' : k' < c.dataBlockQuadlets.toNat) (h : c.slotQuadlet b k = c.slotQuadlet b' k') : b = b' ∧ k = k' := by
  simp only [Context.slotQuadlet] at h
  exact mul_add_inj hk hk' (by omega)

/-- A slot of a data block lies inside the packet. -/
theorem Context.slotQuadlet_end_le {c : Context} {n b k : Nat} (hb : b < n) (hk : k < c.dataBlockQuadlets.toNat) :
    4 * c.slotQuadlet b k + 4 ≤ c.packetLength n := by
  have hblock : (b + 1) * c.dataBlockQuadlets.toNat ≤ n * c.dataBlockQuadlets.toNat := Nat.mul_le_mul_right _ hb
  rw [Nat.add_mul, Nat.one_mul] at hblock
  simp only [Context.slotQuadlet, Context.packetLength, Nat.mul_assoc 4]
  omega

/-- Every quadlet of a packet behind its header is a slot of a data block. -/
theorem Context.exists_slotQuadlet {c : Context} {n k : Nat} (hk : 2 ≤ k) (hlt : 4 * k < c.packetLength n) :
    ∃ b < n, ∃ r < c.dataBlockQuadlets.toNat, k = c.slotQuadlet b r := by
  simp only [Context.packetLength, Nat.mul_assoc 4] at hlt
  have hin : k - 2 < n * c.dataBlockQuadlets.toNat := by omega
  have hpos : 0 < c.dataBlockQuadlets.toNat := Nat.pos_of_mul_pos_left (Nat.zero_lt_of_lt hin)
  have hsplit := Nat.div_add_mod' (k - 2) c.dataBlockQuadlets.toNat
  refine ⟨(k - 2) / c.dataBlockQuadlets.toNat, Nat.div_lt_of_lt_mul (by rwa [Nat.mul_comm]),
    (k - 2) % c.dataBlockQuadlets.toNat, Nat.mod_lt _ hpos, ?_⟩
  simp only [Context.slotQuadlet]
  omega

/-- With valid maps no quadlet of a packet is named twice. -/
theorem Context.nodup_namedQuadlets {c : Context} (h : c.mapsOk = true) (n : Nat) : (c.namedQuadlets n).Nodup := by
  obtain ⟨hnodup, hlt⟩ := c.mapsOk_iff.mp h
  refine List.nodup_flatMap.mpr ⟨fun b _ => hnodup.map_on fun k hk k' hk' he =>
    (Context.slotQuadlet_inj (hlt k hk) (hlt k' hk') he).2, List.nodup_range.imp fun {b b'} hne q hq hq' => ?_⟩
  obtain ⟨k, hk, rfl⟩ := List.mem_map.mp hq
  obtain ⟨k', hk', he⟩ := List.mem_map.mp hq'
  exact hne (Context.slotQuadlet_inj (hlt k' hk') (hlt k hk) he).1.symm

/-- With valid maps and sound parameters the maps name every slot of a data block. -/
theorem Context.mem_namedSlots {c : Context} (h : c.mapsOk = true) (hp : c.ParamsSound) {k : Nat}
    (hk : k < c.dataBlockQuadlets.toNat) : k ∈ c.namedSlots := by
  obtain ⟨hnodup, hlt⟩ := c.mapsOk_iff.mp h
  have hslots : ∀ ch, (c.channelSlots ch).length = c.framesPerBlock := fun ch => by
    unfold Context.channelSlots Context.framesPerBlock
    split <;> rfl
  have hlen : c.namedSlots.length = c.dataBlockQuadlets.toNat := by
    rw [hp.blockSize, c.namedSlots_eq, List.length_append, Context.pcmNamedSlots, Context.midiNamedSlots]
    simp only [List.length_flatMap, List.length_map, hslots, List.map_const', List.length_range, List.sum_replicate,
      smul_eq_mul, Context.pcmSlotCount]
    split <;> rfl
  have hsub : c.namedSlots ⊆ List.range c.dataBlockQuadlets.toNat := fun k hk => List.mem_range.mpr (hlt k hk)
  have hperm := (hnodup.subperm hsub).perm_of_length_le (by rw [hlen, List.length_range])
  exact hperm.mem_iff.mpr (List.mem_range.mpr hk)

/-! ### The stores of a packet -/

/-- What a packet's PCM slot holds: the sample of its frame and channel, or silence (41_codec.md R165 to R167). -/
def Context.payloadQuadlet (c : Context) (order : ByteOrder) (p : PcmSlot) : Quadlet :=
  match c.pcm with
  | some b => c.encodedSample order (c.hostFrame b p.frame) p.channel
  | none => silence

theorem Context.payloadQuadlet_none {c : Context} (h : c.pcm = none) (order : ByteOrder) (p : PcmSlot) :
    c.payloadQuadlet order p = silence := by
  rw [Context.payloadQuadlet, h]

theorem Context.payloadQuadlet_some {c : Context} {b : Binding} (h : c.pcm = some b) (order : ByteOrder) (p : PcmSlot) :
    c.payloadQuadlet order p = c.encodedSample order (c.hostFrame b p.frame) p.channel := by
  rw [Context.payloadQuadlet, h]

theorem Context.payloadWrites_eq (c : Context) (order : ByteOrder) (n : Nat) :
    c.payloadWrites order n = (c.pcmSlots n).map fun p => (p.quadlet, c.payloadQuadlet order p) := by
  cases hpcm : c.pcm with
  | none => simp only [Context.payloadWrites, Context.silenceWrites, Context.payloadQuadlet, hpcm]
  | some b => simp only [Context.payloadWrites, Context.encodeWrites, Context.payloadQuadlet, hpcm]

theorem Context.pcmSlots_quadlets (c : Context) (n : Nat) :
    (c.pcmSlots n).map PcmSlot.quadlet = (List.range n).flatMap fun b => c.pcmNamedSlots.map (c.slotQuadlet b) := by
  simp only [Context.pcmSlots, Context.pcmNamedSlots, List.map_flatMap, List.map_map]
  rfl

theorem Context.midiFill_quadlets (c : Context) (n : Nat) :
    (c.midiFill n).1.map Prod.fst = (List.range n).flatMap fun b => c.midiNamedSlots.map (c.slotQuadlet b) := by
  unfold Context.midiFill Context.midiNamedSlots
  split
  · rw [Context.fillFrom_fst]
    simp only [List.map_cons, List.map_nil, ← List.map_eq_flatMap, Nat.zero_add]
    rfl
  · simp

/-- What CIP_BUILD, ENCODE or SILENCE and MIDI_FILL store for a packet (43_transmit.md R222). -/
def Context.packetWrites (c : Context) (order : ByteOrder) (n : Nat) (syt : BitVec 16) : List (Nat × Quadlet) :=
  c.headerWrites syt ++ c.payloadWrites order n ++ (c.midiFill n).1

theorem Context.builtDescriptor_packetWrites (c : Context) (order : ByteOrder) (n : Nat) (syt : BitVec 16) :
    (c.buildPacket order n syt).builtDescriptor n =
      .tx ((c.writeSlot c.packetIndex.toNat (c.packetWrites order n syt)).slotBytes c.packetIndex.toNat
        (c.packetLength n)) := c.builtDescriptor_buildPacket order n syt

/-- A packet stores its header and the slots its maps name. -/
theorem Context.packetWrites_quadlets (c : Context) (order : ByteOrder) (n : Nat) (syt : BitVec 16) :
    ((c.packetWrites order n syt).map Prod.fst).Perm (0 :: 1 :: c.namedQuadlets n) := by
  have hpcm : (c.payloadWrites order n).map Prod.fst = (c.pcmSlots n).map PcmSlot.quadlet := by
    rw [Context.payloadWrites_eq, List.map_map]
    rfl
  simp only [Context.packetWrites, Context.headerWrites, List.cons_append, List.nil_append, List.map_cons,
    List.map_append, hpcm, Context.pcmSlots_quadlets, Context.midiFill_quadlets, Context.namedQuadlets,
    Context.namedSlots_eq]
  exact ((List.flatMap_append_perm ..).cons 1).cons 0

/-- With valid maps a packet stores no quadlet twice. -/
theorem Context.nodup_packetWrites {c : Context} (h : c.mapsOk = true) (order : ByteOrder) (n : Nat)
    (syt : BitVec 16) : ((c.packetWrites order n syt).map Prod.fst).Nodup := by
  have hslot : ∀ q ∈ c.namedQuadlets n, 2 ≤ q := fun q hq => by
    obtain ⟨b, -, hq⟩ := List.mem_flatMap.mp hq
    obtain ⟨k, -, rfl⟩ := List.mem_map.mp hq
    exact c.two_le_slotQuadlet b k
  refine (c.packetWrites_quadlets order n syt).nodup_iff.mpr ?_
  refine List.nodup_cons.mpr ⟨fun h0 => ?_, List.nodup_cons.mpr ⟨fun h1 => ?_, Context.nodup_namedQuadlets h n⟩⟩
  · rcases List.mem_cons.mp h0 with h0 | h0
    · cases h0
    · exact absurd (hslot 0 h0) (by decide)
  · exact absurd (hslot 1 h1) (by decide)

/-! ### PCM slots (41_codec.md R165 to R167) -/

/-- A wire slot of a channel gives a PCM slot in each data block. -/
theorem Context.pcmSlot_mem {c : Context} {n b ch k i : Nat} (hb : b < n) (hch : ch < c.pcmChannels.toNat)
    (hki : (k, i) ∈ c.channelSlots ch) : ⟨c.slotQuadlet b k, b * c.framesPerBlock + i, ch⟩ ∈ c.pcmSlots n :=
  List.mem_flatMap.mpr ⟨b, List.mem_range.mpr hb, List.mem_flatMap.mpr ⟨ch, List.mem_range.mpr hch,
    List.mem_map.mpr ⟨(k, i), hki, rfl⟩⟩⟩

/-- With valid maps each PCM slot of a built packet is read back. -/
theorem Context.quadletAt_buildPacket_pcm {c : Context} {order : ByteOrder} {n : Nat} {syt : BitVec 16}
    {bytes : List Byte} (hmaps : c.mapsOk = true)
    (hbuilt : (c.buildPacket order n syt).builtDescriptor n = .tx bytes) {b ch k i : Nat} (hb : b < n)
    (hch : ch < c.pcmChannels.toNat) (hki : (k, i) ∈ c.channelSlots ch) :
    quadletAt bytes (c.slotQuadlet b k) =
      c.payloadQuadlet order ⟨c.slotQuadlet b k, b * c.framesPerBlock + i, ch⟩ := by
  rw [Context.builtDescriptor_packetWrites, Descriptor.tx.injEq] at hbuilt
  subst hbuilt
  have hnamed : k ∈ c.namedSlots := List.mem_append_left _
    (List.mem_flatMap.mpr ⟨ch, List.mem_range.mpr hch, List.mem_map_of_mem hki⟩)
  refine c.quadletAt_writeSlot _ _ _ _ _ (Context.nodup_packetWrites hmaps order n syt) ?_
    (Context.slotQuadlet_end_le hb ((c.mapsOk_iff.mp hmaps).2 k hnamed))
  refine List.mem_append_left _ (List.mem_append_right _ ?_)
  rw [Context.payloadWrites_eq]
  exact List.mem_map.mpr ⟨_, Context.pcmSlot_mem hb hch hki, rfl⟩

/-- A channel has one slot a data block without dual wire. -/
theorem Context.channelSlots_single {c : Context} (h : c.dualWire = false) (ch : Nat) :
    c.channelSlots ch = [(c.position ch, 0)] := by
  rw [Context.channelSlots, h]
  rfl

/-- A channel has two slots a data block with dual wire, for its two frames. -/
theorem Context.channelSlots_dual {c : Context} (h : c.dualWire = true) (ch : Nat) :
    c.channelSlots ch = [(2 * c.position ch, 0), (2 * c.position ch + 1, 1)] := by
  rw [Context.channelSlots, h]
  rfl

theorem Context.framesPerBlock_single {c : Context} (h : c.dualWire = false) : c.framesPerBlock = 1 := by
  rw [Context.framesPerBlock, h]
  rfl

theorem Context.framesPerBlock_dual {c : Context} (h : c.dualWire = true) : c.framesPerBlock = 2 := by
  rw [Context.framesPerBlock, h]
  rfl

/-- Settles O36: no later store of the packet reaches a PCM slot, so each holds what ENCODE or SILENCE put there. -/
theorem builtPacketPcmSlots : Obligations.BuiltPacketPcmSlots := by
  intro c order n syt bytes hmaps hbuilt b hb ch hch at_ sample
  have hread : ∀ k i, (k, i) ∈ c.channelSlots ch →
      at_ k = c.payloadQuadlet order ⟨c.slotQuadlet b k, b * c.framesPerBlock + i, ch⟩ :=
    fun k i => Context.quadletAt_buildPacket_pcm hmaps hbuilt hb hch
  have hsample : ∀ buf k j, c.pcm = some buf → c.payloadQuadlet order ⟨k, j, ch⟩ = sample buf j :=
    fun buf k j hbuf => c.payloadQuadlet_some hbuf order _
  split
  next hpcm hdual =>
    rw [hread _ 0 (by simp [c.channelSlots_single hdual]), c.payloadQuadlet_none hpcm]
    rfl
  next hpcm hdual =>
    rw [hread _ 0 (by simp [c.channelSlots_dual hdual]), hread _ 1 (by simp [c.channelSlots_dual hdual]),
      c.payloadQuadlet_none hpcm, c.payloadQuadlet_none hpcm]
    exact ⟨rfl, rfl⟩
  next buf hpcm hdual =>
    rw [hread _ 0 (by simp [c.channelSlots_single hdual]), hsample buf _ _ hpcm, c.framesPerBlock_single hdual,
      Nat.mul_one, Nat.add_zero]
  next buf hpcm hdual =>
    rw [hread _ 0 (by simp [c.channelSlots_dual hdual]), hread _ 1 (by simp [c.channelSlots_dual hdual]),
      hsample buf _ _ hpcm, hsample buf _ _ hpcm, c.framesPerBlock_dual hdual, Nat.mul_comm b 2, Nat.add_zero]
    exact ⟨rfl, rfl⟩

/-! ### The old pool (41_codec.md R173) -/

/-- A byte that some stored quadlet covers does not depend on what the memory held. -/
theorem byte_storeQuadlets_covered {base a : Nat} {ws : List (Nat × Quadlet)}
    (h : ∃ w ∈ ws, base + 4 * w.1 ≤ a ∧ a < base + 4 * w.1 + 4) (m m' : Memory) (epoch epoch' : Nat) :
    (storeQuadlets base m ws).byte epoch a = (storeQuadlets base m' ws).byte epoch' a := by
  induction ws generalizing m m' with
  | nil => obtain ⟨w, hw, -⟩ := h; cases hw
  | cons w ws ih =>
    by_cases hlater : ∃ w ∈ ws, base + 4 * w.1 ≤ a ∧ a < base + 4 * w.1 + 4
    · exact ih hlater _ _
    · obtain ⟨x, hx, hle, hlt⟩ := h
      obtain rfl : x = w := (List.mem_cons.mp hx).resolve_right fun hx => hlater ⟨x, hx, hle, hlt⟩
      obtain ⟨j, rfl⟩ := Nat.exists_eq_add_of_le hle
      have hother : ∀ y ∈ ws, y.1 ≠ x.1 := fun y hy he => hlater ⟨y, hy, by omega, by omega⟩
      have hread := fun m epoch => byte_storeQuadlets_last base epoch x.1 j x.2 [] ws m hother (by omega)
      exact (hread m epoch).trans (hread m' epoch').symm

/-- What a packet stores covers every byte of it, with valid maps and sound parameters. -/
theorem Context.packetWrites_cover {c : Context} (hmaps : c.mapsOk = true) (hp : c.ParamsSound) (order : ByteOrder)
    {n : Nat} (syt : BitVec 16) {j : Nat} (hj : j < c.packetLength n) :
    ∃ w ∈ c.packetWrites order n syt, 4 * w.1 ≤ j ∧ j < 4 * w.1 + 4 := by
  have hmem : j / 4 ∈ 0 :: 1 :: c.namedQuadlets n := by
    rcases Nat.lt_or_ge (j / 4) 2 with hheader | hslot
    · interval_cases j / 4 <;> simp
    · obtain ⟨b, hb, r, hr, he⟩ := Context.exists_slotQuadlet hslot (n := n) (by omega : 4 * (j / 4) < c.packetLength n)
      rw [he]
      exact List.mem_cons_of_mem _ (List.mem_cons_of_mem _ (List.mem_flatMap.mpr
        ⟨b, List.mem_range.mpr hb, List.mem_map_of_mem (Context.mem_namedSlots hmaps hp hr)⟩))
  obtain ⟨w, hw, he⟩ := List.mem_map.mp ((c.packetWrites_quadlets order n syt).mem_iff.mpr hmem)
  exact ⟨w, hw, by omega, by omega⟩

/-- The stream with another pool. -/
def Context.withPool (c : Context) (pool : Memory) (epoch : Nat) : Context :=
  { c with pool := pool, poolEpoch := epoch }

/-- MIDI_FILL reads no pool byte. -/
theorem Context.fillFrom_withPool (c : Context) (pool : Memory) (epoch n b : Nat) (v : Vector MidiPort 8) :
    (c.withPool pool epoch).fillFrom n b v = c.fillFrom n b v := by
  induction n generalizing b v with
  | zero => rfl
  | succ n ih => exact congrArg (fun rest => ((_, _) :: rest.1, rest.2)) (ih (b + 1) _)

/-- What a packet stores does not depend on the pool. -/
theorem Context.packetWrites_withPool (c : Context) (pool : Memory) (epoch : Nat) (order : ByteOrder) (n : Nat)
    (syt : BitVec 16) : (c.withPool pool epoch).packetWrites order n syt = c.packetWrites order n syt := by
  have hmidi : (c.withPool pool epoch).midiFill n = c.midiFill n := by
    rw [Context.midiFill, Context.fillFrom_withPool]
    rfl
  rw [Context.packetWrites, hmidi]
  rfl

/-- Settles O37: a packet's stores cover its bytes and do not read the pool. -/
theorem transmittedPacketHidesThePool : Obligations.TransmittedPacketHidesThePool := by
  intro c order n syt pool epoch hmaps hp
  change _ = ((c.withPool pool epoch).buildPacket order n syt).builtDescriptor n
  rw [Context.builtDescriptor_packetWrites, Context.builtDescriptor_packetWrites, Context.packetWrites_withPool]
  refine congrArg Descriptor.tx (List.map_congr_left fun j hj => ?_)
  obtain ⟨w, hw, hle, hlt⟩ := Context.packetWrites_cover hmaps hp order syt (List.mem_range.mp hj)
  exact byte_storeQuadlets_covered ⟨w, hw, Nat.add_le_add_left hle _, Nat.add_lt_add_left hlt _⟩ c.pool pool
    c.poolEpoch epoch

end Sys2Proof.Machine
end

section
/-! SUPPORT. MPX-MIDI turn by turn (41_codec.md R169 to R171): what a port sends and what is left of its FIFO, and what
a port's trace gains. -/

namespace Sys2Proof.Machine

theorem midiTurn_lt (dbc b : Nat) : midiTurn dbc b < 8 := Nat.mod_lt _ (by decide)

/-- A port `x` of number `p` takes part in its turns: it is one of `m` configured ports, and bound (R169, R171). -/
abbrev MidiPort.ready (x : MidiPort) (m p : Nat) : Prop := p < m ∧ x.bound = true

/-! ### One turn on transmit -/

section
variable {m port p : Nat} {v : Vector MidiPort 8}

/-- In its turn a configured, bound port with a byte left sends its FIFO's head. -/
theorem fillTurn_send {byte : Byte} {rest : List Byte} (h : (portOf v port).ready m port)
    (hout : (portOf v port).out = byte :: rest) :
    fillTurn m port v = (midiOne byte, setPort v port { portOf v port with out := rest }) := by
  rw [fillTurn, hout]
  exact if_pos h

/-- In its turn an unconfigured, unbound or exhausted port sends the no-data quadlet. -/
theorem fillTurn_idle (h : ¬ (portOf v port).ready m port ∨ (portOf v port).out = []) :
    fillTurn m port v = (midiNoData, v) := by
  cases hout : (portOf v port).out with
  | nil => rw [fillTurn, hout]
  | cons byte rest =>
    rw [fillTurn, hout]
    exact if_neg (h.resolve_right (by rw [hout]; exact List.cons_ne_nil _ _))

/-- What a turn leaves of a port: it takes one head of the FIFO of a configured, bound port whose turn it is. -/
theorem portOf_fillTurn (hport : port < 8) :
    portOf (fillTurn m port v).2 p =
      if p = port ∧ (portOf v p).ready m p then { portOf v p with out := (portOf v p).out.drop 1 }
      else portOf v p := by
  by_cases hsends : (portOf v port).ready m port
  · cases hout : (portOf v port).out with
    | nil =>
      rw [fillTurn_idle (.inr hout)]
      split
      · next h => rw [h.1, hout, List.drop_nil, ← hout]
      · rfl
    | cons byte rest =>
      rw [fillTurn_send hsends hout, portOf_setPort]
      by_cases hp : p = port
      · subst hp
        rw [if_pos ⟨rfl, hport⟩, if_pos ⟨rfl, hsends⟩, hout, List.drop_one, List.tail_cons]
      · rw [if_neg fun h => hp h.1, if_neg fun h => hp h.1]
  · rw [fillTurn_idle (.inl hsends), if_neg]
    rintro ⟨rfl, h⟩
    exact hsends h

/-- A turn loses no byte: what a port held is what the turn's quadlet carries of it, followed by what is left. -/
theorem out_fillTurn (hport : port < 8) :
    (portOf v p).out =
      (if port = p then midiBytes (fillTurn m port v).1 else []) ++ (portOf (fillTurn m port v).2 p).out := by
  by_cases hp : port = p
  · subst hp
    rw [if_pos rfl]
    by_cases hidle : ¬ (portOf v port).ready m port ∨ (portOf v port).out = []
    · rw [fillTurn_idle hidle, midiBytes_midiNoData, List.nil_append]
    · obtain ⟨hsends, hsome⟩ := not_or.mp hidle
      obtain ⟨byte, rest, hout⟩ := List.exists_cons_of_ne_nil hsome
      rw [fillTurn_send (not_not.mp hsends) hout, midiBytes_midiOne, portOf_setPort, if_pos ⟨rfl, hport⟩, hout]
      rfl
  · rw [if_neg hp, portOf_fillTurn hport, if_neg fun h => hp h.1.symm]
    rfl

end

/-! ### MIDI_FILL (R169, R170) -/

/-- The ports after MIDI_FILL over the first `b` data blocks. -/
def Context.filledPorts (c : Context) (b : Nat) : Vector MidiPort 8 := (c.fillFrom b 0 c.midi).2

/-- The quadlet MIDI_FILL stores at data block `b`. -/
def Context.filledQuadlet (c : Context) (b : Nat) : Quadlet :=
  (fillTurn c.midiPorts.toNat (midiTurn c.dbc.toNat b) (c.filledPorts b)).1

/-- How many turns port `p` has in the first `b` data blocks. -/
def Context.turnCount (c : Context) (p b : Nat) : Nat :=
  (List.range b).countP fun b' => midiTurn c.dbc.toNat b' == p

/-- What port `p` sends in the first `n` data blocks. -/
def Context.sentBytes (c : Context) (p n : Nat) : List Byte :=
  (List.range n).flatMap fun b => if midiTurn c.dbc.toNat b = p then midiBytes (c.filledQuadlet b) else []

/-- MIDI_FILL's last block. -/
theorem Context.fillFrom_succ (c : Context) (n b : Nat) (v : Vector MidiPort 8) :
    c.fillFrom (n + 1) b v =
      ((c.fillFrom n b v).1 ++
        [(c.midiQuadlet (b + n), (fillTurn c.midiPorts.toNat (midiTurn c.dbc.toNat (b + n)) (c.fillFrom n b v).2).1)],
        (fillTurn c.midiPorts.toNat (midiTurn c.dbc.toNat (b + n)) (c.fillFrom n b v).2).2) := by
  induction n generalizing b v with
  | zero => rfl
  | succ n ih =>
    rw [Context.fillFrom, ih, Nat.add_right_comm b 1 n]
    rfl

theorem Context.filledPorts_succ (c : Context) (b : Nat) : c.filledPorts (b + 1) =
    (fillTurn c.midiPorts.toNat (midiTurn c.dbc.toNat b) (c.filledPorts b)).2 := by
  rw [Context.filledPorts, Context.fillFrom_succ, Nat.zero_add]
  rfl

/-- MIDI_FILL stores one quadlet a block and leaves the ports of the last one. -/
theorem Context.midiFill_eq {c : Context} (h : 0 < c.midiPorts.toNat) (n : Nat) :
    c.midiFill n = ((List.range n).map fun b => (c.midiQuadlet b, c.filledQuadlet b), c.filledPorts n) := by
  rw [Context.midiFill, if_pos h]
  refine Prod.ext ?_ rfl
  induction n with
  | zero => rfl
  | succ n ih =>
    rw [Context.fillFrom_succ, List.range_succ, List.map_append, ih, Nat.zero_add]
    rfl

section
variable (c : Context) (p b : Nat)

theorem Context.turnCount_succ :
    c.turnCount p (b + 1) = c.turnCount p b + if midiTurn c.dbc.toNat b = p then 1 else 0 := by
  simp [Context.turnCount, List.range_succ]

theorem Context.sentBytes_succ : c.sentBytes p (b + 1) =
    c.sentBytes p b ++ if midiTurn c.dbc.toNat b = p then midiBytes (c.filledQuadlet b) else [] := by
  simp [Context.sentBytes, List.range_succ]

/-- The FIFO of a configured, bound port loses as many heads as the port had turns. -/
theorem Context.portOf_filledPorts :
    portOf (c.filledPorts b) p =
      { portOf c.midi p with
        out := if (portOf c.midi p).ready c.midiPorts.toNat p then
          (portOf c.midi p).out.drop (c.turnCount p b) else (portOf c.midi p).out } := by
  induction b with
  | zero => simp [Context.filledPorts, Context.fillFrom, Context.turnCount]
  | succ b ih =>
    rw [Context.filledPorts_succ, portOf_fillTurn (midiTurn_lt ..), ih, Context.turnCount_succ]
    by_cases hsends : (portOf c.midi p).ready c.midiPorts.toNat p
    · by_cases hturn : midiTurn c.dbc.toNat b = p
      · rw [if_pos ⟨hturn.symm, hsends⟩, if_pos hsends, if_pos hsends, if_pos hturn, List.drop_drop]
      · rw [if_neg fun h => hturn h.1.symm, if_pos hsends, if_pos hsends, if_neg hturn, Nat.add_zero]
    · rw [if_neg fun h => hsends h.2, if_neg hsends, if_neg hsends]

/-- No byte is lost (R170). -/
theorem Context.out_eq_sentBytes_append :
    (portOf c.midi p).out = c.sentBytes p b ++ (portOf (c.filledPorts b) p).out := by
  induction b with
  | zero => rfl
  | succ b ih =>
    rw [Context.sentBytes_succ, Context.filledPorts_succ, List.append_assoc, Context.filledQuadlet,
      ← out_fillTurn (midiTurn_lt ..)]
    exact ih

end

section
variable {c : Context} {p b : Nat}

/-- In its turn a configured, bound port sends the byte behind those of its earlier turns. -/
theorem Context.filledQuadlet_send {byte : Byte} (hturn : midiTurn c.dbc.toNat b = p)
    (hsends : (portOf c.midi p).ready c.midiPorts.toNat p)
    (hbyte : (portOf c.midi p).out[c.turnCount p b]? = some byte) : c.filledQuadlet b = midiOne byte := by
  obtain ⟨hlt, he⟩ := List.getElem?_eq_some_iff.mp hbyte
  have hport := c.portOf_filledPorts p b
  rw [if_pos hsends, List.drop_eq_getElem_cons hlt, he] at hport
  rw [Context.filledQuadlet, hturn, fillTurn_send ⟨hsends.1, by rw [hport]; exact hsends.2⟩ (by rw [hport])]

/-- In its turn a port that does not send, or that has sent all it held, sends the no-data quadlet. -/
theorem Context.filledQuadlet_idle (hturn : midiTurn c.dbc.toNat b = p)
    (hidle : ¬ (portOf c.midi p).ready c.midiPorts.toNat p ∨
      (portOf c.midi p).out.length ≤ c.turnCount p b) : c.filledQuadlet b = midiNoData := by
  have hport := c.portOf_filledPorts p b
  rw [Context.filledQuadlet, hturn, fillTurn_idle]
  rw [hport]
  by_cases hsends : (portOf c.midi p).ready c.midiPorts.toNat p
  · refine .inr ?_
    rw [if_pos hsends]
    exact List.drop_eq_nil_of_le (hidle.resolve_left (not_not.mpr hsends))
  · exact .inl hsends

/-- A port that is not configured or not bound sends nothing. -/
theorem Context.sentBytes_idle (h : ¬ (portOf c.midi p).ready c.midiPorts.toNat p) (n : Nat) :
    c.sentBytes p n = [] := by
  refine List.flatMap_eq_nil_iff.mpr fun b _ => ?_
  split
  · next hturn => rw [Context.filledQuadlet_idle hturn (.inl h), midiBytes_midiNoData]
  · rfl

end

/-- Settles O38: MIDI_FILL turn by turn. -/
theorem midiFillConservesBytes : Obligations.MidiFillConservesBytes := by
  intro c n p _ hports filled quadlet turns sends sent
  have hfilled : filled = ((List.range n).map fun b => (c.midiQuadlet b, c.filledQuadlet b), c.filledPorts n) :=
    Context.midiFill_eq hports n
  have hquadlet : ∀ b < n, quadlet b = c.filledQuadlet b := fun b hb => by
    simp only [quadlet, hfilled, List.getElem?_map, List.getElem?_range hb, Option.map_some, Option.getD_some]
  have hsent : sent = c.sentBytes p n := List.flatMap_congr fun b hb => by
    rw [hquadlet b (List.mem_range.mp hb)]
    rfl
  have hport := (congrArg (fun r => portOf r.2 p) hfilled).trans (c.portOf_filledPorts p n)
  refine ⟨?_, fun b hb hturn => ⟨fun byte hsends hbyte => ?_, fun hidle => ?_⟩, fun hsends => ?_, ?_, fun hidle => ?_,
    ?_, ?_⟩
  · rw [hfilled, List.map_map]
    rfl
  · rw [hquadlet b hb, Context.filledQuadlet_send hturn hsends hbyte, toNat_midiOne]
  · rw [hquadlet b hb, Context.filledQuadlet_idle hturn hidle]
    rfl
  · rw [hport, if_pos hsends]
    rfl
  · rw [hsent, hfilled]
    exact c.out_eq_sentBytes_append p n
  · rw [hsent, Context.sentBytes_idle hidle]
  · rw [hport]
  · rw [hport]

/-! ### MIDI_EXTRACT (R171) -/

/-- What a turn on receive leaves of a port: a configured, bound port whose turn it is gains the quadlet's bytes. -/
theorem portOf_extractTurn {m port p : Nat} {q : Quadlet} {v : Vector MidiPort 8} (hport : port < 8) :
    portOf (extractTurn m port q v) p =
      if p = port ∧ (portOf v p).ready m p then
        { portOf v p with received := (portOf v p).received ++ midiBytes q }
      else portOf v p := by
  by_cases htakes : (portOf v port).ready m port
  · have htaken : extractTurn m port q v = setPort v port
        { portOf v port with received := (portOf v port).received ++ midiBytes q } := if_pos htakes
    rw [htaken, portOf_setPort]
    by_cases hp : p = port
    · subst hp
      rw [if_pos ⟨rfl, hport⟩, if_pos ⟨rfl, htakes⟩]
    · rw [if_neg fun h => hp h.1, if_neg fun h => hp h.1]
  · have hkept : extractTurn m port q v = v := if_neg htakes
    rw [hkept, if_neg]
    rintro ⟨rfl, h⟩
    exact htakes h

/-- What the slots of port `p`'s turns in the first `n` data blocks of a packet carry. -/
def Context.turnBytes (c : Context) (e : Entry) (p n : Nat) : List Byte :=
  (List.range n).flatMap fun b =>
    if midiTurn e.dbc.toNat b = p then midiBytes (quadletAt e.bytes (c.midiQuadlet b)) else []

theorem Context.turnBytes_succ (c : Context) (e : Entry) (p n : Nat) : c.turnBytes e p (n + 1) =
    c.turnBytes e p n ++
      if midiTurn e.dbc.toNat n = p then midiBytes (quadletAt e.bytes (c.midiQuadlet n)) else [] := by
  simp [Context.turnBytes, List.range_succ]

/-- MIDI_EXTRACT's last block. -/
theorem Context.extractMidi_succ (c : Context) (e : Entry) (n : Nat) : (c.extractMidi e (n + 1)).midi =
    extractTurn c.midiPorts.toNat (midiTurn e.dbc.toNat n) (quadletAt e.bytes (c.midiQuadlet n))
      (c.extractMidi e n).midi := by
  simp only [Context.extractMidi, List.range_succ, List.foldl_append, List.foldl_cons, List.foldl_nil]

theorem Context.portOf_extractMidi (c : Context) (e : Entry) (n p : Nat) :
    portOf (c.extractMidi e n).midi p =
      { portOf c.midi p with
        received := (portOf c.midi p).received ++
          if (portOf c.midi p).ready c.midiPorts.toNat p then c.turnBytes e p n else [] } := by
  induction n with
  | zero => simp [Context.extractMidi, Context.turnBytes]
  | succ n ih =>
    rw [Context.extractMidi_succ, portOf_extractTurn (midiTurn_lt ..), ih, Context.turnBytes_succ]
    by_cases htakes : (portOf c.midi p).ready c.midiPorts.toNat p
    · by_cases hturn : midiTurn e.dbc.toNat n = p
      · rw [if_pos ⟨hturn.symm, htakes⟩, if_pos htakes, if_pos htakes, if_pos hturn, List.append_assoc]
      · rw [if_neg fun h => hturn h.1.symm, if_pos htakes, if_pos htakes, if_neg hturn, List.append_nil]
    · rw [if_neg fun h => htakes h.2, if_neg htakes, if_neg htakes]

/-- A delivery's ports are those of MIDI_EXTRACT over the packet's complete data blocks (44_receive.md R265). -/
theorem Context.delivered_midi (order : ByteOrder) (c : Context) (e : Entry) :
    (c.delivered order e).midi =
      if 0 < c.midiPorts.toNat then (c.extractMidi e (c.blockCount e.bytes.length)).midi else c.midi := by
  unfold Context.delivered
  dsimp only
  obtain ⟨mem, -, -, he⟩ := { c with dbc := e.dbc }.decodeBound_frame order e (c.blockCount e.bytes.length)
  rw [Context.advanceCursors_frame, he]
  unfold Context.extractConfigured
  split <;> rfl

/-- Settles O39: MIDI_EXTRACT turn by turn, and its place in a delivery. -/
theorem midiExtractFollowsTheTurns : Obligations.MidiExtractFollowsTheTurns := by
  refine ⟨fun c e n p _ => ?_, fun c order e => ?_⟩
  · simp only [← midiBytes_eq]
    exact c.portOf_extractMidi e n p
  · rw [Context.delivered_midi]
    by_cases h : c.midiPorts.toNat = 0
    · rw [if_pos h, if_neg (by omega)]
    · rw [if_neg h, if_pos (Nat.pos_of_ne_zero h)]
      rfl

end Sys2Proof.Machine
end

section
/-! SUPPORT. The decoded samples of a packet in the sample buffer (41_codec.md R163, R168; 20_memory.md R64): DECODE
stores each sample of the packet's frames once, so each is read back, after DECODE and after a delivery. -/

namespace Sys2Proof.Machine

/-! ### The bytes of a sample -/

theorem ofLeBytes_leBytes (n v : Nat) : ofLeBytes (leBytes n v) = v % 256 ^ n := by
  induction n generalizing v with
  | zero => rw [Nat.pow_zero, Nat.mod_one]; rfl
  | succ n ih => rw [Nat.pow_succ', Nat.mod_mul, leBytes, ofLeBytes, ih, BitVec.toNat_ofNat]

/-- A sample's bytes give its value back, in either byte order. -/
theorem sampleValue_sampleBytes (order : ByteOrder) (n v : Nat) :
    sampleValue order (sampleBytes order n v) = v % 256 ^ n := by
  cases order with
  | little => exact ofLeBytes_leBytes n v
  | big => rw [sampleBytes, sampleValue, List.reverse_reverse, ofLeBytes_leBytes]

/-- Stored bytes are read back. -/
theorem Memory.bytes_writeBytes_same (m : Memory) (epoch a : Nat) (bs : List Byte) :
    (m.writeBytes a bs).bytes epoch a bs.length = bs := by
  refine List.ext_getElem (Memory.length_bytes ..) fun k hk hk' => ?_
  simp only [Memory.bytes, List.getElem_map, List.getElem_range, Memory.byte_writeBytes_inside _ _ _ _ _ hk']

/-! ### One sample -/

section
variable (order : ByteOrder) {c : Context} {f ch f' ch' : Nat} (x : BitVec 32)

/-- A 32-bit sample that was stored is read back. -/
theorem Context.sampleAt_storeSample_same (h : c.pcmFormat = .s32) :
    (Context.storeSample order c f ch x).sampleAt order f ch = x.toNat := by
  have hbytes := Memory.bytes_writeBytes_same c.pcmMemory c.pcmEpoch (c.sampleAddress f ch)
    (sampleBytes order c.sampleSize x.toNat)
  rw [length_sampleBytes] at hbytes
  have hsize : c.sampleSize = 4 := by rw [Context.sampleSize, h]
  calc (Context.storeSample order c f ch x).sampleAt order f ch
    _ = sampleValue order (sampleBytes order c.sampleSize x.toNat) := congrArg (sampleValue order) hbytes
    _ = x.toNat := by rw [sampleValue_sampleBytes, hsize, Nat.mod_eq_of_lt (show x.toNat < 256 ^ 4 from x.isLt)]

/-- Another sample keeps its value. -/
theorem Context.sampleAt_storeSample_other (hch : ch < c.pcmChannels.toNat) (hch' : ch' < c.pcmChannels.toNat)
    (hne : ¬ (f' = f ∧ ch' = ch)) :
    (Context.storeSample order c f' ch' x).sampleAt order f ch = c.sampleAt order f ch := by
  refine congrArg (sampleValue order) (Memory.bytes_writeBytes_outside _ _ _ _ _ _ ?_)
  have hplace : f' * c.pcmChannels.toNat + ch' ≠ f * c.pcmChannels.toNat + ch := fun he =>
    hne (mul_add_inj hch' hch he)
  rw [length_sampleBytes]
  simp only [Context.sampleAddress]
  rcases Nat.lt_or_gt_of_ne hplace with h | h
  · have := Nat.mul_le_mul_right c.sampleSize (Nat.succ_le_of_lt h)
    rw [Nat.succ_mul] at this
    exact .inr this
  · have := Nat.mul_le_mul_right c.sampleSize (Nat.succ_le_of_lt h)
    rw [Nat.succ_mul] at this
    exact .inl this

end

/-! ### DECODE (R168) -/

/-- A channel's wire slots: one for each frame of the data block (R164 to R166). -/
theorem Context.mem_channelSlots {c : Context} {ch k i : Nat} :
    (k, i) ∈ c.channelSlots ch ↔ i < c.framesPerBlock ∧ k = c.framesPerBlock * c.position ch + i := by
  cases h : c.dualWire with
  | false =>
    simp only [c.channelSlots_single h, c.framesPerBlock_single h, List.mem_singleton, Prod.mk.injEq]
    omega
  | true =>
    simp only [c.channelSlots_dual h, c.framesPerBlock_dual h, List.mem_cons, List.not_mem_nil, or_false, Prod.mk.injEq]
    omega

/-- A PCM slot's quadlet is determined by its frame and its channel. -/
theorem Context.quadlet_of_mem_pcmSlots {c : Context} {n : Nat} {p : PcmSlot} (h : p ∈ c.pcmSlots n) :
    p.quadlet = c.slotQuadlet (p.frame / c.framesPerBlock)
      (c.framesPerBlock * c.position p.channel + p.frame % c.framesPerBlock) := by
  simp only [Context.pcmSlots, List.mem_flatMap, List.mem_map] at h
  obtain ⟨b, -, ch, -, ⟨k, i⟩, hki, rfl⟩ := h
  obtain ⟨hi, rfl⟩ := Context.mem_channelSlots.mp hki
  simp only [Nat.mul_comm b c.framesPerBlock, Nat.mul_add_div (Nat.zero_lt_of_lt hi), Nat.mul_add_mod,
    Nat.div_eq_of_lt hi, Nat.mod_eq_of_lt hi, Nat.add_zero]
  rfl

/-- In a packet of no more frames than the buffer has, two PCM slots for one sample of the buffer are the same slot. -/
theorem Context.pcmSlot_unique {c : Context} {buf : Binding} {n : Nat} (hfit : n * c.framesPerBlock ≤ buf.bufferSize)
    {p q : PcmSlot} (hp : p ∈ c.pcmSlots n) (hq : q ∈ c.pcmSlots n)
    (hframe : c.hostFrame buf q.frame = c.hostFrame buf p.frame) (hchannel : q.channel = p.channel) : q = p := by
  have hmod : q.frame ≡ p.frame [MOD buf.bufferSize] := Nat.ModEq.add_left_cancel' c.pcmBufferPointer.toNat hframe
  have heq : q.frame = p.frame := hmod.eq_of_lt_of_lt ((Context.mem_pcmSlots hq).1.trans_le hfit)
    ((Context.mem_pcmSlots hp).1.trans_le hfit)
  have hquadlet : q.quadlet = p.quadlet := by
    rw [Context.quadlet_of_mem_pcmSlots hq, Context.quadlet_of_mem_pcmSlots hp, heq, hchannel]
  cases p
  cases q
  rw [PcmSlot.mk.injEq]
  exact ⟨hquadlet, heq, hchannel⟩

/-- DECODE of one PCM slot of a packet to stream `c`, in the context `d` that the slots before it left. -/
def Context.decodeSlot (order : ByteOrder) (c : Context) (buf : Binding) (e : Entry) (d : Context) (p : PcmSlot) :
    Context :=
  Context.storeSample order d (c.hostFrame buf p.frame) p.channel (dec32 (quadletAt e.bytes p.quadlet))

theorem Context.decodePcm_eq (order : ByteOrder) (c : Context) (buf : Binding) (e : Entry) (n : Nat) :
    c.decodePcm order buf e n = (c.pcmSlots n).foldl (c.decodeSlot order buf e) c := rfl

section
variable {order : ByteOrder} {c d : Context} {buf : Binding} {e : Entry} {slots : List PcmSlot}

/-- A sample that no slot stores keeps its value. -/
theorem Context.sampleAt_foldl_decodeSlot_other {f ch : Nat} (hch : ch < d.pcmChannels.toNat)
    (hslots : ∀ q ∈ slots, q.channel < d.pcmChannels.toNat ∧ ¬ (c.hostFrame buf q.frame = f ∧ q.channel = ch)) :
    (slots.foldl (c.decodeSlot order buf e) d).sampleAt order f ch = d.sampleAt order f ch := by
  induction slots generalizing d with
  | nil => rfl
  | cons q slots ih =>
    obtain ⟨hlt, hne⟩ := hslots q (List.mem_cons_self ..)
    exact (ih (d := c.decodeSlot order buf e d q) hch fun r hr => hslots r (List.mem_cons_of_mem _ hr)).trans
      (Context.sampleAt_storeSample_other order _ hch hlt hne)

/-- The sample of a slot that no other slot overwrites is read back. -/
theorem Context.sampleAt_foldl_decodeSlot {p : PcmSlot} (hs32 : d.pcmFormat = .s32) (hp : p ∈ slots)
    (hch : ∀ q ∈ slots, q.channel < d.pcmChannels.toNat)
    (hunique : ∀ q ∈ slots, c.hostFrame buf q.frame = c.hostFrame buf p.frame → q.channel = p.channel → q = p) :
    (slots.foldl (c.decodeSlot order buf e) d).sampleAt order (c.hostFrame buf p.frame) p.channel =
      (dec32 (quadletAt e.bytes p.quadlet)).toNat := by
  induction slots generalizing d with
  | nil => cases hp
  | cons q slots ih =>
    have hch' : ∀ r ∈ slots, r.channel < d.pcmChannels.toNat := fun r hr => hch r (List.mem_cons_of_mem _ hr)
    by_cases hlater : p ∈ slots
    · exact ih (d := c.decodeSlot order buf e d q) hs32 hlater hch' fun r hr => hunique r (List.mem_cons_of_mem _ hr)
    · obtain rfl : p = q := (List.mem_cons.mp hp).resolve_right hlater
      refine (Context.sampleAt_foldl_decodeSlot_other (d := c.decodeSlot order buf e d p) (hch p hp) fun r hr =>
        ⟨hch' r hr, fun h => hlater ?_⟩).trans (Context.sampleAt_storeSample_same order _ hs32)
      exact hunique r (List.mem_cons_of_mem _ hr) h.1 h.2 ▸ hr

end

section
variable (order : ByteOrder) {c : Context} {buf : Binding} (e : Entry) {n b ch k i : Nat}

/-- After DECODE of a packet of no more frames than the buffer has, each sample is read back. -/
theorem Context.sampleAt_decodePcm (hs32 : c.pcmFormat = .s32) (hfit : n * c.framesPerBlock ≤ buf.bufferSize)
    (hb : b < n) (hch : ch < c.pcmChannels.toNat) (hki : (k, i) ∈ c.channelSlots ch) :
    (c.decodePcm order buf e n).sampleAt order (c.hostFrame buf (b * c.framesPerBlock + i)) ch =
      (quadletAt e.bytes (c.slotQuadlet b k)).toNat % 2 ^ 24 * 256 := by
  have hp := Context.pcmSlot_mem hb hch hki
  have hread := Context.sampleAt_foldl_decodeSlot (order := order) (e := e) hs32 hp
    (fun q hq => (Context.mem_pcmSlots hq).2) fun q hq => Context.pcmSlot_unique hfit hp hq
  rwa [toNat_dec32, ← Context.decodePcm_eq] at hread

/-- The samples a delivery leaves are those DECODE leaves (44_receive.md R265). -/
theorem Context.sampleAt_delivered (h : c.pcm = some buf) (f : Nat) :
    (c.delivered order e).sampleAt order f ch =
      (Context.decodePcm order { c with dbc := e.dbc } buf e (c.blockCount e.bytes.length)).sampleAt order f ch := by
  unfold Context.delivered
  dsimp only
  have hbound : Context.decodeBound order { c with dbc := e.dbc } e (c.blockCount e.bytes.length) =
      Context.decodePcm order { c with dbc := e.dbc } buf e (c.blockCount e.bytes.length) := by
    rw [Context.decodeBound, h]
  obtain ⟨ports, -, he⟩ := (Context.decodePcm order { c with dbc := e.dbc } buf e
    (c.blockCount e.bytes.length)).extractConfigured_frame e (c.blockCount e.bytes.length)
  rw [hbound, he, Context.advanceCursors_frame]
  rfl

end

/-- Settles O51: DECODE stores each of the packet's samples once, and nothing later in a delivery touches the buffer. -/
theorem decodedSamplesAreReadBack : Obligations.DecodedSamplesAreReadBack := by
  intro c order buf e n hs32 hfit b hb ch hch frame sample holds
  have hholds : ∀ c' : Context, (∀ k i, (k, i) ∈ c.channelSlots ch →
      c'.sampleAt order (frame (b * c.framesPerBlock + i)) ch = sample k) → holds c' := by
    intro c' hread
    simp only [holds]
    cases hdual : c.dualWire with
    | false =>
      have := hread (c.position ch) 0 (by simp [c.channelSlots_single hdual])
      rwa [c.framesPerBlock_single hdual, Nat.mul_one] at this
    | true =>
      have h0 := hread (2 * c.position ch) 0 (by simp [c.channelSlots_dual hdual])
      have h1 := hread (2 * c.position ch + 1) 1 (by simp [c.channelSlots_dual hdual])
      rw [c.framesPerBlock_dual hdual, Nat.mul_comm b 2] at h0 h1
      exact ⟨h0, h1⟩
  refine ⟨hholds _ fun k i hki => Context.sampleAt_decodePcm order e hs32 hfit hb hch hki,
    fun hbound hn => hholds _ fun k i hki => ?_⟩
  rw [Context.sampleAt_delivered order e hbound, show c.blockCount e.bytes.length = n from hn]
  exact Context.sampleAt_decodePcm order (c := { c with dbc := e.dbc }) e hs32 hfit hb hch hki

end Sys2Proof.Machine
end

section
/-! SUPPORT. The generators of the scheduler over a run of packets (42_scheduler.md R190 to R200): the block pattern over
a super-period, the timestamps against the closed form, and the fields of an emitted SYT. -/

namespace Sys2Proof.Machine

theorem is44100Family_iff {sfc : Nat} : is44100Family sfc = true ↔ sfc % 2 = 1 := beq_iff_eq

theorem not_is44100Family_iff {sfc : Nat} : is44100Family sfc = false ↔ sfc % 2 = 0 := by
  rw [← Bool.not_eq_true, is44100Family_iff, Nat.mod_two_not_eq_one]

/-- The codes of the 44100 family but the reserved one. -/
theorem family_cases {sfc : Nat} (h : is44100Family sfc = true) (hlt : sfc < 7) : sfc = 1 ∨ sfc = 3 ∨ sfc = 5 := by
  have := is44100Family_iff.mp h
  omega

/-! ### DBGEN at a rate of the 44100 family (R192) -/

/-- The block pattern of the 44100 family: the count at a phase. -/
def familyBlocks (sfc phase : Nat) : Nat :=
  if sfc = 1 then 5 + (phase % 2 + if phase = 0 ∨ 40 ≤ phase then 1 else 0) % 2
  else 11 * (sfc >>> 1) + if phase = 0 then 1 else 0

/-- At 44100 a packet has 5 or 6 blocks. -/
theorem familyBlocks_one (phase : Nat) : familyBlocks 1 phase = 5 ∨ familyBlocks 1 phase = 6 := by
  rw [familyBlocks, if_pos rfl]
  omega

/-- At 88200 and 176400 only phase 0 has one block more. -/
theorem familyBlocks_of_ne_one {sfc : Nat} (h : sfc ≠ 1) (phase : Nat) :
    familyBlocks sfc phase = 11 * (sfc >>> 1) ∨ familyBlocks sfc phase = 11 * (sfc >>> 1) + 1 := by
  rw [familyBlocks, if_neg h]
  split
  · exact .inr rfl
  · exact .inl rfl

/-- A super-period fits the phase register. -/
theorem superPeriod_le (sfc : Nat) : superPeriod sfc ≤ 80 := by
  unfold superPeriod
  split
  · exact Nat.shiftRight_le ..
  · decide

section
variable {c : Context}

/-- DBGEN at a rate of the 44100 family returns the pattern's count and moves its phase around the super-period. -/
theorem Context.dbgen_family (h : is44100Family c.sfc.toNat = true) :
    c.dbgen = (familyBlocks c.sfc.toNat c.dataBlockState.toNat, { c with
      dataBlockState := BitVec.ofNat 7
        (if superPeriod c.sfc.toNat ≤ c.dataBlockState.toNat + 1 then 0 else c.dataBlockState.toNat + 1) }) := by
  rw [superPeriod, if_pos h]
  unfold Context.dbgen familyBlocks
  dsimp only
  rw [if_neg (by have := is44100Family_iff.mp h; omega)]

theorem Context.dbgen_family_phase (h : is44100Family c.sfc.toNat = true)
    (hphase : c.dataBlockState.toNat < superPeriod c.sfc.toNat) :
    c.dbgen.2.dataBlockState.toNat = (c.dataBlockState.toNat + 1) % superPeriod c.sfc.toNat := by
  have hle := superPeriod_le c.sfc.toNat
  rw [Context.dbgen_family h]
  split
  case isTrue hwrap =>
    rw [Nat.le_antisymm hwrap hphase, Nat.mod_self]
    rfl
  case isFalse hin =>
    rw [Nat.mod_eq_of_lt (Nat.lt_of_not_le hin)]
    exact toNat_ofNat_of_lt (by omega)

theorem Context.dbgen_sfc (c : Context) : c.dbgen.2.sfc = c.sfc := by rw [c.dbgen_frame]

end

/-! ### Range and bound (R195, R196) -/

section
variable {c : Context}

/-- What DBGEN returns at a clean rate is the table's count. -/
theorem Context.dbgen_table (hg : c.GeneratorsSound) (h : is44100Family c.sfc.toNat = false) :
    ∃ sos, initialStateOf c.sfc.toNat = some (c.dbgen.1, sos) :=
  ⟨_, by rw [Context.dbgen_clean h]; exact hg.clean h⟩

/-- DBGEN returns at most what the access check allows for. -/
theorem Context.dbgen_le_maxBlocks (c : Context) : c.dbgen.1 ≤ c.maxBlocks := by
  unfold Context.maxBlocks
  split
  case isTrue heven => rw [Context.dbgen_clean (not_is44100Family_iff.mpr heven)]
  case isFalse hodd =>
    rw [Context.dbgen_family (is44100Family_iff.mpr (Nat.mod_two_ne_zero.mp hodd))]
    by_cases h1 : c.sfc.toNat = 1
    · have := familyBlocks_one c.dataBlockState.toNat
      rw [if_pos h1, h1]
      omega
    · have := familyBlocks_of_ne_one h1 c.dataBlockState.toNat
      rw [if_neg h1]
      omega

/-- A packet of at most a SYT interval of blocks fits the pool slot. -/
theorem Context.packet_le_bufSize {n : Nat} (h : n ≤ c.sytInterval.toNat) :
    8 + 4 * n * c.dataBlockQuadlets.toNat ≤ c.bufSize := by
  have := Nat.mul_le_mul_right c.dataBlockQuadlets.toNat h
  rw [Context.bufSize, Nat.mul_assoc]
  omega

end

/-- Settles O28: a clean rate's count stands in the table, the family's in the pattern, and neither exceeds the interval
(R195, R196). -/
theorem blockCountsAreInRange : Obligations.BlockCountsAreInRange := by
  intro c hp hg
  have hle : c.dbgen.1 ≤ c.sytInterval.toNat := c.dbgen_le_maxBlocks.trans (Context.maxBlocks_le_interval hp hg)
  refine ⟨?_, hle, Context.packet_le_bufSize hle⟩
  have hlt := lt_of_sytIntervalOf hp.interval
  cases hf : is44100Family c.sfc.toNat with
  | false =>
    obtain ⟨sos, htable⟩ := Context.dbgen_table hg hf
    generalize c.sfc.toNat = sfc at *
    generalize c.dbgen.1 = n at *
    interval_cases sfc <;> cases hf <;> cases htable <;> decide
  | true =>
    rw [Context.dbgen_family hf]
    generalize c.sfc.toNat = sfc at *
    obtain rfl | rfl | rfl := family_cases hf hlt
    · simpa using familyBlocks_one c.dataBlockState.toNat
    · simpa [Nat.shiftRight_succ] using familyBlocks_of_ne_one (by decide) c.dataBlockState.toNat
    · simpa [Nat.shiftRight_succ] using familyBlocks_of_ne_one (by decide) c.dataBlockState.toNat

/-! ### Exactness (R194) -/

section
variable {c : Context}

/-- The counts of consecutive packets at a rate of the 44100 family are those of the pattern from the phase on. -/
theorem Context.blockRun_family (h : is44100Family c.sfc.toNat = true)
    (hphase : c.dataBlockState.toNat < superPeriod c.sfc.toNat) (k : Nat) :
    c.blockRun k = (List.range k).map fun j =>
      familyBlocks c.sfc.toNat ((c.dataBlockState.toNat + j) % superPeriod c.sfc.toNat) := by
  induction k generalizing c with
  | zero => rfl
  | succ k ih =>
    have hnext := Context.dbgen_phase h hphase
    rw [← c.dbgen_sfc] at hnext
    rw [Context.blockRun, ih (by rwa [c.dbgen_sfc]) hnext, List.range_succ_eq_map, List.map_cons, List.map_map,
      Nat.add_zero, Nat.mod_eq_of_lt hphase, Context.dbgen_sfc, Context.dbgen_family_phase h hphase,
      Context.dbgen_family h]
    refine congrArg _ (List.map_congr_left fun j _ => congrArg _ ?_)
    rw [Nat.mod_add_mod]
    exact congrArg (· % _) (by omega)

/-- The phases of a whole period from any phase on are the period rotated. -/
theorem rotate_range (phase period : Nat) :
    (List.range period).rotate phase = (List.range period).map fun j => (phase + j) % period := by
  refine List.ext_getElem (by simp) fun k _ _ => ?_
  simp [List.getElem_rotate, Nat.add_comm]

/-- The counts of a super-period sum to the same from every phase. -/
theorem Context.sum_blockRun_family (h : is44100Family c.sfc.toNat = true)
    (hphase : c.dataBlockState.toNat < superPeriod c.sfc.toNat) :
    (c.blockRun (superPeriod c.sfc.toNat)).sum =
      ((List.range (superPeriod c.sfc.toNat)).map (familyBlocks c.sfc.toNat)).sum := by
  have hrotated : c.blockRun (superPeriod c.sfc.toNat) =
      ((List.range (superPeriod c.sfc.toNat)).rotate c.dataBlockState.toNat).map (familyBlocks c.sfc.toNat) := by
    rw [Context.blockRun_family h hphase, rotate_range, List.map_map]
    rfl
  rw [hrotated]
  exact ((List.rotate_perm ..).map _).sum_eq

/-- At a clean rate the super-period is one packet, of the constant count. -/
theorem Context.sum_blockRun_clean (h : is44100Family c.sfc.toNat = false) :
    (c.blockRun (superPeriod c.sfc.toNat)).sum = c.dataBlockState.toNat := by
  rw [superPeriod, h]
  simp [Context.blockRun, Context.dbgen_clean h]

end

section
variable {sfc rate : Nat}

theorem lt_of_rateOf (h : rateOf sfc = some rate) : sfc < 7 := (List.getElem?_eq_some_iff.mp h).1

/-- A super-period lasts a whole number of blocks: the rule's numbers. -/
theorem rate_mul_superPeriod (h : rateOf sfc = some rate) :
    8000 ∣ rate * superPeriod sfc ∧ (sfc, superPeriod sfc, rate * superPeriod sfc / 8000) ∈
      ([(0, 1, 4), (1, 80, 441), (2, 1, 6), (3, 40, 441), (4, 1, 12), (5, 20, 441), (6, 1, 24)] :
        List (Nat × Nat × Nat)) := by
  have hlt := lt_of_rateOf h
  interval_cases sfc <;> cases h <;> decide

/-- The table's count at a clean rate is the exact one (R191). -/
theorem initialStateOf_exact {dbs sos : Nat} (hclean : is44100Family sfc = false) (h : rateOf sfc = some rate)
    (hi : initialStateOf sfc = some (dbs, sos)) : dbs = rate * superPeriod sfc / 8000 := by
  have hlt := lt_of_rateOf h
  interval_cases sfc <;> cases hclean <;> cases h <;> cases hi <;> rfl

/-- One super-period of the pattern has 441 blocks (R193). -/
theorem sum_familyBlocks (hf : is44100Family sfc = true) (h : rateOf sfc = some rate) :
    ((List.range (superPeriod sfc)).map (familyBlocks sfc)).sum = rate * superPeriod sfc / 8000 := by
  obtain rfl | rfl | rfl := family_cases hf (lt_of_rateOf h)
  all_goals cases h; decide

end

/-- Settles O29: at a clean rate the period is one packet; in the 44100 family every period is a rotation of one. -/
theorem blockCountsAreExact : Obligations.BlockCountsAreExact := by
  intro c rate hg hrate
  obtain ⟨hdvd, hnumbers⟩ := rate_mul_superPeriod hrate
  refine ⟨hdvd, ?_, hnumbers⟩
  cases hf : is44100Family c.sfc.toNat with
  | false => rw [Context.sum_blockRun_clean hf, initialStateOf_exact hf hrate (hg.clean hf)]
  | true => rw [Context.sum_blockRun_family hf (hg.family hf).1, sum_familyBlocks hf hrate]

/-! ### The SYT generator (R197) -/

/-- What SYTGEN adds to the offset when it advances within the cycle: the constant of a clean rate (R198), or the
family's increment at the phase (R199). -/
def Context.sytStride (c : Context) : Nat :=
  if is44100Family c.sfc.toNat then sytIncrement c.sytOffsetState.toNat else c.sytOffsetState.toNat

theorem Context.sytStride_lt (c : Context) : c.sytStride < 2 ^ 12 := by
  unfold Context.sytStride
  split
  · have := sytIncrement_le c.sytOffsetState.toNat
    omega
  · exact c.sytOffsetState.isLt

/-- The running offset after SYTGEN. -/
def Context.nextOffset (c : Context) : Nat :=
  if c.lastSytOffset.toNat < 3072 then c.lastSytOffset.toNat + c.sytStride else c.lastSytOffset.toNat - 3072

/-- The phase after SYTGEN: an increment of the 44100 family is used up. -/
def Context.nextPhase (c : Context) : Nat :=
  if is44100Family c.sfc.toNat ∧ c.lastSytOffset.toNat < 3072 then (c.sytOffsetState.toNat + 1) % 147
  else c.sytOffsetState.toNat

section
variable (c : Context)

theorem Context.sytgen_eq : c.sytgen = (if c.nextOffset < 3072 then some c.nextOffset else none, { c with
    lastSytOffset := BitVec.ofNat 13 c.nextOffset, sytOffsetState := BitVec.ofNat 12 c.nextPhase }) := by
  unfold Context.sytgen Context.nextOffset Context.nextPhase Context.sytStride Config.ticksPerCycle
  dsimp only
  by_cases hlast : c.lastSytOffset.toNat < 3072
  · cases hf : is44100Family c.sfc.toNat with
    | false => simp [hlast, not_is44100Family_iff.mp hf]
    | true => simp [hlast, is44100Family_iff.mp hf]
  · simp [hlast]

theorem Context.sytgen_sfc : c.sytgen.2.sfc = c.sfc := rfl

/-- The offset fits its register, from any state. -/
theorem Context.sytgen_offset : c.sytgen.2.lastSytOffset.toNat = c.nextOffset := by
  have hlast := c.lastSytOffset.isLt
  have hstride := c.sytStride_lt
  rw [c.sytgen_eq]
  refine toNat_ofNat_of_lt ?_
  unfold Context.nextOffset
  split <;> omega

theorem Context.sytgen_phase : c.sytgen.2.sytOffsetState.toNat = c.nextPhase := by
  have hstate := c.sytOffsetState.isLt
  rw [c.sytgen_eq]
  refine toNat_ofNat_of_lt ?_
  unfold Context.nextPhase
  split <;> omega

/-- SYTGEN returns the offset it leaves, where that lies in the packet's cycle. -/
theorem Context.sytgen_fst : c.sytgen.1 =
    if c.sytgen.2.lastSytOffset.toNat < 3072 then some c.sytgen.2.lastSytOffset.toNat else none := by
  rw [c.sytgen_offset, c.sytgen_eq]

theorem Context.sytgen_eq_some_iff {off : Nat} :
    c.sytgen.1 = some off ↔ c.sytgen.2.lastSytOffset.toNat = off ∧ off < 3072 := by
  rw [c.sytgen_fst, Option.ite_none_right_eq_some, Option.some_inj]
  omega

theorem Context.sytgen_eq_none_iff : c.sytgen.1 = none ↔ 3072 ≤ c.sytgen.2.lastSytOffset.toNat := by
  rw [c.sytgen_fst, ite_eq_right_iff]
  simp

end

/-- Settles O31: an offset past the cycle is below two cycles, so it is less than a cycle in the next packet. -/
theorem noTwoPacketsWithoutTimestamp : Obligations.NoTwoPacketsWithoutTimestamp := by
  intro c hg
  have hoffset := (Context.sytgen_sound hg).offset
  refine ⟨hoffset, fun off h => (c.sytgen_eq_some_iff.mp h).2, fun h hnext => ?_⟩
  have hlong := c.sytgen_eq_none_iff.mp h
  have hshort := c.sytgen.2.sytgen_eq_none_iff.mp hnext
  rw [Context.sytgen_offset, Context.nextOffset, if_neg (Nat.not_lt.mpr hlong)] at hshort
  omega

/-! ### The increments of the 44100 family (R199) -/

/-- `T(n)`: the time in ticks of the `n`-th SYT-interval sample, `n * 655360 / 147` to the nearest. -/
def familyTime (n : Nat) : Nat := (2 * 655360 * n + 147) / 294

/-- In 147 SYT intervals the pattern of the increments closes. -/
theorem familyTime_add_period (q r : Nat) : familyTime (147 * q + r) = 655360 * q + familyTime r := by
  unfold familyTime
  omega

/-- Over one cycle of phases the increments are those of the closed form. -/
theorem familyTime_succ_of_lt : ∀ r < 147,
    familyTime (r + 1) = familyTime r + 3072 + sytIncrement ((67 + r) % 147) := by
  decide

theorem familyTime_succ (n : Nat) : familyTime (n + 1) = familyTime n + 3072 + sytIncrement ((67 + n) % 147) := by
  have hcycle := familyTime_succ_of_lt (n % 147) (Nat.mod_lt _ (by decide))
  have hn := familyTime_add_period (n / 147) (n % 147)
  have hn' := familyTime_add_period (n / 147) (n % 147 + 1)
  rw [← Nat.add_assoc, Nat.div_add_mod] at hn'
  rw [Nat.div_add_mod] at hn
  rw [Nat.add_mod_mod] at hcycle
  omega

/-- Settles O30: the closed form advances by a whole cycle of phases every 147 intervals. -/
theorem sytIncrementsFollowTheClosedForm : Obligations.SytIncrementsFollowTheClosedForm := by
  intro k
  have := familyTime_succ k
  unfold familyTime at this
  omega

/-! ### The timestamps and the closed form (R197 to R199) -/

theorem sampleTime_eq {sfc interval rate : Nat} (hi : sytIntervalOf sfc = some interval)
    (hr : rateOf sfc = some rate) (n : Nat) :
    sampleTime sfc n = (2 * n * interval * 24576000 + rate) / (2 * rate) := by
  rw [sampleTime, hi, hr]
  rfl

/-- The closed form of the 44100 family is one for the three rates: their SYT intervals last the same time (R199). -/
theorem sampleTime_family {sfc : Nat} (h : sfc = 1 ∨ sfc = 3 ∨ sfc = 5) (n : Nat) :
    sampleTime sfc n = familyTime n := by
  obtain rfl | rfl | rfl := h
  all_goals rw [sampleTime_eq rfl rfl, familyTime]; omega

/-- At a clean rate a SYT interval lasts one cycle and the table's constant (R198). -/
theorem sampleTime_clean {sfc dbs sos : Nat} (h : is44100Family sfc = false)
    (hi : initialStateOf sfc = some (dbs, sos)) (n : Nat) : sampleTime sfc n = n * (3072 + sos) := by
  have hlt : sfc < 7 := (List.getElem?_eq_some_iff.mp hi).1
  interval_cases sfc <;> cases h <;> cases hi
  all_goals rw [sampleTime_eq rfl rfl]; omega

theorem sampleTime_zero {sfc : Nat} (h : sfc < 7) : sampleTime sfc 0 = 0 := by
  interval_cases sfc <;> rfl

/-- The seed of the 44100 family is phase 67 (40_tables_config.md R132). -/
theorem initialStateOf_family {sfc dbs sos : Nat} (hi : initialStateOf sfc = some (dbs, sos))
    (hf : is44100Family sfc = true) : sfc < 7 ∧ sos = 67 := by
  obtain rfl | rfl | rfl := family_cases hf (List.getElem?_eq_some_iff.mp hi).1
  all_goals cases hi; decide

/-- The generator after SYTGEN of packet `i`, `n` packets before it having carried a timestamp: its offset points at the
`n`-th sample, and its phase is the one that leads to the next. -/
structure Context.OnTarget (c : Context) (i n : Nat) : Prop where
  time : i * 3072 + c.lastSytOffset.toNat = sampleTime c.sfc.toNat n
  clean : is44100Family c.sfc.toNat = false → ∃ dbs, initialStateOf c.sfc.toNat = some (dbs, c.sytOffsetState.toNat)
  family : is44100Family c.sfc.toNat = true → c.sfc.toNat < 7 ∧ c.sytOffsetState.toNat = (67 + n) % 147

section
variable {c : Context} {i n : Nat}

/-- From one sample to the next is a cycle and the generator's stride. -/
theorem Context.OnTarget.sampleTime_succ (h : c.OnTarget i n) :
    sampleTime c.sfc.toNat (n + 1) = sampleTime c.sfc.toNat n + 3072 + c.sytStride := by
  unfold Context.sytStride
  cases hf : is44100Family c.sfc.toNat with
  | false =>
    obtain ⟨dbs, hi⟩ := h.clean hf
    simp only [sampleTime_clean hf hi, Nat.succ_mul, Bool.false_eq_true, if_false]
    omega
  | true =>
    obtain ⟨hlt, hphase⟩ := h.family hf
    simp only [sampleTime_family (family_cases hf hlt), hphase, if_true]
    exact familyTime_succ n

/-- A packet with a timestamp leads on to the next sample, one without leaves its sample to the next packet. -/
theorem Context.OnTarget.sytgen (h : c.OnTarget i n) :
    c.sytgen.2.OnTarget (i + 1) (if c.lastSytOffset.toNat < 3072 then n + 1 else n) := by
  refine ⟨?_, fun hf => ?_, fun hf => ?_⟩
  · rw [c.sytgen_offset, c.sytgen_sfc, Context.nextOffset]
    by_cases hlast : c.lastSytOffset.toNat < 3072
    · rw [if_pos hlast, if_pos hlast, h.sampleTime_succ, ← h.time]
      omega
    · rw [if_neg hlast, if_neg hlast, ← h.time]
      omega
  · rw [c.sytgen_sfc] at hf ⊢
    rw [c.sytgen_phase, Context.nextPhase, if_neg (by simp [hf])]
    exact h.clean hf
  · rw [c.sytgen_sfc] at hf ⊢
    obtain ⟨hlt, hphase⟩ := h.family hf
    refine ⟨hlt, ?_⟩
    rw [c.sytgen_phase, Context.nextPhase]
    simp only [hf, true_and]
    split <;> omega

/-- The generator as START seeds it points, for packet 0, at sample 0. -/
theorem Context.onTarget_seeded {dbs : Nat} (hi : initialStateOf c.sfc.toNat = some (dbs, c.sytOffsetState.toNat))
    (hlast : c.lastSytOffset.toNat = 3072) : c.sytgen.2.OnTarget 0 0 := by
  have hphase : c.nextPhase = c.sytOffsetState.toNat := if_neg (by omega)
  refine ⟨?_, fun hf => ?_, fun hf => ?_⟩
  · rw [c.sytgen_offset, Context.nextOffset, hlast, c.sytgen_sfc, sampleTime_zero (List.getElem?_eq_some_iff.mp hi).1]
    rfl
  · rw [c.sytgen_phase, hphase]
    exact ⟨dbs, hi⟩
  · rw [c.sytgen_phase, hphase]
    exact initialStateOf_family hi hf

/-- Every timestamp of a run from there is its sample's time. -/
theorem Context.OnTarget.sytRun (h : c.sytgen.2.OnTarget i n) {k off : Nat}
    (hoff : (c.sytRun (k + 1))[k]? = some (some off)) :
    (i + k) * 3072 + off = sampleTime c.sfc.toNat (n + (c.sytRun k).countP Option.isSome) := by
  induction k generalizing c i n with
  | zero =>
    have hfst : c.sytgen.1 = some off := by simpa [Context.sytRun] using hoff
    obtain ⟨rfl, -⟩ := c.sytgen_eq_some_iff.mp hfst
    exact h.time
  | succ k ih =>
    have htail := ih h.sytgen hoff
    rw [Nat.add_right_comm, Nat.add_assoc, c.sytgen_sfc] at htail
    rw [htail, Context.sytRun, List.countP_cons, c.sytgen_fst]
    refine congrArg _ ?_
    split
    · exact Nat.add_right_comm ..
    · rfl

end

/-- Settles O32: the seeds point at sample 0, and every SYTGEN keeps the generator on its target. -/
theorem timestampsMeetTheClosedForm : Obligations.TimestampsMeetTheClosedForm := by
  rintro c dbs sos i off hi - rfl hlast hoff
  simpa using (Context.onTarget_seeded hi hlast).sytRun hoff

/-! ### The emitted SYT (R200; 30_encoding.md R94, R95) -/

/-- The SYT of an offset after a delay is its two fields side by side. -/
theorem toNat_sytAfterDelay (cycle off delay : Nat) :
    (sytAfterDelay cycle off delay).toNat = delayedSyt cycle off delay := by
  have hoffset : (off + delay) % 3072 < 3072 := Nat.mod_lt _ (by decide)
  have hcycle : (cycle + (off + delay) / 3072) % 16 < 16 := Nat.mod_lt _ (by decide)
  simp only [sytAfterDelay, delayedSyt, Config.ticksPerCycle, BitVec.toNat_or, BitVec.toNat_shiftLeft]
  rw [toNat_ofNat_of_lt (by omega), toNat_ofNat_of_lt (by omega), Nat.mod_eq_of_lt (by rw [Nat.shiftLeft_eq]; omega),
    ← Nat.shiftLeft_add_eq_or_of_lt (by omega), Nat.shiftLeft_eq]

/-- No timestamp is the code of "no information": its offset field is below a cycle (R95). -/
theorem delayedSyt_ne_noInfo (cycle off delay : Nat) : delayedSyt cycle off delay ≠ 0xFFFF := by
  unfold delayedSyt Config.ticksPerCycle
  omega

section
variable {c : Context} (cycle : Nat)

theorem Context.sytEmit_of_none (h : c.sytgen.1 = none) : (c.sytEmit cycle).1 = 0xFFFF := by
  simp [Context.sytEmit, h, Config.sytNoInfo]

theorem Context.sytEmit_of_some {off : Nat} (h : c.sytgen.1 = some off) :
    (c.sytEmit cycle).1 = sytAfterDelay cycle off c.transferDelay.toNat := by
  simp [Context.sytEmit, h]

end

/-- Settles O33: what SYT_EMIT makes of SYTGEN's two answers. -/
theorem emittedSytFields : Obligations.EmittedSytFields := by
  intro c cycle
  refine ⟨Context.sytEmit_of_none cycle, fun off h => ?_, c.sytEmit_snd cycle⟩
  have hnat := toNat_sytAfterDelay cycle off c.transferDelay.toNat
  rw [← Context.sytEmit_of_some cycle h] at hnat
  exact ⟨fun he => delayedSyt_ne_noInfo _ _ _ (hnat.symm.trans (congrArg BitVec.toNat he)), hnat⟩

end Sys2Proof.Machine
end

section
/-! SUPPORT. TX_COMPLETE on an active Send stream between operations: it is admitted, its accesses exist, and it changes
that stream only (43_transmit.md R220; 70_reset_and_hazards.md R392). -/

namespace Sys2Proof.Machine

section
variable {σ : State} {s count : Nat}

/-- A stream replaced and a response given: no other stream changes (60_exceptions.md R365). -/
theorem State.onlyStream_setStream (σ : State) (s : Nat) (c : Context) (r : Response) :
    σ.OnlyStream s ((σ.setStream s c).respond r) :=
  ⟨rfl, rfl, σ.length_setStream s c, fun _ hne => σ.stream_setStream_ne c hne⟩

/-- On a sound, active Send stream every check of TX_COMPLETE passes: all that is queued is flushed, so a count of at
most the queue is admitted. -/
theorem exec_txComplete_of_sound {hold : Nat} (hs : s < σ.streams.length) (hcount : count ≤ Config.queueLength)
    (h : (σ.stream s).Sound hold) (ha : (σ.stream s).active = true) (hd : (σ.stream s).direction = .send)
    (hqueue : count ≤ (σ.stream s).hwq.length) (cycle : Nat) (q : Option Nat) :
    exec (.txComplete s cycle count q) σ = .next ((σ.setStream s
      ((σ.stream s).txCompleted σ.params.hostByteOrder (σ.isSlave s) cycle count q)).respond .none) := by
  have hadmits : (σ.stream s).admitsTx count = true :=
    (Context.admitsTx_iff ..).mpr ⟨(Context.active_iff _).mp ha, hd, h.queue.flushedAll ▸ hqueue⟩
  have hvalid : (σ.stream s).packetIndexValid = true := h.resources.index.trans ha
  change execTxComplete s cycle count q σ = _
  rw [execTxComplete, decide_eq_true hcount, guardRange_true, onStream_of_lt _ hs, hadmits, guardAdmitted_true, hvalid,
    h.txFits ha]
  rfl

end

/-- Settles O41: a slave's descriptors are consumed and what is left stays flushed; the loop that builds is not run. -/
theorem slaveTxCompleteBuildsNothing : Obligations.SlaveTxCompleteBuildsNothing := by
  intro σ s cycle count q hs hcount c h ha hd hqueue hslave
  rw [exec_txComplete_of_sound hs hcount h ha hd hqueue, hslave]
  rfl

end Sys2Proof.Machine
end

section
/-! SUPPORT. The binding and the wire cadence (43_transmit.md R231): what TX_PACKET reads of the sample buffer and its
cursors goes into the payload of the packet and nowhere else. -/

namespace Sys2Proof.Machine

/-! ### Streams with the same cadence -/

/-- Two descriptors that agree on the wire but for a packet's payload: a packet's length and header. -/
def Descriptor.SameHeader (d d' : Descriptor) : Prop :=
  ∀ x y, d = .tx x → d' = .tx y → x.length = y.length ∧ quadletAt x 0 = quadletAt y 0 ∧ quadletAt x 1 = quadletAt y 1

theorem Descriptor.SameHeader.refl (d : Descriptor) : d.SameHeader d := fun x y hx hy => by
  obtain rfl : x = y := Descriptor.tx.inj (hx.symm.trans hy)
  exact ⟨rfl, rfl, rfl⟩

/-- Two streams that agree in what the wire sees of them, but for the payload of what they have queued. -/
structure Context.SameCadence (c d : Context) : Prop where
  state : c.state = d.state
  dbc : c.dbc = d.dbc
  dataBlockState : c.dataBlockState = d.dataBlockState
  lastSytOffset : c.lastSytOffset = d.lastSytOffset
  sytOffsetState : c.sytOffsetState = d.sytOffsetState
  packetIndex : c.packetIndex = d.packetIndex
  poolEpoch : c.poolEpoch = d.poolEpoch
  midi : c.midi = d.midi
  queue : List.Forall₂ Descriptor.SameHeader c.hwq d.hwq

section
variable {c d : Context}

theorem Context.SameCadence.enqueue (h : c.SameCadence d) {x y : Descriptor} (hxy : x.SameHeader y) :
    (c.enqueue x).SameCadence (d.enqueue y) where
  __ := h
  packetIndex := by rw [Context.enqueue_packetIndex, Context.enqueue_packetIndex, h.packetIndex]
  queue := List.rel_append h.queue (.cons hxy .nil)

theorem Context.SameCadence.advanceCursors (h : c.SameCadence d) (m n : Nat) :
    (c.advanceCursors m).SameCadence (d.advanceCursors n) := by
  rw [c.advanceCursors_frame m, d.advanceCursors_frame n]
  exact { h with }

theorem Context.SameCadence.fatalStop (h : c.SameCadence d) (code : Code) :
    (c.fatalStop code).SameCadence (d.fatalStop code) := by
  have hactive : c.active = d.active := congrArg LifeState.active h.state
  cases ha : d.active with
  | false => rwa [Context.fatalStop_of_not_active (hactive.trans ha), Context.fatalStop_of_not_active ha]
  | true =>
    rw [Context.fatalStop, Context.fatalStop, if_pos (hactive.trans ha), if_pos ha]
    exact { h with
      state := rfl
      packetIndex := congrArg Config.staleIndex h.poolEpoch
      midi := congrArg detachPorts h.midi
      queue := .nil }

end

/-! ### Another buffer -/

/-- The stream with another binding, other buffer bytes and other cursors. -/
def Context.withBuffer (c : Context) (pcm : Option Binding) (mem : Memory) (epoch : Nat) (bp pp : BitVec 32)
    (pending : Bool) : Context :=
  { c with pcm := pcm, pcmMemory := mem, pcmEpoch := epoch, pcmBufferPointer := bp, pcmPeriodPointer := pp,
           periodPending := pending }

section
variable (c : Context) (pcm : Option Binding) (mem : Memory) (epoch : Nat) (bp pp : BitVec 32) (pending : Bool)

/-- DBGEN neither reads nor moves the buffer. -/
theorem Context.dbgen_withBuffer : (c.withBuffer pcm mem epoch bp pp pending).dbgen =
    (c.dbgen.1, c.dbgen.2.withBuffer pcm mem epoch bp pp pending) := by
  unfold Context.dbgen Context.withBuffer
  dsimp only
  split <;> rfl

/-- MIDI_FILL does not read the buffer. -/
theorem Context.fillFrom_withBuffer (n b : Nat) (v : Vector MidiPort 8) :
    (c.withBuffer pcm mem epoch bp pp pending).fillFrom n b v = c.fillFrom n b v := by
  induction n generalizing b v with
  | zero => rfl
  | succ n ih => exact congrArg (fun rest => ((_, _) :: rest.1, rest.2)) (ih (b + 1) _)

theorem Context.midiFill_withBuffer (n : Nat) :
    (c.withBuffer pcm mem epoch bp pp pending).midiFill n = c.midiFill n := by
  rw [Context.midiFill, Context.fillFrom_withBuffer]
  rfl

theorem Context.sameCadence_withBuffer : c.SameCadence (c.withBuffer pcm mem epoch bp pp pending) :=
  ⟨rfl, rfl, rfl, rfl, rfl, rfl, rfl, rfl, List.forall₂_same.mpr fun x _ => .refl x⟩

/-- The packets built with either buffer have one length and one header (30_encoding.md R90 to R92). -/
theorem Context.sameHeader_withBuffer (order : ByteOrder) (n : Nat) (syt : BitVec 16) :
    ((c.buildPacket order n syt).builtDescriptor n).SameHeader
      (((c.withBuffer pcm mem epoch bp pp pending).buildPacket order n syt).builtDescriptor n) := by
  obtain ⟨x, hx, hlen, hq0, hq1, -⟩ := builtPacketHeader c order n syt
  obtain ⟨y, hy, hlen', hq0', hq1', -⟩ := builtPacketHeader (c.withBuffer pcm mem epoch bp pp pending) order n syt
  intro x' y' hx' hy'
  obtain rfl : x = x' := Descriptor.tx.inj (hx.symm.trans hx')
  obtain rfl : y = y' := Descriptor.tx.inj (hy.symm.trans hy')
  exact ⟨hlen.trans hlen'.symm, BitVec.eq_of_toNat_eq (hq0.trans hq0'.symm),
    BitVec.eq_of_toNat_eq (hq1.trans hq1'.symm)⟩

theorem Context.buildPacket_withBuffer (order : ByteOrder) (n : Nat) (syt : BitVec 16) :
    (c.buildPacket order n syt).SameCadence
      ((c.withBuffer pcm mem epoch bp pp pending).buildPacket order n syt) :=
  have hmidi := c.midiFill_withBuffer pcm mem epoch bp pp pending n
  { c.sameCadence_withBuffer pcm mem epoch bp pp pending with
    dbc := rfl
    midi := congrArg Prod.snd hmidi.symm }

/-- What TX_PACKET builds before it queues keeps the cadence. -/
theorem Context.txBuilt_withBuffer (order : ByteOrder) (syt : BitVec 16) :
    (c.txBuilt order syt).SameCadence ((c.withBuffer pcm mem epoch bp pp pending).txBuilt order syt) := by
  rw [Context.txBuilt, Context.txBuilt, Context.dbgen_withBuffer]
  split
  · exact c.dbgen.2.sameCadence_withBuffer ..
  · exact c.dbgen.2.buildPacket_withBuffer ..

/-- What TX_PACKET queues differs in the payload only. -/
theorem Context.txDescriptor_withBuffer (order : ByteOrder) (syt : BitVec 16) :
    (c.txDescriptor order syt).SameHeader ((c.withBuffer pcm mem epoch bp pp pending).txDescriptor order syt) := by
  unfold Context.txDescriptor Context.txBuilt
  rw [Context.dbgen_withBuffer]
  dsimp only
  split
  · exact .refl _
  · exact c.dbgen.2.sameHeader_withBuffer pcm mem epoch bp pp pending order c.dbgen.1 syt

/-- TX_PACKET keeps the cadence: both `queue()` calls fail, or neither does. -/
theorem Context.txPacket_withBuffer (order : ByteOrder) (q : Option Nat) (k : Nat) (syt : BitVec 16) :
    (c.txPacket order q k syt).SameCadence
      ((c.withBuffer pcm mem epoch bp pp pending).txPacket order q k syt) := by
  have hbuilt := c.txBuilt_withBuffer pcm mem epoch bp pp pending order syt
  have hqueued := hbuilt.enqueue (c.txDescriptor_withBuffer pcm mem epoch bp pp pending order syt)
  have hfst := congrArg Prod.fst (c.dbgen_withBuffer pcm mem epoch bp pp pending)
  rcases c.txPacket_cases order q k syt with ⟨hfails, e⟩ | ⟨hq, hl, e⟩ <;>
    rcases (c.withBuffer pcm mem epoch bp pp pending).txPacket_cases order q k syt with ⟨hfails', e'⟩ | ⟨hq', hl', e'⟩
  case inl.inl =>
    rw [e, e']
    exact hbuilt.fatalStop _
  case inl.inr => exact (hfails.elim hq' (Nat.not_le_of_lt hl')).elim
  case inr.inl => exact (hfails'.elim hq (Nat.not_le_of_lt hl)).elim
  case inr.inr =>
    rw [e, e', hfst]
    split
    · exact hqueued
    · exact hqueued.advanceCursors _ _

end

/-- Settles O43: TX_PACKET keeps the cadence, and a place in both queues holds packets of one header. -/
theorem bindingKeepsTheCadence : Obligations.BindingKeepsTheCadence := by
  intro c order q k syt pcm mem epoch bp pp pending
  have h := c.txPacket_withBuffer pcm mem epoch bp pp pending order q k syt
  refine ⟨h.state, h.dbc, h.dataBlockState, h.packetIndex, h.lastSytOffset, h.sytOffsetState, h.midi, h.queue.length_eq,
    fun i x y hx hy => ?_⟩
  obtain ⟨hi, hx⟩ := List.getElem?_eq_some_iff.mp hx
  obtain ⟨hi', hy⟩ := List.getElem?_eq_some_iff.mp hy
  exact h.queue.get hi hi' x y hx hy

end Sys2Proof.Machine
end

section
/-! SUPPORT. The generators over a run of packets (42_scheduler.md R190, R197), packet by packet: DBGEN reads its phase
and the rate, SYTGEN its offset, its phase and the rate, so a stream's next answers depend on these registers alone. -/

namespace Sys2Proof.Machine

/-! ### Runs -/

/-- The stream after DBGEN has answered for `i` packets. -/
abbrev Context.afterDbgen (i : Nat) (c : Context) : Context := Nat.iterate (fun d : Context => d.dbgen.2) i c

/-- The stream after SYTGEN has answered for `i` packets. -/
abbrev Context.afterSytgen (i : Nat) (c : Context) : Context := Nat.iterate (fun d : Context => d.sytgen.2) i c

section
variable (c : Context)

theorem Context.afterDbgen_succ (i : Nat) : c.afterDbgen (i + 1) = (c.afterDbgen i).dbgen.2 :=
  Function.iterate_succ_apply' ..

theorem Context.afterSytgen_succ (i : Nat) : c.afterSytgen (i + 1) = (c.afterSytgen i).sytgen.2 :=
  Function.iterate_succ_apply' ..

theorem Context.afterDbgen_sfc (i : Nat) : (c.afterDbgen i).sfc = c.sfc := by
  induction i with
  | zero => rfl
  | succ i ih => rw [c.afterDbgen_succ, Context.dbgen_sfc, ih]

theorem Context.afterSytgen_sfc (i : Nat) : (c.afterSytgen i).sfc = c.sfc := by
  induction i with
  | zero => rfl
  | succ i ih => rw [c.afterSytgen_succ, Context.sytgen_sfc, ih]

/-- The block counts of a run are DBGEN's answers. -/
theorem Context.blockRun_eq (k : Nat) : c.blockRun k = (List.range k).map fun i => (c.afterDbgen i).dbgen.1 := by
  induction k generalizing c with
  | zero => rfl
  | succ k ih =>
    rw [Context.blockRun, ih, List.range_succ_eq_map, List.map_cons, List.map_map]
    rfl

/-- The offsets of a run are SYTGEN's answers. -/
theorem Context.sytRun_eq (k : Nat) : c.sytRun k = (List.range k).map fun i => (c.afterSytgen i).sytgen.1 := by
  induction k generalizing c with
  | zero => rfl
  | succ k ih =>
    rw [Context.sytRun, ih, List.range_succ_eq_map, List.map_cons, List.map_map]
    rfl

theorem Context.getElem?_blockRun {i k : Nat} (h : i < k) :
    (c.blockRun k)[i]? = some (c.afterDbgen i).dbgen.1 := by
  rw [c.blockRun_eq, List.getElem?_map, List.getElem?_range h, Option.map_some]

theorem Context.getElem?_sytRun {i k : Nat} (h : i < k) :
    (c.sytRun k)[i]? = some (c.afterSytgen i).sytgen.1 := by
  rw [c.sytRun_eq, List.getElem?_map, List.getElem?_range h, Option.map_some]

theorem Context.take_blockRun {i k : Nat} (h : i ≤ k) : (c.blockRun k).take i = c.blockRun i := by
  rw [c.blockRun_eq, c.blockRun_eq, ← List.map_take, List.take_range, Nat.min_eq_left h]

theorem Context.sum_blockRun_succ (k : Nat) :
    (c.blockRun (k + 1)).sum = (c.blockRun k).sum + (c.afterDbgen k).dbgen.1 := by
  rw [c.blockRun_eq, c.blockRun_eq, List.range_succ, List.map_append, List.sum_append, List.map_singleton,
    List.sum_singleton]

end

/-! ### What the generators read -/

section
variable {c d : Context}

theorem Context.dbgen_congr (hrate : d.sfc = c.sfc) (hphase : d.dataBlockState = c.dataBlockState) :
    d.dbgen.1 = c.dbgen.1 ∧ d.dbgen.2.dataBlockState = c.dbgen.2.dataBlockState := by
  cases hf : is44100Family c.sfc.toNat with
  | false =>
    rw [Context.dbgen_clean hf, Context.dbgen_clean (hrate ▸ hf)]
    exact ⟨congrArg BitVec.toNat hphase, hphase⟩
  | true =>
    rw [Context.dbgen_family hf, Context.dbgen_family (hrate ▸ hf), hrate, hphase]
    exact ⟨rfl, rfl⟩

theorem Context.sytgen_congr (hrate : d.sfc = c.sfc) (hoffset : d.lastSytOffset = c.lastSytOffset)
    (hphase : d.sytOffsetState = c.sytOffsetState) :
    d.sytgen.1 = c.sytgen.1 ∧ d.sytgen.2.lastSytOffset = c.sytgen.2.lastSytOffset ∧
      d.sytgen.2.sytOffsetState = c.sytgen.2.sytOffsetState := by
  have hnext : d.nextOffset = c.nextOffset := by
    rw [Context.nextOffset, Context.nextOffset, Context.sytStride, Context.sytStride, hrate, hoffset, hphase]
  have hnextPhase : d.nextPhase = c.nextPhase := by
    rw [Context.nextPhase, Context.nextPhase, hrate, hoffset, hphase]
  rw [d.sytgen_eq, c.sytgen_eq, hnext, hnextPhase]
  exact ⟨rfl, rfl, rfl⟩

/-- The SYT TX_COMPLETE emits for a slot, as a word: it depends on SYTGEN's answer and the delay (R200). -/
theorem Context.sytEmit_eq_emittedSyt {cycle count i : Nat} (hi : i < count)
    (hanswer : d.sytgen.1 = (c.afterSytgen i).sytgen.1) (hdelay : d.transferDelay = c.transferDelay) :
    (d.sytEmit (packetCycle cycle count (i + 1))).1 = BitVec.ofNat 16 (c.emittedSyt cycle count i) := by
  have hrun := c.getElem?_sytRun hi
  rw [← hanswer] at hrun
  cases hsyt : d.sytgen.1 with
  | none =>
    rw [Context.sytEmit_of_none _ hsyt, Context.emittedSyt, hrun, hsyt]
    rfl
  | some off =>
    rw [Context.sytEmit_of_some _ hsyt, Context.emittedSyt, hrun, hsyt, hdelay]
    exact (BitVec.ofNat_toNat ..).symm.trans (congrArg _ (toNat_sytAfterDelay ..))

/-- A sound generator's next packet has a data block (42_scheduler.md R195). -/
theorem Context.one_le_dbgen (hp : c.ParamsSound) (hg : c.GeneratorsSound) : 1 ≤ c.dbgen.1 := by
  obtain ⟨hlist, -⟩ := blockCountsAreInRange c hp hg
  have hlt := lt_of_sytIntervalOf hp.interval
  generalize c.sfc.toNat = sfc at hlist hlt
  interval_cases sfc <;> simp at hlist <;> omega

end

end Sys2Proof.Machine
end

section
/-! SUPPORT. A Send stream inside TX_COMPLETE, from packet to packet (43_transmit.md R220 to R225, R230): what has
changed since the event arrived, when some packets are built and some of them queued. Building and queueing are one step
each, so that a failing `queue()` finds the stream between the two (60_exceptions.md R346). -/

namespace Sys2Proof.Machine

/-! ### The cursors (R230) -/

/-- The cursors of `d` are those of `c` moved by `frames` in the buffer `b`. -/
structure Context.CursorsMoved (c : Context) (b : Binding) (frames : Nat) (d : Context) : Prop where
  buffer : d.pcmBufferPointer.toNat = (c.pcmBufferPointer.toNat + frames) % b.bufferSize
  period : d.pcmPeriodPointer.toNat = (c.pcmPeriodPointer.toNat + frames) % b.periodSize
  pending : d.periodPending = true ↔ c.periodPending = true ∨ b.periodSize ≤ c.pcmPeriodPointer.toNat + frames

/-- The cursors of `d` are those of `c`. -/
structure Context.CursorsKept (c d : Context) : Prop where
  buffer : d.pcmBufferPointer = c.pcmBufferPointer
  period : d.pcmPeriodPointer = c.pcmPeriodPointer
  pending : d.periodPending = c.periodPending

section
variable {c d d' : Context} {b : Binding} {frames : Nat}

theorem Context.CursorsKept.refl (c : Context) : c.CursorsKept c := ⟨rfl, rfl, rfl⟩

theorem Context.CursorsKept.trans (h : c.CursorsKept d) (h' : d.CursorsKept d') : c.CursorsKept d' :=
  ⟨h'.buffer.trans h.buffer, h'.period.trans h.period, h'.pending.trans h.pending⟩

theorem Context.CursorsMoved.kept (h : c.CursorsMoved b frames d) (h' : d.CursorsKept d') :
    c.CursorsMoved b frames d' :=
  ⟨h'.buffer ▸ h.buffer, h'.period ▸ h.period, h'.pending ▸ h.pending⟩

/-- Cursors inside the buffer are moved by nothing. -/
theorem Context.cursorsMoved_zero (h : c.BindingSound) (hb : c.pcm = some b) : c.CursorsMoved b 0 c where
  buffer := (Nat.mod_eq_of_lt (h.bufferCursor b hb)).symm
  period := (Nat.mod_eq_of_lt (h.periodCursor b hb)).symm
  pending := (or_iff_left (Nat.not_le_of_lt (h.periodCursor b hb))).symm

/-- A cursor moved modulo a size fits its register. -/
theorem toNat_cursor {size : Nat} (hpos : 1 ≤ size) (hlt : size < 2 ^ 32) (n : Nat) :
    (BitVec.ofNat 32 (n % size)).toNat = n % size := toNat_ofNat_of_lt ((Nat.mod_lt _ hpos).trans hlt)

/-- Crossing a boundary in two moves is crossing it in one of them. -/
theorem period_crossed_iff {p size m n : Nat} : size ≤ p + m ∨ size ≤ (p + m) % size + n ↔ size ≤ p + m + n := by
  rcases Nat.lt_or_ge (p + m) size with hlt | hge
  · rw [Nat.mod_eq_of_lt hlt, or_iff_right (Nat.not_le_of_lt hlt)]
  · exact iff_of_true (.inl hge) (hge.trans (Nat.le_add_right ..))

/-- PTR_UPDATE moves the cursors on. -/
theorem Context.CursorsMoved.ptrUpdate (h : c.CursorsMoved b frames d) (hb : b.inRange = true) (n : Nat) :
    c.CursorsMoved b (frames + n) (d.ptrUpdate b n) := by
  obtain ⟨hperiod, hle, hlt⟩ := (inRange_iff b).mp hb
  refine ⟨?_, ?_, ?_⟩
  · rw [Context.ptrUpdate_pcmBufferPointer, toNat_cursor (hperiod.trans hle) hlt, h.buffer, Nat.mod_add_mod,
      Nat.add_assoc]
  · rw [Context.ptrUpdate_pcmPeriodPointer, toNat_cursor hperiod (hle.trans_lt hlt), h.period, Nat.mod_add_mod,
      Nat.add_assoc]
  · rw [Context.ptrUpdate_periodPending, Bool.or_eq_true, decide_eq_true_eq, h.pending, h.period, or_assoc,
      period_crossed_iff, Nat.add_assoc]

end

/-! ### The next packet (R222) -/

/-- The bytes of the packet that TX_PACKET builds next. -/
def Context.nextPacket (order : ByteOrder) (syt : BitVec 16) (t : Context) : List Byte :=
  (t.withPacket order syt).slotBytes (t.withPacket order syt).packetIndex.toNat
    ((t.withPacket order syt).packetLength t.dbgen.1)

section
variable (order : ByteOrder) (syt : BitVec 16) (t : Context)

theorem Context.builtDescriptor_withPacket :
    (t.withPacket order syt).builtDescriptor t.dbgen.1 = .tx (t.nextPacket order syt) := rfl

/-- DBGEN and the building of a packet change the phase, the pool, the ports and the counter. -/
theorem Context.withPacket_frame : t.withPacket order syt = { t with
    dataBlockState := t.dbgen.2.dataBlockState
    pool := (t.withPacket order syt).pool
    midi := (t.withPacket order syt).midi
    dbc := t.dbc + BitVec.ofNat 8 t.dbgen.1 } :=
   congrArg (fun x : Context => { x with
    pool := (t.withPacket order syt).pool
    midi := (t.withPacket order syt).midi
    dbc := x.dbc + BitVec.ofNat 8 t.dbgen.1 }) t.dbgen_frame

theorem Context.withPacket_midi : PortsTaken t.midi (t.withPacket order syt).midi := by
  have h := t.dbgen.2.midiFill_taken t.dbgen.1
  rwa [congrArg Context.midi t.dbgen_frame] at h

/-- The length and the header of the next packet (R225). -/
theorem Context.nextPacket_header :
    (t.nextPacket order syt).length = 8 + 4 * t.dbgen.1 * t.dataBlockQuadlets.toNat ∧
    (quadletAt (t.nextPacket order syt) 0).toNat =
      t.sourceNodeId.toNat * 2 ^ 24 + t.dataBlockQuadlets.toNat * 2 ^ 16 + t.dbc.toNat ∧
    (quadletAt (t.nextPacket order syt) 1).toNat = 0x90000000 + t.sfc.toNat * 2 ^ 16 + syt.toNat := by
  obtain ⟨bytes, hbytes, hlen, hq0, hq1, -⟩ := builtPacketHeader t.dbgen.2 order t.dbgen.1 syt
  obtain rfl : t.nextPacket order syt = bytes := Descriptor.tx.inj hbytes
  rw [t.dbgen_frame] at hlen hq0 hq1
  exact ⟨hlen, hq0, hq1⟩

/-- With valid maps building a packet stores inside it (40_tables_config.md R138; 20_memory.md R61). -/
theorem Context.poolByte_buildPacket {c : Context} (hmaps : c.mapsOk = true) (order : ByteOrder) (n : Nat)
    (syt : BitVec 16) {a : Nat} (ha : a < c.slotBase c.packetIndex.toNat ∨
      c.slotBase c.packetIndex.toNat + c.packetLength n ≤ a) :
    (c.buildPacket order n syt).poolByte a = c.poolByte a := by
  refine c.poolByte_writeSlot c.packetIndex.toNat a (c.packetWrites order n syt) fun w hw => ?_
  have hmem := (c.packetWrites_quadlets order n syt).mem_iff.mp (List.mem_map_of_mem (f := Prod.fst) hw)
  have hend : 4 * w.1 + 4 ≤ c.packetLength n := by
    simp only [List.mem_cons, Context.namedQuadlets, List.mem_flatMap, List.mem_map, List.mem_range] at hmem
    have hheader : 8 ≤ c.packetLength n := Nat.le_add_right ..
    obtain h0 | h1 | ⟨b, hb, k, hk, he⟩ := hmem
    · omega
    · omega
    · rw [← he]
      exact Context.slotQuadlet_end_le hb ((c.mapsOk_iff.mp hmaps).2 k hk)
  omega

theorem Context.poolByte_withPacket {t : Context} (hmaps : t.mapsOk = true) {a : Nat}
    (ha : a < t.packetIndex.toNat * t.bufSize ∨
      t.packetIndex.toNat * t.bufSize + 8 + 4 * t.dbgen.1 * t.dataBlockQuadlets.toNat ≤ a) :
    (t.withPacket order syt).poolByte a = t.poolByte a := by
  have hbuilt := Context.poolByte_buildPacket (c := t.dbgen.2) (a := a) (by rw [t.dbgen_frame]; exact hmaps) order
    t.dbgen.1 syt (by rw [t.dbgen_frame]; exact ha.imp id (Nat.add_assoc .. ▸ ·))
  refine hbuilt.trans ?_
  rw [t.dbgen_frame]
  rfl

end

/-! ### Between two packets -/

/-- `d` is the Send stream `c` inside a TX_COMPLETE of `count` descriptors, when `built` packets have been built and
`packets` are queued: the consumed descriptors are on the wire, the generators, the counter, the ports and the pool
stand after the built packets, the queue, the packet index and the cursors after the queued ones, and nothing else has
changed but the callback flag and what counts as flushed. -/
structure Context.Sending (c : Context) (count built : Nat) (packets : List (List Byte)) (d : Context) : Prop where
  rest : d = { c with
    callbacked := true, wire := d.wire, flushed := d.flushed, hwq := d.hwq, dbc := d.dbc, packetIndex := d.packetIndex,
    dataBlockState := d.dataBlockState, lastSytOffset := d.lastSytOffset, sytOffsetState := d.sytOffsetState,
    pcmBufferPointer := d.pcmBufferPointer, pcmPeriodPointer := d.pcmPeriodPointer, periodPending := d.periodPending,
    pool := d.pool, midi := d.midi }
  wire : d.wire = c.wire ++ c.hwq.take count
  queue : d.hwq = c.hwq.drop count ++ packets.map .tx
  index : d.packetIndex.toNat = (c.packetIndex.toNat + packets.length) % 48
  unbound : c.pcm = none → c.CursorsKept d
  cursors : ∀ b, c.pcm = some b → c.CursorsMoved b ((c.blockRun packets.length).sum * c.framesPerBlock) d
  phase : d.dataBlockState = (c.afterDbgen built).dataBlockState
  sytOffset : d.lastSytOffset = (c.afterSytgen built).lastSytOffset
  sytPhase : d.sytOffsetState = (c.afterSytgen built).sytOffsetState
  counter : d.dbc.toNat = (c.dbc.toNat + (c.blockRun built).sum) % 256
  ports : PortsTaken c.midi d.midi
  pool : ∀ a, (∀ i < built, ∀ n, (c.blockRun built)[i]? = some n →
    a < (c.packetIndex.toNat + i) % 48 * c.bufSize ∨
      (c.packetIndex.toNat + i) % 48 * c.bufSize + 8 + 4 * n * c.dataBlockQuadlets.toNat ≤ a) →
    d.poolByte a = c.poolByte a

section
variable {c d : Context} {hold count built : Nat} {packets : List (List Byte)}

/-- What the event itself writes: the consumed descriptors are on the wire and nothing is built. -/
theorem Context.Sound.sending_start (h : c.Sound hold) (hvalid : c.packetIndexValid = true) (count : Nat) :
    c.Sending count 0 [] ({ c with callbacked := true }.consume count) where
  rest := rfl
  wire := rfl
  queue := (List.append_nil _).symm
  index := (Nat.mod_eq_of_lt (h.queue.index hvalid)).symm
  unbound _ := ⟨rfl, rfl, rfl⟩
  cursors b hb := by
    rw [List.length_nil, Context.blockRun, List.sum_nil, Nat.zero_mul]
    exact (Context.cursorsMoved_zero h.binding hb).kept ⟨rfl, rfl, rfl⟩
  phase := rfl
  sytOffset := rfl
  sytPhase := rfl
  counter := (Nat.mod_eq_of_lt c.dbc.isLt).symm
  ports := .refl _
  pool _ _ := rfl

theorem Context.Sending.configuration (h : c.Sending count built packets d) : c.SameConfiguration d :=
  .of_kept (by rw [h.rest])

/-- What DBGEN answers next: SYTGEN has not moved its phase. -/
theorem Context.Sending.dbgen (h : c.Sending count built packets d) :
    d.sytgen.2.dbgen.1 = (c.afterDbgen built).dbgen.1 ∧
      d.sytgen.2.dbgen.2.dataBlockState = (c.afterDbgen (built + 1)).dataBlockState := by
  rw [c.afterDbgen_succ]
  exact Context.dbgen_congr (h.configuration.sfc.trans (c.afterDbgen_sfc built).symm) h.phase

/-- What SYTGEN answers next. -/
theorem Context.Sending.sytgen (h : c.Sending count built packets d) :
    d.sytgen.1 = (c.afterSytgen built).sytgen.1 ∧
      d.sytgen.2.lastSytOffset = (c.afterSytgen (built + 1)).lastSytOffset ∧
      d.sytgen.2.sytOffsetState = (c.afterSytgen (built + 1)).sytOffsetState := by
  rw [c.afterSytgen_succ]
  exact Context.sytgen_congr (h.configuration.sfc.trans (c.afterSytgen_sfc built).symm) h.sytOffset h.sytPhase

/-- The SYT emitted next, while a slot is left to fill (R223). -/
theorem Context.Sending.sytEmit (h : c.Sending count built packets d) (hlt : built < count) (cycle : Nat) :
    (d.sytEmit (packetCycle cycle count (built + 1))).1 = BitVec.ofNat 16 (c.emittedSyt cycle count built) :=
  Context.sytEmit_eq_emittedSyt hlt h.sytgen.1 (by rw [h.rest])

/-- The packet is built: SYTGEN, DBGEN, and the stores to the slot of the packet index. -/
theorem Context.Sending.build (h : c.Sending count built packets d) (hlen : packets.length = built)
    (hmaps : c.mapsOk = true) (order : ByteOrder) (syt : BitVec 16) :
    c.Sending count (built + 1) packets (d.sytgen.2.withPacket order syt) := by
  have hframe := d.sytgen.2.withPacket_frame order syt
  have hkept : d.CursorsKept (d.sytgen.2.withPacket order syt) := by rw [hframe]; exact ⟨rfl, rfl, rfl⟩
  obtain ⟨hblocks, hphase⟩ := h.dbgen
  refine
    { rest := ?rest
      wire := (congrArg Context.wire hframe).trans h.wire
      queue := (congrArg Context.hwq hframe).trans h.queue
      index := (congrArg (BitVec.toNat ∘ Context.packetIndex) hframe).trans h.index
      unbound := fun hb => (h.unbound hb).trans hkept
      cursors := fun b hb => (h.cursors b hb).kept hkept
      phase := (congrArg Context.dataBlockState hframe).trans hphase
      sytOffset := (congrArg Context.lastSytOffset hframe).trans h.sytgen.2.1
      sytPhase := (congrArg Context.sytOffsetState hframe).trans h.sytgen.2.2
      counter := ?counter
      ports := h.ports.trans (d.sytgen.2.withPacket_midi order syt)
      pool := fun a ha => ?pool }
  case rest =>
    rw [hframe, h.rest]
    rfl
  case counter =>
    have hdbc : d.sytgen.2.dbc = d.dbc := rfl
    rw [hframe, BitVec.toNat_add, hdbc, h.counter, hblocks, c.sum_blockRun_succ, BitVec.toNat_ofNat]
    omega
  case pool =>
    have hsize : d.sytgen.2.bufSize = c.bufSize := by rw [h.rest]; rfl
    have hdbq : d.sytgen.2.dataBlockQuadlets = c.dataBlockQuadlets := h.configuration.dataBlockQuadlets
    have hindex : d.sytgen.2.packetIndex.toNat = (c.packetIndex.toNat + built) % 48 := hlen ▸ h.index
    have hlast := ha built (Nat.lt_succ_self _) _ (c.getElem?_blockRun (Nat.lt_succ_self _))
    refine (Context.poolByte_withPacket order syt (t := d.sytgen.2) (h.configuration.mapsOk.trans hmaps) ?_).trans
      (h.pool a fun i hi n hn => ha i (Nat.lt_succ_of_lt hi) n ?_)
    · rwa [hsize, hdbq, hindex, hblocks]
    · rwa [c.getElem?_blockRun (Nat.lt_succ_of_lt hi), ← c.getElem?_blockRun hi]

/-- The built packet is queued and the cursors move past it. -/
theorem Context.Sending.queued (h : c.Sending count (built + 1) packets d) (hlen : packets.length = built)
    (hb : c.BindingSound) (packet : List Byte) :
    c.Sending count (built + 1) (packets ++ [packet])
      ((d.enqueue (.tx packet)).advanceCursors ((c.afterDbgen built).dbgen.1 * c.framesPerBlock)) := by
  have hframe := (d.enqueue (.tx packet)).advanceCursors_frame
    ((c.afterDbgen built).dbgen.1 * c.framesPerBlock)
  have hkept : d.CursorsKept (d.enqueue (.tx packet)) := ⟨rfl, rfl, rfl⟩
  have hnext : (packets ++ [packet]).length = built + 1 := by rw [List.length_append, hlen]; rfl
  refine
    { rest := ?rest
      wire := (congrArg Context.wire hframe).trans h.wire
      queue := ?queue
      index := ?index
      unbound := fun hn => ?unbound
      cursors := fun b hs => ?cursors
      phase := (congrArg Context.dataBlockState hframe).trans h.phase
      sytOffset := (congrArg Context.lastSytOffset hframe).trans h.sytOffset
      sytPhase := (congrArg Context.sytOffsetState hframe).trans h.sytPhase
      counter := (congrArg (BitVec.toNat ∘ Context.dbc) hframe).trans h.counter
      ports := (congrArg Context.midi hframe) ▸ h.ports
      pool := fun a ha => ?pool }
  case rest =>
    rw [hframe, h.rest]
    rfl
  case queue =>
    rw [hframe, Context.enqueue_hwq, h.queue, List.map_append, List.append_assoc]
    rfl
  case index =>
    rw [hframe, Context.packetIndex_enqueue, h.index, hlen, hnext, Config.queueLength, Nat.mod_add_mod, Nat.add_assoc]
  case unbound =>
    have hd : (d.enqueue (.tx packet)).pcm = none := (congrArg Context.pcm h.rest).trans hn
    rw [Context.advanceCursors_none hd]
    exact (h.unbound hn).trans hkept
  case cursors =>
    have hd : (d.enqueue (.tx packet)).pcm = some b := (congrArg Context.pcm h.rest).trans hs
    rw [Context.advanceCursors_some hd, hnext, c.sum_blockRun_succ, ← hlen, Nat.add_mul]
    exact ((h.cursors b hs).kept hkept).ptrUpdate (hb.range b hs) _
  case pool =>
    refine Eq.trans ?_ (h.pool a ha)
    rw [hframe]
    rfl

end

end Sys2Proof.Machine
end

section
/-! SUPPORT. The packets of a TX_COMPLETE (43_transmit.md R220, R223, R228): while the `queue()` calls succeed the
stream runs from packet to packet, and the call that fails finds the run where it is. -/

namespace Sys2Proof.Machine

/-! ### The run of packets -/

/-- A stream for which TX_COMPLETE of `count` descriptors is admitted: sound, active, sending, with so many queued. -/
structure Context.TxReady (c : Context) (hold count : Nat) : Prop where
  sound : c.Sound hold
  active : c.active = true
  direction : c.direction = .send
  queue : count ≤ c.hwq.length

/-- The stream inside a TX_COMPLETE after `i` packets, as long as `queue()` succeeds. -/
def Context.txRun (order : ByteOrder) (cycle count : Nat) (c : Context) : Nat → Context
  | 0 => { c with callbacked := true }.consume count
  | i + 1 => (c.txRun order cycle count i).txSlot order none cycle count (i + 1)

/-- The packet built for slot `i` of `count`. -/
def Context.txPacketAt (order : ByteOrder) (cycle count : Nat) (c : Context) (i : Nat) : List Byte :=
  (c.txRun order cycle count i).sytgen.2.nextPacket order (BitVec.ofNat 16 (c.emittedSyt cycle count i))

/-- The packets built for the first `i` slots. -/
def Context.txPackets (order : ByteOrder) (cycle count : Nat) (c : Context) (i : Nat) : List (List Byte) :=
  (List.range i).map (c.txPacketAt order cycle count)

section
variable {c d : Context} {hold cycle count i : Nat} {packets : List (List Byte)} {order : ByteOrder}

theorem Context.length_txPackets : (c.txPackets order cycle count i).length = i := by
  rw [Context.txPackets, List.length_map, List.length_range]

theorem Context.txPackets_succ : c.txPackets order cycle count (i + 1) =
    c.txPackets order cycle count i ++ [c.txPacketAt order cycle count i] := by
  rw [Context.txPackets, List.range_succ, List.map_append]
  rfl

theorem Context.getElem?_txPackets (h : i < count) :
    (c.txPackets order cycle count count)[i]? = some (c.txPacketAt order cycle count i) := by
  rw [Context.txPackets, List.getElem?_map, List.getElem?_range h, Option.map_some]

theorem Context.Sending.active (h : c.Sending count i packets d) (ha : c.active = true) : d.active = true := by
  rw [h.rest]
  exact ha

theorem Context.not_idle_of_active (ha : c.active = true) : ¬ c.state = .idle := fun hi => by
  rw [(Context.active_eq_false_iff c).mpr (.inr (.inl hi))] at ha
  cases ha

/-- While a slot is left to fill, the queue has room: as many descriptors were consumed (20_memory.md R79). -/
theorem Context.TxReady.hwq_lt (h : c.TxReady hold count) (hd : c.Sending count i packets d)
    (hlt : packets.length < count) : d.hwq.length < 48 := by
  have hcapacity : c.hwq.length ≤ 48 := h.sound.queue.capacity
  have hqueue := h.queue
  rw [hd.queue, List.length_append, List.length_drop, List.length_map]
  omega

/-- The slot's TX_PACKET is handed the SYT of the slot's cycle. -/
theorem Context.Sending.txSlot_eq (hd : c.Sending count i packets d) (hlt : i < count) (q : Option Nat) :
    d.txSlot order q cycle count (i + 1) =
      d.sytgen.2.txPacket order q i (BitVec.ofNat 16 (c.emittedSyt cycle count i)) := by
  rw [← hd.sytEmit hlt cycle]
  rfl

/-- A slot whose `queue()` call succeeds: one packet is built, queued and counted. -/
theorem Context.TxReady.packetQueued (h : c.TxReady hold count) (order : ByteOrder) (cycle : Nat)
    (hd : c.Sending count i packets d) (hs : d.SendingSound hold) (hlen : packets.length = i) (hlt : i < count)
    {q : Option Nat} (hq : q ≠ some i) :
    d.sytgen.2.PacketQueued order (BitVec.ofNat 16 (c.emittedSyt cycle count i))
      (d.txSlot order q cycle count (i + 1)) := by
  have hroom : d.hwq.length < 48 := h.hwq_lt hd (hlen ▸ hlt)
  rw [hd.txSlot_eq hlt]
  exact Context.txPacket_queued (Context.one_le_dbgen hs.sytgen.run.params hs.sytgen.run.generators) hq hroom

/-- A slot whose `queue()` call fails: the packet is built and the stream stops (60_exceptions.md R346). -/
theorem Context.Sending.txSlot_failed (hd : c.Sending count i packets d) (hs : d.SendingSound hold) (hlt : i < count) :
    d.txSlot order (some i) cycle count (i + 1) =
      (d.sytgen.2.withPacket order (BitVec.ofNat 16 (c.emittedSyt cycle count i))).fatalStop .errQueue := by
  rw [hd.txSlot_eq hlt]
  exact Context.txPacket_failed (Context.one_le_dbgen hs.sytgen.run.params hs.sytgen.run.generators) (.inl rfl)

/-- A packet queued leads from between two packets to between the next two. -/
theorem Context.Sending.next (hd : c.Sending count i packets d) (hlen : packets.length = i) (hmaps : c.mapsOk = true)
    (hb : c.BindingSound) {syt : BitVec 16} {e : Context} (he : d.sytgen.2.PacketQueued order syt e) :
    c.Sending count (i + 1) (packets ++ [d.sytgen.2.nextPacket order syt]) e := by
  have hframes : d.sytgen.2.framesPerBlock = c.framesPerBlock := by rw [hd.rest]; rfl
  rw [he.result, hframes, Context.builtDescriptor_withPacket, hd.dbgen.1]
  exact (hd.build hlen hmaps order syt).queued hlen hb _

/-- After a packet was queued the stream goes on. -/
theorem Context.SendingSound.txSlot (hs : d.SendingSound hold) {q : Option Nat}
    (ha : (d.txSlot order q cycle count i).active = true) :
    (d.txSlot order q cycle count i).SendingSound hold :=
  (hs.sytgen.txPacket order q (i - 1) _).resolve_left fun ⟨hidle, _⟩ => Context.not_idle_of_active ha hidle

/-- The run: after `i` slots, `i` packets are built and queued, and the stream is sound but for the flush. -/
theorem Context.TxReady.run (h : c.TxReady hold count) (order : ByteOrder) (cycle : Nat) (hi : i ≤ count) :
    c.Sending count i (c.txPackets order cycle count i) (c.txRun order cycle count i) ∧
      (c.txRun order cycle count i).SendingSound hold := by
  induction i with
  | zero =>
    have hs := h.sound.sending h.active h.direction
    exact ⟨h.sound.sending_start hs.run.valid count, (hs.of_run hs.run.callbacked rfl).consume count⟩
  | succ i ih =>
    obtain ⟨hd, hs⟩ := ih (Nat.le_of_succ_le hi)
    have hnext := hd.next Context.length_txPackets (h.sound.maps h.active) h.sound.binding
      (h.packetQueued order cycle hd hs Context.length_txPackets hi (q := none) nofun)
    rw [Context.txPackets_succ]
    exact ⟨hnext, hs.txSlot (hnext.active h.active)⟩

/-- From slot to slot of the run. -/
theorem Context.TxReady.packetQueued_txRun (h : c.TxReady hold count) (hi : i < count) {q : Option Nat}
    (hq : q ≠ some i) :
    (c.txRun order cycle count i).sytgen.2.PacketQueued order (BitVec.ofNat 16 (c.emittedSyt cycle count i))
      ((c.txRun order cycle count i).txSlot order q cycle count (i + 1)) := by
  obtain ⟨hd, hs⟩ := h.run order cycle hi.le
  exact h.packetQueued order cycle hd hs Context.length_txPackets hi hq

/-- A slot whose call the oracle does not name runs as if no call failed. -/
theorem Context.TxReady.txSlot_txRun (h : c.TxReady hold count) (hi : i < count) {q : Option Nat} (hq : q ≠ some i) :
    (c.txRun order cycle count i).txSlot order q cycle count (i + 1) = c.txRun order cycle count (i + 1) :=
  (h.packetQueued_txRun hi hq).result.trans (h.packetQueued_txRun hi (q := none) nofun).result.symm

/-- The loop goes through the slots whose calls the oracle does not name. -/
theorem Context.TxReady.txLoop (h : c.TxReady hold count) (hi : i ≤ count) {q : Option Nat}
    (hq : ∀ j < i, q ≠ some j) :
    (c.txRun order cycle count 0).txLoop order q cycle count count 1 =
      (c.txRun order cycle count i).txLoop order q cycle count (count - i) (i + 1) := by
  induction i with
  | zero => rfl
  | succ i ih =>
    obtain ⟨hd, -⟩ := h.run order cycle hi
    rw [ih (Nat.le_of_succ_le hi) fun j hj => hq j (Nat.lt_succ_of_lt hj), ← Nat.sub_add_cancel (Nat.sub_pos_of_lt hi),
      Context.txLoop, h.txSlot_txRun hi (hq i (Nat.lt_succ_self i)),
      if_neg (Context.not_idle_of_active (hd.active h.active))]
    rfl

/-- Where no `queue()` call fails, TX_COMPLETE of a host-clock stream is the whole run and a flush. -/
theorem Context.TxReady.txCompleted (h : c.TxReady hold count) :
    c.txCompleted order false cycle count none = (c.txRun order cycle count count).queueFlush := by
  have hloop := h.txLoop (order := order) (cycle := cycle) (q := none) le_rfl fun _ _ => nofun
  rw [Nat.sub_self] at hloop
  exact hloop

/-- Where call `i` fails, TX_COMPLETE is the run up to slot `i` and the fatal stop with that packet built (R228). -/
theorem Context.TxReady.txCompleted_failed (h : c.TxReady hold count) (order : ByteOrder) (cycle : Nat)
    (hi : i < count) : ∃ t, c.Sending count (i + 1) (c.txPackets order cycle count i) t ∧
      c.txCompleted order false cycle count (some i) = t.fatalStop .errQueue := by
  obtain ⟨hd, hs⟩ := h.run order cycle hi.le
  have hbuilt := hd.build Context.length_txPackets (h.sound.maps h.active) order
    (BitVec.ofNat 16 (c.emittedSyt cycle count i))
  have hidle := Context.state_fatalStop (hbuilt.active h.active) .errQueue
  have hloop := h.txLoop (order := order) (cycle := cycle) (q := some i) hi.le fun j hj he =>
    hj.ne' (Option.some.inj he)
  rw [← Nat.sub_add_cancel (Nat.sub_pos_of_lt hi), Context.txLoop, hd.txSlot_failed hs hi, if_pos hidle] at hloop
  exact ⟨_, hbuilt, hloop⟩

end

end Sys2Proof.Machine
end

section
/-! SUPPORT. What TX_COMPLETE of a host-clock stream leaves, with every packet queued and with one that is not
(43_transmit.md R220 to R228; 60_exceptions.md R345, R346). -/

namespace Sys2Proof.Machine

section
variable {c d : Context} {hold cycle count i : Nat} {packets : List (List Byte)} {order : ByteOrder}

/-- An emitted SYT is a 16-bit field (30_encoding.md R95). -/
theorem Context.emittedSyt_lt (c : Context) (cycle count i : Nat) : c.emittedSyt cycle count i < 2 ^ 16 := by
  unfold Context.emittedSyt
  split
  · unfold delayedSyt Config.ticksPerCycle
    omega
  · decide

/-- The packet built next: its block count, its length and its header (R222, R225, R232). -/
theorem Context.Sending.nextPacket_header (h : c.Sending count i packets d) (hs : d.SendingSound hold)
    (order : ByteOrder) (syt : BitVec 16) :
    let packet := d.sytgen.2.nextPacket order syt
    let n := (c.afterDbgen i).dbgen.1
    1 ≤ n ∧ n ≤ c.sytInterval.toNat ∧ packet.length = 8 + 4 * n * c.dataBlockQuadlets.toNat ∧
      (quadletAt packet 0).toNat = c.sourceNodeId.toNat * 2 ^ 24 + c.dataBlockQuadlets.toNat * 2 ^ 16 +
        (c.dbc.toNat + (c.blockRun i).sum) % 256 ∧
      (quadletAt packet 1).toNat = 0x90000000 + c.sfc.toNat * 2 ^ 16 + syt.toNat := by
  have hinterval : d.sytgen.2.sytInterval = c.sytInterval := h.configuration.sytInterval
  have hdbq : d.sytgen.2.dataBlockQuadlets = c.dataBlockQuadlets := h.configuration.dataBlockQuadlets
  have hsfc : d.sytgen.2.sfc = c.sfc := h.configuration.sfc
  have hnode : d.sytgen.2.sourceNodeId = c.sourceNodeId := by rw [h.rest]; rfl
  have hdbc : d.sytgen.2.dbc.toNat = (c.dbc.toNat + (c.blockRun i).sum) % 256 := h.counter
  have hgenerators := hs.sytgen.run
  rw [← h.dbgen.1, ← hinterval, ← hdbq, ← hsfc, ← hnode, ← hdbc]
  exact ⟨Context.one_le_dbgen hgenerators.params hgenerators.generators,
    (Context.dbgen_le_maxBlocks _).trans (Context.maxBlocks_le_interval hgenerators.params hgenerators.generators),
    Context.nextPacket_header order syt _⟩

end

/-- Settles O40: the run of packets, each slot's packet by the state of the run before it, and what the run leaves. -/
theorem txCompleteBuildsThePackets : Obligations.TxCompleteBuildsThePackets := by
  intro σ s cycle count hs hcount c h ha hd hqueue hslave
  have hready : c.TxReady σ.params.reorderHold count := ⟨h, ha, hd, hqueue⟩
  obtain ⟨hrun, -⟩ := hready.run σ.params.hostByteOrder cycle le_rfl
  refine ⟨_, exec_txComplete_of_sound hs hcount h ha hd hqueue cycle none, rfl, σ.onlyStream_setStream s _ _, rfl,
    c.txPackets σ.params.hostByteOrder cycle count count, c.txRun σ.params.hostByteOrder cycle count,
    Context.length_txPackets, ?_⟩
  rw [hslave, hready.txCompleted, State.stream_respond, σ.stream_setStream_same s _ hs]
  have hindex := hrun.index
  have hcursors := hrun.cursors
  rw [Context.length_txPackets] at hindex hcursors
  refine ⟨Context.length_blockRun .., hrun.wire, hrun.queue, rfl, congrArg Context.callbacked hrun.rest, hindex,
    hrun.counter, fun i hi => ?_, rfl, fun i hi => hready.packetQueued_txRun hi nofun, rfl, hrun.phase,
    hrun.sytOffset, hrun.sytPhase, fun b hb => ?_, fun hb => ?_, hrun.pool, fun p _ => hrun.ports.port p,
    congrArg Context.queueFlush hrun.rest⟩
  · refine ⟨_, _, Context.getElem?_txPackets hi, c.getElem?_blockRun hi, ?_⟩
    obtain ⟨hslot, hsound⟩ := hready.run σ.params.hostByteOrder cycle hi.le
    have hheader := hslot.nextPacket_header hsound σ.params.hostByteOrder (BitVec.ofNat 16 (c.emittedSyt cycle count i))
    rw [toNat_ofNat_of_lt (c.emittedSyt_lt ..)] at hheader
    rw [c.take_blockRun hi.le]
    exact hheader
  · exact ⟨(hcursors b hb).buffer, (hcursors b hb).period, (hcursors b hb).pending⟩
  · exact ⟨(hrun.unbound hb).buffer, (hrun.unbound hb).period, (hrun.unbound hb).pending⟩

/-- Ports detached after heads of their FIFOs were taken are the ports detached. -/
theorem PortsTaken.detached {u v w : Vector MidiPort 8} (h : PortsTaken u v) (hw : PortsDetached v w) :
    PortsDetached u w := fun p hp => by
  rw [hw p hp, MidiPort.mk.injEq]
  exact ⟨rfl, rfl, (h.port p).2.1⟩

/-- Settles O42: the run up to the failed call, the packet built there, and the fatal stop of that stream. -/
theorem txQueueFailureStopsTheStream : Obligations.TxQueueFailureStopsTheStream := by
  intro σ s cycle count k hs hcount hk c h ha hd hqueue hslave
  have hready : c.TxReady σ.params.reorderHold count := ⟨h, ha, hd, hqueue⟩
  obtain ⟨t, hbuilt, hfailed⟩ := hready.txCompleted_failed σ.params.hostByteOrder cycle hk
  obtain ⟨ports, index, hports, hstop⟩ := Context.fatalStop_of_active (hbuilt.active ha) .errQueue
  refine ⟨_, exec_txComplete_of_sound hs hcount h ha hd hqueue cycle (some k), rfl, σ.onlyStream_setStream s _ _, ?_⟩
  rw [hslave, hfailed, hstop, State.stream_respond, σ.stream_setStream_same s _ hs]
  have hcursors := hbuilt.cursors
  rw [Context.length_txPackets] at hcursors
  have haborts : (if t.pcm.isSome then t.aborts ++ [.errQueue] else t.aborts) =
      if c.pcm.isSome then c.aborts ++ [.errQueue] else c.aborts := by rw [hbuilt.rest]
  have hnotices : t.notices = c.notices := by rw [hbuilt.rest]
  have hviolations : t.protoViolations = c.protoViolations := by rw [hbuilt.rest]
  have hmemory : t.pcmMemory = c.pcmMemory := by rw [hbuilt.rest]
  have hbyte : ∀ a, t.pcmByte a = c.pcmByte a := fun a => by rw [hbuilt.rest]; rfl
  refine ⟨rfl, rfl, rfl, rfl, rfl, rfl, rfl, rfl, rfl, rfl, hbuilt.ports.detached hports, rfl, haborts, hbuilt.wire,
    hnotices, hbuilt.configuration.trans (.of_kept rfl), hmemory, hbyte, fun hb => ?_, fun b hb => ?_, hbuilt.counter,
    hbuilt.phase, hbuilt.sytOffset, hbuilt.sytPhase, hviolations, ?_⟩
  · exact ⟨(hbuilt.unbound hb).buffer, (hbuilt.unbound hb).period⟩
  · exact ⟨(hcursors b hb).buffer, (hcursors b hb).period⟩
  · rw [hbuilt.rest]

end Sys2Proof.Machine
end

section
/-! SUPPORT. The reorder window (44_receive.md R257, R258, R261): where SORT inserts an entry, and the order of a table
whose counters lie in one window. -/

namespace Sys2Proof.Machine

/-- An entry is inserted between the trailing entries that are later than it and an entry that is not (R258). -/
theorem insertEntry_split (table : List Entry) (x : Entry) : ∃ front back, table = front ++ back ∧
    insertEntry table x = front ++ x :: back ∧ (∀ a ∈ back, later a.dbc x.dbc = true) ∧
    ∀ h : front ≠ [], later (front.getLast h).dbc x.dbc ≠ true := by
  let isLater : Entry → Bool := fun a => later a.dbc x.dbc
  refine ⟨table.rdropWhile isLater, table.rtakeWhile isLater, ?_, rfl, fun _ ha => List.mem_rtakeWhile_imp (p := isLater) ha,
    List.rdropWhile_last_not isLater table⟩
  rw [List.rdropWhile, List.rtakeWhile, ← List.reverse_append, List.takeWhile_append_dropWhile, List.reverse_reverse]

theorem insertEntry_perm (table : List Entry) (x : Entry) : (insertEntry table x).Perm (x :: table) := by
  obtain ⟨front, back, rfl, hinsert, -, -⟩ := insertEntry_split table x
  rw [hinsert]
  exact List.perm_middle

theorem sortEntries_cons (carry new : List Entry) (x : Entry) :
    sortEntries carry (x :: new) = sortEntries (insertEntry carry x) new := rfl

/-- The first arrival inserted, the same entries are left. -/
theorem insertEntry_append_perm (carry new : List Entry) (x : Entry) :
    (insertEntry carry x ++ new).Perm (carry ++ x :: new) :=
  ((insertEntry_perm carry x).append_right new).trans List.perm_middle.symm

/-- Settles O45: each arrival is inserted among the entries before it. -/
theorem sortRearranges : Obligations.SortRearranges := by
  intro carry new
  induction new generalizing carry with
  | nil => exact .of_eq (List.append_nil _).symm
  | cons x new ih =>
    rw [sortEntries_cons]
    exact (ih _).trans (insertEntry_append_perm carry new x)

section
variable {base : BitVec 8}

/-- Inside a window of 128 values, to be later is to stand further in the window (R257, R261). -/
theorem later_iff {a x : BitVec 8} (ha : (a - base).toNat ≤ 127) (hx : (x - base).toNat ≤ 127) :
    later a x = true ↔ (x - base).toNat < (a - base).toNat := by
  rw [later, Config.reorderThreshold, Bool.and_eq_true, decide_eq_true_eq, decide_eq_true_eq,
    ← sub_sub_sub_cancel_right a x base, BitVec.toNat_sub]
  omega

/-- A new entry of the window, inserted into a table in order, leaves it in order. -/
theorem pairwise_insertEntry {table : List Entry} {x : Entry}
    (hwindow : ∀ e ∈ x :: table, (e.dbc - base).toNat ≤ 127) (hnew : ∀ e ∈ table, e.dbc ≠ x.dbc)
    (hsorted : table.Pairwise fun a b => (a.dbc - base).toNat < (b.dbc - base).toNat) :
    (insertEntry table x).Pairwise fun a b => (a.dbc - base).toNat < (b.dbc - base).toNat := by
  obtain ⟨front, back, rfl, hinsert, hback, hfront⟩ := insertEntry_split table x
  have hx := hwindow x (List.mem_cons_self ..)
  have hin : ∀ e ∈ front ++ back, (e.dbc - base).toNat ≤ 127 := fun e he => hwindow e (List.mem_cons_of_mem _ he)
  obtain ⟨hsortedFront, hsortedBack, hacross⟩ := List.pairwise_append.mp hsorted
  have hxback : ∀ b ∈ back, (x.dbc - base).toNat < (b.dbc - base).toNat := fun b hb =>
    (later_iff (hin b (List.mem_append_right _ hb)) hx).mp (hback b hb)
  have hfrontx : ∀ a ∈ front, (a.dbc - base).toNat < (x.dbc - base).toNat := by
    rcases List.eq_nil_or_concat front with rfl | ⟨init, last, rfl⟩
    · exact fun a ha => nomatch ha
    have hmem : last ∈ init.concat last ++ back := by simp
    have hlast : (last.dbc - base).toNat < (x.dbc - base).toNat := by
      have hnot := mt (later_iff (hin last hmem) hx).mpr (by simpa using hfront (by simp))
      have hne : (last.dbc - base).toNat ≠ (x.dbc - base).toNat := fun h =>
        hnew last hmem (sub_left_injective (BitVec.eq_of_toNat_eq h))
      omega
    intro a ha
    rw [List.concat_eq_append, List.mem_append, List.mem_singleton] at ha
    rcases ha with ha | rfl
    · rw [List.concat_eq_append, List.pairwise_append] at hsortedFront
      exact (hsortedFront.2.2 a ha last (List.mem_singleton_self _)).trans hlast
    · exact hlast
  rw [hinsert]
  refine List.pairwise_append.mpr ⟨hsortedFront, List.pairwise_cons.mpr ⟨hxback, hsortedBack⟩, fun a ha b hb => ?_⟩
  rcases List.mem_cons.mp hb with rfl | hb
  · exact hfrontx a ha
  · exact hacross a ha b hb

end

/-- Settles O46: every insertion keeps the table in order, and the arrivals that are left lie in the same window. -/
theorem sortOrdersTheWindow : Obligations.SortOrdersTheWindow := by
  intro carry new base hwindow hnodup hsorted
  induction new generalizing carry with
  | nil => exact hsorted
  | cons x new ih =>
    have hperm := insertEntry_append_perm carry new x
    rw [sortEntries_cons]
    refine ih _ (fun e he => hwindow e (hperm.mem_iff.mp he)) ((hperm.map _).nodup_iff.mpr hnodup) ?_
    refine pairwise_insertEntry (fun e he => hwindow e ?_) (fun e he heq => ?_) hsorted
    · rw [List.mem_append, List.mem_cons]
      exact (List.mem_cons.mp he).symm.imp id .inl
    · rw [List.map_append, List.map_cons, List.nodup_append] at hnodup
      exact hnodup.2.2 _ (List.mem_map_of_mem he) _ (List.mem_cons_self ..) heq

end Sys2Proof.Machine
end

section
/-! SUPPORT. VALIDATE (44_receive.md R252 to R254): the header fields as numbers, and the three verdicts. -/

namespace Sys2Proof.Machine

/-- The header checks read the top byte of a quadlet. -/
theorem and_eq_topByte_and (q m : Quadlet) (hm : m &&& 0xFF000000#32 = m) :
    q &&& m = ((q.extractLsb' 24 8).setWidth 32 <<< 24) &&& m := by
  rw [field_eq_masked q 0xFF000000#32 24 8 (by decide), BitVec.and_assoc, BitVec.and_comm 0xFF000000#32, hm]

theorem toNat_topByte (q : Quadlet) : (q.extractLsb' 24 8).toNat = q.toNat / 2 ^ 24 := by
  rw [BitVec.extractLsb'_toNat, Nat.shiftRight_eq_div_pow]
  omega

/-- EOH_0 is the top bit of quadlet 0 (30_encoding.md R104). -/
theorem q0Accepted_iff (q : Quadlet) : q0Accepted q = true ↔ q.toNat < 2 ^ 31 := by
  have htop : ∀ t : Byte, (t.setWidth 32 <<< 24) &&& 0x80000000#32 = 0#32 ↔ t.toNat < 2 ^ 7 := by decide
  rw [q0Accepted, decide_eq_true_eq, and_eq_topByte_and q _ (by decide), htop, toNat_topByte]
  omega

/-- EOH_1 is the top bit of quadlet 1 and FMT the six bits at 24 (R104). -/
theorem q1Accepted_iff (q : Quadlet) : q1Accepted q = true ↔ q.toNat / 2 ^ 31 = 1 ∧ q.toNat / 2 ^ 24 % 64 = 0x10 := by
  have htop : ∀ t : Byte, (t.setWidth 32 <<< 24) &&& 0xBF000000#32 = 0x90000000#32 ↔
      t.toNat / 2 ^ 7 = 1 ∧ t.toNat % 64 = 0x10 := by decide
  rw [q1Accepted, decide_eq_true_eq, and_eq_topByte_and q _ (by decide), htop, toNat_topByte]
  omega

theorem toNat_q1Fdf (q : Quadlet) : (q1Fdf q).toNat = q.toNat / 2 ^ 16 % 256 := by
  rw [q1Fdf, BitVec.extractLsb'_toNat, Nat.shiftRight_eq_div_pow]

theorem toNat_q1Syt (q : Quadlet) : (q1Syt q).toNat = q.toNat % 2 ^ 16 := by
  rw [q1Syt, BitVec.extractLsb'_toNat, Nat.shiftRight_zero]

theorem toNat_q0Dbc (q : Quadlet) : (q0Dbc q).toNat = q.toNat % 256 := by
  rw [q0Dbc, BitVec.extractLsb'_toNat, Nat.shiftRight_zero]

/-- A packet has a complete data block when its length says so (44_receive.md R264). -/
theorem Context.blockCount_eq_zero_iff {c : Context} (hblock : 1 ≤ c.dataBlockQuadlets.toNat) (len : Nat) :
    c.blockCount len = 0 ↔ ¬ 8 + 4 * c.dataBlockQuadlets.toNat ≤ len := by
  rw [Context.blockCount, Nat.div_eq_zero_iff]
  omega

/-- The stream's rate code is never the code of a packet without data (30_encoding.md R100, R101). -/
theorem sfc_ne_noData (sfc : BitVec 3) : sfc.toNat ≠ 0xFF := by omega

/-- VALIDATE by the header fields as numbers: the first check that fails decides. -/
theorem Context.validate_eq {c : Context} (hblock : 1 ≤ c.dataBlockQuadlets.toNat) (pkt : List Byte) :
    c.validate pkt =
      if pkt.length < 8 then .dropSilent
      else if ¬ ((quadletAt pkt 0).toNat < 2 ^ 31 ∧ (quadletAt pkt 1).toNat / 2 ^ 31 = 1 ∧
        (quadletAt pkt 1).toNat / 2 ^ 24 % 64 = 0x10) then .dropViolation
      else if (quadletAt pkt 1).toNat / 2 ^ 16 % 256 = 0xFF then .dropSilent
      else if ¬ 8 + 4 * c.dataBlockQuadlets.toNat ≤ pkt.length then .dropSilent
      else if (quadletAt pkt 1).toNat / 2 ^ 16 % 256 ≠ c.sfc.toNat then .dropViolation
      else .accept := by
  have hnoData : q1Fdf (quadletAt pkt 1) = 0xFF#8 ↔ (quadletAt pkt 1).toNat / 2 ^ 16 % 256 = 0xFF := by
    rw [← BitVec.toNat_inj, toNat_q1Fdf]
    rfl
  have hrate : q1Fdf (quadletAt pkt 1) = c.sfc.setWidth 8 ↔ (quadletAt pkt 1).toNat / 2 ^ 16 % 256 = c.sfc.toNat := by
    rw [← BitVec.toNat_inj, toNat_q1Fdf, BitVec.toNat_setWidth_of_le (by decide)]
  simp only [Context.validate, Bool.not_eq_true', ← Bool.not_eq_true, q0Accepted_iff, q1Accepted_iff, hnoData, hrate,
    Context.blockCount_eq_zero_iff hblock, ne_eq, not_and_or, ite_or]

/-- Settles O44: one case for each of VALIDATE's outcomes, in its order. -/
theorem validateAccepts : Obligations.ValidateAccepts := by
  intro c pkt hblock header fdf block
  have hcode : fdf = c.sfc.toNat → fdf ≠ 0xFF := fun h => h ▸ sfc_ne_noData c.sfc
  have hlong : block → ¬ pkt.length < 8 := fun h => Nat.not_lt_of_le (Nat.le_of_add_right_le h)
  have hle : 8 ≤ pkt.length ↔ ¬ pkt.length < 8 := Nat.not_lt.symm
  have hverdict : c.validate pkt =
      if pkt.length < 8 then .dropSilent else if ¬ header then .dropViolation
      else if fdf = 0xFF then .dropSilent else if ¬ block then .dropSilent
      else if fdf ≠ c.sfc.toNat then .dropViolation else .accept := Context.validate_eq hblock pkt
  rw [hverdict]
  split_ifs with hshort hheader hnoData hblocks hrate
  · have := mt hlong (not_not.mpr hshort)
    simp [*]
  · have hother : ¬ 0xFF = c.sfc.toNat := fun h => hcode (hnoData.trans h) hnoData
    simp [*]
  · simp [*]
  · simp_all
  · simp [*]
  · simp [*]

end Sys2Proof.Machine
end

section
/-! SUPPORT. RX_COMPLETE on an active Receive stream of a sound state: it is admitted and its accesses exist
(70_reset_and_hazards.md R392; 44_receive.md R250, R251), and the block keeps all but its streams. -/

namespace Sys2Proof.Machine

/-- A stream for which RX_COMPLETE of a batch is admitted, in a sound state. -/
structure State.RxReady (σ : State) (s : Nat) (batch : List (List Byte)) : Prop where
  sound : σ.Sound
  inBlock : s < σ.streams.length
  active : (σ.stream s).active = true
  direction : (σ.stream s).direction = .receive
  count : batch.length ≤ 48
  fits : ∀ p ∈ batch, p.length % 4 = 0 ∧ p.length ≤ (σ.stream s).bufSize

/-- `τ` differs from `σ` in its streams and the response at most, and has as many streams. -/
structure State.SameBlock (σ τ : State) : Prop where
  params : τ.params = σ.params
  inbox : τ.inbox = σ.inbox
  allocations : τ.allocations = σ.allocations
  length : τ.streams.length = σ.streams.length

/-- The receiver with its batch taken, and the new entries (44_receive.md R250). -/
def State.taken (σ : State) (s : Nat) (batch : List (List Byte)) : Context × List Entry :=
  Context.intake batch { σ.stream s with callbacked := true }

/-- The table RX_COMPLETE sorts (R258). -/
def State.table (σ : State) (s : Nat) (batch : List (List Byte)) : List Entry :=
  sortEntries (σ.stream s).carry (σ.taken s batch).2

/-- The entries RX_COMPLETE carries over (R260, R262). -/
def State.carried (σ : State) (s : Nat) (batch : List (List Byte)) : List Entry :=
  (σ.table s batch).drop (deliverCount (σ.table s batch) σ.params.reorderHold)

/-- The deliveries of RX_COMPLETE, one after another (R265). -/
def State.deliveryRun (σ : State) (s : Nat) (batch : List (List Byte)) (q : Option Nat) : Delivery :=
  (σ.deliveries s batch).foldl (Delivery.deliver q s)
    { state := σ.setStream s (σ.taken s batch).1, calls := 0, driven := false }

theorem State.deliveries_append_carried (σ : State) (s : Nat) (batch : List (List Byte)) :
    σ.deliveries s batch ++ σ.carried s batch = σ.table s batch := List.take_append_drop ..

theorem State.rxDelivered_eq (σ : State) (s : Nat) (batch : List (List Byte)) (q : Option Nat) :
    σ.rxDelivered s batch q =
      { σ.deliveryRun s batch q with
        state := (σ.deliveryRun s batch q).state.setStream s
          { (σ.deliveryRun s batch q).state.stream s with carry := σ.carried s batch } } := by
  have hcarry := Context.carry_intake batch { σ.stream s with callbacked := true }
  unfold State.rxDelivered
  dsimp only
  rw [hcarry]
  rfl

section
variable {σ τ υ : State} {s : Nat} {batch : List (List Byte)}

theorem Context.Sound.receiver_queued {c : Context} {hold : Nat} (h : c.Sound hold) (ha : c.active = true)
    (hd : c.direction = .receive) : c.hwq.length = 48 := by
  rw [h.queue.receiveQueue ha hd, List.length_map, List.length_range]
  rfl

theorem State.RxReady.receiver (h : σ.RxReady s batch) : (σ.stream s).Sound σ.params.reorderHold :=
  h.sound.streams s h.inBlock

/-- All 48 receive buffers are flushed between operations, so every batch is admitted and every check passes. -/
theorem State.RxReady.exec (h : σ.RxReady s batch) (cycle : Nat) (q : Option Nat) :
    exec (.rxComplete s cycle batch q) σ = .next ((rxCompleted s batch q σ).respond .none) := by
  have hflushed : (σ.stream s).flushed = 48 :=
    h.receiver.queue.flushedAll.trans (h.receiver.receiver_queued h.active h.direction)
  have hadmits : (σ.stream s).admitsRx batch = true := (Context.admitsRx_iff ..).mpr
    ⟨(Context.active_iff _).mp h.active, h.direction, hflushed ▸ h.count, h.fits⟩
  have hvalid : (σ.stream s).packetIndexValid = true := h.receiver.resources.index.trans h.active
  change execRxComplete s cycle batch q σ = _
  rw [execRxComplete, decide_eq_true (show batch.length ≤ Config.queueLength from h.count), guardRange_true,
    onStream_of_lt _ h.inBlock, hadmits, guardAdmitted_true, hvalid,
    h.sound.rxFits h.inBlock h.active h.direction]
  rfl

/-! ### The block (60_exceptions.md R365) -/

theorem State.SameBlock.refl (σ : State) : σ.SameBlock σ := ⟨rfl, rfl, rfl, rfl⟩

theorem State.SameBlock.trans (h : σ.SameBlock τ) (h' : τ.SameBlock υ) : σ.SameBlock υ :=
  ⟨h'.params.trans h.params, h'.inbox.trans h.inbox, h'.allocations.trans h.allocations, h'.length.trans h.length⟩

theorem State.SameBlock.setStream (h : σ.SameBlock τ) (s : Nat) (c : Context) : σ.SameBlock (τ.setStream s c) :=
  h.trans ⟨rfl, rfl, rfl, τ.length_setStream s c⟩

theorem State.SameBlock.respond (h : σ.SameBlock τ) (r : Response) : σ.SameBlock (τ.respond r) :=
  ⟨h.params, h.inbox, h.allocations, h.length⟩

theorem Delivery.sameBlock_drive (q : Option Nat) (s : Nat) (d : Delivery) (e : Entry) :
    d.state.SameBlock (d.drive q s e).state := by
  unfold Delivery.drive
  split
  · exact .refl _
  · exact (State.SameBlock.refl _).setStream _ _

theorem Delivery.sameBlock_deliver (q : Option Nat) (s : Nat) (d : Delivery) (e : Entry) :
    d.state.SameBlock (d.deliver q s e).state := (d.sameBlock_drive q s e).setStream _ _

theorem Delivery.sameBlock_foldl_deliver (q : Option Nat) (s : Nat) (es : List Entry) (d : Delivery) :
    d.state.SameBlock (es.foldl (Delivery.deliver q s) d).state := by
  induction es generalizing d with
  | nil => exact .refl _
  | cons e es ih => exact (d.sameBlock_deliver q s e).trans (ih _)

theorem State.sameBlock_deliveryRun (σ : State) (s : Nat) (batch : List (List Byte)) (q : Option Nat) :
    σ.SameBlock (σ.deliveryRun s batch q).state :=
  ((State.SameBlock.refl σ).setStream s (σ.taken s batch).1).trans
    (Delivery.sameBlock_foldl_deliver q s (σ.deliveries s batch)
      { state := σ.setStream s (σ.taken s batch).1, calls := 0, driven := false })

theorem State.sameBlock_flushSlave (σ : State) (s : Nat) (driven : Bool) : σ.SameBlock (σ.flushSlave s driven) := by
  unfold State.flushSlave
  split
  · exact .refl _
  · split
    · exact (State.SameBlock.refl _).setStream _ _
    · exact .refl _

theorem State.sameBlock_rxCompleted (σ : State) (s : Nat) (batch : List (List Byte)) (q : Option Nat) :
    σ.SameBlock (Machine.rxCompleted s batch q σ) := by
  have hdelivered : σ.SameBlock (σ.rxDelivered s batch q).state := by
    rw [State.rxDelivered_eq]
    exact (σ.sameBlock_deliveryRun s batch q).setStream s _
  exact rxCompleted_eq s batch q σ ▸ (hdelivered.trans (State.sameBlock_flushSlave ..)).setStream s _

end

end Sys2Proof.Machine
end

section
/-! SUPPORT. The intake of a batch (44_receive.md R250, R253, R255; 20_memory.md R63): the violations it counts, the
entries it makes, and where the packets lie in the pool. -/

namespace Sys2Proof.Machine

section
variable {c : Context}

theorem Context.intake_cons (pkt : List Byte) (batch : List (List Byte)) (c : Context) :
    Context.intake (pkt :: batch) c =
      ((Context.intake batch (c.takePacket pkt)).1, c.newEntry pkt ++ (Context.intake batch (c.takePacket pkt)).2) := rfl

/-- VALIDATE reads the configuration only. -/
theorem Context.validate_takePacket (c : Context) (pkt : List Byte) : (c.takePacket pkt).validate = c.validate := rfl

theorem Context.intake_protoViolations (batch : List (List Byte)) (c : Context) :
    (Context.intake batch c).1.protoViolations =
      c.protoViolations + BitVec.ofNat 32 (batch.countP fun p => c.validate p == .dropViolation) := by
  induction batch generalizing c with
  | nil => exact (BitVec.add_zero _).symm
  | cons pkt batch ih =>
    rw [Context.intake_cons, ih, c.validate_takePacket, List.countP_cons, Context.takePacket_protoViolations,
      Nat.add_comm, BitVec.ofNat_add, ← BitVec.add_assoc]
    by_cases hv : c.validate pkt = .dropViolation
    · simp [hv]
    · simp [hv]

/-- The new entries are the accepted packets, in completion order. -/
theorem Context.intake_bytes (batch : List (List Byte)) (c : Context) :
    (Context.intake batch c).2.map Entry.bytes = batch.filter fun p => c.validate p == .accept := by
  induction batch generalizing c with
  | nil => rfl
  | cons pkt batch ih =>
    rw [Context.intake_cons, List.map_append, ih, c.validate_takePacket, List.filter_cons]
    by_cases hv : c.validate pkt = .accept
    · simp [hv, Context.newEntry, Context.tag]
    · simp [hv, Context.newEntry]

/-- A new entry has the counter of its packet's header (R255). -/
theorem Context.intake_dbc (batch : List (List Byte)) (c : Context) :
    ∀ e ∈ (Context.intake batch c).2, e.dbc = q0Dbc (quadletAt e.bytes 0) := by
  induction batch generalizing c with
  | nil => exact nofun
  | cons pkt batch ih =>
    intro e he
    rw [Context.intake_cons, List.mem_append, Context.newEntry] at he
    rcases he with he | he
    · split at he
      · rw [List.mem_singleton.mp he]
        rfl
      · cases he
    · exact ih _ e he

/-- The queue's next slot, and what is left of the queue when its packet is taken. -/
theorem Context.receiveQueue_cons {i m : Nat} (hqueue : c.hwq = (List.range (m + 1)).map fun k => .rx ((i + k) % 48))
    (pkt : List Byte) : c.headSlot = i % 48 ∧
      (c.takePacket pkt).hwq = (List.range m).map fun k => .rx ((i + 1 + k) % 48) := by
  rw [List.range_succ_eq_map, List.map_cons, List.map_map] at hqueue
  refine ⟨by rw [Context.headSlot, hqueue]; rfl, ?_⟩
  rw [Context.takePacket_hwq, hqueue, List.drop_one, List.tail_cons]
  exact List.map_congr_left fun k _ => by simp only [Function.comp_apply, Nat.succ_eq_add_one]; congr 2; omega

/-- Two slots of the ring that are less than a round apart do not overlap. -/
theorem slots_disjoint {size i j x : Nat} (hi : i % 48 ≠ j % 48) (hx : x < size) (n : Nat) (hn : n ≤ size) :
    i % 48 * size + x < j % 48 * size ∨ j % 48 * size + n ≤ i % 48 * size + x := by
  by_contra h
  push Not at h
  refine hi (mul_add_inj (r' := i % 48 * size + x - j % 48 * size) hx (by omega) (by omega)).1

/-- The buffers a batch fills: its queue begins at ring position `i`, and has `m` slots of a ring of 48. -/
theorem Context.intake_pool {i m : Nat} (batch : List (List Byte)) (c : Context)
    (hqueue : c.hwq = (List.range m).map fun k => .rx ((i + k) % 48)) (hm : m ≤ 48) (hbatch : batch.length ≤ m)
    (hfits : ∀ p ∈ batch, p.length ≤ c.bufSize) :
    (∀ j (hj : j < batch.length), ∀ o (ho : o < batch[j].length),
      (Context.intake batch c).1.poolByte ((i + j) % 48 * c.bufSize + o) = batch[j][o]) ∧
    ∀ a, (∀ j (hj : j < batch.length), a < (i + j) % 48 * c.bufSize ∨
      (i + j) % 48 * c.bufSize + batch[j].length ≤ a) → (Context.intake batch c).1.poolByte a = c.poolByte a := by
  induction batch generalizing c i m with
  | nil => exact ⟨fun j hj => absurd hj (Nat.not_lt_zero j), fun a _ => rfl⟩
  | cons pkt batch ih =>
    obtain ⟨m, rfl⟩ := Nat.exists_eq_add_one_of_ne_zero (Nat.ne_zero_of_lt hbatch)
    obtain ⟨hhead, hrest⟩ := c.receiveQueue_cons hqueue pkt
    have hpkt := hfits pkt (List.mem_cons_self ..)
    obtain ⟨hinside, houtside⟩ := ih (c.takePacket pkt) hrest (Nat.le_of_succ_le hm) (Nat.le_of_succ_le_succ hbatch)
      fun p hp => hfits p (List.mem_cons_of_mem _ hp)
    have hnext : ∀ j, (i + 1 + j) % 48 = (i + (j + 1)) % 48 := fun j => by omega
    have hstored : ∀ o (ho : o < pkt.length), (c.takePacket pkt).poolByte (i % 48 * c.bufSize + o) = pkt[o] :=
      fun o ho => by
        rw [← hhead]
        exact Memory.byte_writeBytes_inside c.pool c.poolEpoch (c.slotBase c.headSlot) o pkt ho
    refine ⟨fun j hj o ho => ?_, fun a ha => ?_⟩
    · cases j with
      | zero =>
        refine (houtside _ fun j hj => slots_disjoint ?_ (Nat.lt_of_lt_of_le ho hpkt) _ ?_).trans (hstored o ho)
        · rw [List.length_cons] at hbatch
          omega
        · exact hfits _ (List.mem_cons_of_mem _ (List.getElem_mem hj))
      | succ j =>
        rw [← hnext]
        exact hinside j (Nat.lt_of_succ_lt_succ hj) o ho
    · refine (houtside a fun j hj => ?_).trans ?_
      · rw [hnext]
        exact ha (j + 1) (Nat.succ_lt_succ hj)
      · refine Memory.byte_writeBytes_outside c.pool c.poolEpoch (c.slotBase c.headSlot) a pkt ?_
        rw [hhead]
        exact ha 0 (Nat.succ_pos _)

end

end Sys2Proof.Machine
end

section
/-! SUPPORT. The receiving stream through its deliveries (44_receive.md R265, R267; 43_transmit.md R230): what any number
of delivered entries makes of the counter, the sample buffer, the ports and the cursors. -/

namespace Sys2Proof.Machine

/-- The stream after it was delivered some entries, one after another. -/
abbrev Context.deliveredAll (order : ByteOrder) (es : List Entry) (c : Context) : Context :=
  es.foldl (fun d e => d.delivered order e) c

/-- The frames of some entries (41_codec.md R164; 44_receive.md R264). -/
def Context.framesOf (c : Context) (es : List Entry) : Nat :=
  (es.map fun e => c.blockCount e.bytes.length * c.framesPerBlock).sum

/-- An address outside the samples of the next `frames` frames from the cursor of the buffer `b`. -/
def Context.OutsideFrames (c : Context) (b : Binding) (frames a : Nat) : Prop :=
  ∀ j < frames, ∀ ch < c.pcmChannels.toNat,
    a < c.sampleAddress ((c.pcmBufferPointer.toNat + j) % b.bufferSize) ch ∨
      c.sampleAddress ((c.pcmBufferPointer.toNat + j) % b.bufferSize) ch + c.sampleSize ≤ a

/-- What the entries `es`, delivered to the stream `c`, have made of it in `d`: the counter, the sample buffer, the
ports and the cursors. -/
structure Context.Received (c : Context) (es : List Entry) (d : Context) : Prop where
  counter : d.dbc = (es.getLast?.map fun e => e.dbc + BitVec.ofNat 8 (c.blockCount e.bytes.length)).getD c.dbc
  ports : PortsReceived c.midi d.midi
  unbound : c.pcm = none → d.pcmMemory = c.pcmMemory ∧ c.CursorsKept d
  cursors : ∀ b, c.pcm = some b → c.CursorsMoved b (c.framesOf es) d
  samples : ∀ b, c.pcm = some b → ∀ a, c.OutsideFrames b (c.framesOf es) a → d.pcmByte a = c.pcmByte a

/-- A delivery changes the counter, the sample buffer, the ports and the cursors, and nothing else. -/
def Context.OnlyReceived (c d : Context) : Prop :=
  d = { c with
    dbc := d.dbc, pcmMemory := d.pcmMemory, midi := d.midi, pcmBufferPointer := d.pcmBufferPointer,
    pcmPeriodPointer := d.pcmPeriodPointer, periodPending := d.periodPending }

section
variable {c d : Context} {es : List Entry}

theorem Context.framesOf_append (c : Context) (es : List Entry) (e : Entry) :
    c.framesOf (es ++ [e]) = c.framesOf es + c.blockCount e.bytes.length * c.framesPerBlock := by
  simp [Context.framesOf]

/-- What entries make of a stream does not hang on its queue, its pool and the intake's counts. -/
theorem Context.Received.of_kept {callbacked : Bool} {hwq hwq' : List Descriptor} {flushed flushed' : Nat}
    {pool : Memory} {violations seq : BitVec 32} {index : BitVec 6} {carry : List Entry}
    (h : { c with
      callbacked := callbacked, hwq := hwq, flushed := flushed, pool := pool, protoViolations := violations,
      rxSeq := seq }.Received es d) :
    c.Received es { d with hwq := hwq', packetIndex := index, flushed := flushed', carry := carry } where
  counter := h.counter
  ports := h.ports
  unbound hn :=
    have ⟨hmemory, hcursors⟩ := h.unbound hn
    ⟨hmemory, hcursors.buffer, hcursors.period, hcursors.pending⟩
  cursors b hb :=
    have hcursors := h.cursors b hb
    ⟨hcursors.buffer, hcursors.period, hcursors.pending⟩
  samples := h.samples

theorem Context.received_nil (h : c.BindingSound) : c.Received [] c where
  counter := rfl
  ports := .refl _
  unbound _ := ⟨rfl, .refl c⟩
  cursors _ hb := Context.cursorsMoved_zero h hb
  samples _ _ _ _ := rfl

/-- A delivery stores into the samples of its own frames only (41_codec.md R168). -/
theorem Context.pcmByte_delivered (order : ByteOrder) (e : Entry) {b : Binding} (hb : c.pcm = some b) {a : Nat}
    (ha : c.OutsideFrames b (c.blockCount e.bytes.length * c.framesPerBlock) a) :
    (c.delivered order e).pcmByte a = c.pcmByte a := by
  let n := c.blockCount e.bytes.length
  have hbound : Context.decodeBound order { c with dbc := e.dbc } e n =
      Context.decodePcm order { c with dbc := e.dbc } b e n := by rw [Context.decodeBound, hb]
  obtain ⟨ports, -, hports⟩ := (Context.decodePcm order { c with dbc := e.dbc } b e n).extractConfigured_frame e n
  have hdecode := Context.decodePcm_outside order { c with dbc := e.dbc } b e n a ha
  refine Eq.trans ?_ hdecode
  unfold Context.delivered
  dsimp only
  rw [hbound, hports, Context.advanceCursors_frame]
  rfl

/-- A delivery, up to the cursors: the counter, the sample buffer and the ports' traces change. -/
theorem Context.delivered_eq_advanceCursors (order : ByteOrder) (c : Context) (e : Entry) : ∃ x : Context,
    x = { c with
      dbc := e.dbc + BitVec.ofNat 8 (c.blockCount e.bytes.length), pcmMemory := x.pcmMemory, midi := x.midi } ∧
    (c.pcm = none → x.pcmMemory = c.pcmMemory) ∧ PortsReceived c.midi x.midi ∧
    c.delivered order e = x.advanceCursors (c.blockCount e.bytes.length * c.framesPerBlock) := by
  obtain ⟨mem, ports, -, hmem, hports, he⟩ := c.delivered_frame order e
  exact ⟨_, rfl, hmem, hports, he⟩

theorem Context.onlyReceived_delivered (order : ByteOrder) (c : Context) (e : Entry) :
    c.OnlyReceived (c.delivered order e) := by
  obtain ⟨x, hx, -, -, he⟩ := c.delivered_eq_advanceCursors order e
  rw [Context.OnlyReceived, he, x.advanceCursors_frame, hx]

theorem Context.OnlyReceived.trans {d' : Context} (h : c.OnlyReceived d) (h' : d.OnlyReceived d') :
    c.OnlyReceived d' := by
  rw [Context.OnlyReceived] at h ⊢
  rw [h', h]

theorem Context.onlyReceived_deliveredAll (order : ByteOrder) (es : List Entry) (c : Context) :
    c.OnlyReceived (c.deliveredAll order es) := by
  induction es generalizing c with
  | nil => rfl
  | cons e es ih => exact (c.onlyReceived_delivered order e).trans (ih _)

/-- One more entry is delivered. -/
theorem Context.Received.delivered (h : c.Received es d) (hrest : c.OnlyReceived d) (hc : c.BindingSound)
    (order : ByteOrder) (e : Entry) : c.Received (es ++ [e]) (d.delivered order e) := by
  rw [Context.OnlyReceived] at hrest
  have hblocks : d.blockCount e.bytes.length = c.blockCount e.bytes.length := by rw [hrest]; rfl
  have hframes : d.framesPerBlock = c.framesPerBlock := by rw [hrest]; rfl
  have hpcm : d.pcm = c.pcm := by rw [hrest]
  obtain ⟨x, hx, hmem, hports, he⟩ := d.delivered_eq_advanceCursors order e
  have hxpcm : x.pcm = c.pcm := by rw [hx]; exact hpcm
  have hkept : d.CursorsKept x := by rw [hx]; exact ⟨rfl, rfl, rfl⟩
  have hmoved := x.advanceCursors_frame (c.blockCount e.bytes.length * c.framesPerBlock)
  rw [hblocks, hframes] at he
  refine ⟨?counter, ?ports, fun hn => ?unbound, fun b hb => ?cursors, fun b hb a ha => ?samples⟩
  case counter =>
    rw [he, hmoved, hx, hblocks, List.getLast?_concat]
    rfl
  case ports =>
    rw [he, hmoved]
    exact h.ports.trans hports
  case unbound =>
    rw [he, Context.advanceCursors_none (hxpcm.trans hn)]
    obtain ⟨hmemory, hcursors⟩ := h.unbound hn
    exact ⟨(hmem (hpcm.trans hn)).trans hmemory, hcursors.trans hkept⟩
  case cursors =>
    rw [he, Context.advanceCursors_some (hxpcm.trans hb), c.framesOf_append]
    exact ((h.cursors b hb).kept hkept).ptrUpdate (hc.range b hb) _
  case samples =>
    rw [c.framesOf_append] at ha
    have haddress : ∀ f ch, d.sampleAddress f ch = c.sampleAddress f ch := fun f ch => by rw [hrest]; rfl
    have hsize : d.sampleSize = c.sampleSize := by rw [hrest]; rfl
    have hchannels : d.pcmChannels = c.pcmChannels := by rw [hrest]
    have hnext : d.OutsideFrames b (d.blockCount e.bytes.length * d.framesPerBlock) a := by
      intro j hj ch hch
      rw [hblocks, hframes] at hj
      rw [haddress, hsize, (h.cursors b hb).buffer, Nat.mod_add_mod, Nat.add_assoc]
      exact ha (c.framesOf es + j) (Nat.add_lt_add_left hj _) ch (hchannels ▸ hch)
    exact (Context.pcmByte_delivered order e (hpcm.trans hb) hnext).trans
      (h.samples b hb a fun j hj => ha j (Nat.lt_add_right _ hj))

theorem Context.received_deliveredAll (hc : c.BindingSound) (order : ByteOrder) (es : List Entry) :
    c.Received es (c.deliveredAll order es) := by
  induction es using List.reverseRecOn with
  | nil => exact Context.received_nil hc
  | append_singleton es e ih =>
    rw [Context.deliveredAll, List.foldl_concat]
    exact ih.delivered (c.onlyReceived_deliveredAll order es) hc order e

end

end Sys2Proof.Machine
end

section
/-! SUPPORT. The streams of a block through RX_COMPLETE (44_receive.md R265, R270, R271; 60_exceptions.md R365): the
receiver, its slave, and the others, each by itself. -/

namespace Sys2Proof.Machine

/-! ### The parts of a delivery -/

/-- What the deliveries know of a slave: its context, the `queue()` calls made so far, and whether it was driven. -/
structure SlaveRun where
  context : Context
  calls : Nat
  driven : Bool

/-- SLAVE_DRIVE on the slave itself (R265, R266): a slave that cannot be driven stays as it is. -/
def SlaveRun.drive (order : ByteOrder) (q : Option Nat) (r : SlaveRun) (e : Entry) : SlaveRun :=
  if r.context.drivable then ⟨r.context.driven order q r.calls e, r.calls + 1, true⟩ else r

/-- The flush of a slave that was driven and is still active (R271). -/
def SlaveRun.flush (r : SlaveRun) : Context :=
  if r.driven && r.context.active then r.context.queueFlush else r.context

/-- The slave `t` in a delivery. -/
def Delivery.slave (t : Nat) (d : Delivery) : SlaveRun := ⟨d.state.stream t, d.calls, d.driven⟩

section
variable {d : Delivery} {s s' t : Nat} (q : Option Nat) (e : Entry) (es : List Entry)

/-- SLAVE_DRIVE, by whether the slave can be driven (R265, R266). -/
theorem Delivery.drive_of_slave (h : (d.state.stream s).syncSlave = some t) :
    d.drive q s e = if (d.state.stream t).drivable then
      ⟨d.state.setStream t ((d.state.stream t).driven d.state.params.hostByteOrder q d.calls e), d.calls + 1, true⟩
      else d := by
  rw [Delivery.drive, State.drivenSlave, h, Option.filter_some]
  cases (d.state.stream t).drivable <;> rfl

theorem Delivery.drive_of_no_slave (h : (d.state.stream s).syncSlave = none) : d.drive q s e = d := by
  rw [Delivery.drive, State.drivenSlave, h, Option.filter_none]

/-- SLAVE_DRIVE changes the slave only. -/
theorem Delivery.stream_drive (h : (d.state.stream s).syncSlave ≠ some s') :
    (d.drive q s e).state.stream s' = d.state.stream s' := by
  cases ht : (d.state.stream s).syncSlave with
  | none => rw [Delivery.drive_of_no_slave q e ht]
  | some t =>
    rw [Delivery.drive_of_slave q e ht]
    split
    · exact State.stream_setStream_ne _ _ fun hs => h (hs ▸ ht)
    · rfl

theorem Delivery.stream_deliver_other (hne : s' ≠ s) :
    (d.deliver q s e).state.stream s' = (d.drive q s e).state.stream s' := State.stream_setStream_ne _ _ hne

/-- DELIVER's part on the receiver (R265, R267). -/
theorem Delivery.stream_deliver_receiver (hs : s < d.state.streams.length) (h : (d.state.stream s).syncSlave ≠ some s) :
    (d.deliver q s e).state.stream s = (d.state.stream s).delivered d.state.params.hostByteOrder e := by
  have hblock := d.sameBlock_drive q s e
  rw [Delivery.deliver, State.stream_setStream_same _ _ _ (hblock.length.symm ▸ hs), Delivery.stream_drive q e h,
    hblock.params]

/-- DELIVER's part on the slave (R266). -/
theorem Delivery.slave_deliver (ht : t < d.state.streams.length) (hne : t ≠ s)
    (h : (d.state.stream s).syncSlave = some t) :
    (d.deliver q s e).slave t = (d.slave t).drive d.state.params.hostByteOrder q e := by
  rw [Delivery.slave, Delivery.stream_deliver_other q e hne, Delivery.deliver, Delivery.drive_of_slave q e h,
    SlaveRun.drive, Delivery.slave]
  cases (d.state.stream t).drivable
  · rfl
  · simp only [if_true, State.stream_setStream_same _ _ _ ht]

/-- A delivery keeps every pairing. -/
theorem Delivery.syncSlave_deliver (d : Delivery) (s s' : Nat) :
    ((d.deliver q s e).state.stream s').syncSlave = (d.state.stream s').syncSlave :=
  ((d.advances_deliver q s e).each s').configuration.syncSlave

/-! ### All deliveries of a callback -/

theorem Delivery.stream_foldl_deliver_other (hne : s' ≠ s) (h : (d.state.stream s).syncSlave ≠ some s') :
    (es.foldl (Delivery.deliver q s) d).state.stream s' = d.state.stream s' := by
  induction es generalizing d with
  | nil => rfl
  | cons e es ih =>
    rw [List.foldl_cons, ih (Delivery.syncSlave_deliver q e d s s ▸ h), Delivery.stream_deliver_other q e hne,
      Delivery.stream_drive q e h]

theorem Delivery.stream_foldl_deliver_receiver (hs : s < d.state.streams.length)
    (h : (d.state.stream s).syncSlave ≠ some s) :
    (es.foldl (Delivery.deliver q s) d).state.stream s =
      (d.state.stream s).deliveredAll d.state.params.hostByteOrder es := by
  induction es generalizing d with
  | nil => rfl
  | cons e es ih =>
    have hblock := d.sameBlock_deliver q s e
    rw [List.foldl_cons, ih (hblock.length.symm ▸ hs) (Delivery.syncSlave_deliver q e d s s ▸ h),
      Delivery.stream_deliver_receiver q e hs h, hblock.params]
    rfl

theorem Delivery.slave_foldl_deliver (ht : t < d.state.streams.length) (hne : t ≠ s)
    (h : (d.state.stream s).syncSlave = some t) :
    (es.foldl (Delivery.deliver q s) d).slave t =
      es.foldl (SlaveRun.drive d.state.params.hostByteOrder q) (d.slave t) := by
  induction es generalizing d with
  | nil => rfl
  | cons e es ih =>
    have hblock := d.sameBlock_deliver q s e
    rw [List.foldl_cons, ih (hblock.length.symm ▸ ht) ((Delivery.syncSlave_deliver q e d s s).trans h),
      Delivery.slave_deliver q e ht hne h, hblock.params, List.foldl_cons]

theorem Delivery.calls_foldl_deliver_of_no_slave (h : (d.state.stream s).syncSlave = none) :
    (es.foldl (Delivery.deliver q s) d).calls = d.calls := by
  induction es generalizing d with
  | nil => rfl
  | cons e es ih =>
    rw [List.foldl_cons, ih ((Delivery.syncSlave_deliver q e d s s).trans h), Delivery.deliver,
      Delivery.drive_of_no_slave q e h]

end

/-! ### The flush (R271) -/

section
variable {σ : State} {s s' t : Nat} {driven : Bool}

theorem State.stream_flushSlave_other (h : (σ.stream s).syncSlave ≠ some s') :
    (σ.flushSlave s driven).stream s' = σ.stream s' := by
  unfold State.flushSlave
  split
  · rfl
  · rename_i t ht
    split
    · exact State.stream_setStream_ne _ _ fun hs => h (hs ▸ ht)
    · rfl

theorem State.stream_flushSlave_slave (ht : t < σ.streams.length) (h : (σ.stream s).syncSlave = some t) (calls : Nat) :
    (σ.flushSlave s driven).stream t = SlaveRun.flush ⟨σ.stream t, calls, driven⟩ := by
  rw [State.flushSlave, h, SlaveRun.flush]
  dsimp only
  split
  · exact State.stream_setStream_same _ _ _ ht
  · rfl

end

/-! ### RX_COMPLETE, stream by stream -/

/-- The receiver after its deliveries, before its buffers are queued again (R262, R270). -/
def State.toRequeue (σ : State) (s : Nat) (batch : List (List Byte)) : Context :=
  { (σ.taken s batch).1.deliveredAll σ.params.hostByteOrder (σ.deliveries s batch) with carry := σ.carried s batch }

/-- The slave `t` through the deliveries of a batch. -/
def State.slaveRun (σ : State) (s t : Nat) (batch : List (List Byte)) (q : Option Nat) : SlaveRun :=
  (σ.deliveries s batch).foldl (SlaveRun.drive σ.params.hostByteOrder q) ⟨σ.stream t, 0, false⟩

section
variable {σ : State} {s s' t : Nat} {batch : List (List Byte)}

theorem State.syncSlave_taken (σ : State) (s : Nat) (batch : List (List Byte)) :
    (σ.taken s batch).1.syncSlave = (σ.stream s).syncSlave :=
  (Context.advances_intake batch { σ.stream s with callbacked := true }).configuration.syncSlave

/-- A stream is not its own slave. -/
theorem State.RxReady.not_own_slave (h : σ.RxReady s batch) : (σ.stream s).syncSlave ≠ some s :=
  fun hs => (h.sound.pairing.slaveExists s s hs).2 rfl

theorem State.stream_rxCompleted_ne (q : Option Nat) (hne : s' ≠ s) : (rxCompleted s batch q σ).stream s' =
    ((σ.rxDelivered s batch q).state.flushSlave s (σ.rxDelivered s batch q).driven).stream s' := by
  rw [rxCompleted_eq, State.stream_setStream_ne _ _ hne]

section
variable (h : σ.RxReady s batch) (q : Option Nat)
include h

theorem State.RxReady.syncSlave_start :
    ((σ.setStream s (σ.taken s batch).1).stream s).syncSlave = (σ.stream s).syncSlave := by
  rw [State.stream_setStream_same _ _ _ h.inBlock, σ.syncSlave_taken]

theorem State.RxReady.stream_deliveryRun_receiver : (σ.deliveryRun s batch q).state.stream s =
    (σ.taken s batch).1.deliveredAll σ.params.hostByteOrder (σ.deliveries s batch) := by
  rw [State.deliveryRun, Delivery.stream_foldl_deliver_receiver q _ (by rw [State.length_setStream]; exact h.inBlock)
    (h.syncSlave_start ▸ h.not_own_slave), State.stream_setStream_same _ _ _ h.inBlock]
  rfl

theorem State.RxReady.stream_deliveryRun_other (hne : s' ≠ s) (hs' : (σ.stream s).syncSlave ≠ some s') :
    (σ.deliveryRun s batch q).state.stream s' = σ.stream s' := by
  rw [State.deliveryRun, Delivery.stream_foldl_deliver_other q _ hne (h.syncSlave_start ▸ hs'),
    State.stream_setStream_ne _ _ hne]

theorem State.RxReady.slave_deliveryRun (ht : (σ.stream s).syncSlave = some t) :
    (σ.deliveryRun s batch q).slave t = σ.slaveRun s t batch q := by
  obtain ⟨htl, hne⟩ := h.sound.pairing.slaveExists s t ht
  rw [State.deliveryRun, Delivery.slave_foldl_deliver q _ (by rw [State.length_setStream]; exact htl) hne
    (h.syncSlave_start.trans ht), Delivery.slave, State.stream_setStream_ne _ _ hne]
  rfl

theorem State.RxReady.calls_deliveryRun_of_no_slave (ht : (σ.stream s).syncSlave = none) :
    (σ.deliveryRun s batch q).calls = 0 := by
  rw [State.deliveryRun, Delivery.calls_foldl_deliver_of_no_slave q _ (h.syncSlave_start.trans ht)]

theorem State.RxReady.done : (σ.rxDelivered s batch q).Sound σ s batch.length :=
  h.sound.rxDelivered h.inBlock h.active h.direction batch h.count q

theorem State.RxReady.syncSlave_rxDelivered :
    ((σ.rxDelivered s batch q).state.stream s).syncSlave = (σ.stream s).syncSlave :=
  ((h.done q).advances.each s).configuration.syncSlave

theorem State.RxReady.stream_rxDelivered_receiver :
    (σ.rxDelivered s batch q).state.stream s = σ.toRequeue s batch := by
  have hlength := (σ.sameBlock_deliveryRun s batch q).length
  rw [State.rxDelivered_eq, State.stream_setStream_same _ _ _ (hlength.symm ▸ h.inBlock),
    h.stream_deliveryRun_receiver q, State.toRequeue]

/-- The receiver's buffers are queued again after its deliveries, the calls counted on from the slave's (R270). -/
theorem State.RxReady.stream_rxCompleted_receiver : (rxCompleted s batch q σ).stream s =
    (Context.queueEach Context.rxDescriptor q batch.length (σ.deliveryRun s batch q).calls
      (σ.toRequeue s batch)).1 := by
  have hlength := ((h.done q).advances.trans (State.advances_flushSlave _ s (σ.rxDelivered s batch q).driven)).length
  rw [rxCompleted_eq, State.stream_setStream_same _ _ _ (hlength.symm ▸ h.inBlock),
    (h.done q).stream_flushSlave h.sound, h.stream_rxDelivered_receiver q, State.rxDelivered_eq]

theorem State.RxReady.stream_rxCompleted_other (hne : s' ≠ s) (hs' : (σ.stream s).syncSlave ≠ some s') :
    (rxCompleted s batch q σ).stream s' = σ.stream s' := by
  rw [State.stream_rxCompleted_ne q hne, State.stream_flushSlave_other (h.syncSlave_rxDelivered q ▸ hs'),
    State.rxDelivered_eq, State.stream_setStream_ne _ _ hne, h.stream_deliveryRun_other q hne hs']

/-- The slave is what the deliveries and the flush make of it. -/
theorem State.RxReady.stream_rxCompleted_slave (ht : (σ.stream s).syncSlave = some t) :
    (rxCompleted s batch q σ).stream t = (σ.slaveRun s t batch q).flush := by
  obtain ⟨htl, hne⟩ := h.sound.pairing.slaveExists s t ht
  have hlength := (h.done q).advances.length
  rw [State.stream_rxCompleted_ne q hne, State.stream_flushSlave_slave (hlength.symm ▸ htl)
    ((h.syncSlave_rxDelivered q).trans ht) (σ.rxDelivered s batch q).calls, State.rxDelivered_eq,
    State.stream_setStream_ne _ _ hne, ← h.slave_deliveryRun q ht, Delivery.slave]

theorem State.RxReady.calls_deliveryRun (ht : (σ.stream s).syncSlave = some t) :
    (σ.deliveryRun s batch q).calls = (σ.slaveRun s t batch q).calls :=
  congrArg SlaveRun.calls (h.slave_deliveryRun q ht)

end

end

end Sys2Proof.Machine
end

section
/-! SUPPORT. The receive buffers queued again (44_receive.md R270), and what RX_COMPLETE leaves of its own stream. -/

namespace Sys2Proof.Machine

/-! ### The buffers (R270) -/

/-- `d` is `c` after `n` descriptors were queued and flushed. -/
structure Context.Requeued (c : Context) (n : Nat) (d : Context) : Prop where
  rest : d = { c with hwq := d.hwq, packetIndex := d.packetIndex, flushed := d.flushed }
  index : d.packetIndex.toNat = (c.packetIndex.toNat + n) % 48

section
variable {c : Context} {hold n : Nat} {mk : Context → Descriptor} {q : Option Nat} {k : Nat}

theorem Context.ReceivingSound.length_hwq (h : c.ReceivingSound hold n) : c.hwq.length + n = 48 := by
  have hbound : n ≤ 48 := h.bound
  rw [h.queue, List.length_map, List.length_range]
  exact Nat.sub_add_cancel hbound

/-- Where the queue has room and the oracle names none of the calls, all descriptors are queued and flushed. -/
theorem Context.ReceivingSound.queueEach_requeued (h : c.ReceivingSound hold n) (hq : ∀ i < n, q ≠ some (k + i)) :
    c.Requeued n (Context.queueEach mk q n k c).1 := by
  have hroom := h.length_hwq
  obtain ⟨ds, d, hqueued, -, ⟨hlt, hfails, -⟩ | ⟨hlen, -, hresult⟩⟩ := Context.queueEach_spec mk q n k c
  · exact absurd (hfails.resolve_left (hq _ hlt)) (by omega)
  · rw [hresult, ← hlen]
    exact ⟨by rw [hqueued.rest]; rfl, hqueued.index h.index⟩

/-- The call that the oracle names stops the stream with the buffers before it queued. -/
theorem Context.queueEach_failed (c : Context) (hk : q = some k) {k₀ : Nat} (hle : k₀ ≤ k) (hlt : k < k₀ + n) :
    ∃ d ds, Queued c d ds ∧
      (Context.queueEach mk q n k₀ c).1 = d.fatalStop .errQueue := by
  obtain ⟨ds, d, hqueued, -, ⟨-, -, hresult⟩ | ⟨-, hsucceeds, -⟩⟩ := Context.queueEach_spec mk q n k₀ c
  · exact ⟨d, ds, hqueued, by rw [hresult]⟩
  · refine absurd ?_ (hsucceeds (k - k₀) (by omega)).1
    rw [hk, Nat.add_sub_cancel' hle]

/-- Calls that do not fail are alike, whatever their numbers. -/
theorem Context.queueEach_of_room (hq : ∀ i < n, q ≠ some (k + i)) (hroom : c.hwq.length + n ≤ 48) (k' : Nat) :
    Context.queueEach mk q n k c = Context.queueEach mk none n k' c := by
  induction n generalizing c k k' with
  | zero => rfl
  | succ n ih =>
    have hlt : ¬ 48 ≤ c.hwq.length := by omega
    have hfails : ¬ c.queueFails q k = true := fun h =>
      ((c.queueFails_iff q k).mp h).elim (hq 0 (Nat.succ_pos n)) hlt
    have hfails' : ¬ c.queueFails none k' = true := fun h => ((c.queueFails_iff none k').mp h).elim nofun hlt
    rw [Context.queueEach, Context.queueEach, if_neg hfails, if_neg hfails']
    refine ih (fun i hi => ?_) ?_ _
    · rw [Nat.add_assoc, Nat.add_comm 1]
      exact hq (i + 1) (Nat.succ_lt_succ hi)
    · rw [Context.enqueue_hwq, List.length_append, List.length_singleton]
      omega

end

/-! ### The receiver -/

section
variable {σ : State} {s : Nat} {batch : List (List Byte)} (h : σ.RxReady s batch)
include h

theorem State.RxReady.taken : (σ.taken s batch).1.ReceivingSound σ.params.reorderHold batch.length :=
  h.receiver.intake h.active h.direction batch h.count

/-- The entries delivered, from the batch taken. -/
theorem State.RxReady.received : (σ.taken s batch).1.Received (σ.deliveries s batch)
    ((σ.taken s batch).1.deliveredAll σ.params.hostByteOrder (σ.deliveries s batch)) :=
  Context.received_deliveredAll h.taken.run.binding _ _

theorem State.RxReady.toRequeue : (σ.toRequeue s batch).ReceivingSound σ.params.reorderHold batch.length := by
  rw [← h.stream_rxDelivered_receiver none]
  exact (h.done none).receiver

/-- Where no `queue()` call fails, the receiver is the delivered stream with its buffers queued again. -/
theorem State.RxReady.requeued : (σ.toRequeue s batch).Requeued batch.length ((rxCompleted s batch none σ).stream s) := by
  rw [h.stream_rxCompleted_receiver none]
  exact h.toRequeue.queueEach_requeued fun _ _ => nofun

end

section
variable (σ : State) (s : Nat) (batch : List (List Byte))

/-- What the intake changes of the receiver. -/
theorem State.taken_rest : (σ.taken s batch).1 = { σ.stream s with
    callbacked := true, hwq := (σ.taken s batch).1.hwq, flushed := (σ.taken s batch).1.flushed,
    pool := (σ.taken s batch).1.pool, protoViolations := (σ.taken s batch).1.protoViolations,
    rxSeq := (σ.stream s).rxSeq + BitVec.ofNat 32 batch.length } := by
  obtain ⟨⟨pool, -, he⟩, -⟩ := Context.intake_spec batch { σ.stream s with callbacked := true }
  rw [State.taken, he]

/-- The receiver before its buffers are queued again: what the intake and the deliveries changed, and the carry. -/
theorem State.toRequeue_rest : σ.toRequeue s batch = { σ.stream s with
    callbacked := true, hwq := (σ.toRequeue s batch).hwq, flushed := (σ.toRequeue s batch).flushed,
    pool := (σ.taken s batch).1.pool, protoViolations := (σ.taken s batch).1.protoViolations,
    rxSeq := (σ.stream s).rxSeq + BitVec.ofNat 32 batch.length, carry := σ.carried s batch,
    dbc := (σ.toRequeue s batch).dbc, pcmMemory := (σ.toRequeue s batch).pcmMemory,
    midi := (σ.toRequeue s batch).midi, pcmBufferPointer := (σ.toRequeue s batch).pcmBufferPointer,
    pcmPeriodPointer := (σ.toRequeue s batch).pcmPeriodPointer,
    periodPending := (σ.toRequeue s batch).periodPending } := by
  have hrest := (σ.taken s batch).1.onlyReceived_deliveredAll σ.params.hostByteOrder (σ.deliveries s batch)
  rw [Context.OnlyReceived] at hrest
  rw [State.toRequeue]
  generalize (σ.taken s batch).1.deliveredAll σ.params.hostByteOrder (σ.deliveries s batch) = after at *
  rw [hrest]
  conv_lhs => rw [σ.taken_rest]

end

/-- What the delivered entries have made of the receiver (R265, R267). -/
theorem State.RxReady.result_received {σ : State} {s : Nat} {batch : List (List Byte)} (h : σ.RxReady s batch) :
    (σ.stream s).Received (σ.deliveries s batch) ((rxCompleted s batch none σ).stream s) := by
  have hreceived := h.received
  have hresult := h.requeued.rest
  rw [State.toRequeue] at hresult
  generalize (σ.taken s batch).1.deliveredAll σ.params.hostByteOrder (σ.deliveries s batch) = after at *
  rw [σ.taken_rest] at hreceived
  rw [hresult]
  exact hreceived.of_kept

end Sys2Proof.Machine
end

section
/-! SUPPORT. What RX_COMPLETE leaves of its own stream (44_receive.md R250 to R270). -/

namespace Sys2Proof.Machine

section
variable {σ : State} {s : Nat} {batch : List (List Byte)} (h : σ.RxReady s batch)
include h

/-- RX_COMPLETE leaves a sound, active Receive stream where no `queue()` call fails. -/
theorem State.RxReady.result_queue : let c' := (rxCompleted s batch none σ).stream s
    c'.hwq = ((List.range 48).map fun k => .rx ((c'.packetIndex.toNat + k) % 48)) ∧ c'.flushed = 48 := by
  have hsound : ((rxCompleted s batch none σ).stream s).Sound (rxCompleted s batch none σ).params.reorderHold :=
    (h.sound.rxCompleted h.inBlock h.active h.direction batch h.count none).streams s
      ((σ.sameBlock_rxCompleted s batch none).length.symm ▸ h.inBlock)
  have ha : ((rxCompleted s batch none σ).stream s).active = true := by
    rw [h.requeued.rest, σ.toRequeue_rest]
    exact h.active
  have hd : ((rxCompleted s batch none σ).stream s).direction = .receive := by
    rw [h.requeued.rest, σ.toRequeue_rest]
    exact h.direction
  exact ⟨hsound.queue.receiveQueue ha hd, hsound.queue.flushedAll.trans (hsound.receiver_queued ha hd)⟩

theorem State.RxReady.result_index : ((rxCompleted s batch none σ).stream s).packetIndex.toNat =
    ((σ.stream s).packetIndex.toNat + batch.length) % 48 := by
  rw [h.requeued.index, σ.toRequeue_rest]

/-- The batch lies in its pool slots, and no other byte of the pool changes (20_memory.md R63). -/
theorem State.RxReady.result_pool :
    (∀ j (hj : j < batch.length), ∀ o (ho : o < batch[j].length),
      ((rxCompleted s batch none σ).stream s).poolByte
        (((σ.stream s).packetIndex.toNat + j) % 48 * (σ.stream s).bufSize + o) = batch[j][o]) ∧
    ∀ a, (∀ j (hj : j < batch.length), a < ((σ.stream s).packetIndex.toNat + j) % 48 * (σ.stream s).bufSize ∨
      ((σ.stream s).packetIndex.toNat + j) % 48 * (σ.stream s).bufSize + batch[j].length ≤ a) →
      ((rxCompleted s batch none σ).stream s).poolByte a = (σ.stream s).poolByte a := by
  have hpool := Context.intake_pool batch { σ.stream s with callbacked := true }
    (h.receiver.queue.receiveQueue h.active h.direction) le_rfl h.count fun p hp => (h.fits p hp).2
  have hsame : ∀ a, ((rxCompleted s batch none σ).stream s).poolByte a = (σ.taken s batch).1.poolByte a := fun a => by
    rw [h.requeued.rest, σ.toRequeue_rest, σ.taken_rest]
    rfl
  exact ⟨fun j hj o ho => (hsame _).trans (hpool.1 j hj o ho), fun a ha => (hsame a).trans (hpool.2 a ha)⟩

/-- The sample buffer and the ports are those of the delivered stream; what was not delivered is carried (R262). -/
theorem State.RxReady.result_delivered : let c' := (rxCompleted s batch none σ).stream s
    let after := (σ.taken s batch).1.deliveredAll σ.params.hostByteOrder (σ.deliveries s batch)
    c'.pcmMemory = after.pcmMemory ∧ c'.midi = after.midi ∧ c'.carry = σ.carried s batch := by
  intro c' after
  have hresult : c' = { σ.toRequeue s batch with
    hwq := c'.hwq, packetIndex := c'.packetIndex, flushed := c'.flushed } := h.requeued.rest
  rw [hresult]
  exact ⟨rfl, rfl, rfl⟩

/-- The sequence counter and the violations are those of the intake (R250, R253). -/
theorem State.RxReady.result_counts : let c' := (rxCompleted s batch none σ).stream s
    c'.rxSeq = (σ.stream s).rxSeq + BitVec.ofNat 32 batch.length ∧
    c'.protoViolations = (σ.stream s).protoViolations +
      BitVec.ofNat 32 (batch.countP fun p => (σ.stream s).validate p == .dropViolation) := by
  intro c'
  have hresult : c' = { σ.toRequeue s batch with
    hwq := c'.hwq, packetIndex := c'.packetIndex, flushed := c'.flushed } := h.requeued.rest
  rw [hresult, σ.toRequeue_rest]
  exact ⟨rfl, Context.intake_protoViolations ..⟩

/-- Apart from the queue, which is as before once all buffers are queued again, RX_COMPLETE changes what the intake and
the deliveries change, and the carry. -/
theorem State.RxReady.result_rest : let c' := (rxCompleted s batch none σ).stream s
    c' = { σ.stream s with
      callbacked := true, rxSeq := c'.rxSeq, protoViolations := c'.protoViolations, carry := c'.carry,
      packetIndex := c'.packetIndex, hwq := c'.hwq, pool := c'.pool, dbc := c'.dbc, midi := c'.midi,
      pcmMemory := c'.pcmMemory, pcmBufferPointer := c'.pcmBufferPointer,
      pcmPeriodPointer := c'.pcmPeriodPointer, periodPending := c'.periodPending } := by
  intro c'
  have hflushed : c'.flushed = (σ.stream s).flushed := h.result_queue.2.trans
    (h.receiver.queue.flushedAll.trans (h.receiver.receiver_queued h.active h.direction)).symm
  have hresult : c' = { σ.toRequeue s batch with
    hwq := c'.hwq, packetIndex := c'.packetIndex, flushed := c'.flushed } := h.requeued.rest
  have hframe : c' = { σ.stream s with
      callbacked := true, rxSeq := c'.rxSeq, protoViolations := c'.protoViolations, carry := c'.carry,
      packetIndex := c'.packetIndex, hwq := c'.hwq, flushed := c'.flushed, pool := c'.pool, dbc := c'.dbc,
      midi := c'.midi, pcmMemory := c'.pcmMemory, pcmBufferPointer := c'.pcmBufferPointer,
      pcmPeriodPointer := c'.pcmPeriodPointer, periodPending := c'.periodPending } := by
    have hx := σ.toRequeue_rest s batch
    generalize σ.toRequeue s batch = x at hresult hx
    clear_value c'
    rw [hresult, hx]
  rw [hflushed] at hframe
  exact hframe

end

/-- A slave that cannot be driven stays as it is through all deliveries (R265). -/
theorem SlaveRun.foldl_drive_of_not_drivable {order : ByteOrder} {q : Option Nat} {r : SlaveRun}
    (hr : r.context.drivable = false) (es : List Entry) : es.foldl (SlaveRun.drive order q) r = r := by
  induction es with
  | nil => rfl
  | cons e es ih =>
    have hstep : r.drive order q e = r := by rw [SlaveRun.drive, hr]; rfl
    rw [List.foldl_cons, hstep, ih]

/-- RX_COMPLETE changes no stream but its own and a slave it drives (60_exceptions.md R365). -/
theorem State.RxReady.stream_rxCompleted_untouched {σ : State} {s s' : Nat} {batch : List (List Byte)}
    (h : σ.RxReady s batch) (q : Option Nat) (hne : s' ≠ s)
    (hslave : (σ.stream s).syncSlave = some s' → (σ.stream s').drivable = false) :
    (rxCompleted s batch q σ).stream s' = σ.stream s' := by
  by_cases hs' : (σ.stream s).syncSlave = some s'
  · rw [h.stream_rxCompleted_slave q hs', State.slaveRun, SlaveRun.foldl_drive_of_not_drivable (hslave hs')]
    rfl
  · exact h.stream_rxCompleted_other q hne hs'

/-- Settles O47: the intake's counts, what the delivered entries made of the stream, and the queue restored. -/
theorem rxCompleteKeepsTheBooks : Obligations.RxCompleteKeepsTheBooks := by
  intro σ s cycle batch hs hbatch c hσ ha hd hfits
  have h : σ.RxReady s batch := ⟨hσ, hs, ha, hd, hbatch, hfits⟩
  have hblock := (σ.sameBlock_rxCompleted s batch none).respond .none
  refine ⟨_, h.exec cycle none, rfl, hblock.params, hblock.inbox, hblock.allocations, hblock.length,
    fun s' hne hslave => (State.stream_respond ..).trans (h.stream_rxCompleted_untouched none hne hslave), ?_⟩
  rw [State.stream_respond]
  intro c' new table delivered moved after
  have hreceived := h.result_received
  obtain ⟨hmemory, hmidi, hcarry⟩ := h.result_delivered
  refine ⟨rfl, hmemory, hmidi, h.result_counts.1, h.result_counts.2, Context.intake_bytes .., fun e he => ?_, hcarry,
    h.result_index, h.result_queue.1, h.result_queue.2, fun hnone => ?_, fun e he => ?_,
    fun p _ => hreceived.ports.port p, fun hn => ?_, fun b hb => ?_, h.result_pool.1, h.result_pool.2, h.result_rest⟩
  · rw [Context.intake_dbc _ _ e he, toNat_q0Dbc]
  · rw [hreceived.counter, show σ.deliveries s batch = [] from hnone]
    rfl
  · rw [hreceived.counter, show (σ.deliveries s batch).getLast? = some e from he, Option.map_some, Option.getD_some,
      BitVec.toNat_add, BitVec.toNat_ofNat, Nat.add_mod_mod]
  · obtain ⟨hmemory, hcursors⟩ := hreceived.unbound hn
    exact ⟨hmemory, hcursors.buffer, hcursors.period, hcursors.pending⟩
  · have hcursors := hreceived.cursors b hb
    exact ⟨hcursors.buffer, hcursors.period, hcursors.pending, hreceived.samples b hb⟩

end Sys2Proof.Machine
end

section
/-! SUPPORT. A batch of which nothing is delivered (44_receive.md R252 to R254). -/

namespace Sys2Proof.Machine

/-- Where no packet is accepted and nothing is carried, the table is empty (R258). -/
theorem State.table_eq_nil {σ : State} {s : Nat} {batch : List (List Byte)} (hcarry : (σ.stream s).carry = [])
    (hdropped : ∀ p ∈ batch, (σ.stream s).validate p ≠ .accept) : σ.table s batch = [] := by
  have hbytes := Context.intake_bytes batch { σ.stream s with callbacked := true }
  have hnone : batch.filter (fun p => (σ.stream s).validate p == .accept) = [] :=
    List.filter_eq_nil_iff.mpr fun p hp => by simpa using hdropped p hp
  have hnew : (σ.taken s batch).2 = [] := List.map_eq_nil_iff.mp (hbytes.trans hnone)
  rw [State.table, hcarry, hnew]
  rfl

/-- Settles O49: the table is empty, so nothing is delivered or carried and no slave is driven. -/
theorem droppedPacketsLeaveNoTrace : Obligations.DroppedPacketsLeaveNoTrace := by
  intro σ s cycle batch hs hbatch c hσ ha hd hcarry hpackets
  have h : σ.RxReady s batch := ⟨hσ, hs, ha, hd, hbatch, fun p hp => ⟨(hpackets p hp).1, (hpackets p hp).2.1⟩⟩
  have hempty := State.deliveries_append_carried σ s batch
  rw [State.table_eq_nil hcarry fun p hp => (hpackets p hp).2.2, List.append_eq_nil_iff] at hempty
  obtain ⟨hdeliveries, hcarried⟩ := hempty
  refine ⟨_, h.exec cycle none, fun s' hne => ?others, ?receiver⟩
  case others =>
    rw [State.stream_respond]
    by_cases hslave : (σ.stream s).syncSlave = some s'
    · rw [h.stream_rxCompleted_slave none hslave, State.slaveRun, hdeliveries]
      rfl
    · exact h.stream_rxCompleted_other none hne hslave
  case receiver =>
    rw [State.stream_respond]
    intro c'
    have hresult : c' = { σ.toRequeue s batch with
      hwq := c'.hwq, packetIndex := c'.packetIndex, flushed := c'.flushed } := h.requeued.rest
    have htaken : σ.toRequeue s batch = { (σ.taken s batch).1 with carry := [] } := by
      rw [State.toRequeue, hdeliveries, hcarried]
      rfl
    have hcounts : c'.protoViolations = _ := h.result_counts.2
    refine ⟨?_, ?_, ?_, ?_, ?_, ?_, ?_, hcounts⟩ <;> rw [hresult, htaken, σ.taken_rest]

end Sys2Proof.Machine
end

section
/-! SUPPORT. The slave a master drives (44_receive.md R265, R266): TX_PACKET on it leads from packet to packet until a
`queue()` call fails, which stops it and with it the driving (60_exceptions.md R346). -/

namespace Sys2Proof.Machine

/-! ### The SYT of a driven packet (R266) -/

theorem toNat_slaveSyt (e : Entry) (delay : Nat) :
    (slaveSyt (q1Syt (quadletAt e.bytes 1)) delay).toNat = e.drivenSyt delay := by
  have hsyt := toNat_q1Syt (quadletAt e.bytes 1)
  have hnoInfo : q1Syt (quadletAt e.bytes 1) = Config.sytNoInfo ↔ (quadletAt e.bytes 1).toNat % 2 ^ 16 = 0xFFFF := by
    rw [← hsyt, ← BitVec.toNat_inj]
    rfl
  simp only [slaveSyt, Entry.drivenSyt, hnoInfo]
  split
  · rw [hsyt]
    assumption
  · rw [toNat_sytAfterDelay, BitVec.extractLsb'_toNat, BitVec.extractLsb'_toNat, hsyt, Nat.shiftRight_eq_div_pow,
      Nat.shiftRight_zero]
    congr 1
    omega

/-- The SYT word of the packet that an entry drives on a slave of the given delay. -/
def Entry.slaveSyt (e : Entry) (delay : Nat) : BitVec 16 := BitVec.ofNat 16 (e.drivenSyt delay)

theorem Entry.toNat_slaveSyt (e : Entry) (delay : Nat) : (e.slaveSyt delay).toNat = e.drivenSyt delay := by
  rw [Entry.slaveSyt, ← Machine.toNat_slaveSyt, BitVec.ofNat_toNat, BitVec.setWidth_eq]

/-- SLAVE_DRIVE's part on the slave is TX_PACKET with that SYT. -/
theorem Context.driven_eq (order : ByteOrder) (q : Option Nat) (k : Nat) (e : Entry) (t : Context) :
    t.driven order q k e = t.txPacket order q k (e.slaveSyt t.transferDelay.toNat) := by
  rw [Entry.slaveSyt, ← Machine.toNat_slaveSyt, BitVec.ofNat_toNat, BitVec.setWidth_eq, Context.driven]

/-! ### One packet queued (43_transmit.md R222, R230) -/

section
variable {order : ByteOrder} {syt : BitVec 16} {a b : Context}

theorem Context.PacketQueued.eq_advanceCursors (h : a.PacketQueued order syt b) :
    b = ((a.withPacket order syt).enqueue (.tx (a.nextPacket order syt))).advanceCursors
      (a.dbgen.1 * a.framesPerBlock) := h.result

/-- A packet queued changes the generator's phase, the counter, the pool, the ports, the queue and the cursors. -/
theorem Context.PacketQueued.frame (h : a.PacketQueued order syt b) : b = { a with
    hwq := a.hwq ++ [.tx (a.nextPacket order syt)]
    dbc := a.dbc + BitVec.ofNat 8 a.dbgen.1
    packetIndex := BitVec.ofNat 6 ((a.packetIndex.toNat + 1) % Config.queueLength)
    dataBlockState := a.dbgen.2.dataBlockState
    pcmBufferPointer := b.pcmBufferPointer, pcmPeriodPointer := b.pcmPeriodPointer, periodPending := b.periodPending
    pool := (a.withPacket order syt).pool
    midi := (a.withPacket order syt).midi } := by
  have hx := a.withPacket_frame order syt
  have hresult := h.eq_advanceCursors
  generalize a.withPacket order syt = x at *
  have hframe := (x.enqueue (.tx (a.nextPacket order syt))).advanceCursors_frame (a.dbgen.1 * a.framesPerBlock)
  rw [← hresult] at hframe
  rw [hframe, hx]
  rfl

theorem Context.PacketQueued.hwq (h : a.PacketQueued order syt b) :
    b.hwq = a.hwq ++ [.tx (a.nextPacket order syt)] := by rw [h.frame]

theorem Context.PacketQueued.length_hwq (h : a.PacketQueued order syt b) : b.hwq.length = a.hwq.length + 1 := by
  rw [h.hwq, List.length_append]
  rfl

theorem Context.PacketQueued.transferDelay (h : a.PacketQueued order syt b) : b.transferDelay = a.transferDelay := by
  rw [h.frame]

theorem Context.PacketQueued.drivable (h : a.PacketQueued order syt b) : b.drivable = a.drivable := by
  rw [h.frame]
  rfl

theorem Context.PacketQueued.toNat_dbc (h : a.PacketQueued order syt b) :
    b.dbc.toNat = (a.dbc.toNat + a.dbgen.1) % 256 := by
  rw [h.frame, BitVec.toNat_add, BitVec.toNat_ofNat, Nat.add_mod_mod]

theorem Context.PacketQueued.toNat_packetIndex (h : a.PacketQueued order syt b) :
    b.packetIndex.toNat = (a.packetIndex.toNat + 1) % 48 := by
  rw [h.frame]
  exact a.packetIndex_enqueue .skip

theorem Context.PacketQueued.ports (h : a.PacketQueued order syt b) : PortsTaken a.midi b.midi := by
  rw [h.frame]
  exact a.withPacket_midi order syt

/-- The pool changes inside the packet only (20_memory.md R80). -/
theorem Context.PacketQueued.poolByte (h : a.PacketQueued order syt b) (hmaps : a.mapsOk = true) {x : Nat}
    (hx : x < a.packetIndex.toNat * a.bufSize ∨
      a.packetIndex.toNat * a.bufSize + (a.nextPacket order syt).length ≤ x) : b.poolByte x = a.poolByte x := by
  have hlength := (a.nextPacket_header order syt).1
  have hbyte := Context.poolByte_withPacket order syt hmaps (hx.imp_right fun hx => by
    rwa [hlength, ← Nat.add_assoc] at hx)
  rw [a.withPacket_frame order syt] at hbyte
  rw [h.frame]
  exact hbyte

/-- Building and queueing a packet leave the cursors and the binding. -/
theorem Context.cursors_enqueue_withPacket (order : ByteOrder) (syt : BitVec 16) (a : Context) (d : Descriptor) :
    a.CursorsKept ((a.withPacket order syt).enqueue d) ∧ ((a.withPacket order syt).enqueue d).pcm = a.pcm := by
  have hx := a.withPacket_frame order syt
  generalize a.withPacket order syt = x at hx ⊢
  rw [hx]
  exact ⟨⟨rfl, rfl, rfl⟩, rfl⟩

/-- The cursors stand still where no buffer is bound (43_transmit.md R231). -/
theorem Context.PacketQueued.unbound (h : a.PacketQueued order syt b) (hpcm : a.pcm = none) : a.CursorsKept b := by
  obtain ⟨hkept, hbound⟩ := a.cursors_enqueue_withPacket order syt (.tx (a.nextPacket order syt))
  rwa [h.eq_advanceCursors, Context.advanceCursors_none (hbound.trans hpcm)]

/-- The cursors move by the packet's frames where a buffer is bound (43_transmit.md R230). -/
theorem Context.PacketQueued.cursors (h : a.PacketQueued order syt b) (hbinding : a.BindingSound) {buf : Binding}
    (hpcm : a.pcm = some buf) : a.CursorsMoved buf (a.dbgen.1 * a.framesPerBlock) b := by
  obtain ⟨hkept, hbound⟩ := a.cursors_enqueue_withPacket order syt (.tx (a.nextPacket order syt))
  have hmoved := ((Context.cursorsMoved_zero hbinding hpcm).kept hkept).ptrUpdate (hbinding.range buf hpcm)
    (a.dbgen.1 * a.framesPerBlock)
  rw [Nat.zero_add] at hmoved
  rwa [h.eq_advanceCursors, Context.advanceCursors_some (hbound.trans hpcm)]

/-- What a packet queued changes is named: the generator, the counter, the queue, the cursors, the pool, the ports. -/
theorem Context.PacketQueued.rest (h : a.PacketQueued order syt b) : b = { a with
    hwq := b.hwq, dbc := b.dbc, packetIndex := b.packetIndex, dataBlockState := b.dataBlockState,
    pcmBufferPointer := b.pcmBufferPointer, pcmPeriodPointer := b.pcmPeriodPointer,
    periodPending := b.periodPending, pool := b.pool, midi := b.midi } := by
  have hframe := h.frame
  generalize a.withPacket order syt = x at hframe
  rw [hframe]

end

/-! ### The slave from packet to packet (R265, R266) -/

/-- A stream that its master may drive now. -/
structure Context.Slave (hold : Nat) (t : Context) : Prop where
  sending : t.SendingSound hold
  drivable : t.drivable = true

/-- The slave after it was driven by some entries, no `queue()` call failing. -/
def Context.drivenRun (order : ByteOrder) (es : List Entry) (t : Context) : Context :=
  es.foldl (fun d e => d.driven order none 0 e) t

section
variable {order : ByteOrder} {q : Option Nat} {t d : Context} {hold k : Nat} {e : Entry} {es : List Entry}

theorem Context.drivenRun_concat (order : ByteOrder) (es : List Entry) (e : Entry) (t : Context) :
    t.drivenRun order (es ++ [e]) = (t.drivenRun order es).driven order none 0 e := List.foldl_concat ..

/-- An entry whose `queue()` call succeeds drives one packet. -/
theorem Context.Slave.driven_queued (h : d.Slave hold) (order : ByteOrder) (e : Entry) (hq : q ≠ some k)
    (hroom : d.hwq.length < 48) :
    d.PacketQueued order (e.slaveSyt d.transferDelay.toNat) (d.driven order q k e) := by
  rw [Context.driven_eq]
  exact Context.txPacket_queued (Context.one_le_dbgen h.sending.run.params h.sending.run.generators) hq hroom

/-- An entry whose `queue()` call fails stops the slave with that packet built (60_exceptions.md R346). -/
theorem Context.Slave.driven_failed (h : d.Slave hold) (order : ByteOrder) (e : Entry)
    (hfails : q = some k ∨ 48 ≤ d.hwq.length) :
    d.driven order q k e = (d.withPacket order (e.slaveSyt d.transferDelay.toNat)).fatalStop .errQueue := by
  rw [Context.driven_eq]
  exact Context.txPacket_failed (Context.one_le_dbgen h.sending.run.params h.sending.run.generators) hfails

/-- A slave whose packet was queued can be driven again. -/
theorem Context.Slave.driven (h : d.Slave hold) (order : ByteOrder) (e : Entry) (hq : q ≠ some k)
    (hroom : d.hwq.length < 48) : (d.driven order q k e).Slave hold := by
  have hdrivable := (h.driven_queued order e hq hroom).drivable.trans h.drivable
  refine ⟨?_, hdrivable⟩
  simp only [Context.drivable, Bool.and_eq_true] at hdrivable
  exact (h.sending.txPacket order q k _).resolve_left fun ⟨hidle, _⟩ =>
    Context.not_idle_of_active hdrivable.1.1 hidle

theorem Context.Slave.active_withPacket (h : d.Slave hold) (order : ByteOrder) (syt : BitVec 16) :
    (d.withPacket order syt).active = true := by
  rw [d.withPacket_frame]
  exact h.sending.run.active

/-- A stopped stream cannot be driven (R265). -/
theorem Context.drivable_fatalStop (ha : d.active = true) (code : Code) : (d.fatalStop code).drivable = false := by
  rw [Context.drivable, (Context.active_eq_false_iff _).mpr (.inr (.inl (Context.state_fatalStop ha code)))]
  rfl

/-- The run while the queue has room: so many packets more in the queue, the delay as it was. -/
theorem Context.Slave.drivenRun (h : t.Slave hold) (order : ByteOrder) (es : List Entry)
    (hroom : t.hwq.length + es.length ≤ 48) : (t.drivenRun order es).Slave hold ∧
      (t.drivenRun order es).hwq.length = t.hwq.length + es.length ∧
      (t.drivenRun order es).transferDelay = t.transferDelay := by
  induction es using List.reverseRecOn with
  | nil => exact ⟨h, rfl, rfl⟩
  | append_singleton es e ih =>
    rw [List.length_append, List.length_singleton] at hroom ⊢
    obtain ⟨hslave, hlength, hdelay⟩ := ih (by omega)
    have hlt : (t.drivenRun order es).hwq.length < 48 := by omega
    have hqueued := hslave.driven_queued order e (q := none) (k := 0) nofun hlt
    rw [Context.drivenRun_concat]
    exact ⟨hslave.driven order e nofun hlt, hqueued.length_hwq.trans (by rw [hlength, Nat.add_assoc]),
      hqueued.transferDelay.trans hdelay⟩

/-- From entry to entry of the run. -/
theorem Context.Slave.drivenRun_queued (h : t.Slave hold) (order : ByteOrder) (e : Entry)
    (hroom : t.hwq.length + es.length < 48) :
    (t.drivenRun order es).PacketQueued order (e.slaveSyt t.transferDelay.toNat) (t.drivenRun order (es ++ [e])) := by
  obtain ⟨hslave, hlength, hdelay⟩ := h.drivenRun order es hroom.le
  rw [Context.drivenRun_concat, ← hdelay]
  exact hslave.driven_queued order e nofun (by omega)

/-- While the calls succeed, the deliveries take the slave through its run, one call for each entry. -/
theorem Context.Slave.foldl_drive (h : t.Slave hold) (order : ByteOrder) (hroom : t.hwq.length + es.length ≤ 48)
    (hq : ∀ i < es.length, q ≠ some i) : es.foldl (SlaveRun.drive order q) ⟨t, 0, false⟩ =
      ⟨t.drivenRun order es, es.length, decide (0 < es.length)⟩ := by
  induction es using List.reverseRecOn with
  | nil => rfl
  | append_singleton es e ih =>
    rw [List.length_append, List.length_singleton] at hroom hq ⊢
    obtain ⟨hslave, hlength, -⟩ := h.drivenRun order es (by omega)
    have hlt : (t.drivenRun order es).hwq.length < 48 := by omega
    have hsame : (t.drivenRun order es).driven order q es.length e = (t.drivenRun order es).driven order none 0 e :=
      (hslave.driven_queued order e (hq _ (Nat.lt_succ_self _)) hlt).result.trans
        (hslave.driven_queued order e (q := none) (k := 0) nofun hlt).result.symm
    rw [List.foldl_concat, ih (by omega) fun i hi => hq i (Nat.lt_succ_of_lt hi), SlaveRun.drive,
      if_pos hslave.drivable, hsame, Context.drivenRun_concat, decide_eq_true (Nat.succ_pos _)]

/-- The entry whose call fails stops the slave, and later entries find nothing to drive. -/
theorem Context.Slave.foldl_drive_failed (h : t.Slave hold) (order : ByteOrder)
    (hroom : t.hwq.length + es.length ≤ 48) (hq : ∀ i < es.length, q ≠ some i)
    (hfails : q = some es.length ∨ t.hwq.length + es.length = 48) (e : Entry) (rest : List Entry) :
    (es ++ e :: rest).foldl (SlaveRun.drive order q) ⟨t, 0, false⟩ =
      ⟨((t.drivenRun order es).withPacket order (e.slaveSyt t.transferDelay.toNat)).fatalStop .errQueue,
        es.length + 1, true⟩ := by
  obtain ⟨hslave, hlength, hdelay⟩ := h.drivenRun order es hroom
  have hstep : SlaveRun.drive order q ⟨t.drivenRun order es, es.length, decide (0 < es.length)⟩ e =
      ⟨((t.drivenRun order es).withPacket order (e.slaveSyt t.transferDelay.toNat)).fatalStop .errQueue,
        es.length + 1, true⟩ := by
    rw [SlaveRun.drive, if_pos hslave.drivable, hslave.driven_failed order e (hfails.imp_right fun h => by omega),
      hdelay]
  rw [List.foldl_append, h.foldl_drive order hroom hq, List.foldl_cons, hstep,
    SlaveRun.foldl_drive_of_not_drivable (Context.drivable_fatalStop (hslave.active_withPacket order _) _)]

end

end Sys2Proof.Machine
end

section
/-! SUPPORT. The slave of a receiver through RX_COMPLETE (44_receive.md R265, R266, R271). -/

namespace Sys2Proof.Machine

section
variable {σ : State} {s t : Nat} {batch : List (List Byte)}

/-- A paired stream that can be driven is a sound slave. -/
theorem State.RxReady.slave (h : σ.RxReady s batch) (ht : (σ.stream s).syncSlave = some t)
    (hdrivable : (σ.stream t).drivable = true) : (σ.stream t).Slave σ.params.reorderHold := by
  have hactive : (σ.stream t).active = true := by
    simp only [Context.drivable, Bool.and_eq_true] at hdrivable
    exact hdrivable.1.1
  have hsound := h.sound.streams t (h.sound.pairing.slaveExists s t ht).1
  exact ⟨hsound.sending hactive (h.sound.pairing.directions s t ht).2, hdrivable⟩

/-- Where all packets were queued, the flush leaves none of the slave's descriptors unflushed. -/
theorem Context.Slave.flush_drivenRun {hold : Nat} {c : Context} (h : c.Slave hold) (hsound : c.Sound hold)
    (order : ByteOrder) (es : List Entry) (calls : Nat) (hroom : c.hwq.length + es.length ≤ 48) :
    SlaveRun.flush ⟨c.drivenRun order es, calls, decide (0 < es.length)⟩ = (c.drivenRun order es).queueFlush := by
  have hactive := (h.drivenRun order es hroom).1.sending.run.active
  rw [SlaveRun.flush, hactive, Bool.and_true]
  cases es with
  | nil => exact congrArg (fun n => { c with flushed := n }) hsound.queue.flushedAll
  | cons e es => rfl

end

end Sys2Proof.Machine
end

section
/-! SUPPORT. The packets a master's deliveries drive on its slave (44_receive.md R265, R266; 20_memory.md R80). -/

namespace Sys2Proof.Machine

/-- Settles O50: the slave's run over the delivered entries, each step one packet queued. -/
theorem masterDrivesItsSlave : Obligations.MasterDrivesItsSlave := by
  intro σ m t cycle batch hm hbatch c tc entries hσ ha hd ht hdrivable hfits hroom
  have h : σ.RxReady m batch := ⟨hσ, hm, ha, hd, hbatch, hfits⟩
  have hslave : tc.Slave σ.params.reorderHold := h.slave ht hdrivable
  have hsound : tc.Sound σ.params.reorderHold := hσ.streams t (hσ.pairing.slaveExists m t ht).1
  refine ⟨_, fun i => tc.drivenRun σ.params.hostByteOrder (entries.take i), h.exec cycle none, rfl, ?slave,
    fun s' hne hne' => ?others, fun i hi => ?packet⟩
  case slave =>
    change _ = (tc.drivenRun σ.params.hostByteOrder (entries.take entries.length)).queueFlush
    rw [State.stream_respond, h.stream_rxCompleted_slave none ht, State.slaveRun,
      hslave.foldl_drive (q := none) _ hroom (fun _ _ => nofun), hslave.flush_drivenRun hsound _ _ _ hroom,
      List.take_length]
  case others =>
    rw [State.stream_respond]
    exact h.stream_rxCompleted_other none hne fun hs' => hne' (Option.some.inj (ht.symm.trans hs')).symm
  case packet =>
    have hlength : (entries.take i).length = i := List.length_take_of_le hi.le
    obtain ⟨hrun, -⟩ := hslave.drivenRun σ.params.hostByteOrder (entries.take i) (by omega)
    have hqueued := hslave.drivenRun_queued σ.params.hostByteOrder entries[i] (es := entries.take i) (by omega)
    rw [List.take_concat_get' entries i hi] at hqueued
    have hheader := Context.nextPacket_header σ.params.hostByteOrder (entries[i].slaveSyt tc.transferDelay.toNat)
      (tc.drivenRun σ.params.hostByteOrder (entries.take i))
    rw [Entry.toNat_slaveSyt] at hheader
    have hblocks := hqueued.notEmpty
    dsimp only
    generalize tc.drivenRun σ.params.hostByteOrder (entries.take i) = a at hrun hqueued hheader hblocks ⊢
    generalize tc.drivenRun σ.params.hostByteOrder (entries.take (i + 1)) = b at hqueued ⊢
    obtain ⟨hlen, hq0, hq1⟩ := hheader
    refine ⟨_, _, hqueued, hqueued.hwq, rfl, hblocks, hlen, hq0, hq1, hqueued.toNat_dbc, hqueued.toNat_packetIndex,
      fun x hx => hqueued.poolByte hrun.sending.run.maps hx, fun p _ => hqueued.ports.port p, fun hn => ?_,
      fun buf hbuf => ?_, hqueued.rest⟩
    · exact ⟨(hqueued.unbound hn).buffer, (hqueued.unbound hn).period, (hqueued.unbound hn).pending⟩
    · have hmoved := hqueued.cursors hrun.sending.run.binding hbuf
      exact ⟨hmoved.buffer, hmoved.period, hmoved.pending⟩

end Sys2Proof.Machine
end

section
/-! SUPPORT. The `queue()` calls of RX_COMPLETE that fail (44_receive.md R266, R270; 60_exceptions.md R346): among the
deliveries' calls on the slave, and after them among the receiver's own. -/

namespace Sys2Proof.Machine

/-- The slave's run where the oracle names none of the deliveries' calls: it ends with the entries, or with the call that
finds the queue full (44_receive.md R271). -/
theorem Context.Slave.foldl_drive_of_not_named {order : ByteOrder} {q : Option Nat} {t : Context} {hold : Nat}
    {es : List Entry} (h : t.Slave hold) (hq : ∀ i < min es.length (49 - t.hwq.length), q ≠ some i) :
    es.foldl (SlaveRun.drive order q) ⟨t, 0, false⟩ = es.foldl (SlaveRun.drive order none) ⟨t, 0, false⟩ ∧
      (es.foldl (SlaveRun.drive order q) ⟨t, 0, false⟩).calls = min es.length (49 - t.hwq.length) := by
  have hcapacity : t.hwq.length ≤ 48 := h.sending.capacity
  rcases Nat.lt_or_ge 48 (t.hwq.length + es.length) with hfull | hroom
  · have hsplit := List.take_append_drop (48 - t.hwq.length) es
    have hm : 48 - t.hwq.length < es.length := by omega
    have hlength : (es.take (48 - t.hwq.length)).length = 48 - t.hwq.length := List.length_take_of_le hm.le
    rw [List.drop_eq_getElem_cons hm] at hsplit
    have hends := fun (q : Option Nat) (hq : ∀ i < 48 - t.hwq.length, q ≠ some i) =>
      h.foldl_drive_failed order (es := es.take (48 - t.hwq.length)) (q := q) (by omega)
        (fun i hi => hq i (hlength ▸ hi)) (.inr (by omega)) es[48 - t.hwq.length] (es.drop (48 - t.hwq.length + 1))
    rw [hsplit, hlength] at hends
    rw [hends q fun i hi => hq i (by omega), hends none fun _ _ => nofun]
    refine ⟨rfl, ?_⟩
    change 48 - t.hwq.length + 1 = _
    omega
  · have hmin : min es.length (49 - t.hwq.length) = es.length := by omega
    rw [hmin] at hq ⊢
    rw [h.foldl_drive order hroom hq, h.foldl_drive (q := none) order hroom (fun _ _ => nofun)]
    exact ⟨rfl, rfl⟩

section
variable {σ : State} {s s' t : Nat} {batch : List (List Byte)} {q : Option Nat}

theorem State.drivenSlave_of_slave (ht : (σ.stream s).syncSlave = some t) :
    σ.drivenSlave s = if (σ.stream t).drivable then some t else none := by
  rw [State.drivenSlave, ht, Option.filter_some]

/-- The slave through the deliveries, where the oracle names none of their calls. -/
theorem State.RxReady.slaveRun_of_not_named (h : σ.RxReady s batch) (ht : (σ.stream s).syncSlave = some t)
    (hq : ∀ i < σ.slaveCalls s batch, q ≠ some i) :
    σ.slaveRun s t batch q = σ.slaveRun s t batch none ∧ (σ.slaveRun s t batch q).calls = σ.slaveCalls s batch := by
  have hcalls := σ.drivenSlave_of_slave ht
  rw [State.slaveCalls] at hq ⊢
  rw [State.slaveRun, State.slaveRun]
  cases hdrivable : (σ.stream t).drivable with
  | false =>
    rw [hcalls, hdrivable, SlaveRun.foldl_drive_of_not_drivable hdrivable,
      SlaveRun.foldl_drive_of_not_drivable hdrivable]
    exact ⟨rfl, rfl⟩
  | true =>
    rw [hcalls, hdrivable] at hq ⊢
    exact (h.slave ht hdrivable).foldl_drive_of_not_named hq

/-- The calls the deliveries make, where the oracle names none of them. -/
theorem State.RxReady.calls_of_not_named (h : σ.RxReady s batch) (hq : ∀ i < σ.slaveCalls s batch, q ≠ some i) :
    (σ.deliveryRun s batch q).calls = σ.slaveCalls s batch := by
  cases ht : (σ.stream s).syncSlave with
  | none =>
    rw [h.calls_deliveryRun_of_no_slave q ht, State.slaveCalls, State.drivenSlave, ht]
    rfl
  | some t => rw [h.calls_deliveryRun q ht, (h.slaveRun_of_not_named ht hq).2]

/-- Where the oracle names none of the deliveries' calls, every stream but the receiver ends as without an oracle. -/
theorem State.RxReady.stream_rxCompleted_of_not_named (h : σ.RxReady s batch)
    (hq : ∀ i < σ.slaveCalls s batch, q ≠ some i) (hne : s' ≠ s) :
    (rxCompleted s batch q σ).stream s' = (rxCompleted s batch none σ).stream s' := by
  by_cases ht : (σ.stream s).syncSlave = some s'
  · rw [h.stream_rxCompleted_slave q ht, h.stream_rxCompleted_slave none ht, (h.slaveRun_of_not_named ht hq).1]
  · rw [h.stream_rxCompleted_other q hne ht, h.stream_rxCompleted_other none hne ht]

/-- Where the oracle names none of the receiver's own calls, the receiver ends as without an oracle (R270). -/
theorem State.RxReady.receiver_of_not_named (h : σ.RxReady s batch)
    (hq : ∀ i < batch.length, q ≠ some ((σ.deliveryRun s batch q).calls + i)) :
    (rxCompleted s batch q σ).stream s = (rxCompleted s batch none σ).stream s := by
  rw [h.stream_rxCompleted_receiver q, h.stream_rxCompleted_receiver none,
    Context.queueEach_of_room hq h.toRequeue.length_hwq.le]

/-- A failing call of the receiver's own stops the stream that the run without an oracle leaves, but for the queue
(R270). -/
theorem State.RxReady.receiver_failed (h : σ.RxReady s batch) {k : Nat} (hle : σ.slaveCalls s batch ≤ k)
    (hlt : k < σ.slaveCalls s batch + batch.length) : ∃ d : Context,
      d = { (rxCompleted s batch none σ).stream s with
        hwq := d.hwq, packetIndex := d.packetIndex, flushed := d.flushed } ∧
      FatalStopped .errQueue d ((rxCompleted s batch (some k) σ).stream s) := by
  have hcalls := h.calls_of_not_named (q := some k) fun i hi he => by
    have := Option.some.inj he
    omega
  obtain ⟨d, ds, hqueued, hstopped⟩ := Context.queueEach_failed (mk := Context.rxDescriptor) (n := batch.length)
    (σ.toRequeue s batch) (rfl : some k = some k) hle hlt
  have hd := hqueued.rest
  have hactive : d.active = true := by
    rw [hd, σ.toRequeue_rest]
    exact h.active
  refine ⟨d, ?_, ?_⟩
  · have hresult := h.requeued.rest
    generalize σ.toRequeue s batch = x at hd hresult
    rw [hresult, hd]
  · rw [h.stream_rxCompleted_receiver, hcalls, hstopped]
    exact Context.fatalStop_of_active hactive .errQueue

end

/-! ### A call on the slave fails (R346) -/

/-- The SYT words of the packets that some entries drive. -/
def sytWords (delay : Nat) (es : List Entry) (i : Nat) : BitVec 16 := (es[i]?.map fun e => e.slaveSyt delay).getD 0

theorem sytWords_of_lt {es : List Entry} {i : Nat} (hi : i < es.length) (delay : Nat) :
    sytWords delay es i = es[i].slaveSyt delay := by
  rw [sytWords, List.getElem?_eq_getElem hi]
  rfl

/-- The slave that call `j` stops: the packets before it are queued and its own is built. -/
theorem State.RxReady.slaveRun_failed {σ : State} {m t j : Nat} {batch : List (List Byte)} {q : Option Nat}
    (h : σ.RxReady m batch) (ht : (σ.stream m).syncSlave = some t) (hdrivable : (σ.stream t).drivable = true)
    (hj : j < (σ.deliveries m batch).length) (hroom : (σ.stream t).hwq.length + j ≤ 48)
    (hq : ∀ i < j, q ≠ some i) (hfails : q = some j ∨ (σ.stream t).hwq.length + j = 48) :
    σ.slaveRun m t batch q =
      ⟨(((σ.stream t).drivenRun σ.params.hostByteOrder ((σ.deliveries m batch).take j)).withPacket
          σ.params.hostByteOrder (sytWords (σ.stream t).transferDelay.toNat (σ.deliveries m batch) j)).fatalStop
          .errQueue, j + 1, true⟩ := by
  have hsplit := List.take_append_drop j (σ.deliveries m batch)
  have hlength : ((σ.deliveries m batch).take j).length = j := List.length_take_of_le hj.le
  rw [List.drop_eq_getElem_cons hj] at hsplit
  have hend := (h.slave ht hdrivable).foldl_drive_failed σ.params.hostByteOrder
    (es := (σ.deliveries m batch).take j) (by rwa [hlength]) (by rwa [hlength]) (by rwa [hlength])
    (σ.deliveries m batch)[j] ((σ.deliveries m batch).drop (j + 1))
  rwa [hsplit, hlength, ← sytWords_of_lt hj] at hend

/-- The first part of O48: the failing call stops the slave and the master goes on. -/
theorem slaveQueueFailure_stops_slave {σ : State} {m t j : Nat} {batch : List (List Byte)} {q : Option Nat}
    (h : σ.RxReady m batch) (ht : (σ.stream m).syncSlave = some t) (hdrivable : (σ.stream t).drivable = true)
    (hj : j < (σ.deliveries m batch).length) (hroom : (σ.stream t).hwq.length + j ≤ 48)
    (hfails : q = some j ∨ (σ.stream t).hwq.length + j = 48)
    (hlater : ∀ k, q = some k → k = j ∨ j + batch.length < k) :
    (rxCompleted m batch q σ).stream m = (rxCompleted m batch none σ).stream m ∧
      FatalStopped .errQueue
        (((σ.stream t).drivenRun σ.params.hostByteOrder ((σ.deliveries m batch).take j)).withPacket
          σ.params.hostByteOrder (sytWords (σ.stream t).transferDelay.toNat (σ.deliveries m batch) j))
        ((rxCompleted m batch q σ).stream t) := by
  have hslave := h.slave ht hdrivable
  have hrun := h.slaveRun_failed ht hdrivable hj hroom (fun i hi he => by have := hlater i he; omega) hfails
  have hactive := (hslave.drivenRun σ.params.hostByteOrder ((σ.deliveries m batch).take j)
    (by rwa [List.length_take_of_le hj.le])).1.active_withPacket σ.params.hostByteOrder
    (sytWords (σ.stream t).transferDelay.toNat (σ.deliveries m batch) j)
  have hstopped := (Context.active_eq_false_iff _).mpr (.inr (.inl (Context.state_fatalStop hactive .errQueue)))
  constructor
  · refine h.receiver_of_not_named fun i hi he => ?_
    rw [h.calls_deliveryRun q ht, hrun] at he
    have hk := hlater _ he
    dsimp only at hk
    omega
  · rw [h.stream_rxCompleted_slave q ht, hrun, SlaveRun.flush, hstopped]
    exact Context.fatalStop_of_active hactive .errQueue

/-- Settles O48: by the run of the slave up to the failing call, and by the receiver's queueing after the deliveries. -/
theorem rxQueueFailureStopsTheStream : Obligations.RxQueueFailureStopsTheStream := by
  refine ⟨?slaveCall, ?ownCall⟩
  case slaveCall =>
    intro σ m t cycle j batch q hm hbatch c tc entries hσ ha hd ht hdrivable hfits hj hroom hfails hlater
    have h : σ.RxReady m batch := ⟨hσ, hm, ha, hd, hbatch, hfits⟩
    have hslave : tc.Slave σ.params.reorderHold := h.slave ht hdrivable
    have hblock := (σ.sameBlock_rxCompleted m batch q).respond .none
    obtain ⟨hmaster, hstopped⟩ := slaveQueueFailure_stops_slave h ht hdrivable hj hroom hfails hlater
    refine ⟨_, _, fun i => tc.drivenRun σ.params.hostByteOrder (entries.take i),
      sytWords tc.transferDelay.toNat entries, h.exec cycle q, h.exec cycle none, rfl, hblock.params, hblock.inbox,
      hblock.allocations, hblock.length, ?master, fun s' hne hne' => ?others, rfl, fun i hi => ?syt,
      fun i hi => ?packet, ?stopped⟩
    case master =>
      rw [State.stream_respond, State.stream_respond]
      exact hmaster
    case others =>
      rw [State.stream_respond]
      exact h.stream_rxCompleted_other q hne fun hs' => hne' (Option.some.inj (ht.symm.trans hs')).symm
    case syt => rw [sytWords_of_lt hi, Entry.toNat_slaveSyt]
    case packet =>
      have hlt : i < entries.length := hi.trans hj
      have hlength : (entries.take i).length = i := List.length_take_of_le hlt.le
      have hqueued := hslave.drivenRun_queued σ.params.hostByteOrder entries[i] (es := entries.take i) (by omega)
      rwa [List.take_concat_get' entries i hlt, ← sytWords_of_lt hlt] at hqueued
    case stopped =>
      rw [State.stream_respond]
      exact hstopped
  case ownCall =>
    intro σ s cycle k batch hs hbatch hle hlt c hσ ha hd hfits
    have h : σ.RxReady s batch := ⟨hσ, hs, ha, hd, hbatch, hfits⟩
    have hblock := (σ.sameBlock_rxCompleted s batch (some k)).respond .none
    refine ⟨_, _, h.exec cycle (some k), rfl, h.exec cycle none, hblock.params, hblock.inbox, hblock.allocations,
      hblock.length, fun s' hne => ?others, fun hno => ⟨hblock.params, hblock.inbox, hblock.length, fun s' hne => ?only⟩,
      ?receiver⟩
    case others =>
      rw [State.stream_respond, State.stream_respond]
      exact h.stream_rxCompleted_of_not_named (fun i hi he => by have := Option.some.inj he; omega) hne
    case only =>
      rw [State.stream_respond]
      refine h.stream_rxCompleted_untouched _ hne fun hslave => ?_
      rw [σ.drivenSlave_of_slave hslave] at hno
      exact Bool.eq_false_iff.mpr fun hdrivable => by rw [if_pos hdrivable] at hno; cases hno
    case receiver =>
      rw [State.stream_respond, State.stream_respond]
      obtain ⟨d, hd, ports, index, hports, hresult⟩ := h.receiver_failed hle hlt
      have hrest := h.result_rest
      dsimp only at hrest ⊢
      generalize (rxCompleted s batch none σ).stream s = ok at hd hrest ⊢
      have hmidi : d.midi = ok.midi := by rw [hd]
      have haborts : (if d.pcm.isSome then d.aborts ++ [.errQueue] else d.aborts) =
          if c.pcm.isSome then c.aborts ++ [.errQueue] else c.aborts := by rw [hd, hrest]
      have hwire : d.wire = c.wire := by rw [hd, hrest]
      have hnotices : d.notices = c.notices := by rw [hd, hrest]
      have hconfiguration : c.SameConfiguration d := .of_kept (by rw [hd, hrest])
      rw [hmidi] at hports
      rw [hresult]
      refine ⟨rfl, rfl, rfl, rfl, rfl, rfl, rfl, rfl, rfl, rfl, hports, rfl, haborts, hwire, hnotices,
        hconfiguration.trans (.of_kept rfl), ?_, ?_, ?_, ?_, ?_, ?_⟩ <;> rw [hd]

end Sys2Proof.Machine
end

section
/-! SUPPORT. The lifecycle commands on a stream of the block: each is its checks in their order, the first that fails
deciding (60_exceptions.md R343), and the one context it writes (45_lifecycle_sync.md R293 to R300). -/

namespace Sys2Proof.Machine

/-! ### The three answers of STOP, UPDATE and UPDATE_FAIL -/

section
variable {c : Context} {absent stopped active : Result}

/-- A stopped stream is neither Absent nor active (10_state.md R23). -/
theorem Context.answer_of_stopped (h : c.state = .idle ∨ c.state = .configured) :
    (if c.state = .absent then absent else if c.settable then stopped else active) = stopped := by
  have hset := c.settable_iff.mpr h
  rw [if_neg (Context.present_of_settable hset), if_pos hset]

/-- An active stream is neither Absent nor stopped (R23). -/
theorem Context.answer_of_active (h : c.state = .running ∨ c.state = .recovering) :
    (if c.state = .absent then absent else if c.settable then stopped else active) = active := by
  have hactive := c.active_iff.mpr h
  have hset : ¬ c.settable = true := fun hset => by
    rw [Context.not_active_of_settable hset] at hactive
    cases hactive
  rw [if_neg (Context.present_of_active hactive), if_neg hset]

end

section
variable {σ : State} {s : Nat}

theorem exec_stop_of_lt (hs : s < σ.streams.length) : exec (.stop s) σ =
    if (σ.stream s).state = .absent then σ.reply .errState
    else if (σ.stream s).settable then σ.reply .ok
    else (σ.setStream s (σ.stream s).stopped).reply .ok := if_pos hs

theorem exec_update_of_lt {node : Nat} (hnode : node ≤ 63) (hs : s < σ.streams.length) : exec (.update s node) σ =
    if (σ.stream s).state = .absent then σ.reply .errState
    else if (σ.stream s).settable then σ.reply .ok
    else (σ.setStream s { σ.stream s with sourceNodeId := BitVec.ofNat 6 node, state := .running }).reply .ok :=
  (if_pos (decide_eq_true hnode)).trans (if_pos hs)

theorem exec_updateFail_of_lt (hs : s < σ.streams.length) : exec (.updateFail s) σ =
    if (σ.stream s).state = .absent then σ.reply .errState
    else if (σ.stream s).settable then σ.reply .ok
    else (σ.setStream s ((σ.stream s).fatalStop .errDisconnect)).reply .errDisconnect := if_pos hs

theorem exec_startTimeout_of_lt (hs : s < σ.streams.length) : exec (.startTimeout s) σ =
    guardAdmitted (σ.stream s).admitsTimeout
      (σ.setStream s ((σ.stream s).fatalStop .errTimeout)).noResult := if_pos hs

end

/-- What STOP writes, the detaching before the teardown (R295). -/
theorem Context.stopped_eq (c : Context) : c.stopped = { c with
    pcm := none, midi := detachPorts c.midi, isoContext := false, hwq := [], flushed := 0, carry := [],
    poolAllocated := false, pool := [], periodPending := false, packetIndexValid := false,
    packetIndex := Config.staleIndex c.poolEpoch, state := .idle } := by
  rw [Context.stopped, Context.detach, Context.teardown]

/-- Settles O20: STOP detaches and tears down an active stream. -/
theorem stopTearsDown : Obligations.StopTearsDown := by
  intro σ s hs c
  rw [exec_stop_of_lt hs]
  refine ⟨fun hactive => ?_, fun hstopped => Context.answer_of_stopped hstopped, fun habsent => if_pos habsent⟩
  refine ⟨detachPorts c.midi, Config.staleIndex c.poolEpoch, detachPorts_detached _, ?_⟩
  rw [Context.answer_of_active hactive, Context.stopped_eq]
  rfl

/-- Settles O22: UPDATE writes the node id of an active stream. -/
theorem updateRefreshesTheNodeId : Obligations.UpdateRefreshesTheNodeId := by
  intro σ s node hs hnode c
  rw [exec_update_of_lt hnode hs]
  exact ⟨fun hactive => Context.answer_of_active hactive, fun hstopped => Context.answer_of_stopped hstopped,
    fun habsent => if_pos habsent⟩

/-- START_TIMEOUT is admitted on an active stream before its first callback (70_reset_and_hazards.md R392). -/
theorem Context.admitsTimeout_iff (c : Context) : c.admitsTimeout = true ↔ c.active = true ∧ c.callbacked = false := by
  rw [Context.admitsTimeout, Bool.and_eq_true, Bool.not_eq_true']

/-- Settles O23: both are the fatal stop of an active stream, each under its own check. -/
theorem disconnectAndTimeoutAreFatalStops : Obligations.DisconnectAndTimeoutAreFatalStops := by
  intro σ s hs c
  rw [exec_updateFail_of_lt hs, exec_startTimeout_of_lt hs]
  have hstop : c.state = .running ∨ c.state = .recovering → ∀ code, FatalStopped code c (c.fatalStop code) :=
    fun h code => Context.fatalStop_of_active (c.active_iff.mpr h) code
  refine ⟨fun hactive => ⟨_, hstop hactive .errDisconnect, Context.answer_of_active hactive⟩,
    fun hstopped => Context.answer_of_stopped hstopped, fun habsent => if_pos habsent,
    fun hactive hfirst => ⟨_, hstop hactive .errTimeout, ?admitted⟩, fun hno => ?refused⟩
  case admitted => exact if_pos (c.admitsTimeout_iff.mpr ⟨c.active_iff.mpr hactive, hfirst⟩)
  case refused =>
    refine if_neg fun hadmitted => ?_
    obtain ⟨hactive, hfirst⟩ := c.admitsTimeout_iff.mp hadmitted
    rcases hno with hstopped | hlate
    · rw [hactive] at hstopped; cases hstopped
    · rw [hfirst] at hlate; cases hlate

/-- Settles O21: each stream is read after its own part of the bus reset. -/
theorem busResetRecovers : Obligations.BusResetRecovers := by
  intro σ
  refine ⟨_, rfl, rfl, rfl, rfl, rfl, List.length_map .., fun s _ => ?_⟩
  rw [State.stream_respond, State.stream_map_busReset, Context.busReset]
  exact ⟨fun hrunning => if_pos hrunning, fun hother => if_neg hother⟩

/-! ### START (R293) -/

section
variable {σ : State} {s ch sp node : Nat}

theorem exec_start_of_lt (hs : s < σ.streams.length) (hch : ch ≤ 63) (hsp : sp ≤ 7) (hnode : node ≤ 63) (res : Bool)
    (q : Option Nat) : exec (.start s ch sp node res q) σ =
      if (σ.stream s).active then σ.reply .ok
      else if (σ.stream s).state ≠ .configured then σ.reply .errState
      else if !(σ.stream s).mapsOk then σ.reply .errParam
      else if !res then σ.reply .errResource
      else startStream s ch sp node q (σ.stream s) σ := by
  have hrange : (decide (ch ≤ 63) && decide (sp ≤ 7) && decide (node ≤ 63)) = true := by
    rw [decide_eq_true hch, decide_eq_true hsp, decide_eq_true hnode]
    rfl
  exact (if_pos hrange).trans (if_pos hs)

/-- On a Configured stream the maps are checked, then the resources. -/
theorem exec_start_of_configured (hs : s < σ.streams.length) (hch : ch ≤ 63) (hsp : sp ≤ 7) (hnode : node ≤ 63)
    (hstate : (σ.stream s).state = .configured) (res : Bool) (q : Option Nat) : exec (.start s ch sp node res q) σ =
      if !(σ.stream s).mapsOk then σ.reply .errParam
      else if !res then σ.reply .errResource
      else startStream s ch sp node q (σ.stream s) σ := by
  rw [exec_start_of_lt hs hch hsp hnode, Context.not_active_of_configured hstate, if_neg Bool.false_ne_true,
    if_neg (not_not.mpr hstate)]

/-- START seeds a Configured stream and primes its queue. -/
theorem exec_start_of_ready {dbs sos rate : Nat} (hs : s < σ.streams.length) (hch : ch ≤ 63) (hsp : sp ≤ 7)
    (hnode : node ≤ 63) (hstate : (σ.stream s).state = .configured) (hmaps : (σ.stream s).mapsOk = true)
    (hinit : initialStateOf (σ.stream s).sfc.toNat = some (dbs, sos))
    (hrate : rateOf (σ.stream s).sfc.toNat = some rate) (q : Option Nat) :
    exec (.start s ch sp node true q) σ =
      let primed := Context.queueEach Context.primingDescriptor q 48 0
        ((σ.stream s).seeded ch sp node dbs sos rate σ.allocations)
      (σ.allocate.setStream s primed.1).reply primed.2 := by
  rw [exec_start_of_configured hs hch hsp hnode hstate, hmaps, startStream, hinit, hrate]
  rfl

end

/-- Settles O18: the checks of START in their order. -/
theorem startRefuses : Obligations.StartRefuses := by
  intro σ s ch sp node res q hs hch hsp hnode c
  have hstart := exec_start_of_lt hs hch hsp hnode res q
  have hconfigured := fun h res => exec_start_of_configured hs hch hsp hnode h res q
  refine ⟨fun hactive => ?_, fun hstate => ?_, fun hstate hmaps => ?_, fun hstate hmaps => ?_⟩
  · exact hstart.trans (if_pos (c.active_iff.mpr hactive))
  · have hstopped : ¬ c.active = true :=
      Bool.eq_false_iff.mp (c.active_eq_false_iff.mpr (hstate.imp_right Or.inl))
    have hne : c.state ≠ .configured := by rcases hstate with h | h <;> rw [h] <;> exact nofun
    rw [hstart, if_neg hstopped, if_pos hne]
    rfl
  · exact (hconfigured hstate res).trans (if_pos ((Bool.not_eq_true' _).mpr hmaps))
  · rw [hconfigured hstate, hmaps]
    rfl

/-! ### The priming (R293) -/

section
variable {c : Context} {q : Option Nat}

/-- The 48 priming descriptors are a Skip each on a Send stream, the pool slots in order on a Receive stream. -/
theorem Context.primingDescriptors_eq {ds : List Descriptor} (hindex : c.packetIndex = 0) (hlength : ds.length = 48)
    (h : ∀ i < ds.length, ∃ d : Context, Queued c d (ds.take i) ∧ ds[i]? = some d.primingDescriptor) :
    ds = if c.direction = .send then List.replicate 48 .skip else (List.range 48).map .rx := by
  have hdirection {d : Context} {es : List Descriptor} (hd : Queued c d es) : d.direction = c.direction := by
    rw [hd.rest]
  cases hc : c.direction with
  | send =>
    refine List.eq_replicate_iff.mpr ⟨hlength, fun x hx => ?_⟩
    obtain ⟨i, hi, rfl⟩ := List.mem_iff_getElem.mp hx
    obtain ⟨d, hd, hdescriptor⟩ := h i hi
    rw [List.getElem?_eq_getElem hi, Option.some.injEq] at hdescriptor
    rw [hdescriptor, Context.primingDescriptor, hdirection hd, hc]
  | receive =>
    have hslots := Context.rxDescriptors_eq (c := c) (ds := ds) (by rw [hindex]; decide) fun i hi => by
      obtain ⟨d, hd, hdescriptor⟩ := h i hi
      rw [Context.primingDescriptor, hdirection hd, hc] at hdescriptor
      exact ⟨d, hd, hdescriptor⟩
    rw [hslots, hlength, hindex, if_neg nofun]
    rfl

/-- No call fails where the oracle names none of the 48 and the queue is empty: all are queued and flushed, and the
packet index has gone once around. -/
theorem Context.queueEach_priming (hempty : c.hwq = []) (hindex : c.packetIndex = 0)
    (hq : ∀ k, q = some k → 48 ≤ k) : Context.queueEach Context.primingDescriptor q 48 0 c =
      ({ c with
        hwq := if c.direction = .send then List.replicate 48 .skip else (List.range 48).map .rx
        flushed := 48 }, .ok) := by
  obtain ⟨ds, d, hqueued, hmk, ⟨hlt, hfails, -⟩ | ⟨hlength, -, hresult⟩⟩ :=
    Context.queueEach_spec Context.primingDescriptor q 48 0 c
  · rw [hempty, List.length_nil] at hfails
    have := hfails.imp_left (hq _)
    omega
  · have hend : d.packetIndex = 0 := by
      have := hqueued.index (by rw [hindex]; decide)
      rw [hlength, hindex] at this
      exact BitVec.eq_of_toNat_eq this
    have hhwq := hqueued.hwq
    rw [hempty, List.nil_append] at hhwq
    have hflushed : d.queueFlush = { d with flushed := 48 } := by rw [Context.queueFlush, hhwq, hlength]
    rw [hresult, hflushed, hqueued.rest, hend, hempty, List.nil_append, ← hindex,
      ← Context.primingDescriptors_eq hindex hlength hmk]

/-- The answer of a run in which the oracle names a call (60_exceptions.md R345). -/
theorem Context.queueEach_code_of_named (mk : Context → Descriptor) (c : Context) {n k : Nat} (hk : k < n) :
    (Context.queueEach mk (some k) n 0 c).2 = .errQueue := by
  obtain ⟨ds, d, -, -, ⟨-, -, hresult⟩ | ⟨-, hsucceeds, -⟩⟩ := Context.queueEach_spec mk (some k) n 0 c
  · rw [hresult]
  · exact absurd (congrArg some (Nat.zero_add k).symm) (hsucceeds k hk).1

end

/-- Settles O17: all 48 calls succeed on the empty queue of the seeded stream. -/
theorem startSeedsAndPrimes : Obligations.StartSeedsAndPrimes := by
  intro σ s ch sp node dbs sos rate q hs hch hsp hnode hq c hstate hmaps hinit hrate
  rw [exec_start_of_ready hs hch hsp hnode hstate hmaps hinit hrate q, Context.queueEach_priming rfl rfl hq]
  rfl

/-- Settles O19: call `k` stops the seeded stream with `k` descriptors queued. -/
theorem primingFailureStopsTheStream : Obligations.PrimingFailureStopsTheStream := by
  intro σ s ch sp node dbs sos rate k hs hch hsp hnode hk c hstate hmaps hinit hrate
  obtain ⟨d, ds, hqueued, hstopped⟩ := Context.queueEach_failed (mk := Context.primingDescriptor)
    (c.seeded ch sp node dbs sos rate σ.allocations) (rfl : some k = some k) (Nat.zero_le k) (n := 48) (by omega)
  have hcode := Context.queueEach_code_of_named Context.primingDescriptor
    (c.seeded ch sp node dbs sos rate σ.allocations) hk
  have hd := hqueued.rest
  have hactive : d.active = true := by rw [hd]; rfl
  obtain ⟨ports, index, hports, hresult⟩ := Context.fatalStop_of_active hactive .errQueue
  have honly := σ.allocate.onlyStream_setStream s (d.fatalStop .errQueue) (.code .errQueue)
  have hexec := exec_start_of_ready hs hch hsp hnode hstate hmaps hinit hrate (some k)
  dsimp only at hexec
  rw [hstopped, hcode] at hexec
  refine ⟨_, hexec, rfl, ⟨honly.params, honly.inbox, honly.length, honly.others⟩, ?_⟩
  rw [State.stream_respond, σ.allocate.stream_setStream_same s _ hs, hresult]
  have hmidi : d.midi = c.midi := by rw [hd]; rfl
  have haborts : (if d.pcm.isSome then d.aborts ++ [.errQueue] else d.aborts) =
      if c.pcm.isSome then c.aborts ++ [.errQueue] else c.aborts := by rw [hd]; rfl
  have hconfiguration : c.SameConfiguration d := .of_kept (by rw [hd]; rfl)
  refine ⟨rfl, rfl, rfl, rfl, rfl, rfl, rfl, rfl, rfl, hmidi ▸ hports, rfl, haborts, ?_, ?_, ?_, ?_, ?_, ?_,
    fun a => ?_, hconfiguration.trans (.of_kept rfl)⟩ <;> rw [hd] <;> rfl

end Sys2Proof.Machine
end

section
/-! SUPPORT. The commands on bindings and cursors, the notification and STATUS on a stream of the block
(45_lifecycle_sync.md R310 to R316). -/

namespace Sys2Proof.Machine

/-! ### The operations on a stream of the block -/

section
variable {σ : State} {s : Nat}

theorem exec_status_of_lt (hs : s < σ.streams.length) : exec (.status s) σ =
    .next (σ.respond (.status (σ.stream s).state (σ.stream s).packetIndexValid (σ.stream s).lastError
      (σ.stream s).protoViolations)) := if_pos hs

theorem exec_pcmPointer_of_lt (hs : s < σ.streams.length) : exec (.pcmPointer s) σ =
    if (σ.stream s).state = .absent then σ.reply .errState
    else .next (σ.respond (.pointer (σ.stream s).pcmBufferPointer)) := if_pos hs

theorem exec_pcmPrepare_of_present (hs : s < σ.streams.length) (hpresent : (σ.stream s).state ≠ .absent) :
    exec (.pcmPrepare s) σ =
      if (σ.stream s).pcm.isSome then σ.reply .errState
      else (σ.setStream s { σ.stream s with
        pcmBufferPointer := 0, pcmPeriodPointer := 0, periodPending := false }).reply .ok :=
  (if_pos hs).trans (if_neg hpresent)

theorem exec_pcmBind_none_of_present (hs : s < σ.streams.length) (hpresent : (σ.stream s).state ≠ .absent) :
    exec (.pcmBind s none) σ = (σ.setStream s { σ.stream s with pcm := none }).reply .ok :=
  (if_pos hs).trans (if_neg hpresent)

theorem exec_pcmBind_some_of_present {b : Binding} (hb : b.inRange = true) (hs : s < σ.streams.length)
    (hpresent : (σ.stream s).state ≠ .absent) : exec (.pcmBind s (some b)) σ =
      if b.bufferSize ≤ (σ.stream s).pcmBufferPointer.toNat ∨ b.periodSize ≤ (σ.stream s).pcmPeriodPointer.toNat then
        σ.reply .errParam
      else (σ.allocate.setStream s ((σ.stream s).bindPcm b σ.allocations)).reply .ok :=
  (if_pos hb).trans <| (if_pos hs).trans (if_neg hpresent)

theorem exec_midiBind_of_lt {p : Nat} (hp : p < 8) (hs : s < σ.streams.length) (bound : Bool) :
    exec (.midiBind s p bound) σ =
      if (σ.stream s).state = .absent then σ.reply .errState
      else
        let port := portOf (σ.stream s).midi p
        (σ.setStream s { σ.stream s with
          midi := setPort (σ.stream s).midi p
            (if bound then { port with bound := true } else { port with bound := false, out := [] }) }).reply .ok :=
  (if_pos (decide_eq_true hp)).trans (if_pos hs)

theorem exec_midiPush_of_lt {p : Nat} (hp : p < 8) (hs : s < σ.streams.length) (byte : Byte) :
    exec (.midiPush s p byte) σ =
      if (σ.stream s).state = .absent ∨ (portOf (σ.stream s).midi p).bound = false then σ.reply .errState
      else
        let port := portOf (σ.stream s).midi p
        (σ.setStream s { σ.stream s with
          midi := setPort (σ.stream s).midi p { port with out := port.out ++ [byte] } }).reply .ok :=
  (if_pos (decide_eq_true hp)).trans (if_pos hs)

theorem exec_periodNotify_of_lt (hs : s < σ.streams.length) : exec (.periodNotify s) σ =
    guardAdmitted (σ.stream s).periodPending
      (σ.setStream s { σ.stream s with
        periodPending := false
        notices := if (σ.stream s).pcm.isSome then (σ.stream s).notices ++ [.periodElapsed]
          else (σ.stream s).notices }).noResult := if_pos hs

end

/-! ### Reads (R312, R316) -/

/-- Settles O24: STATUS has no check, PCM_POINTER that of the state. -/
theorem statusAndPointerRead : Obligations.StatusAndPointerRead := by
  intro σ s hs c
  rw [exec_status_of_lt hs, exec_pcmPointer_of_lt hs]
  exact ⟨rfl, fun hpresent => if_neg hpresent, fun habsent => if_pos habsent⟩

/-! ### The sample buffer (R310, R311, R314) -/

/-- Settles O25: the checks of each command in their order. -/
theorem pcmPrepareAndBind : Obligations.PcmPrepareAndBind := by
  intro σ s hs c hpresent
  rw [exec_pcmPrepare_of_present hs hpresent]
  refine ⟨fun hfree => ?_, fun hbound => if_pos (Option.isSome_iff_ne_none.mpr hbound),
    exec_pcmBind_none_of_present hs hpresent, fun b hperiod hle hsize => ?_⟩
  · exact if_neg (by rw [hfree]; exact nofun)
  · rw [exec_pcmBind_some_of_present ((inRange_iff b).mpr ⟨hperiod, hle, hsize⟩) hs hpresent]
    exact ⟨fun hbuffer hcursor => if_neg (not_or.mpr ⟨Nat.not_le.mpr hbuffer, Nat.not_le.mpr hcursor⟩),
      fun houtside => if_pos houtside⟩

/-- Settles O27: the event is admitted while the flag is set, and a notice is emitted where a buffer is bound. -/
theorem periodNotifyDelivers : Obligations.PeriodNotifyDelivers := by
  intro σ s hs c
  rw [exec_periodNotify_of_lt hs]
  refine ⟨fun hpending => ?_, fun hclear => ?_⟩
  · have hnotices : (if c.pcm.isSome then c.notices ++ [.periodElapsed] else c.notices) =
        if c.pcm = none then c.notices else c.notices ++ [.periodElapsed] := by
      cases c.pcm <;> rfl
    rw [hpending, guardAdmitted_true, hnotices]
    rfl
  · rw [hclear, guardAdmitted_false]

/-! ### MIDI ports (R313, R315) -/

/-- One port replaced: it reads as the new one, every other as before. -/
theorem portOf_setPort_spec (v : Vector MidiPort 8) {p : Nat} (hp : p < 8) (x : MidiPort) :
    portOf (setPort v p x) p = x ∧ ∀ p' < 8, p' ≠ p → portOf (setPort v p x) p' = portOf v p' :=
  ⟨by rw [portOf_setPort, if_pos ⟨rfl, hp⟩], fun p' _ hne => by rw [portOf_setPort, if_neg fun h => hne h.1]⟩

/-- Settles O26: each command checks the state, MIDI_PUSH the binding too, and then replaces the one port. -/
theorem midiPortsBindAndPush : Obligations.MidiPortsBindAndPush := by
  intro σ s p hs hp c old becomes
  have hbind := exec_midiBind_of_lt hp hs
  have hpush := exec_midiPush_of_lt hp hs
  have replaced {i : Instr} {x : MidiPort}
      (h : exec i σ = (σ.setStream s { c with midi := setPort c.midi p x }).reply .ok) : becomes i x :=
    ⟨_, (portOf_setPort_spec c.midi hp x).1, (portOf_setPort_spec c.midi hp x).2, h⟩
  refine ⟨fun hpresent => ⟨replaced ?_, replaced ?_, fun byte => ⟨fun hbound => replaced ?_, fun hunbound => ?_⟩⟩,
    fun habsent => ⟨fun b => (hbind b).trans (if_pos habsent), fun byte => (hpush byte).trans (if_pos (.inl habsent))⟩⟩
  · exact (hbind true).trans (if_neg hpresent)
  · exact (hbind false).trans (if_neg hpresent)
  · have hboth : ¬ (c.state = .absent ∨ old.bound = false) := by
      rw [hbound]
      exact not_or.mpr ⟨hpresent, nofun⟩
    exact (hpush byte).trans (if_neg hboth)
  · exact (hpush byte).trans (if_pos (.inr hunbound))

end Sys2Proof.Machine
end

section
/-! SUPPORT. How an operation can change the lifecycle state of a stream (45_lifecycle_sync.md R290): the queues can
only stop an active one, a command makes the one transition of its row. -/

namespace Sys2Proof.Machine

/-! ### Stops of one stream -/

/-- The stream keeps its lifecycle state, or it was active and is Idle now. -/
def Context.StopsAtMost (c c' : Context) : Prop :=
  c'.state = c.state ∨ (c.state = .running ∨ c.state = .recovering) ∧ c'.state = .idle

section
variable {c c' c'' : Context}

theorem Context.StopsAtMost.refl (c : Context) : c.StopsAtMost c := .inl rfl

/-- A stopped stream does not stop again. -/
theorem Context.StopsAtMost.trans (h : c.StopsAtMost c') (h' : c'.StopsAtMost c'') : c.StopsAtMost c'' := by
  rcases h' with hkept | ⟨hactive, hidle⟩
  · rwa [Context.StopsAtMost, hkept]
  · rcases h with hkept | ⟨-, hstopped⟩
    · exact .inr ⟨hkept ▸ hactive, hidle⟩
    · rw [hstopped] at hactive
      rcases hactive with h | h <;> cases h

/-- A stream whose state has changed was stopped. -/
theorem Context.StopsAtMost.stopped (h : c.StopsAtMost c') (hne : c'.state ≠ c.state) :
    (c.state = .running ∨ c.state = .recovering) ∧ c'.state = .idle := h.resolve_left hne

theorem Context.stopsAtMost_fatalStop (c : Context) (code : Code) : c.StopsAtMost (c.fatalStop code) := by
  cases ha : c.active with
  | false => exact .inl (by rw [Context.fatalStop_of_not_active ha])
  | true =>
    obtain ⟨_, _, -, e⟩ := Context.fatalStop_of_active ha code
    exact .inr ⟨c.active_iff.mp ha, by rw [e]⟩

/-- A run of `queue()` calls flushes the queue or stops the stream. -/
theorem Context.stopsAtMost_queueEach (mk : Context → Descriptor) (q : Option Nat) (n k : Nat) (c : Context) :
    c.StopsAtMost (Context.queueEach mk q n k c).1 := by
  obtain ⟨_, d, hqueued, -, ⟨-, -, hresult⟩ | ⟨-, -, hresult⟩⟩ := Context.queueEach_spec mk q n k c
  all_goals
    have hqueue : c.StopsAtMost d := .inl (by rw [hqueued.rest])
    rw [hresult]
  · exact hqueue.trans (d.stopsAtMost_fatalStop _)
  · exact hqueue

/-! ### Transmit -/

theorem Context.advanceCursors_state (c : Context) (n : Nat) : (c.advanceCursors n).state = c.state := by
  rw [Context.advanceCursors_frame]

theorem Context.txBuilt_state (order : ByteOrder) (syt : BitVec 16) (c : Context) :
    (c.txBuilt order syt).state = c.state := by
  obtain ⟨_, _, _, _, e⟩ := c.txBuilt_frame order syt
  rw [e]

/-- TX_PACKET queues its packet or stops the stream. -/
theorem Context.stopsAtMost_txPacket (order : ByteOrder) (q : Option Nat) (k : Nat) (syt : BitVec 16) (c : Context) :
    c.StopsAtMost (c.txPacket order q k syt) := by
  have hbuilt : c.StopsAtMost (c.txBuilt order syt) := .inl (c.txBuilt_state order syt)
  rcases c.txPacket_cases order q k syt with ⟨-, e⟩ | ⟨-, -, e⟩ <;> rw [e]
  · exact hbuilt.trans (Context.stopsAtMost_fatalStop ..)
  · refine hbuilt.trans (.inl ?_)
    split
    · rfl
    · exact Context.advanceCursors_state ..

theorem Context.stopsAtMost_txLoop (order : ByteOrder) (q : Option Nat) (cycle count n i : Nat) (c : Context) :
    c.StopsAtMost (c.txLoop order q cycle count n i) := by
  induction n generalizing i c with
  | zero => exact .inl rfl
  | succ n ih =>
    have hslot : c.StopsAtMost (c.txSlot order q cycle count i) :=
      Context.stopsAtMost_txPacket (c := c.sytgen.2) ..
    unfold Context.txLoop
    dsimp only
    split
    · exact hslot
    · exact hslot.trans (ih ..)

theorem Context.stopsAtMost_txCompleted (order : ByteOrder) (slave : Bool) (cycle count : Nat) (q : Option Nat)
    (c : Context) : c.StopsAtMost (c.txCompleted order slave cycle count q) := by
  have hconsumed : c.StopsAtMost ({ c with callbacked := true }.consume count) := .inl rfl
  unfold Context.txCompleted
  dsimp only
  split
  · exact .inl rfl
  · exact hconsumed.trans (Context.stopsAtMost_txLoop ..)

/-! ### Receive -/

theorem Context.intake_state (batch : List (List Byte)) (c : Context) :
    (Context.intake batch c).1.state = c.state := by
  obtain ⟨⟨_, _, e⟩, _⟩ := c.intake_spec batch
  rw [e]

theorem Context.delivered_state (order : ByteOrder) (c : Context) (e : Entry) :
    (c.delivered order e).state = c.state := by
  obtain ⟨_, _, _, _, _, he⟩ := c.delivered_frame order e
  rw [he, Context.advanceCursors_state]

end

/-! ### Stops of a master and its slave -/

/-- Inside RX_COMPLETE of stream `s`: `s` keeps its slave, and no lifecycle state changes but by a stop of `s` or of its
slave (44_receive.md R265, R270). -/
structure State.StopsInPair (s : Nat) (σ τ : State) : Prop where
  slave : (τ.stream s).syncSlave = (σ.stream s).syncSlave
  each : ∀ s', (σ.stream s').StopsAtMost (τ.stream s')
  others : ∀ s', s ≠ s' → (σ.stream s).syncSlave ≠ some s' → (τ.stream s').state = (σ.stream s').state

section
variable {σ τ υ : State} {s t : Nat} {c : Context}

theorem State.StopsInPair.refl (s : Nat) (σ : State) : σ.StopsInPair s σ := ⟨rfl, fun _ => .refl _, fun _ _ _ => rfl⟩

theorem State.StopsInPair.trans (h : State.StopsInPair s σ τ) (h' : State.StopsInPair s τ υ) :
    State.StopsInPair s σ υ where
  slave := h'.slave.trans h.slave
  each s' := (h.each s').trans (h'.each s')
  others s' hne hs' := (h'.others s' hne (h.slave ▸ hs')).trans (h.others s' hne hs')

/-- The master or its slave is replaced. -/
theorem State.stopsInPair_setStream (ht : s = t ∨ (σ.stream s).syncSlave = some t)
    (hslave : c.syncSlave = (σ.stream t).syncSlave) (h : (σ.stream t).StopsAtMost c) :
    State.StopsInPair s σ (σ.setStream t c) := by
  refine ⟨?slave, fun s' => ?each, fun s' hne hs' => ?others⟩
  case others =>
    rw [State.stream_setStream_ne]
    rintro rfl
    exact ht.elim hne hs'
  all_goals
    rw [State.stream_setStream]
    split
  case slave.isTrue hs => rw [hslave, hs.1]
  case each.isTrue hs => exact hs.1 ▸ h
  · rfl
  · exact .refl _

theorem Delivery.stopsInPair_deliver (q : Option Nat) (s : Nat) (d : Delivery) (e : Entry) :
    State.StopsInPair s d.state (d.deliver q s e).state := by
  have hdrive : State.StopsInPair s d.state (d.drive q s e).state := by
    unfold Delivery.drive
    split
    · exact .refl s _
    · rename_i t ht
      exact State.stopsInPair_setStream (.inr (Option.filter_eq_some_iff.mp ht).1)
        (Context.advances_txPacket ..).configuration.syncSlave (Context.stopsAtMost_txPacket ..)
  exact hdrive.trans (State.stopsInPair_setStream (.inl rfl)
    (Context.advances_delivered ..).configuration.syncSlave (.inl (Context.delivered_state ..)))

theorem Delivery.stopsInPair_foldl_deliver (q : Option Nat) (s : Nat) (es : List Entry) (d : Delivery) :
    State.StopsInPair s d.state (es.foldl (Delivery.deliver q s) d).state := by
  induction es generalizing d with
  | nil => exact .refl s _
  | cons e es ih => exact (d.stopsInPair_deliver q s e).trans (ih _)

theorem State.stopsInPair_flushSlave (σ : State) (s : Nat) (driven : Bool) :
    State.StopsInPair s σ (σ.flushSlave s driven) := by
  unfold State.flushSlave
  split
  · exact .refl s σ
  · rename_i t ht
    split
    · exact State.stopsInPair_setStream (.inr ht) rfl (.inl rfl)
    · exact .refl s σ

/-- RX_COMPLETE takes its batch, delivers, flushes the slave and queues its buffers again. -/
theorem State.stopsInPair_rxCompleted (σ : State) (s : Nat) (batch : List (List Byte)) (q : Option Nat) :
    State.StopsInPair s σ (rxCompleted s batch q σ) := by
  have htaken : State.StopsInPair s σ (σ.setStream s (σ.taken s batch).1) :=
    State.stopsInPair_setStream (.inl rfl) (σ.syncSlave_taken s batch) (.inl (Context.intake_state ..))
  have hrun : State.StopsInPair s σ (σ.deliveryRun s batch q).state :=
    htaken.trans (Delivery.stopsInPair_foldl_deliver q s (σ.deliveries s batch)
      { state := σ.setStream s (σ.taken s batch).1, calls := 0, driven := false })
  have hdelivered : State.StopsInPair s σ (σ.rxDelivered s batch q).state := by
    rw [State.rxDelivered_eq]
    exact hrun.trans (State.stopsInPair_setStream (.inl rfl) rfl (.inl rfl))
  rw [rxCompleted_eq]
  exact (hdelivered.trans (State.stopsInPair_flushSlave ..)).trans (State.stopsInPair_setStream (.inl rfl)
    (Context.advances_queueEach ..).configuration.syncSlave (Context.stopsAtMost_queueEach ..))

end

/-! ### Transitions of the block -/

/-- Every stream whose lifecycle state differs made a transition of `T`. -/
def State.MovesBy (T : Nat → LifeState → LifeState → Prop) (σ τ : State) : Prop :=
  ∀ s, (τ.stream s).state ≠ (σ.stream s).state → T s (σ.stream s).state (τ.stream s).state

section
variable {T : Nat → LifeState → LifeState → Prop} (σ : State) {s : Nat} {c : Context}

theorem State.movesBy_refl : σ.MovesBy T σ := fun _ hne => absurd rfl hne

theorem State.movesBy_reply (code : Code) : Ensures (σ.MovesBy T) (σ.reply code) := ensures_next σ.movesBy_refl

theorem State.movesBy_noResult : Ensures (σ.MovesBy T) σ.noResult := ensures_next σ.movesBy_refl

theorem State.movesBy_respond (r : Response) : Ensures (σ.MovesBy T) (.next (σ.respond r)) :=
  ensures_next σ.movesBy_refl

variable {σ}

/-- The one stream that is replaced makes the transition. -/
theorem State.movesBy_setStream (h : c.state ≠ (σ.stream s).state → T s (σ.stream s).state c.state) :
    σ.MovesBy T (σ.setStream s c) := fun s' => by
  rw [State.stream_setStream]
  split
  · rename_i hs
    rw [hs.1]
    exact h
  · exact fun hne => absurd rfl hne

theorem State.movesBy_reply_setStream (code : Code)
    (h : c.state ≠ (σ.stream s).state → T s (σ.stream s).state c.state) :
    Ensures (σ.MovesBy T) ((σ.setStream s c).reply code) := ensures_next (State.movesBy_setStream h)

theorem State.movesBy_noResult_setStream
    (h : c.state ≠ (σ.stream s).state → T s (σ.stream s).state c.state) :
    Ensures (σ.MovesBy T) (σ.setStream s c).noResult := ensures_next (State.movesBy_setStream h)

/-- A command that writes no lifecycle state. -/
theorem State.movesBy_reply_kept (code : Code) (h : c.state = (σ.stream s).state) :
    Ensures (σ.MovesBy T) ((σ.setStream s c).reply code) :=
  State.movesBy_reply_setStream code fun hne => absurd h hne

end

/-! ### Configuration (40_tables_config.md) -/

section
variable (σ : State)

theorem execInit_movesBy (s : Nat) (d : Direction) :
    Ensures (σ.MovesBy (Transition (.init s d) σ)) (execInit s d σ) :=
  ensures_onStream <| ensures_ite_of (fun _ => σ.movesBy_reply _) fun h =>
    State.movesBy_reply_setStream _ fun _ => ⟨rfl, not_not.mp h, rfl⟩

theorem execDestroy_movesBy (s : Nat) : Ensures (σ.MovesBy (Transition (.destroy s) σ)) (execDestroy s σ) :=
  ensures_onStream <| ensures_ite_of (fun _ => σ.movesBy_reply _) fun h => ensures_ite (σ.movesBy_reply _) <|
    State.movesBy_reply_setStream _ fun _ => ⟨rfl, (Context.not_settable_iff _).not_left.mp h, rfl⟩

theorem execSetParams_movesBy (s rate ch ports : Nat) (b w : Bool) :
    Ensures (σ.MovesBy (Transition (.setParams s rate ch ports b w) σ)) (execSetParams s rate ch ports b w σ) := by
  refine ensures_onStream <| ensures_ite_of (fun _ => σ.movesBy_reply _) fun h => ensures_ite (σ.movesBy_reply _) ?_
  cases wireCode rate w with
  | none => exact σ.movesBy_reply _
  | some code =>
    exact ensures_ite (σ.movesBy_reply _) <| ensures_ite (σ.movesBy_reply _) <|
      State.movesBy_reply_setStream _ fun _ => ⟨rfl, (Context.not_settable_iff _).not_left.mp h, rfl⟩

section
variable {T : Nat → LifeState → LifeState → Prop}

theorem execSetPcmPosition_movesBy (s ch slot : Nat) : Ensures (σ.MovesBy T) (execSetPcmPosition s ch slot σ) :=
  ensures_onStream <| ensures_ite (σ.movesBy_reply _) <| ensures_ite (σ.movesBy_reply _) <|
    ensures_ite (σ.movesBy_reply _) <| State.movesBy_reply_kept _ rfl

theorem execSetMidiPosition_movesBy (s slot : Nat) : Ensures (σ.MovesBy T) (execSetMidiPosition s slot σ) :=
  ensures_onStream <| ensures_ite (σ.movesBy_reply _) <| ensures_ite (σ.movesBy_reply _) <|
    State.movesBy_reply_kept _ rfl

theorem execSetPcmFormat_movesBy (s : Nat) (f : SampleFormat) : Ensures (σ.MovesBy T) (execSetPcmFormat s f σ) :=
  ensures_onStream <| ensures_ite (σ.movesBy_reply _) <| ensures_ite (σ.movesBy_reply _) <|
    ensures_ite (σ.movesBy_reply _) <| State.movesBy_reply_kept _ rfl

theorem execSetTransferDelay_movesBy (s ticks : Nat) : Ensures (σ.MovesBy T) (execSetTransferDelay s ticks σ) :=
  ensures_guardRange <| ensures_onStream <| ensures_ite (σ.movesBy_reply _) <| State.movesBy_reply_kept _ rfl

theorem execSetSync_movesBy (m : Nat) (t : Option Nat) : Ensures (σ.MovesBy T) (execSetSync m t σ) := by
  refine ensures_guardRange <| ensures_onStream <| ensures_ite (σ.movesBy_reply _) <|
    ensures_ite (σ.movesBy_reply _) <| ensures_ite (σ.movesBy_reply _) ?_
  cases t with
  | none => exact State.movesBy_reply_kept _ rfl
  | some t =>
    exact ensures_ite (σ.movesBy_reply _) <| ensures_ite (σ.movesBy_reply _) <| ensures_ite (σ.movesBy_reply _) <|
      ensures_ite (σ.movesBy_reply _) <| State.movesBy_reply_kept _ rfl

/-! ### Bindings and STATUS (45_lifecycle_sync.md) -/

theorem execStatus_movesBy (s : Nat) : Ensures (σ.MovesBy T) (execStatus s σ) :=
  ensures_onStream (σ.movesBy_respond _)

theorem execPcmPrepare_movesBy (s : Nat) : Ensures (σ.MovesBy T) (execPcmPrepare s σ) :=
  ensures_onStream <| ensures_ite (σ.movesBy_reply _) <| ensures_ite (σ.movesBy_reply _) <|
    State.movesBy_reply_kept _ rfl

theorem execPcmBind_movesBy (s : Nat) (b : Option Binding) : Ensures (σ.MovesBy T) (execPcmBind s b σ) := by
  refine ensures_guardRange <| ensures_onStream <| ensures_ite (σ.movesBy_reply _) ?_
  cases b with
  | none => exact State.movesBy_reply_kept _ rfl
  | some b => exact ensures_ite (σ.movesBy_reply _) (State.movesBy_reply_kept (σ := σ.allocate) _ rfl)

theorem execPcmPointer_movesBy (s : Nat) : Ensures (σ.MovesBy T) (execPcmPointer s σ) :=
  ensures_onStream <| ensures_ite (σ.movesBy_reply _) (σ.movesBy_respond _)

theorem execMidiBind_movesBy (s p : Nat) (b : Bool) : Ensures (σ.MovesBy T) (execMidiBind s p b σ) :=
  ensures_guardRange <| ensures_onStream <| ensures_ite (σ.movesBy_reply _) <| State.movesBy_reply_kept _ rfl

theorem execMidiPush_movesBy (s p : Nat) (byte : Byte) : Ensures (σ.MovesBy T) (execMidiPush s p byte σ) :=
  ensures_guardRange <| ensures_onStream <| ensures_ite (σ.movesBy_reply _) <| State.movesBy_reply_kept _ rfl

theorem execPeriodNotify_movesBy (s : Nat) : Ensures (σ.MovesBy T) (execPeriodNotify s σ) :=
  ensures_onStream <| ensures_guardAdmitted <| State.movesBy_noResult_setStream fun hne => absurd rfl hne

end

/-! ### Lifecycle (45_lifecycle_sync.md) -/

/-- The seeded stream is Running, and stops where the priming fails (R293). -/
theorem startStream_movesBy {s ch sp node : Nat} {res : Bool} {q : Option Nat}
    (h : (σ.stream s).state = .configured) :
    Ensures (σ.MovesBy (Transition (.start s ch sp node res q) σ))
      (startStream s ch sp node q (σ.stream s) σ) := by
  unfold startStream
  split
  · refine State.movesBy_reply_setStream (σ := σ.allocate) _ fun _ => ⟨rfl, h, ?_⟩
    exact (Context.stopsAtMost_queueEach ..).imp id fun hstop => hstop.2
  · exact ensures_fault _

theorem execStart_movesBy (s ch sp node : Nat) (res : Bool) (q : Option Nat) :
    Ensures (σ.MovesBy (Transition (.start s ch sp node res q) σ)) (execStart s ch sp node res q σ) :=
  ensures_guardRange <| ensures_onStream <| ensures_ite (σ.movesBy_reply _) <|
    ensures_ite_of (fun _ => σ.movesBy_reply _) fun h => ensures_ite (σ.movesBy_reply _) <|
      ensures_ite (σ.movesBy_reply _) (startStream_movesBy σ (not_not.mp h))

theorem execStop_movesBy (s : Nat) : Ensures (σ.MovesBy (Transition (.stop s) σ)) (execStop s σ) :=
  ensures_onStream <| ensures_ite_of (fun _ => σ.movesBy_reply _) fun hpresent =>
    ensures_ite_of (fun _ => σ.movesBy_reply _) fun hset => State.movesBy_reply_setStream _ fun _ =>
      ⟨rfl, (Context.active_iff _).mp (Context.active_of_not_settable hpresent hset), rfl⟩

theorem execBusReset_movesBy : Ensures (σ.MovesBy (Transition .busReset σ)) (execBusReset σ) :=
  ensures_next fun s => by
    rw [State.stream_respond, State.stream_map_busReset, Context.busReset]
    split
    · exact fun _ => ⟨‹_›, rfl⟩
    · exact fun hne => absurd rfl hne

/-- UPDATE leaves a Running stream Running (R299). -/
theorem execUpdate_movesBy (s node : Nat) : Ensures (σ.MovesBy (Transition (.update s node) σ)) (execUpdate s node σ) :=
  ensures_guardRange <| ensures_onStream <| ensures_ite_of (fun _ => σ.movesBy_reply _) fun hpresent =>
    ensures_ite_of (fun _ => σ.movesBy_reply _) fun hset => State.movesBy_reply_setStream _ fun hne =>
      have hactive := (Context.active_iff _).mp (Context.active_of_not_settable hpresent hset)
      ⟨rfl, hactive.resolve_left (Ne.symm hne), rfl⟩

theorem execUpdateFail_movesBy (s : Nat) : Ensures (σ.MovesBy (Transition (.updateFail s) σ)) (execUpdateFail s σ) :=
  ensures_onStream <| ensures_ite (σ.movesBy_reply _) <| ensures_ite (σ.movesBy_reply _) <|
    State.movesBy_reply_setStream _ fun hne => ⟨rfl, (Context.stopsAtMost_fatalStop ..).stopped hne⟩

theorem execStartTimeout_movesBy (s : Nat) :
    Ensures (σ.MovesBy (Transition (.startTimeout s) σ)) (execStartTimeout s σ) :=
  ensures_onStream <| ensures_guardAdmitted <|
    State.movesBy_noResult_setStream fun hne => ⟨rfl, (Context.stopsAtMost_fatalStop ..).stopped hne⟩

/-! ### Completion events (43_transmit.md, 44_receive.md) -/

theorem execTxComplete_movesBy (s cycle count : Nat) (q : Option Nat) :
    Ensures (σ.MovesBy (Transition (.txComplete s cycle count q) σ)) (execTxComplete s cycle count q σ) :=
  ensures_guardRange <| ensures_onStream <| ensures_guardAdmitted <| ensures_ite σ.movesBy_noResult <|
    ensures_guardAccess <|
      State.movesBy_noResult_setStream fun hne => ⟨rfl, (Context.stopsAtMost_txCompleted ..).stopped hne⟩

theorem execRxComplete_movesBy (s cycle : Nat) (batch : List (List Byte)) (q : Option Nat) :
    Ensures (σ.MovesBy (Transition (.rxComplete s cycle batch q) σ)) (execRxComplete s cycle batch q σ) := by
  refine ensures_guardRange <| ensures_onStream <| ensures_guardAdmitted <| ensures_ite σ.movesBy_noResult <|
    ensures_guardAccess <| ensures_next fun s' => ?_
  have hpair := σ.stopsInPair_rxCompleted s batch q
  rw [State.stream_respond]
  intro hne
  refine ⟨?_, (hpair.each s').stopped hne⟩
  by_contra hno
  obtain ⟨hself, hslave⟩ := not_or.mp hno
  exact hne (hpair.others s' hself hslave)

/-! ### The machine -/

/-- Every instruction moves the lifecycle states by its own rows of the table. -/
theorem exec_movesBy (i : Instr) : Ensures (σ.MovesBy (Transition i σ)) (exec i σ) := by
  cases i with
  | init s d => exact execInit_movesBy σ s d
  | destroy s => exact execDestroy_movesBy σ s
  | setParams s rate ch ports b w => exact execSetParams_movesBy σ s rate ch ports b w
  | setPcmPosition s ch slot => exact execSetPcmPosition_movesBy σ s ch slot
  | setMidiPosition s slot => exact execSetMidiPosition_movesBy σ s slot
  | setPcmFormat s f => exact execSetPcmFormat_movesBy σ s f
  | setTransferDelay s ticks => exact execSetTransferDelay_movesBy σ s ticks
  | setSync m t => exact execSetSync_movesBy σ m t
  | start s ch sp node res q => exact execStart_movesBy σ s ch sp node res q
  | stop s => exact execStop_movesBy σ s
  | busReset => exact execBusReset_movesBy σ
  | update s node => exact execUpdate_movesBy σ s node
  | updateFail s => exact execUpdateFail_movesBy σ s
  | startTimeout s => exact execStartTimeout_movesBy σ s
  | status s => exact execStatus_movesBy σ s
  | pcmPrepare s => exact execPcmPrepare_movesBy σ s
  | pcmBind s b => exact execPcmBind_movesBy σ s b
  | pcmPointer s => exact execPcmPointer_movesBy σ s
  | midiBind s p b => exact execMidiBind_movesBy σ s p b
  | midiPush s p byte => exact execMidiPush_movesBy σ s p byte
  | txComplete s cycle count q => exact execTxComplete_movesBy σ s cycle count q
  | rxComplete s cycle batch q => exact execRxComplete_movesBy σ s cycle batch q
  | periodNotify s => exact execPeriodNotify_movesBy σ s
  | cipQ0 | cipQ1 | cipQ1RxMatch | cipQ1NoData | sytNoInfo | sytTimestamp | am824Pcm | am824MidiNoData | am824Midi1
  | am824Midi2 | am824Midi3 => exact σ.movesBy_respond _

end

/-- Settles O54: the transitions of every instruction, stream by stream. -/
theorem onlyTheTableChangesTheState : Obligations.OnlyTheTableChangesTheState :=
  fun i σ τ s e hne => exec_movesBy σ i τ e s hne

end Sys2Proof.Machine
end

section
/-! SUPPORT. An Absent context (60_exceptions.md R342; 70_reset_and_hazards.md R381): the check of the lifecycle state
is the first one of every command but INIT and STATUS, and no event but PERIOD_NOTIFY is admitted without an active stream.
-/

namespace Sys2Proof.Machine

section
variable {σ : State} {s : Nat}

/-! ### Commands -/

theorem Context.not_stopped_of_absent {c : Context} (h : c.state = .absent) :
    ¬ (c.state = .idle ∨ c.state = .configured) := (Context.absent_or_active_iff c).mp (.inl h)

theorem Context.not_active_of_absent {c : Context} (h : c.state = .absent) : ¬ c.active = true :=
  Bool.eq_false_iff.mp (c.active_eq_false_iff.mpr (.inl h))

/-- DESTROY and SET_TRANSFER_DELAY ask for a settable stream. -/
theorem Context.not_settable_of_absent {c : Context} (h : c.state = .absent) : (!c.settable) = true :=
  c.not_settable_iff.mpr (Context.not_stopped_of_absent h)

theorem exec_setSync_of_absent {t : Option Nat} (hs : s < σ.streams.length) (h : (σ.stream s).state = .absent)
    (ht : t.all (fun t => decide (t < σ.streams.length)) = true) :
    exec (.setSync s t) σ = σ.reply .errState :=
  exec_setSync_of_not_free hs ht fun hfree => Context.not_stopped_of_absent h hfree.1

theorem exec_pcmPrepare_of_absent (hs : s < σ.streams.length) (h : (σ.stream s).state = .absent) :
    exec (.pcmPrepare s) σ = σ.reply .errState := (if_pos hs).trans (if_pos h)

theorem exec_pcmBind_of_absent {b : Option Binding} (hs : s < σ.streams.length) (h : (σ.stream s).state = .absent)
    (hb : b.all Binding.inRange = true) : exec (.pcmBind s b) σ = σ.reply .errState :=
  (if_pos hb).trans <| (if_pos hs).trans (if_pos h)

theorem exec_start_of_absent {ch sp node : Nat} (hs : s < σ.streams.length) (h : (σ.stream s).state = .absent)
    (hch : ch ≤ 63) (hsp : sp ≤ 7) (hnode : node ≤ 63) (res : Bool) (q : Option Nat) :
    exec (.start s ch sp node res q) σ = σ.reply .errState := by
  rw [exec_start_of_lt hs hch hsp hnode, if_neg (Context.not_active_of_absent h),
    if_pos fun hc => Context.not_stopped_of_absent h (.inr hc)]

/-! ### Events (R392) -/

theorem exec_txComplete_of_not_active {count : Nat} (hs : s < σ.streams.length) (h : ¬ (σ.stream s).active = true)
    (hcount : count ≤ 48) (cycle : Nat) (q : Option Nat) :
    exec (.txComplete s cycle count q) σ = .refused .notAdmitted := by
  refine (if_pos (decide_eq_true hcount)).trans <| (if_pos hs).trans <| if_neg fun hadmitted => ?_
  obtain ⟨hactive, -, -⟩ := (Context.admitsTx_iff ..).mp hadmitted
  exact h ((Context.active_iff _).mpr hactive)

theorem exec_rxComplete_of_not_active {batch : List (List Byte)} (hs : s < σ.streams.length)
    (h : ¬ (σ.stream s).active = true) (hbatch : batch.length ≤ 48) (cycle : Nat) (q : Option Nat) :
    exec (.rxComplete s cycle batch q) σ = .refused .notAdmitted := by
  refine (if_pos (decide_eq_true hbatch)).trans <| (if_pos hs).trans <| if_neg fun hadmitted => ?_
  obtain ⟨hactive, -, -⟩ := (Context.admitsRx_iff ..).mp hadmitted
  exact h ((Context.active_iff _).mpr hactive)

theorem exec_startTimeout_of_not_active (hs : s < σ.streams.length) (h : ¬ (σ.stream s).active = true) :
    exec (.startTimeout s) σ = .refused .notAdmitted :=
  (exec_startTimeout_of_lt hs).trans <| if_neg fun hadmitted => h ((Context.admitsTimeout_iff _).mp hadmitted).1

end

/-- Settles O8: in each command the check that an Absent context fails comes first, and no event meets its condition. -/
theorem absentContextAnswersErrState : Obligations.AbsentContextAnswersErrState := by
  intro σ s hs h
  have hset := Context.not_settable_of_absent h
  have hstopped := Context.not_stopped_of_absent h
  have hactive := Context.not_active_of_absent h
  have hconfigured : (σ.stream s).state ≠ .configured := fun hc => hstopped (.inr hc)
  refine ⟨?plain, fun rate ch ports b w => exec_setParams_of_not_free hs fun hfree => hstopped hfree.1,
    fun ch slot => (exec_setPcmPosition_of_lt ch slot hs).trans (if_pos hconfigured),
    fun slot => (exec_setMidiPosition_of_lt slot hs).trans (if_pos hconfigured),
    fun f => (exec_setPcmFormat_of_lt f hs).trans (if_pos h),
    fun ticks ht => (exec_setTransferDelay_of_lt ht hs).trans (if_pos hset),
    exec_setSync_of_absent hs h rfl, fun t ht => exec_setSync_of_absent hs h (decide_eq_true ht),
    fun ch hch sp hsp node hnode res q => exec_start_of_absent hs h hch hsp hnode res q,
    fun node hnode => (exec_update_of_lt hnode hs).trans (if_pos h),
    exec_pcmBind_of_absent hs h rfl, fun b hb => exec_pcmBind_of_absent hs h hb,
    fun p hp bound => (exec_midiBind_of_lt hp hs bound).trans (if_pos h),
    fun p hp byte => (exec_midiPush_of_lt hp hs byte).trans (if_pos (.inl h)),
    exec_startTimeout_of_not_active hs hactive,
    fun cycle count q hcount => exec_txComplete_of_not_active hs hactive hcount cycle q,
    fun cycle batch q hbatch => exec_rxComplete_of_not_active hs hactive hbatch cycle q⟩
  simp only [List.forall_mem_cons, List.not_mem_nil, false_imp_iff, implies_true, and_true]
  exact ⟨(exec_destroy_of_lt hs).trans (if_pos hset), (exec_stop_of_lt hs).trans (if_pos h),
    (exec_updateFail_of_lt hs).trans (if_pos h), exec_pcmPrepare_of_absent hs h,
    (exec_pcmPointer_of_lt hs).trans (if_pos h)⟩

end Sys2Proof.Machine
end

section
/-! SUPPORT. The two ways an operation ends: it gives an answer and changes nothing (60_exceptions.md R343), or it
answers neither ERR_STATE nor ERR_PARAM nor ERR_RESOURCE and changes no stream but the one it names and, for RX_COMPLETE, that
stream's slave (R365). -/

namespace Sys2Proof.Machine

/-! ### What an operation may change -/

/-- The codes of a command that did nothing (40_tables_config.md R145; 45_lifecycle_sync.md R293). -/
def Code.refuses : Code → Bool
  | .errState | .errParam | .errResource => true
  | .ok | .errQueue | .errTimeout | .errDisconnect => false

theorem Code.refuses_iff (code : Code) :
    code.refuses = true ↔ code = .errState ∨ code = .errParam ∨ code = .errResource := by
  cases code <;> decide

/-- An instruction may change the stream it names and, if it is RX_COMPLETE, the slave of that stream; BUS_RESET names
no stream and may change all (R365; 45_lifecycle_sync.md R298). -/
def State.Reaches (σ : State) (i : Instr) (s' : Nat) : Prop :=
  ∀ s, targetOf i = some s → s' = s ∨
    (∃ cycle batch q, i = .rxComplete s cycle batch q) ∧ (σ.stream s).syncSlave = some s'

/-- `τ` is made by an instruction that did something: no other stream has changed, and the answer is no refusal. -/
structure State.ChangedBy (σ : State) (i : Instr) (τ : State) : Prop where
  accepted : ∀ code, τ.response = .code code → code.refuses = false
  params : τ.params = σ.params
  inbox : τ.inbox = σ.inbox
  length : τ.streams.length = σ.streams.length
  others : ∀ s', ¬ σ.Reaches i s' → τ.stream s' = σ.stream s'

/-- The two ways an instruction ends. -/
def State.AnsweredBy (σ : State) (i : Instr) (τ : State) : Prop :=
  τ = σ.respond τ.response ∨ σ.ChangedBy i τ

section
variable {σ τ : State} {i : Instr} {s : Nat}

theorem State.ChangedBy.of_onlyStream (hi : targetOf i = some s) (h : σ.OnlyStream s τ)
    (hcode : ∀ code, τ.response = .code code → code.refuses = false) : σ.ChangedBy i τ :=
  ⟨hcode, h.params, h.inbox, h.length, fun s' hs' => h.others s' fun he => hs' fun _ ht =>
    .inl (he.trans (Option.some.inj (hi.symm.trans ht)))⟩

/-- Either way the parameters, the inbox and the streams that are not reached are kept. -/
theorem State.AnsweredBy.frame (h : σ.AnsweredBy i τ) : τ.params = σ.params ∧ τ.inbox = σ.inbox ∧
    τ.streams.length = σ.streams.length ∧ ∀ s', ¬ σ.Reaches i s' → τ.stream s' = σ.stream s' := by
  rcases h with hsame | hchanged
  · rw [hsame]
    exact ⟨rfl, rfl, rfl, fun _ _ => rfl⟩
  · exact ⟨hchanged.params, hchanged.inbox, hchanged.length, hchanged.others⟩

/-! ### The ends of an operation -/

variable (σ)

theorem State.answered_respond (r : Response) : Ensures (σ.AnsweredBy i) (.next (σ.respond r)) :=
  ensures_next (.inl rfl)

theorem State.answered_reply (code : Code) : Ensures (σ.AnsweredBy i) (σ.reply code) := σ.answered_respond _

theorem State.answered_noResult : Ensures (σ.AnsweredBy i) σ.noResult := σ.answered_respond _

theorem State.answered_reply_setStream {code : Code} (hi : targetOf i = some s) (hcode : code.refuses = false)
    (c : Context) : Ensures (σ.AnsweredBy i) ((σ.setStream s c).reply code) :=
  ensures_next <| .inr <| .of_onlyStream hi (σ.onlyStream_setStream s c _) fun _ he => by cases he; exact hcode

theorem State.answered_noResult_setStream (hi : targetOf i = some s) (c : Context) :
    Ensures (σ.AnsweredBy i) (σ.setStream s c).noResult :=
  ensures_next <| .inr <| .of_onlyStream hi (σ.onlyStream_setStream s c _) nofun

/-- START and PCM_BIND take a number for a fresh memory too. -/
theorem State.answered_reply_allocate {code : Code} (hi : targetOf i = some s) (hcode : code.refuses = false)
    (c : Context) : Ensures (σ.AnsweredBy i) ((σ.allocate.setStream s c).reply code) :=
  have honly := σ.allocate.onlyStream_setStream s c (.code code)
  ensures_next <| .inr <| .of_onlyStream hi ⟨honly.params, honly.inbox, honly.length, honly.others⟩ fun _ he => by
    cases he; exact hcode

end

section
variable (σ : State)

/-! ### Configuration (40_tables_config.md) -/

theorem execInit_answered (s : Nat) (d : Direction) : Ensures (σ.AnsweredBy (.init s d)) (execInit s d σ) :=
  ensures_onStream <| ensures_ite (σ.answered_reply _) (σ.answered_reply_setStream rfl rfl _)

theorem execDestroy_answered (s : Nat) : Ensures (σ.AnsweredBy (.destroy s)) (execDestroy s σ) :=
  ensures_onStream <| ensures_ite (σ.answered_reply _) <| ensures_ite (σ.answered_reply _)
    (σ.answered_reply_setStream rfl rfl _)

theorem execSetParams_answered (s rate ch ports : Nat) (b w : Bool) :
    Ensures (σ.AnsweredBy (.setParams s rate ch ports b w)) (execSetParams s rate ch ports b w σ) := by
  refine ensures_onStream <| ensures_ite (σ.answered_reply _) <| ensures_ite (σ.answered_reply _) ?_
  cases wireCode rate w with
  | none => exact σ.answered_reply _
  | some code =>
    exact ensures_ite (σ.answered_reply _) <| ensures_ite (σ.answered_reply _) (σ.answered_reply_setStream rfl rfl _)

theorem execSetPcmPosition_answered (s ch slot : Nat) :
    Ensures (σ.AnsweredBy (.setPcmPosition s ch slot)) (execSetPcmPosition s ch slot σ) :=
  ensures_onStream <| ensures_ite (σ.answered_reply _) <| ensures_ite (σ.answered_reply _) <|
    ensures_ite (σ.answered_reply _) (σ.answered_reply_setStream rfl rfl _)

theorem execSetMidiPosition_answered (s slot : Nat) :
    Ensures (σ.AnsweredBy (.setMidiPosition s slot)) (execSetMidiPosition s slot σ) :=
  ensures_onStream <| ensures_ite (σ.answered_reply _) <| ensures_ite (σ.answered_reply _)
    (σ.answered_reply_setStream rfl rfl _)

theorem execSetPcmFormat_answered (s : Nat) (f : SampleFormat) :
    Ensures (σ.AnsweredBy (.setPcmFormat s f)) (execSetPcmFormat s f σ) :=
  ensures_onStream <| ensures_ite (σ.answered_reply _) <| ensures_ite (σ.answered_reply _) <|
    ensures_ite (σ.answered_reply _) (σ.answered_reply_setStream rfl rfl _)

theorem execSetTransferDelay_answered (s ticks : Nat) :
    Ensures (σ.AnsweredBy (.setTransferDelay s ticks)) (execSetTransferDelay s ticks σ) :=
  ensures_guardRange <| ensures_onStream <| ensures_ite (σ.answered_reply _) (σ.answered_reply_setStream rfl rfl _)

/-- SET_SYNC writes the master only (R143). -/
theorem execSetSync_answered (m : Nat) (t : Option Nat) :
    Ensures (σ.AnsweredBy (.setSync m t)) (execSetSync m t σ) := by
  refine ensures_guardRange <| ensures_onStream <| ensures_ite (σ.answered_reply _) <|
    ensures_ite (σ.answered_reply _) <| ensures_ite (σ.answered_reply _) ?_
  cases t with
  | none => exact σ.answered_reply_setStream rfl rfl _
  | some t =>
    exact ensures_ite (σ.answered_reply _) <| ensures_ite (σ.answered_reply _) <| ensures_ite (σ.answered_reply _) <|
      ensures_ite (σ.answered_reply _) (σ.answered_reply_setStream rfl rfl _)

/-! ### Lifecycle (45_lifecycle_sync.md) -/

/-- Queueing ends in OK or ERR_QUEUE, and neither says that nothing was done (60_exceptions.md R345). -/
theorem Context.queueEach_not_refuses (mk : Context → Descriptor) (q : Option Nat) (n k : Nat) (c : Context) :
    (Context.queueEach mk q n k c).2.refuses = false := by
  obtain ⟨_, _, -, -, ⟨-, -, hfailed⟩ | ⟨-, -, hqueued⟩⟩ := Context.queueEach_spec mk q n k c
  · rw [hfailed]; rfl
  · rw [hqueued]; rfl

/-- What was seeded stays where the priming fails: the answer is ERR_QUEUE then, which is no refusal (R293). -/
theorem startStream_answered (s ch sp node : Nat) (res : Bool) (q : Option Nat) :
    Ensures (σ.AnsweredBy (.start s ch sp node res q)) (startStream s ch sp node q (σ.stream s) σ) := by
  unfold startStream
  split
  · exact σ.answered_reply_allocate rfl (Context.queueEach_not_refuses ..) _
  · exact ensures_fault _

theorem execStart_answered (s ch sp node : Nat) (res : Bool) (q : Option Nat) :
    Ensures (σ.AnsweredBy (.start s ch sp node res q)) (execStart s ch sp node res q σ) :=
  ensures_guardRange <| ensures_onStream <| ensures_ite (σ.answered_reply _) <| ensures_ite (σ.answered_reply _) <|
    ensures_ite (σ.answered_reply _) <| ensures_ite (σ.answered_reply _) (startStream_answered σ s ch sp node res q)

theorem execStop_answered (s : Nat) : Ensures (σ.AnsweredBy (.stop s)) (execStop s σ) :=
  ensures_onStream <| ensures_ite (σ.answered_reply _) <| ensures_ite (σ.answered_reply _)
    (σ.answered_reply_setStream rfl rfl _)

theorem execBusReset_answered : Ensures (σ.AnsweredBy .busReset) (execBusReset σ) :=
  ensures_next <| .inr ⟨nofun, rfl, rfl, List.length_map .., fun _ hs' => absurd nofun hs'⟩

theorem execUpdate_answered (s node : Nat) : Ensures (σ.AnsweredBy (.update s node)) (execUpdate s node σ) :=
  ensures_guardRange <| ensures_onStream <| ensures_ite (σ.answered_reply _) <| ensures_ite (σ.answered_reply _)
    (σ.answered_reply_setStream rfl rfl _)

theorem execUpdateFail_answered (s : Nat) : Ensures (σ.AnsweredBy (.updateFail s)) (execUpdateFail s σ) :=
  ensures_onStream <| ensures_ite (σ.answered_reply _) <| ensures_ite (σ.answered_reply _)
    (σ.answered_reply_setStream rfl rfl _)

theorem execStartTimeout_answered (s : Nat) : Ensures (σ.AnsweredBy (.startTimeout s)) (execStartTimeout s σ) :=
  ensures_onStream <| ensures_guardAdmitted (σ.answered_noResult_setStream rfl _)

theorem execStatus_answered (s : Nat) : Ensures (σ.AnsweredBy (.status s)) (execStatus s σ) :=
  ensures_onStream (σ.answered_respond _)

/-! ### Bindings (45_lifecycle_sync.md) -/

theorem execPcmPrepare_answered (s : Nat) : Ensures (σ.AnsweredBy (.pcmPrepare s)) (execPcmPrepare s σ) :=
  ensures_onStream <| ensures_ite (σ.answered_reply _) <| ensures_ite (σ.answered_reply _)
    (σ.answered_reply_setStream rfl rfl _)

theorem execPcmBind_answered (s : Nat) (b : Option Binding) :
    Ensures (σ.AnsweredBy (.pcmBind s b)) (execPcmBind s b σ) := by
  refine ensures_guardRange <| ensures_onStream <| ensures_ite (σ.answered_reply _) ?_
  cases b with
  | none => exact σ.answered_reply_setStream rfl rfl _
  | some b => exact ensures_ite (σ.answered_reply _) (σ.answered_reply_allocate rfl rfl _)

theorem execPcmPointer_answered (s : Nat) : Ensures (σ.AnsweredBy (.pcmPointer s)) (execPcmPointer s σ) :=
  ensures_onStream <| ensures_ite (σ.answered_reply _) (σ.answered_respond _)

theorem execMidiBind_answered (s p : Nat) (b : Bool) :
    Ensures (σ.AnsweredBy (.midiBind s p b)) (execMidiBind s p b σ) :=
  ensures_guardRange <| ensures_onStream <| ensures_ite (σ.answered_reply _) (σ.answered_reply_setStream rfl rfl _)

theorem execMidiPush_answered (s p : Nat) (byte : Byte) :
    Ensures (σ.AnsweredBy (.midiPush s p byte)) (execMidiPush s p byte σ) :=
  ensures_guardRange <| ensures_onStream <| ensures_ite (σ.answered_reply _) (σ.answered_reply_setStream rfl rfl _)

/-! ### Events (43_transmit.md, 44_receive.md, 45_lifecycle_sync.md) -/

theorem execPeriodNotify_answered (s : Nat) : Ensures (σ.AnsweredBy (.periodNotify s)) (execPeriodNotify s σ) :=
  ensures_onStream <| ensures_guardAdmitted (σ.answered_noResult_setStream rfl _)

theorem execTxComplete_answered (s cycle count : Nat) (q : Option Nat) :
    Ensures (σ.AnsweredBy (.txComplete s cycle count q)) (execTxComplete s cycle count q σ) :=
  ensures_guardRange <| ensures_onStream <| ensures_guardAdmitted <| ensures_ite σ.answered_noResult <|
    ensures_guardAccess (σ.answered_noResult_setStream rfl _)

section
variable {σ} {s s' : Nat} {batch : List (List Byte)}

theorem State.advances_taken (σ : State) (s : Nat) (batch : List (List Byte)) :
    σ.Advances (σ.setStream s (σ.taken s batch).1) :=
  σ.advances_setStream ((σ.stream s).advances_callbacked.trans (Context.advances_intake batch _))

theorem State.advances_rxDelivered (σ : State) (s : Nat) (batch : List (List Byte)) (q : Option Nat) :
    σ.Advances (σ.rxDelivered s batch q).state := by
  have hrun : σ.Advances (σ.deliveryRun s batch q).state :=
    (σ.advances_taken s batch).trans (Delivery.advances_foldl_deliver q s (σ.deliveries s batch)
      { state := σ.setStream s (σ.taken s batch).1, calls := 0, driven := false })
  rw [State.rxDelivered_eq]
  exact hrun.trans (State.advances_setStream _ (.of_kept id rfl))

/-- In every state RX_COMPLETE leaves a stream alone that is neither its own nor the slave of its own: the receiver
keeps its slave throughout, so the deliveries drive and the flush touches no other (44_receive.md R265, R271). -/
theorem State.stream_rxCompleted_unreached (q : Option Nat) (hne : s' ≠ s)
    (hslave : (σ.stream s).syncSlave ≠ some s') : (rxCompleted s batch q σ).stream s' = σ.stream s' := by
  have htaken := ((σ.advances_taken s batch).each s).configuration.syncSlave
  have hdelivered := ((σ.advances_rxDelivered s batch q).each s).configuration.syncSlave
  calc (rxCompleted s batch q σ).stream s'
      = (σ.rxDelivered s batch q).state.stream s' := by
        rw [State.stream_rxCompleted_ne q hne, State.stream_flushSlave_other (hdelivered ▸ hslave)]
    _ = (σ.deliveryRun s batch q).state.stream s' := by
        rw [State.rxDelivered_eq, State.stream_setStream_ne _ _ hne]
    _ = σ.stream s' := by
        rw [State.deliveryRun, Delivery.stream_foldl_deliver_other q _ hne (htaken ▸ hslave),
          State.stream_setStream_ne _ _ hne]

end

/-- What RX_COMPLETE does not reach is neither the stream it names nor that stream's slave. -/
theorem execRxComplete_answered (s cycle : Nat) (batch : List (List Byte)) (q : Option Nat) :
    Ensures (σ.AnsweredBy (.rxComplete s cycle batch q)) (execRxComplete s cycle batch q σ) := by
  refine ensures_guardRange <| ensures_onStream <| ensures_guardAdmitted <| ensures_ite σ.answered_noResult <|
    ensures_guardAccess <| ensures_next <| .inr ?_
  have hblock := (σ.sameBlock_rxCompleted s batch q).respond .none
  refine ⟨nofun, hblock.params, hblock.inbox, hblock.length, fun s' hs' => ?_⟩
  refine State.stream_rxCompleted_unreached q (fun he => hs' ?_) (fun he => hs' ?_)
  · rintro _ ⟨⟩
    exact .inl he
  · rintro _ ⟨⟩
    exact .inr ⟨⟨cycle, batch, q, rfl⟩, he⟩

/-! ### The machine -/

/-- Every instruction ends in one of the two ways. -/
theorem exec_answered (i : Instr) : Ensures (σ.AnsweredBy i) (exec i σ) := by
  cases i with
  | init s d => exact execInit_answered σ s d
  | destroy s => exact execDestroy_answered σ s
  | setParams s rate ch ports b w => exact execSetParams_answered σ s rate ch ports b w
  | setPcmPosition s ch slot => exact execSetPcmPosition_answered σ s ch slot
  | setMidiPosition s slot => exact execSetMidiPosition_answered σ s slot
  | setPcmFormat s f => exact execSetPcmFormat_answered σ s f
  | setTransferDelay s ticks => exact execSetTransferDelay_answered σ s ticks
  | setSync m t => exact execSetSync_answered σ m t
  | start s ch sp node res q => exact execStart_answered σ s ch sp node res q
  | stop s => exact execStop_answered σ s
  | busReset => exact execBusReset_answered σ
  | update s node => exact execUpdate_answered σ s node
  | updateFail s => exact execUpdateFail_answered σ s
  | startTimeout s => exact execStartTimeout_answered σ s
  | status s => exact execStatus_answered σ s
  | pcmPrepare s => exact execPcmPrepare_answered σ s
  | pcmBind s b => exact execPcmBind_answered σ s b
  | pcmPointer s => exact execPcmPointer_answered σ s
  | midiBind s p b => exact execMidiBind_answered σ s p b
  | midiPush s p byte => exact execMidiPush_answered σ s p byte
  | txComplete s cycle count q => exact execTxComplete_answered σ s cycle count q
  | rxComplete s cycle batch q => exact execRxComplete_answered σ s cycle batch q
  | periodNotify s => exact execPeriodNotify_answered σ s
  | cipQ0 | cipQ1 | cipQ1RxMatch | cipQ1NoData | sytNoInfo | sytTimestamp | am824Pcm | am824MidiNoData | am824Midi1
  | am824Midi2 | am824Midi3 => exact σ.answered_respond _

end

/-- Settles O16: an instruction that changed something gives none of these answers. -/
theorem refusedCommandsChangeNothing : Obligations.RefusedCommandsChangeNothing := by
  intro i σ τ code e hresponse hcode
  rcases exec_answered σ i τ e with hsame | hchanged
  · rwa [hresponse] at hsame
  · have hrefuses := code.refuses_iff.mpr hcode
    rw [hchanged.accepted code hresponse] at hrefuses
    cases hrefuses

/-- Settles O56: a stream that is neither the one named nor the slave of an RX_COMPLETE's own is not reached. -/
theorem otherStreamsAreUntouched : Obligations.OtherStreamsAreUntouched := by
  intro i σ τ e
  obtain ⟨hparams, hinbox, hlength, hothers⟩ := (exec_answered σ i τ e).frame
  refine ⟨hparams, hinbox, hlength, fun s s' hs hne hslave => hothers s' fun hreached => ?_⟩
  rcases hreached s hs with hself | ⟨⟨cycle, batch, q, hi⟩, hpair⟩
  · exact hne hself
  · exact hslave cycle batch q hi hpair

end Sys2Proof.Machine
end
